-- ==== Sys2Proof/Word.lean ====
section
/-! DEFINITION. The word and byte types of the engine (00_scope.md R8: REG_W = ADDR_W = 32). -/

namespace Sys2Proof

/-- A host register, a command word or a memory address: 32 bits (R8). -/
abbrev Word := BitVec 32

/-- One byte of the memory M (R60). -/
abbrev Byte := BitVec 8

end Sys2Proof
end

