-- ==== Sys2Proof/Config.lean ====
section
/-! DEFINITION. What is fixed for one engine: the limits of 00_scope.md R8, the type of its OPEN parameters, and the
free values that 60_exceptions.md R326 and
70_reset_and_hazards.md R352 call draws. -/

namespace Sys2Proof

/-- The OPEN parameters of 00_scope.md R8. One engine has one value of each for its whole life. They are held in the
State as constant data, so that a statement about every state holds for every legal value (notes/assumptions/4.md). -/
structure Params where
  /-- REG_BASE, the host address of register 0. -/
  regBase : Nat
  /-- LZ_MAX_CHAIN, the primary cap on candidates examined per position. -/
  lzMaxChain : Nat
  /-- LZ_GOOD_LEN, the "sufficiently long" match length. -/
  lzGoodLen : Nat
  /-- LZ_GOOD_CHAIN, the secondary candidate cap. -/
  lzGoodChain : Nat
  deriving DecidableEq, Repr

/-- The legal ranges of R8: REG_BASE 64-byte aligned, 1 ≤ LZ_MAX_CHAIN, 3 ≤ LZ_GOOD_LEN ≤ 258,
1 ≤ LZ_GOOD_CHAIN ≤ LZ_MAX_CHAIN. -/
abbrev Params.legal (p : Params) : Prop :=
  p.regBase % 64 = 0 ∧ 1 ≤ p.lzMaxChain ∧ 3 ≤ p.lzGoodLen ∧ p.lzGoodLen ≤ 258 ∧
    1 ≤ p.lzGoodChain ∧ p.lzGoodChain ≤ p.lzMaxChain

/-- R8's reference values 4096, 258, 4096. DESIGN CHOICE (log 4), unsafe: REG_BASE, for which R8 gives none, is 0. -/
def Params.reference : Params :=
  { regBase := 0, lzMaxChain := 4096, lzGoodLen := 258, lzGoodChain := 4096 }

namespace Config

/-- REGION_MAX, the largest region in bytes (R8, 20_memory.md R66). -/
def regionMax : Nat := 536870911

/-- The number of bytes of M (20_memory.md R60). -/
def memSize : Nat := 4294967296

/-- BLOCK_MAX, the largest input block (R8). -/
def blockMax : Nat := 131072

/-- WINDOW, the largest back-reference distance (R8). -/
def window : Nat := 32768

/-- MIN_MATCH (R8). -/
def minMatch : Nat := 3

/-- MAX_MATCH (R8). -/
def maxMatch : Nat := 258

/-- LMAX_LL and LMAX_D (R8). -/
def maxCodeLen : Nat := 15

/-- LMAX_CL (R8). -/
def maxClCodeLen : Nat := 7

/-- NSYM_MAX (R8). -/
def nsymMax : Nat := 288

/-- FREE VALUE (70_reset_and_hazards.md R352): the byte of M that address `a` holds at power-on, any value. -/
opaque powerOnByte : Nat → Byte

/-- FREE VALUE (60_exceptions.md R326): the cursor that the k-th failed COMPRESS or DECOMPRESS leaves, any 32-bit value. -/
opaque freeWord : Nat → Word

/-- FREE VALUE (60_exceptions.md R326): destination byte i that the k-th failed COMPRESS or DECOMPRESS leaves, any value. -/
opaque freeByte : Nat → Nat → Byte

end Config

end Sys2Proof
end

