-- ==== Sys2Proof/Machine/State.lean ====
section
/-! DEFINITION. The state of the engine (10_state.md, 70_reset_and_hazards.md R350), the events its agents can bring, and
why a step can stop. -/

namespace Sys2Proof.Machine

/-- The four errors a command can end in (60_exceptions.md R320). ERRCODE values 5 to 7 are never written (R26), so the
type leaves them out. -/
inductive CmdError where
  | outOfRange
  | corruptData
  | truncated
  | illegalCommand
  deriving DecidableEq, Repr

/-- The memory M (20_memory.md R60): pairs of an address and its byte, addresses strictly rising
(`Memory.wf`). An address is listed once a step has written it; until then it reads as its power-on draw. -/
abbrev Memory := List Host.Cell

/-- One entry of a decode view: the code of length `len` and value `code` stands for symbol `sym` (42_huffman.md R188). -/
structure CodeEntry where
  len : Nat
  code : Nat
  sym : Nat
  deriving DecidableEq, Repr

/-- The decode view of a length list (42_huffman.md R188): its map, its least and its greatest length. -/
structure DecodeView where
  entries : List CodeEntry
  minLen : Nat
  maxLen : Nat
  deriving DecidableEq, Repr

/-- The state of the decoder FSM (45_deflate_decode.md R275) between two stream symbols. -/
inductive Phase where
  /-- The next bits are a block header (R264). -/
  | header
  /-- The next symbol is one of the code-length sequence (R273): `nLit` literal/length lengths are sent first, `total`
  lengths in all, `seq` are known so far, and `ct` decodes them. -/
  | lengths (nLit total : Nat) (ct : DecodeView) (seq : List Nat)
  /-- The next symbol is a literal/length symbol (R276). -/
  | data (lt dt : DecodeView)
  /-- The next symbol is the distance symbol of a match of `length` bytes (R278). -/
  | distance (lt dt : DecodeView) (length : Nat)
  deriving DecidableEq, Repr

/-- The working state of a running DECOMPRESS (10_state.md R38, 45_deflate_decode.md R260). -/
structure Decoder where
  /-- The bytes produced so far. -/
  out : List Byte
  /-- BFINAL of the current block. -/
  final : Bool
  phase : Phase
  deriving DecidableEq, Repr

/-- What the host can do in one step (20_memory.md R74): reach a register by host address and access width in bytes, or
reach one byte of M. -/
inductive HostOp where
  | readReg (addr width : Nat)
  | writeReg (addr width : Nat) (v : Word)
  | readMem (a : Word)
  | writeMem (a : Word) (b : Byte)
  deriving DecidableEq, Repr

/-- One entry of the order of the agents' steps (20_memory.md R74, 46_control.md R301): the engine's turn, a host step,
or the reset input `rst` (70_reset_and_hazards.md R350). -/
inductive Event where
  | engine
  | host (op : HostOp)
  | rst
  deriving DecidableEq, Repr

/-- The 16 words of the register file (10_state.md R23). -/
inductive Reg where
  | ctrl | status | cmd | errcode | srcAddr | srcLen | dstAddr | dstCap
  | outLen | brPos | bwPos | value | result | nsym | reserved | id
  deriving DecidableEq, Repr

structure State where
  /-- The OPEN parameters (00_scope.md R8): constant data, which no step writes (log 4). -/
  params : Params
  /-- CTRL.IRQ_EN (10_state.md R24). -/
  irqEn : Bool
  /-- STATUS.DONE (10_state.md R25). -/
  done : Bool
  /-- ERRCODE (10_state.md R26); `none` is code 0. -/
  errcode : Option CmdError
  /-- SRC_ADDR, SRC_LEN, DST_ADDR, DST_CAP (10_state.md R27). -/
  srcAddr : Word
  srcLen : Word
  dstAddr : Word
  dstCap : Word
  /-- OUT_LEN (10_state.md R29). -/
  outLen : Word
  /-- BR_POS, the reader cursor br.pos (10_state.md R32). -/
  brPos : Word
  /-- BW_POS, the writer cursor bw.pos (10_state.md R33). -/
  bwPos : Word
  /-- VALUE (10_state.md R28). -/
  value : Word
  /-- RESULT (10_state.md R30). -/
  result : Word
  /-- NSYM (10_state.md R28). -/
  nsym : Word
  /-- The latched command word (46_control.md R300); it holds one exactly while BUSY = 1 (log 8). -/
  pending : Option Word
  /-- M (20_memory.md R60). -/
  mem : Memory
  /-- The working state of a running DECOMPRESS (10_state.md R38); none in every state another agent can see (log 9). -/
  work : Option Decoder
  /-- The model's own: the agents' steps still to come, the next one first (log 5). -/
  inputs : List Event
  /-- The model's own: what the host's last read returned (log 7). -/
  busData : Word
  /-- The model's own: how many failed COMPRESS and DECOMPRESS commands have drawn free values (log 2). -/
  draws : Nat
  deriving DecidableEq, Repr

/-- The machine right after reset (70_reset_and_hazards.md R350). M lists nothing, every byte its power-on draw (R352, log 1), and the model's own
fields hold the values of logs 2, 4, 5 and 7. -/
def State.reset : State :=
  { params := Params.reference
    irqEn := false
    done := false
    errcode := none
    srcAddr := 0#32
    srcLen := 0#32
    dstAddr := 0#32
    dstCap := 0#32
    outLen := 0#32
    brPos := 0#32
    bwPos := 0#32
    value := 0#32
    result := 0#32
    nsym := 0#32
    pending := none
    mem := []
    work := none
    inputs := []
    busData := 0#32
    draws := 0 }

/-- Why the machine stops with a fault. -/
inductive Fault where
  /-- A host access to a byte of a region of the accepted command before its Run (70_reset_and_hazards.md R360). Raised
  by `hostStep`. Safe: R360 asks for it. -/
  | hazard
  /-- The decoder took more symbols than the source region has bits. Raised by `runStream` only, and never reached
  (R366): each symbol reads at least one bit (log 15). Safe. -/
  | runDidNotEnd
  deriving DecidableEq, Repr

/-- Why a step has no meaning. -/
inductive Refusal where
  /-- An instruction that has no meaning yet. Raised by `exec` only. Safe. -/
  | notModelled (mnemonic : String)
  /-- An access inside the register window that is not an aligned 32-bit one (60_exceptions.md R336). Raised by
  `hostStep`. Safe: R336 asks for it. -/
  | registerAccess
  /-- A register access outside the register window: it does not reach the engine (60_exceptions.md R336, log 11). Raised
  by `hostStep`. Safe. -/
  | outsideWindow
  /-- A stream symbol where the decoder FSM is not in the state that reads it (10_state.md R38, log 9). Raised by the
  meanings of the stream symbols; no run of a command reaches it. Safe. -/
  | noStreamContext
  deriving DecidableEq, Repr

/-- What a step of this machine answers. -/
abbrev Result := Host.Outcome State Fault Refusal

end Sys2Proof.Machine
end

