-- ==== Sys2Proof/Machine/Ops.lean ====
section
/-! DEFINITION. The named operations over memory and the command lifecycle: accepting a command, ending it, and ending it
in error, which is what this engine has in place of taking an exception (60_exceptions.md R325, R326, R329). -/

namespace Sys2Proof.Machine

/-- What an address `a` of M that is not listed reads as: no step has written it since power-on, so it holds its power-on
byte, which 70_reset_and_hazards.md R352 makes a draw (log 1). -/
def Memory.unlisted (a : Nat) : Byte := Config.powerOnByte a

/-- The byte at address `x`, where an address that is not listed reads as `draw` says. -/
def Memory.readWith (draw : Nat → Byte) : Memory → Nat → Byte
  | [], x => draw x
  | (a, b) :: m, x => if a = x then b else Memory.readWith draw m x

/-- The byte at address `x`. -/
def Memory.read (m : Memory) (x : Nat) : Byte := m.readWith Memory.unlisted x

/-- `m` with the byte at `x` made `v`, in canonical form: `x` is listed from now on, whatever `v` is, since no run can tell
whether a byte equals its power-on draw. -/
def Memory.write : Memory → Nat → Byte → Memory
  | [], x, v => [(x, v)]
  | (a, b) :: m, x, v =>
    if x < a then (x, v) :: (a, b) :: m
    else if x = a then (x, v) :: m
    else (a, b) :: Memory.write m x v

/-- Every listed address is at least `low` and below 2^32, and they rise strictly. No entry can be equal to what an
unlisted address reads as, which is a draw: two memories in this form that read alike under every draw are the same
list (`Memory.eq_of_readWith`). -/
def Memory.wfFrom : Nat → Memory → Bool
  | _, [] => true
  | low, (a, _) :: m => decide (low ≤ a) && decide (a < Config.memSize) && Memory.wfFrom (a + 1) m

/-- The canonical form of the memory. -/
def Memory.wf (m : Memory) : Bool := Memory.wfFrom 0 m

/-- MemRead(a, 1) (00_scope.md R12). -/
def State.readMem (s : State) (a : Word) : Byte := s.mem.read a.toNat

/-- MemWrite(a, 1, b) (00_scope.md R12). -/
def State.writeMem (s : State) (a : Word) (b : Byte) : State := { s with mem := s.mem.write a.toNat b }

/-- The address of byte `i` of the source region (20_memory.md R62). -/
def State.srcByteAddr (s : State) (i : Nat) : Word := s.srcAddr + BitVec.ofNat 32 i

/-- The address of byte `i` of the destination region (20_memory.md R62). -/
def State.dstByteAddr (s : State) (i : Nat) : Word := s.dstAddr + BitVec.ofNat 32 i

/-- SrcByte (20_memory.md R63). -/
def State.srcByte (s : State) (i : Nat) : Byte := s.readMem (s.srcByteAddr i)

/-- DstByteRead (20_memory.md R63). -/
def State.dstByteRead (s : State) (i : Nat) : Byte := s.readMem (s.dstByteAddr i)

/-- DstByteWrite (20_memory.md R63). -/
def State.dstByteWrite (s : State) (i : Nat) (b : Byte) : State := s.writeMem (s.dstByteAddr i) b

/-- STATUS.BUSY: 1 exactly while a command word is latched (46_control.md R300, R301; log 8). -/
def State.busy (s : State) : Bool := s.pending.isSome

/-- OnCmdWrite (46_control.md R300): the word is latched, which sets BUSY, and DONE becomes 0. -/
def State.accept (w : Word) (s : State) : State := { s with done := false, pending := some w }

/-- The end of Run (46_control.md R301): ERRCODE is written, DONE becomes 1 and BUSY 0, the latch and the working state
of the command hold nothing any more. -/
def State.complete (e : Option CmdError) (s : State) : State :=
  { s with errcode := e, done := true, pending := none, work := none }

/-- Ending a command in error (60_exceptions.md R325, R326; 46_control.md R301): OUT_LEN becomes 0, the rest of the state
`s` the command started from stays, and the command ends with its error code. -/
def State.raise (e : CmdError) (s : State) : State := State.complete (some e) { s with outLen := 0#32 }

/-- The first `n` bytes from `base` drawn anew, the `k`-th time (60_exceptions.md R326). -/
def Memory.drawBytes (k : Nat) (base : Word) : Nat → Memory → Memory
  | 0, m => m
  | n + 1, m =>
    Memory.write (Memory.drawBytes k base n m) (base + BitVec.ofNat 32 n).toNat (Config.freeByte k n)

/-- The memory after a failed COMPRESS or DECOMPRESS (60_exceptions.md R326): every byte of the destination region is a
draw. DEDUCED (log 3), unsafe: an IllegalCommand comes from the region check, before the first write, so it leaves M as
it was (R325, 95_test_vectors.md V-ENC-21). -/
def State.drawnMem (e : CmdError) (s : State) : Memory :=
  match e with
  | .illegalCommand => s.mem
  | .outOfRange | .corruptData | .truncated => Memory.drawBytes s.draws s.dstAddr s.dstCap.toNat s.mem

/-- Ending COMPRESS in error: BW_POS and the destination bytes are draws (60_exceptions.md R326). -/
def State.raiseCompress (e : CmdError) (s : State) : State :=
  State.raise e { s with mem := s.drawnMem e, bwPos := Config.freeWord s.draws, draws := s.draws + 1 }

/-- Ending DECOMPRESS in error: BR_POS and the destination bytes are draws (60_exceptions.md R326). -/
def State.raiseDecompress (e : CmdError) (s : State) : State :=
  State.raise e { s with mem := s.drawnMem e, brPos := Config.freeWord s.draws, draws := s.draws + 1 }

/-- Run's two ways to end (46_control.md R301), for a command that starts in `s`: its rule's result completes without
error, or `onError` ends it. -/
def State.conclude (s : State) (onError : CmdError → State → State) (r : Except CmdError State) : Result :=
  match r with
  | .ok s' => .next (s'.complete none)
  | .error e => .next (onError e s)

/-- The host's return from an error, and from any completion (60_exceptions.md R330): DONE is cleared. -/
def State.clearDone (s : State) : State := { s with done := false }

end Sys2Proof.Machine
end

