-- ==== Sys2Proof/Machine/Flags.lean ====
section
/-! DEFINITION. The status flags, the words the status registers read as, and the interrupt output. -/

namespace Sys2Proof.Machine

/-- The codes of 60_exceptions.md R320. -/
def CmdError.code : CmdError → Nat
  | .outOfRange => 1
  | .corruptData => 2
  | .truncated => 3
  | .illegalCommand => 4

/-- The word ERRCODE reads as (10_state.md R26). -/
def State.errWord (s : State) : Word :=
  match s.errcode with
  | none => 0#32
  | some e => BitVec.ofNat 32 e.code

/-- The word CTRL reads as (10_state.md R24). -/
def State.ctrlWord (s : State) : Word := if s.irqEn then 1#32 else 0#32

/-- STATUS.ERR: `x[ERRCODE] != 0` (10_state.md R25). -/
def State.errFlag (s : State) : Bool := s.errWord != 0#32

/-- The number of bits of the source region, the reader's bound (40_bitstream.md R146). -/
def State.srcBits (s : State) : Nat := 8 * s.srcLen.toNat

/-- The number of bits of the destination region, the writer's bound (40_bitstream.md R140). -/
def State.dstBits (s : State) : Nat := 8 * s.dstCap.toNat

/-- STATUS.BR_END: `x[BR_POS] >= 8 * x[SRC_LEN]` (10_state.md R25). -/
def State.brEnd (s : State) : Bool := decide (s.srcBits ≤ s.brPos.toNat)

/-- STATUS.BW_END: `x[BW_POS] >= 8 * x[DST_CAP]` (10_state.md R25). -/
def State.bwEnd (s : State) : Bool := decide (s.dstBits ≤ s.bwPos.toNat)

/-- The word STATUS reads as: BUSY, DONE, ERR, BR_END, BW_END from bit 0 up, the rest 0 (10_state.md R25). -/
def State.statusWord (s : State) : Word :=
  BitVec.ofNat 32 (s.busy.toNat + 2 * s.done.toNat + 4 * s.errFlag.toNat + 8 * s.brEnd.toNat + 16 * s.bwEnd.toNat)

/-- The level interrupt output: `x[STATUS].DONE and x[CTRL].IRQ_EN` (60_exceptions.md R332). -/
def State.irq (s : State) : Bool := s.done && s.irqEn

end Sys2Proof.Machine
end

