-- ==== Sys2Proof/Machine/Operands.lean ====
section
/-! DEFINITION. The operand forms of the commands: the register file, the regions and their checks, the bytes and the
32-bit records of a region. -/

namespace Sys2Proof.Machine

/-- The registers in the order of their offsets 0x00, 0x04, ..., 0x3C (10_state.md R23). -/
def Reg.all : List Reg :=
  [.ctrl, .status, .cmd, .errcode, .srcAddr, .srcLen, .dstAddr, .dstCap,
   .outLen, .brPos, .bwPos, .value, .result, .nsym, .reserved, .id]

/-- What a read of a register returns (10_state.md R23, R31): CMD and the reserved word read 0, ID reads 1. -/
def State.readReg (s : State) : Reg → Word
  | .ctrl => s.ctrlWord
  | .status => s.statusWord
  | .cmd => 0#32
  | .errcode => s.errWord
  | .srcAddr => s.srcAddr
  | .srcLen => s.srcLen
  | .dstAddr => s.dstAddr
  | .dstCap => s.dstCap
  | .outLen => s.outLen
  | .brPos => s.brPos
  | .bwPos => s.bwPos
  | .value => s.value
  | .result => s.result
  | .nsym => s.nsym
  | .reserved => 0#32
  | .id => 1#32

/-- A write to a register while BUSY = 0 (10_state.md R23 to R31): CTRL keeps bit 0, a 1 in STATUS bit 1 clears DONE,
CMD starts a command, and a write to a read-only register is ignored. -/
def State.writeIdleReg (s : State) (r : Reg) (v : Word) : State :=
  match r with
  | .ctrl => { s with irqEn := v.getLsbD 0 }
  | .status => if v.getLsbD 1 then s.clearDone else s
  | .cmd => s.accept v
  | .srcAddr => { s with srcAddr := v }
  | .srcLen => { s with srcLen := v }
  | .dstAddr => { s with dstAddr := v }
  | .dstCap => { s with dstCap := v }
  | .brPos => { s with brPos := v }
  | .bwPos => { s with bwPos := v }
  | .value => { s with value := v }
  | .nsym => { s with nsym := v }
  | .errcode | .outLen | .result | .reserved | .id => s

/-- A host write to a register; it is dropped while BUSY = 1 (46_control.md R302). -/
def State.writeReg (s : State) (r : Reg) (v : Word) : State :=
  if s.busy then s else s.writeIdleReg r v

/-- `start + length <= 2^32` and `length <= REGION_MAX` (20_memory.md R66, checks 1 and 2). -/
def regionFits (start length : Word) : Bool :=
  decide (length.toNat ≤ Config.regionMax) && decide (start.toNat + length.toNat ≤ Config.memSize)

/-- Address `a` is one of the `length` bytes from `start` (20_memory.md R62). -/
def inRegion (start length : Word) (a : Nat) : Bool :=
  decide (start.toNat ≤ a) && decide (a < start.toNat + length.toNat)

/-- R66's overlap: each region has at least one byte, and each starts before the other ends. -/
def State.regionsOverlap (s : State) : Bool :=
  decide (0 < s.srcLen.toNat) && decide (0 < s.dstCap.toNat) &&
    decide (s.srcAddr.toNat < s.dstAddr.toNat + s.dstCap.toNat) &&
    decide (s.dstAddr.toNat < s.srcAddr.toNat + s.srcLen.toNat)

/-- The source region passes R66. -/
def State.srcRegionOk (s : State) : Bool := regionFits s.srcAddr s.srcLen

/-- The destination region passes R66. -/
def State.dstRegionOk (s : State) : Bool := regionFits s.dstAddr s.dstCap

/-- Both regions pass R66 and do not overlap. -/
def State.bothRegionsOk (s : State) : Bool := s.srcRegionOk && s.dstRegionOk && !s.regionsOverlap

/-- A check of a command's rule: when it fails the command raises `e`. -/
def require (ok : Bool) (e : CmdError) : Except CmdError Unit := if ok then .ok () else .error e

/-- CheckRegions(src) (20_memory.md R66). -/
def State.checkSrc (s : State) : Except CmdError Unit := require s.srcRegionOk .illegalCommand

/-- CheckRegions(dst) (20_memory.md R66). -/
def State.checkDst (s : State) : Except CmdError Unit := require s.dstRegionOk .illegalCommand

/-- CheckRegions(src, dst) (20_memory.md R66). -/
def State.checkBoth (s : State) : Except CmdError Unit := require s.bothRegionsOk .illegalCommand

/-- `[SrcByte(i) for i in 0 .. x[SRC_LEN]-1]`. -/
def State.srcBytes (s : State) : List Byte := (List.range s.srcLen.toNat).map s.srcByte

/-- SrcWord(k) (20_memory.md R63): four bytes, little-endian. -/
def State.srcWord (s : State) (k : Nat) : Nat :=
  (s.srcByte (4 * k)).toNat + (s.srcByte (4 * k + 1)).toNat * 256 +
    (s.srcByte (4 * k + 2)).toNat * 65536 + (s.srcByte (4 * k + 3)).toNat * 16777216

/-- DstWord(k, v) (20_memory.md R63): four bytes, little-endian. -/
def State.dstWord (s : State) (k : Nat) (v : Word) : State :=
  (((s.dstByteWrite (4 * k) (v.extractLsb' 0 8)).dstByteWrite (4 * k + 1) (v.extractLsb' 8 8)).dstByteWrite
    (4 * k + 2) (v.extractLsb' 16 8)).dstByteWrite (4 * k + 3) (v.extractLsb' 24 8)

/-- The records `ws` written from record `k` on. -/
def State.dstWords : Nat → List Word → State → State
  | _, [], s => s
  | k, w :: ws, s => State.dstWords (k + 1) ws (s.dstWord k w)

/-- `x[VALUE][n-1:0]` (10_state.md R28). -/
def State.valueBits (s : State) (n : Nat) : Nat := s.value.toNat % 2 ^ n

end Sys2Proof.Machine
end

