-- ==== Sys2Proof/Machine/BitStream.lean ====
section
/-! DEFINITION. The bit-stream primitives of 40_bitstream.md section 1: the writer on the destination region and BW_POS,
the reader on the source region and BR_POS. -/

namespace Sys2Proof.Machine

/-- The low `n` bits of `v`, bit 0 first. -/
def bitsLsb : Nat → Nat → List Bool
  | 0, _ => []
  | n + 1, v => (v % 2 == 1) :: bitsLsb n (v / 2)

/-- The low `n` bits of `v`, bit n-1 first. -/
def bitsMsb (n v : Nat) : List Bool := (bitsLsb n v).reverse

/-- `b` with bit `k` made `v` (40_bitstream.md R141). -/
def setBit (b : Byte) (k : Nat) (v : Bool) : Byte :=
  (b &&& ~~~(1#8 <<< k)) ||| (if v then 1#8 <<< k else 0#8)

/-- PutBit (R141). -/
def State.putBit (s : State) (b : Bool) : State :=
  let p := s.bwPos.toNat
  let old := s.dstByteRead (p / 8)
  { s.dstByteWrite (p / 8) (setBit old (p % 8) b) with bwPos := s.bwPos + 1#32 }

/-- PutBit for each bit in turn. -/
def State.putBits : List Bool → State → State
  | [], s => s
  | b :: bs, s => State.putBits bs (s.putBit b)

/-- Every write primitive checks its whole width before it writes a bit (R142). -/
def State.writeBits (s : State) (bits : List Bool) : Except CmdError State :=
  if s.bwPos.toNat + bits.length > s.dstBits then .error .outOfRange else .ok (State.putBits bits s)

/-- WriteRange (R143): the low `n` bits of `v`, LSB-first. -/
def State.writeRange (s : State) (v n : Nat) : Except CmdError State := s.writeBits (bitsLsb n v)

/-- WriteRangeCoded (R144): a BitCode, MSB-first. -/
def State.writeRangeCoded (s : State) (value length : Nat) : Except CmdError State :=
  s.writeBits (bitsMsb length value)

/-- AlignWriter (R145): 0 bits up to the next byte boundary. -/
def State.alignWriter (s : State) : Except CmdError State := s.writeRange 0 ((8 - s.bwPos.toNat % 8) % 8)

/-- Bit `p` of the source region (10_state.md R32). -/
def State.srcBit (s : State) (p : Nat) : Bool := (s.srcByte (p / 8)).getLsbD (p % 8)

/-- The source bits at positions `p`, `p + 1`, ..., `p + n - 1`. -/
def State.srcBitList (s : State) (p : Nat) : Nat → List Bool
  | 0 => []
  | n + 1 => s.srcBit p :: State.srcBitList s (p + 1) n

/-- The value of bits read LSB-first (R147). -/
def natOfLsb : List Bool → Nat
  | [] => 0
  | b :: bs => b.toNat + 2 * natOfLsb bs

/-- The value of bits read MSB-first, after the bits in `acc` (R148). -/
def natOfMsb (acc : Nat) : List Bool → Nat
  | [] => acc
  | b :: bs => natOfMsb (2 * acc + b.toNat) bs

/-- The next `n` source bits with BR_POS past them; a read past the bound raises `eof` and moves nothing (R146, R147). -/
def State.readBits (s : State) (n : Nat) (eof : CmdError) : Except CmdError (List Bool × State) :=
  if s.brPos.toNat + n > s.srcBits then .error eof
  else .ok (s.srcBitList s.brPos.toNat n, { s with brPos := s.brPos + BitVec.ofNat 32 n })

/-- ReadRange (R147), LSB-first. -/
def State.readRange (s : State) (n : Nat) (eof : CmdError) : Except CmdError (Nat × State) :=
  match s.readBits n eof with
  | .ok (bits, s') => .ok (natOfLsb bits, s')
  | .error e => .error e

/-- ReadRangeCoded (R148), MSB-first. -/
def State.readRangeCoded (s : State) (n : Nat) (eof : CmdError) : Except CmdError (Nat × State) :=
  match s.readBits n eof with
  | .ok (bits, s') => .ok (natOfMsb 0 bits, s')
  | .error e => .error e

/-- AlignReader (R149): the next byte boundary; the skipped bits are not examined. -/
def State.alignReader (s : State) (eof : CmdError) : Except CmdError State :=
  let p := (s.brPos.toNat + 7) / 8 * 8
  if p > s.srcBits then .error eof else .ok { s with brPos := BitVec.ofNat 32 p }

end Sys2Proof.Machine
end

