-- ==== Sys2Proof/Machine/BitReader.lean ====
section
/-! DEFINITION. The bit-stream reader's commands (40_bitstream.md R155 to R158). -/

namespace Sys2Proof.Machine

/-- `x[RESULT] <- zext_32(v)` and `x[OUT_LEN] <- 0` (R155 to R157). -/
def State.setReadResult (s : State) (v : Nat) : State := { s with result := BitVec.ofNat 32 v, outLen := 0#32 }

/-- BR_READ (R156); BR_READ_BIT reads one bit (R155). -/
def State.brRead (s : State) (n : Nat) : Except CmdError State := do
  s.checkSrc
  let (v, s) ← s.readRange n .outOfRange
  return s.setReadResult v

/-- BR_READ_CODED (R157). -/
def State.brReadCoded (s : State) (n : Nat) : Except CmdError State := do
  s.checkSrc
  let (v, s) ← s.readRangeCoded n .outOfRange
  return s.setReadResult v

/-- BR_ALIGN (R158). -/
def State.brAlign (s : State) : Except CmdError State := do
  s.checkSrc
  let s ← s.alignReader .outOfRange
  return { s with outLen := 0#32 }

/-- BR_READ_BIT (R155). -/
def execBrReadBit (s : State) : Result := s.conclude State.raise (s.brRead 1)

/-- BR_READ (R156). -/
def execBrRead (n : BitVec 5) (s : State) : Result := s.conclude State.raise (s.brRead n.toNat)

/-- BR_READ_CODED (R157). -/
def execBrReadCoded (n : BitVec 5) (s : State) : Result := s.conclude State.raise (s.brReadCoded n.toNat)

/-- BR_ALIGN (R158). -/
def execBrAlign (s : State) : Result := s.conclude State.raise s.brAlign

end Sys2Proof.Machine
end

