-- ==== Sys2Proof/Machine/BitWriter.lean ====
section
/-! DEFINITION. The bit-stream writer's commands (40_bitstream.md R150 to R152). -/

namespace Sys2Proof.Machine

/-- `x[OUT_LEN] <- (bw.pos + 7) div 8` (R150, R151). -/
def State.setOutToWriter (s : State) : State := { s with outLen := BitVec.ofNat 32 ((s.bwPos.toNat + 7) / 8) }

/-- BW_WRITE (R150). -/
def State.bwWrite (s : State) (n : Nat) : Except CmdError State := do
  s.checkDst
  let s ← s.writeRange (s.valueBits n) n
  return s.setOutToWriter

/-- BW_WRITE_CODED (R151). -/
def State.bwWriteCoded (s : State) (n : Nat) : Except CmdError State := do
  s.checkDst
  let s ← s.writeRangeCoded (s.valueBits n) n
  return s.setOutToWriter

/-- BW_ALIGN (R152). -/
def State.bwAlign (s : State) : Except CmdError State := do
  s.checkDst
  let s ← s.alignWriter
  return { s with outLen := BitVec.ofNat 32 (s.bwPos.toNat / 8) }

/-- BW_WRITE (R150). -/
def execBwWrite (n : BitVec 5) (s : State) : Result := s.conclude State.raise (s.bwWrite n.toNat)

/-- BW_WRITE_CODED (R151). -/
def execBwWriteCoded (n : BitVec 5) (s : State) : Result := s.conclude State.raise (s.bwWriteCoded n.toNat)

/-- BW_ALIGN (R152). -/
def execBwAlign (s : State) : Result := s.conclude State.raise s.bwAlign

end Sys2Proof.Machine
end

