-- ==== Sys2Proof/Machine/Huffman.lean ====
section
/-! DEFINITION. The canonical Huffman builder (42_huffman.md): package-merge, canonical codes and the two views. -/

namespace Sys2Proof.Machine

/-- A package (42_huffman.md R181): its weight and its symbols, which may repeat. -/
structure Package where
  weight : Nat
  syms : List Nat
  deriving DecidableEq, Repr

/-- The least symbol of a package (R181). -/
def Package.minSym (p : Package) : Nat := p.syms.foldl min (p.syms.headD 0)

/-- `key(p) <= key(q)` (R181): weight, then number of symbols, then least symbol. -/
def Package.keyLe (p q : Package) : Bool :=
  if p.weight = q.weight then
    if p.syms.length = q.syms.length then decide (p.minSym ≤ q.minSym)
    else decide (p.syms.length < q.syms.length)
  else decide (p.weight < q.weight)

/-- `p` put before the first package of a sorted list whose key is not below its own. -/
def insertPackage (p : Package) : List Package → List Package
  | [] => [p]
  | q :: qs => if p.keyLe q then p :: q :: qs else q :: insertPackage p qs

/-- stable_sort by key (00_scope.md R11, R181): of two equal keys the earlier stays first. -/
def sortPackages : List Package → List Package
  | [] => []
  | p :: ps => insertPackage p (sortPackages ps)

/-- One package for each used symbol, in ascending order of the symbol, the first symbol being `s` (R180). -/
def leafPackages (s : Nat) : List Nat → List Package
  | [] => []
  | f :: fs => if f > 0 then ⟨f, [s]⟩ :: leafPackages (s + 1) fs else leafPackages (s + 1) fs

/-- The packages of a round paired two at a time; of an odd number the last is dropped (R182). -/
def pairPackages : List Package → List Package
  | p :: q :: rest => ⟨p.weight + q.weight, p.syms ++ q.syms⟩ :: pairPackages rest
  | _ => []

/-- `n` further rounds over the list of a round (R182). -/
def packageRounds (leaves : List Package) : Nat → List Package → List Package
  | 0, list => list
  | n + 1, list => packageRounds leaves n (sortPackages (pairPackages list ++ leaves))

/-- The number of symbols of the alphabet that occur (R180). -/
def usedSymbols (freq : List Nat) : Nat := (freq.filter (fun f => decide (f > 0))).length

/-- PackageMerge (R182 to R184): the code length of each symbol of the alphabet. -/
def packageMerge (freq : List Nat) (limit : Nat) : List Nat :=
  let leaves := sortPackages (leafPackages 0 freq)
  match leaves with
  | [] => freq.map (fun _ => 0)
  | [leaf] => (List.range freq.length).map (fun s => if leaf.syms.contains s then 1 else 0)
  | _ =>
    let selected := (packageRounds leaves (limit - 1) leaves).take (2 * leaves.length - 2)
    let symbols := selected.flatMap Package.syms
    (List.range freq.length).map (fun s => symbols.count s)

/-- max(lens), or 0 (R186). -/
def maxLength (lens : List Nat) : Nat := lens.foldl max 0

/-- One pass of R186's inner loop: the symbols of length `len` get the codes from `code` on, in ascending order. -/
def assignLength (len : Nat) : Nat → List Nat → List Nat → Nat × List Nat
  | code, l :: lens, c :: codes =>
    if l = len then
      let r := assignLength len (code + 1) lens codes
      (r.1, code :: r.2)
    else
      let r := assignLength len code lens codes
      (r.1, c :: r.2)
  | code, _, codes => (code, codes)

/-- R186's outer loop over `count` lengths from `len` on: the code doubles after each, used or not. -/
def assignLengths (lens : List Nat) : Nat → Nat → Nat → List Nat → List Nat
  | 0, _, _, codes => codes
  | count + 1, len, code, codes =>
    let r := assignLength len code lens codes
    assignLengths lens count (len + 1) (2 * r.1) r.2

/-- Canon (R186). -/
def canon (lens : List Nat) : List Nat := assignLengths lens (maxLength lens) 1 0 (lens.map (fun _ => 0))

/-- The entries of the symbols that have a code, the first symbol being `s` (R188). -/
def viewEntries (s : Nat) : List Nat → List Nat → List CodeEntry
  | l :: lens, c :: codes =>
    if l > 0 then ⟨l, c, s⟩ :: viewEntries (s + 1) lens codes else viewEntries (s + 1) lens codes
  | _, _ => []

/-- The least nonzero length, or 0 if there is none (R188). -/
def minLength (lens : List Nat) : Nat :=
  match lens.filter (fun l => decide (l > 0)) with
  | [] => 0
  | l :: ls => ls.foldl min l

/-- DecodeView (R188). -/
def decodeView (lens : List Nat) : DecodeView :=
  { entries := viewEntries 0 lens (canon lens), minLen := minLength lens, maxLen := maxLength lens }

/-- The symbol that the code of length `len` and value `code` stands for (R188). -/
def DecodeView.lookup (v : DecodeView) (len code : Nat) : Option Nat :=
  (v.entries.find? (fun e => e.len == len && e.code == code)).map CodeEntry.sym

/-- The encode view (R190): the code length and the code value of each symbol. -/
structure EncodeView where
  lens : List Nat
  codes : List Nat
  deriving DecidableEq, Repr

/-- The encode view of a length list (R190). -/
def encodeView (lens : List Nat) : EncodeView := ⟨lens, canon lens⟩

/-- The BitCode (value, length) of a symbol; the lookup of a symbol without a code raises CorruptData (R190). -/
def EncodeView.bitCode (t : EncodeView) (s : Nat) : Except CmdError (Nat × Nat) :=
  if t.lens.getD s 0 = 0 then .error .corruptData else .ok (t.codes.getD s 0, t.lens.getD s 0)

end Sys2Proof.Machine
end

