-- ==== Sys2Proof/Machine/Tables.lean ====
section
/-! DEFINITION. The fixed tables of the stream format (30_encoding.md R105, R106, R108, R109, R111; 10_state.md R37). -/

namespace Sys2Proof.Machine

/-- CL_ORDER (30_encoding.md R106). -/
def clOrder : List Nat := [16, 17, 18, 0, 8, 7, 9, 6, 10, 5, 11, 4, 12, 3, 13, 2, 14, 1, 15]

/-- Extra bits of a code-length symbol (R105). -/
def clExtraBits (s : Nat) : Nat := if s = 16 then 2 else if s = 17 then 3 else if s = 18 then 7 else 0

/-- LBASE (R108), for symbols 257 to 285. -/
def lengthBases : List Nat :=
  [3, 4, 5, 6, 7, 8, 9, 10, 11, 13, 15, 17, 19, 23, 27, 31, 35, 43, 51, 59, 67, 83, 99, 115, 131, 163, 195, 227, 258]

/-- LEXT (R108). -/
def lengthExtras : List Nat :=
  [0, 0, 0, 0, 0, 0, 0, 0, 1, 1, 1, 1, 2, 2, 2, 2, 3, 3, 3, 3, 4, 4, 4, 4, 5, 5, 5, 5, 0]

/-- DBASE (R109), for symbols 0 to 29. -/
def distBases : List Nat :=
  [1, 2, 3, 4, 5, 7, 9, 13, 17, 25, 33, 49, 65, 97, 129, 193, 257, 385, 513, 769, 1025, 1537, 2049, 3073, 4097, 6145,
   8193, 12289, 16385, 24577]

/-- DEXT (R109). -/
def distExtras : List Nat :=
  [0, 0, 0, 0, 1, 1, 2, 2, 3, 3, 4, 4, 5, 5, 6, 6, 7, 7, 8, 8, 9, 9, 10, 10, 11, 11, 12, 12, 13, 13]

/-- LBASE[c]. -/
def lengthBase (c : Nat) : Nat := lengthBases.getD c 0

/-- LEXT[c]. -/
def lengthExtra (c : Nat) : Nat := lengthExtras.getD c 0

/-- DBASE[d]. -/
def distBase (d : Nat) : Nat := distBases.getD d 0

/-- DEXT[d]. -/
def distExtra (d : Nat) : Nat := distExtras.getD d 0

/-- LenCode (R111): 28 for 258, else the largest c in 0..27 with LBASE[c] <= len. -/
def lenCode (len : Nat) : Nat :=
  if len = 258 then 28 else ((List.range 28).filter (fun c => decide (lengthBase c ≤ len))).getLastD 0

/-- DistCode (R111): the largest d in 0..29 with DBASE[d] <= dist. -/
def distCode (dist : Nat) : Nat := ((List.range 30).filter (fun d => decide (distBase d ≤ dist))).getLastD 0

/-- FIXED_LL_LEN (10_state.md R37, 30_encoding.md R112). -/
def fixedLlLen : List Nat :=
  List.replicate 144 8 ++ List.replicate 112 9 ++ List.replicate 24 7 ++ List.replicate 8 8

/-- FIXED_D_LEN (10_state.md R37, 30_encoding.md R113). -/
def fixedDLen : List Nat := List.replicate 32 5

end Sys2Proof.Machine
end

