-- ==== Sys2Proof/Machine/Decoder.lean ====
section
/-! DEFINITION. The DEFLATE block decoder (45_deflate_decode.md) as the finite-state machine of R275: what each stream
symbol does to the working state, how the next symbol is fetched, and the Run of DECOMPRESS that takes symbols until the
stream ends. -/

namespace Sys2Proof.Machine

/-- R189's loop after `len` bits with value `code`, for at most `fuel` more bits. -/
def State.decodeBits (v : DecodeView) (eof : CmdError) : Nat → Nat → Nat → State → Except CmdError (Nat × State)
  | 0, _, _, _ => .error .corruptData
  | fuel + 1, len, code, s =>
    match s.readRange 1 eof with
    | .error e => .error e
    | .ok (bit, s') =>
      match (if v.minLen ≤ len + 1 then v.lookup (len + 1) (2 * code + bit) else none) with
      | some sym => .ok (sym, s')
      | none =>
        if v.maxLen ≤ len + 1 then .error .corruptData
        else State.decodeBits v eof fuel (len + 1) (2 * code + bit) s'

/-- DecodeSymbol (42_huffman.md R189). The loop ends by the view's largest length. -/
def State.decodeSymbol (s : State) (v : DecodeView) (eof : CmdError) : Except CmdError (Nat × State) :=
  if v.maxLen = 0 then .error .corruptData else State.decodeBits v eof v.maxLen 0 0 s

/-- Put (45_deflate_decode.md R263). -/
def State.put (s : State) (out : List Byte) (b : Byte) : Except CmdError (List Byte × State) :=
  if out.length = s.dstCap.toNat then .error .outOfRange
  else .ok (out ++ [b], s.dstByteWrite out.length b)

/-- The expander's copy of `n` bytes from `dist` back, one at a time (R278, R281). -/
def State.copyMatch (dist : Nat) : Nat → List Byte → State → Except CmdError (List Byte × State)
  | 0, out, s => .ok (out, s)
  | n + 1, out, s =>
    match s.put out (out.getD (out.length - dist) 0#8) with
    | .error e => .error e
    | .ok (out', s') => State.copyMatch dist n out' s'

/-- The `n` raw bytes of a stored block (R266). -/
def State.copyStored : Nat → List Byte → State → Except CmdError (List Byte × State)
  | 0, out, s => .ok (out, s)
  | n + 1, out, s =>
    match s.readRange 8 .truncated with
    | .error e => .error e
    | .ok (v, s') =>
      match s'.put out (BitVec.ofNat 8 v) with
      | .error e => .error e
      | .ok (out', s'') => State.copyStored n out' s''

/-- The end of a block (R264, R285): after the final one the command ends with OUT_LEN, else the next header follows. -/
def State.endBlock (s : State) (out : List Byte) (final : Bool) : State :=
  if final then State.complete none { s with outLen := BitVec.ofNat 32 out.length }
  else { s with work := some ⟨out, final, .header⟩ }

/-- The outcome of one symbol that starts in `s`: the FSM goes on, or the command ends in error (R275). -/
def State.settle (s : State) (r : Except CmdError State) : Result :=
  match r with
  | .ok s' => .next s'
  | .error e => .next (s.raiseDecompress e)

/-- DecodeStored (R266), after the header. -/
def State.storedBlock (s : State) (out : List Byte) (final : Bool) : Except CmdError State := do
  let s ← s.alignReader .truncated
  let (len, s) ← s.readRange 16 .truncated
  let (nlen, s) ← s.readRange 16 .truncated
  if len + nlen ≠ 0xFFFF then .error .corruptData
  else
    let (out, s) ← State.copyStored len out s
    return s.endBlock out final

/-- `hclen + 4` code-length code lengths (R270), as the pairs of a symbol of CL_ORDER and its length. -/
def State.readClLengths : List Nat → State → Except CmdError (List (Nat × Nat) × State)
  | [], s => .ok ([], s)
  | sym :: syms, s =>
    match s.readRange 3 .truncated with
    | .error e => .error e
    | .ok (v, s') =>
      match State.readClLengths syms s' with
      | .error e => .error e
      | .ok (rest, s'') => .ok ((sym, v) :: rest, s'')

/-- cl[0..18] (R270): the lengths sent, 0 for the rest. -/
def clLengths (sent : List (Nat × Nat)) : List Nat :=
  (List.range 19).map (fun sym => (sent.lookup sym).getD 0)

/-- The header of a dynamic block and its code-length table (R270, R272); the length sequence follows. -/
def State.dynamicBlock (s : State) (out : List Byte) (final : Bool) : Except CmdError State := do
  let (hlit, s) ← s.readRange 5 .truncated
  let (hdist, s) ← s.readRange 5 .truncated
  let (hclen, s) ← s.readRange 4 .truncated
  if hlit + 257 > 286 then .error .corruptData
  else
    let (sent, s) ← State.readClLengths (clOrder.take (hclen + 4)) s
    return { s with
      work := some ⟨out, final, .lengths (hlit + 257) (hlit + 257 + hdist + 1) (decodeView (clLengths sent)) []⟩ }

/-- A fixed block goes straight to its data (R267, R275). -/
def State.fixedBlock (s : State) (out : List Byte) (final : Bool) : State :=
  { s with work := some ⟨out, final, .data (decodeView fixedLlLen) (decodeView fixedDLen)⟩ }

/-- What a code-length symbol appends to the sequence (R273, R274). R105's alphabet ends at 18; a larger number, which no
view of 19 lengths holds, is CorruptData. DESIGN CHOICE (log 16), safe. -/
def State.clAppend (s : State) (sym : Nat) (seq : List Nat) : Except CmdError (List Nat × State) :=
  if sym ≤ 15 then .ok (seq ++ [sym], s)
  else if sym = 16 then
    match seq.getLast? with
    | none => .error .corruptData
    | some v => do
      let (x, s) ← s.readRange (clExtraBits 16) .truncated
      return (seq ++ List.replicate (3 + x) v, s)
  else if sym = 17 then do
    let (x, s) ← s.readRange (clExtraBits 17) .truncated
    return (seq ++ List.replicate (3 + x) 0, s)
  else if sym = 18 then do
    let (x, s) ← s.readRange (clExtraBits 18) .truncated
    return (seq ++ List.replicate (11 + x) 0, s)
  else .error .corruptData

/-- The state after a code-length symbol (R273, R274, R270): the sequence goes on, is complete, or has overrun. -/
def State.clContinue (s : State) (d : Decoder) (nLit total : Nat) (ct : DecodeView) (seq : List Nat) :
    Except CmdError State :=
  if seq.length > total then .error .corruptData
  else if seq.length = total then
    .ok { s with work := some { d with phase := .data (decodeView (seq.take nLit)) (decodeView (seq.drop nLit)) } }
  else .ok { s with work := some { d with phase := .lengths nLit total ct seq } }

/-- A code-length symbol (R273). -/
def State.clSymbol (sym : Nat) (s : State) : Result :=
  match s.work with
  | some ⟨out, final, .lengths nLit total ct seq⟩ =>
    s.settle (do
      let (seq', s') ← s.clAppend sym seq
      s'.clContinue ⟨out, final, .lengths nLit total ct seq⟩ nLit total ct seq')
  | _ => .refused .noStreamContext

/-- A literal/length symbol (R276, R278, R279). -/
def State.llSymbol (sym : Nat) (s : State) : Result :=
  match s.work with
  | some ⟨out, final, .data lt dt⟩ =>
    s.settle (
      if sym ≤ 255 then do
        let (out', s') ← s.put out (BitVec.ofNat 8 sym)
        return { s' with work := some ⟨out', final, .data lt dt⟩ }
      else if sym = 256 then .ok (s.endBlock out final)
      else if sym ≤ 285 then do
        let (x, s') ← s.readRange (lengthExtra (sym - 257)) .truncated
        return { s' with work := some ⟨out, final, .distance lt dt (lengthBase (sym - 257) + x)⟩ }
      else .error .corruptData)
  | _ => .refused .noStreamContext

/-- The distance symbol of a match and the copy (R278, R280, R281). -/
def State.distSymbol (g : Nat) (s : State) : Result :=
  match s.work with
  | some ⟨out, final, .distance lt dt length⟩ =>
    s.settle (
      if g ≥ 30 then .error .corruptData
      else do
        let (x, s') ← s.readRange (distExtra g) .truncated
        if distBase g + x > out.length then .error .corruptData
        else
          let (out', s'') ← State.copyMatch (distBase g + x) length out s'
          return { s'' with work := some ⟨out', final, .data lt dt⟩ })
  | _ => .refused .noStreamContext

/-- A block header with type `btype` (R264): the FSM must be at a header. -/
def State.blockSymbol (btype : Nat) (final : Bool) (s : State) : Result :=
  match s.work with
  | some ⟨out, _, .header⟩ =>
    s.settle (
      if btype = 0 then s.storedBlock out final
      else if btype = 1 then .ok (s.fixedBlock out final)
      else if btype = 2 then s.dynamicBlock out final
      else .error .corruptData)
  | _ => .refused .noStreamContext

/-- What the FSM fetches next from the stream at BR_POS (R264, R262): the number of the next selector. For a header it is
BFINAL plus twice BTYPE (30_encoding.md R101). -/
def State.fetchSymbol (s : State) (d : Decoder) : Except CmdError (Nat × State) :=
  match d.phase with
  | .header => do
    let (final, s) ← s.readRange 1 .truncated
    let (btype, s) ← s.readRange 2 .truncated
    return (final + 2 * btype, s)
  | .lengths _ _ ct _ => s.decodeSymbol ct .truncated
  | .data lt _ => s.decodeSymbol lt .truncated
  | .distance _ dt _ => s.decodeSymbol dt .truncated

/-- The selector with number `sym`, run in the FSM state that read it. -/
def State.runSymbol (p : Phase) (sym : Nat) (s : State) : Result :=
  match p with
  | .header => s.blockSymbol (sym / 2) (sym % 2 == 1)
  | .lengths _ _ _ _ => s.clSymbol sym
  | .data _ _ => s.llSymbol sym
  | .distance _ _ _ => s.distSymbol sym

/-- One step of the FSM (R275): the next selector is fetched and run. -/
def State.streamStep (s : State) : Result :=
  match s.work with
  | none => .refused .noStreamContext
  | some d =>
    match s.fetchSymbol d with
    | .ok (sym, s') => s'.runSymbol d.phase sym
    | .error e => .next (s.raiseDecompress e)

/-- Steps of the FSM until the command has ended (R264, R275), at most `fuel` of them. -/
def State.runStream : Nat → State → Result
  | 0, _ => .fault .runDidNotEnd
  | fuel + 1, s =>
    match s.streamStep with
    | .next s' => if s'.work.isNone then .next s' else State.runStream fuel s'
    | .fault f => .fault f
    | .refused r => .refused r

/-- R285 after its checks: the cursor at 0, no output, a block header next. -/
def State.beginDecode (s : State) : State := { s with brPos := 0#32, work := some ⟨[], false, .header⟩ }

/-- Each symbol reads at least one bit of the source region, so this many symbols suffice (70_reset_and_hazards.md R366). -/
def State.streamFuel (s : State) : Nat := s.srcBits + 1

end Sys2Proof.Machine
end

