-- ==== Sys2Proof/Machine/BlockSymbols.lean ====
section
/-! DEFINITION. The block headers as instructions of the decoder FSM (45_deflate_decode.md R264, R266, R267, R270). -/

namespace Sys2Proof.Machine

/-- DecodeStored (R266): the whole stored block. -/
def execBlockStored (final : Bool) (s : State) : Result := s.blockSymbol 0 final

/-- The fixed tables, then DATA (R267, R275). -/
def execBlockFixed (final : Bool) (s : State) : Result := s.blockSymbol 1 final

/-- The dynamic header, then LENGTHS (R270, R275). -/
def execBlockDynamic (final : Bool) (s : State) : Result := s.blockSymbol 2 final

/-- BTYPE 3 raises CorruptData (R264). -/
def execBlockReserved (final : Bool) (s : State) : Result := s.blockSymbol 3 final

end Sys2Proof.Machine
end

