-- ==== Sys2Proof/Machine/ClSymbols.lean ====
section
/-! DEFINITION. The code-length symbols as instructions of the decoder FSM (30_encoding.md R105, 45_deflate_decode.md R273). -/

namespace Sys2Proof.Machine

/-- One code length of value 0. -/
def execCl0 (s : State) : Result := s.clSymbol 0

/-- One code length of value 1. -/
def execCl1 (s : State) : Result := s.clSymbol 1

/-- One code length of value 2. -/
def execCl2 (s : State) : Result := s.clSymbol 2

/-- One code length of value 3. -/
def execCl3 (s : State) : Result := s.clSymbol 3

/-- One code length of value 4. -/
def execCl4 (s : State) : Result := s.clSymbol 4

/-- One code length of value 5. -/
def execCl5 (s : State) : Result := s.clSymbol 5

/-- One code length of value 6. -/
def execCl6 (s : State) : Result := s.clSymbol 6

/-- One code length of value 7. -/
def execCl7 (s : State) : Result := s.clSymbol 7

/-- One code length of value 8. -/
def execCl8 (s : State) : Result := s.clSymbol 8

/-- One code length of value 9. -/
def execCl9 (s : State) : Result := s.clSymbol 9

/-- One code length of value 10. -/
def execCl10 (s : State) : Result := s.clSymbol 10

/-- One code length of value 11. -/
def execCl11 (s : State) : Result := s.clSymbol 11

/-- One code length of value 12. -/
def execCl12 (s : State) : Result := s.clSymbol 12

/-- One code length of value 13. -/
def execCl13 (s : State) : Result := s.clSymbol 13

/-- One code length of value 14. -/
def execCl14 (s : State) : Result := s.clSymbol 14

/-- One code length of value 15. -/
def execCl15 (s : State) : Result := s.clSymbol 15

/-- Repeat the previous length 3 to 6 times. -/
def execCl16 (s : State) : Result := s.clSymbol 16

/-- Repeat length 0, 3 to 10 times. -/
def execCl17 (s : State) : Result := s.clSymbol 17

/-- Repeat length 0, 11 to 138 times. -/
def execCl18 (s : State) : Result := s.clSymbol 18

end Sys2Proof.Machine
end

