-- ==== Sys2Proof/Machine/Control.lean ====
section
/-! DEFINITION. The control commands and the illegal command word (46_control.md R305, R306; 30_encoding.md R94). -/

namespace Sys2Proof.Machine

/-- NOP (R305). -/
def execNop (s : State) : Result := s.conclude State.raise (.ok { s with outLen := 0#32 })

/-- Every register other than STATUS and ID at its reset value (R306, 70_reset_and_hazards.md R350). -/
def State.resetRegisters (s : State) : State :=
  { s with
    irqEn := State.reset.irqEn
    errcode := State.reset.errcode
    srcAddr := State.reset.srcAddr
    srcLen := State.reset.srcLen
    dstAddr := State.reset.dstAddr
    dstCap := State.reset.dstCap
    outLen := State.reset.outLen
    brPos := State.reset.brPos
    bwPos := State.reset.bwPos
    value := State.reset.value
    result := State.reset.result
    nsym := State.reset.nsym }

/-- SOFT_RESET (R306). -/
def execSoftReset (s : State) : Result := s.conclude State.raise (.ok s.resetRegisters)

/-- A word that is no command raises IllegalCommand, whatever the word (30_encoding.md R93, R94). -/
def execIllegalCommand (_w : Word) (s : State) : Result := s.conclude State.raise (.error .illegalCommand)

/-- `rst` (70_reset_and_hazards.md R350 to R352): every piece of engine state at its reset value, an accepted command
cancelled, M as it was. The model's own fields stay (log 14). -/
def State.rst (s : State) : State :=
  { State.reset with
    params := s.params
    mem := s.mem
    inputs := s.inputs
    busData := s.busData
    draws := s.draws }

end Sys2Proof.Machine
end

