-- ==== Sys2Proof/Machine/Crc.lean ====
section
/-! DEFINITION. The CRC-32 engine (41_crc32.md R170, R171). -/

namespace Sys2Proof.Machine

/-- One turn of R170's loop. -/
def crcShift (c : Word) : Word := if c.getLsbD 0 then 0xEDB88320#32 ^^^ (c >>> 1) else c >>> 1

/-- CrcEntry (R170). -/
def crcEntry (i : Byte) : Word :=
  crcShift (crcShift (crcShift (crcShift (crcShift (crcShift (crcShift (crcShift (i.setWidth 32))))))))

/-- CRC_TABLE (10_state.md R36, R170), a constant that no command writes (R172). -/
def crcTable : List Word := (List.range 256).map (fun i => crcEntry (BitVec.ofNat 8 i))

/-- The per-byte update of R171. -/
def crcUpdate (c : Word) (b : Byte) : Word := crcTable.getD (c.setWidth 8 ^^^ b).toNat 0#32 ^^^ (c >>> 8)

/-- Crc32 (R171). -/
def crc32 (bytes : List Byte) : Word := bytes.foldl crcUpdate 0xFFFFFFFF#32 ^^^ 0xFFFFFFFF#32

end Sys2Proof.Machine
end

