-- ==== Sys2Proof/Machine/Lz77.lean ====
section
/-! DEFINITION. The LZ77 match finder (43_lz77.md R210 to R215). -/

namespace Sys2Proof.Machine

/-- A token (00_scope.md R15): a literal byte, or a match of a length and a distance. -/
inductive Token where
  | literal (b : Byte)
  | copy (length distance : Nat)
  deriving DecidableEq, Repr

/-- Three bytes in a row. -/
abbrev Triple := Byte × Byte × Byte

/-- The index (R210) as the list of every position that has three bytes left, each with those bytes, ascending. -/
abbrev Index := List (Triple × Nat)

/-- BuildIndex (R210) of the bytes from position `p` on. -/
def buildIndex (p : Nat) : List Byte → Index
  | a :: b :: c :: rest => ((a, b, c), p) :: buildIndex (p + 1) (b :: c :: rest)
  | _ => []

/-- `index[t]`: the positions of the three bytes `t`, ascending (R210). -/
def Index.positions (ix : Index) (t : Triple) : List Nat :=
  (ix.filter (fun e => e.1 == t)).map Prod.snd

/-- `data[i : i+3]`, when position `i` has three bytes left. -/
def tripleAt (data : List Byte) (i : Nat) : Option Triple :=
  match data.drop i with
  | a :: b :: c :: _ => some (a, b, c)
  | _ => none

/-- Cands(i) (R211) for the three bytes `t` at `i`: the earlier positions within the window, most recent first. -/
def candidates (ix : Index) (t : Triple) (i : Nat) : List Nat :=
  ((ix.positions t).filter (fun p => decide (p < i) && decide (i - p ≤ Config.window))).reverse

/-- The longest common run of two byte lists, at most `limit`. -/
def commonRun : Nat → List Byte → List Byte → Nat
  | limit + 1, x :: xs, y :: ys => if x = y then commonRun limit xs ys + 1 else 0
  | _, _, _ => 0

/-- MatchLen(p, i) (R212). -/
def matchLen (data : List Byte) (p i : Nat) : Nat :=
  commonRun (min Config.maxMatch (data.length - i)) (data.drop p) (data.drop i)

/-- R213's loop over the candidates not yet examined, after `k` of them, with the best length and distance so far. -/
def examine (ps : Params) (data : List Byte) (i : Nat) : List Nat → Nat → Nat × Nat → Nat × Nat
  | [], _, best => best
  | p :: rest, k, best =>
    let l := matchLen data p i
    let best' := if l > best.1 then (l, i - p) else best
    if k + 1 ≥ ps.lzMaxChain then best'
    else if best'.1 ≥ ps.lzGoodLen ∧ k + 1 ≥ ps.lzGoodChain then best'
    else examine ps data i rest (k + 1) best'

/-- FindMatch(i) (R213): the best length and distance, (0, 0) if there is none. -/
def findMatch (ps : Params) (data : List Byte) (ix : Index) (t : Triple) (i : Nat) : Nat × Nat :=
  examine ps data i (candidates ix t i) 0 (0, 0)

/-- R215's choice at position `i`, whose byte is `b`: fewer than three bytes left or no second position with the same
three bytes (R214) is a literal, and so is a best match below 3 or past the end. -/
def tokenAt (ps : Params) (data : List Byte) (ix : Index) (i : Nat) (b : Byte) : Token :=
  match tripleAt data i with
  | none => .literal b
  | some t =>
    if (ix.positions t).length < 2 then .literal b
    else
      let m := findMatch ps data ix t i
      if m.1 < Config.minMatch ∨ i + m.1 > data.length then .literal b else .copy m.1 m.2

/-- How many input bytes a token covers (R216). -/
def Token.span : Token → Nat
  | .literal _ => 1
  | .copy l _ => l

/-- R215's loop from position `i`, for at most `fuel` tokens. -/
def tokenizeFrom (ps : Params) (data : List Byte) (ix : Index) : Nat → Nat → List Token
  | 0, _ => []
  | fuel + 1, i =>
    match data.drop i with
    | [] => []
    | b :: _ =>
      let t := tokenAt ps data ix i b
      t :: tokenizeFrom ps data ix fuel (i + t.span)

/-- Tokenize (R215). A token covers at least one byte, so there are at most `data.length` of them. -/
def tokenize (ps : Params) (data : List Byte) : List Token :=
  tokenizeFrom ps data (buildIndex 0 data) data.length 0

/-- TokenRecord (30_encoding.md R97). -/
def Token.record : Token → Word
  | .literal b => b.setWidth 32
  | .copy l d => BitVec.ofNat 32 (2147483648 + (d - 1) * 256 + (l - 3))

end Sys2Proof.Machine
end

