-- ==== Sys2Proof/Machine/Encoder.lean ====
section
/-! DEFINITION. The DEFLATE block encoder (44_deflate_encode.md R230 to R241): the tables of a block, the fields its
bit-packing state machine writes in turn, and writing them. -/

namespace Sys2Proof.Machine

/-- The literal/length symbols a token is coded with (30_encoding.md R110). -/
def Token.llSymbol : Token → Nat
  | .literal b => b.toNat
  | .copy l _ => 257 + lenCode l

/-- The distance symbols a token is coded with (30_encoding.md R110). -/
def Token.distSymbols : Token → List Nat
  | .literal _ => []
  | .copy _ d => [distCode d]

/-- How often each of the symbols 0 .. n-1 occurs. -/
def frequencies (n : Nat) (symbols : List Nat) : List Nat := (List.range n).map (fun s => symbols.count s)

/-- lf (R233): the literal/length symbols of the tokens and the one end of block. -/
def llFrequencies (toks : List Token) : List Nat := frequencies 286 (toks.map Token.llSymbol ++ [256])

/-- df (R233). -/
def distFrequencies (toks : List Token) : List Nat := frequencies 30 (toks.flatMap Token.distSymbols)

/-- One more than the largest index whose length is nonzero, or 0 if there is none. -/
def usedLength : List Nat → Nat
  | [] => 0
  | l :: lens =>
    match usedLength lens with
    | 0 => if l > 0 then 1 else 0
    | n + 1 => n + 2

/-- One pair of R238: a code-length symbol and the value of its extra bits, 0 where it has none. -/
structure ClItem where
  sym : Nat
  extra : Nat
  deriving DecidableEq, Repr

/-- The maximal runs of equal lengths: each value with its number of repetitions (R238). -/
def lengthRuns : List Nat → List (Nat × Nat)
  | [] => []
  | l :: lens =>
    match lengthRuns lens with
    | (v, r) :: rest => if l = v then (v, r + 1) :: rest else (l, 1) :: (v, r) :: rest
    | [] => [(l, 1)]

/-- R238's loop for a run of `r` zeros, for at most `fuel` turns. -/
def rleZeros : Nat → Nat → List ClItem
  | 0, _ => []
  | fuel + 1, r =>
    if r ≥ 11 then ⟨18, min r 138 - 11⟩ :: rleZeros fuel (r - min r 138)
    else if r ≥ 3 then [⟨17, r - 3⟩]
    else List.replicate r ⟨0, 0⟩

/-- R238's loop for the `r` further lengths of a run of `v`, for at most `fuel` turns. -/
def rleRepeats (v : Nat) : Nat → Nat → List ClItem
  | 0, _ => []
  | fuel + 1, r =>
    if r ≥ 3 then ⟨16, min r 6 - 3⟩ :: rleRepeats v fuel (r - min r 6)
    else List.replicate r ⟨v, 0⟩

/-- The pairs of one run (R238). -/
def rleRun (run : Nat × Nat) : List ClItem :=
  if run.1 = 0 then rleZeros (run.2 + 1) run.2
  else ⟨run.1, 0⟩ :: rleRepeats run.1 run.2 (run.2 - 1)

/-- RLE (R238). -/
def rle (seq : List Nat) : List ClItem := (lengthRuns seq).flatMap rleRun

/-- The tables and counts of a block (R233 to R239). -/
structure BlockTables where
  ll : EncodeView
  dist : EncodeView
  cl : EncodeView
  hlit : Nat
  hdist : Nat
  /-- k, the number of code-length code lengths sent. -/
  clSent : Nat
  items : List ClItem
  deriving DecidableEq, Repr

/-- R233 to R239. -/
def blockTables (toks : List Token) : BlockTables :=
  let ll := packageMerge (llFrequencies toks) Config.maxCodeLen
  let dl := packageMerge (distFrequencies toks) Config.maxCodeLen
  let hlit := usedLength ll - 257
  let hdist := usedLength dl - 1
  let items := rle (ll.take (hlit + 257) ++ dl.take (hdist + 1))
  let cl := packageMerge (frequencies 19 (items.map ClItem.sym)) Config.maxClCodeLen
  { ll := encodeView ll
    dist := encodeView dl
    cl := encodeView cl
    hlit := hlit
    hdist := hdist
    clSent := max 4 (usedLength (clOrder.map (fun s => cl.getD s 0)))
    items := items }

/-- One write of the bit-packing state machine (R240): an LSB-first field, or the code of a symbol of a table. -/
inductive Field where
  | range (v n : Nat)
  | symbol (t : EncodeView) (s : Nat)
  deriving DecidableEq, Repr

/-- State HEADER (R240, R241). -/
def headerFields (final : Bool) (t : BlockTables) : List Field :=
  [.range final.toNat 1, .range 2 2, .range t.hlit 5, .range t.hdist 5, .range (t.clSent - 4) 4]

/-- State CL_LENGTHS (R240, R241). -/
def clLengthFields (t : BlockTables) : List Field :=
  (clOrder.take t.clSent).map (fun s => .range (t.cl.lens.getD s 0) 3)

/-- One step of state LENGTH_SEQ (R240, R241). -/
def itemFields (t : BlockTables) (i : ClItem) : List Field :=
  [.symbol t.cl i.sym, .range i.extra (clExtraBits i.sym)]

/-- One step of state TOKENS (R240, R241). -/
def tokenFields (t : BlockTables) : Token → List Field
  | .literal b => [.symbol t.ll b.toNat]
  | .copy l d =>
    let c := lenCode l
    let g := distCode d
    [.symbol t.ll (257 + c), .range (l - lengthBase c) (lengthExtra c),
     .symbol t.dist g, .range (d - distBase g) (distExtra g)]

/-- State EOB (R240, R241). -/
def eobFields (t : BlockTables) : List Field := [.symbol t.ll 256]

/-- EncodeBlock (R240) as the fields it writes, in the order of its states (R241). -/
def blockFields (ps : Params) (block : List Byte) (final : Bool) : List Field :=
  let toks := tokenize ps block
  let t := blockTables toks
  headerFields final t ++ clLengthFields t ++ t.items.flatMap (itemFields t) ++ toks.flatMap (tokenFields t) ++ eobFields t

/-- nb (R230). -/
def blockCount (n : Nat) : Nat := max 1 ((n + Config.blockMax - 1) / Config.blockMax)

/-- Block j (R230). -/
def blockAt (data : List Byte) (j : Nat) : List Byte := (data.drop (j * Config.blockMax)).take Config.blockMax

/-- The fields of the whole stream before its pad (R230, R245). -/
def streamFields (ps : Params) (data : List Byte) : List Field :=
  (List.range (blockCount data.length)).flatMap
    (fun j => blockFields ps (blockAt data j) (j + 1 == blockCount data.length))

/-- The bits a field puts on the stream (40_bitstream.md R143, R144). -/
def Field.bits : Field → Except CmdError (List Bool)
  | .range v n => .ok (bitsLsb n v)
  | .symbol t s =>
    match t.bitCode s with
    | .ok (value, length) => .ok (bitsMsb length value)
    | .error e => .error e

/-- The write of one field (R240). -/
def State.writeField (s : State) (f : Field) : Except CmdError State :=
  match f.bits with
  | .ok bits => s.writeBits bits
  | .error e => .error e

/-- The fields written in turn; the first write that fails ends it (R241). -/
def State.writeFields (s : State) : List Field → Except CmdError State
  | [] => .ok s
  | f :: fs =>
    match s.writeField f with
    | .ok s' => State.writeFields s' fs
    | .error e => .error e

end Sys2Proof.Machine
end

