-- ==== Sys2Proof/Machine/DataCommands.lean ====
section
/-! DEFINITION. The commands over whole regions but DECOMPRESS: CRC32 (41_crc32.md R173), HUFF_BUILD (42_huffman.md R195),
LZ77_TOKENIZE (43_lz77.md R220) and COMPRESS (44_deflate_encode.md R245). -/

namespace Sys2Proof.Machine

/-- CRC32 (41_crc32.md R173). -/
def State.crc32Command (s : State) : Except CmdError State := do
  s.checkSrc
  return { s with result := crc32 s.srcBytes, outLen := 0#32 }

/-- The frequency records (30_encoding.md R95). -/
def State.frequencyRecords (s : State) : List Nat := (List.range s.nsym.toNat).map s.srcWord

/-- The code record of each symbol (30_encoding.md R96). -/
def codeRecords (lens codes : List Nat) : List Word :=
  List.zipWith (fun l c => BitVec.ofNat 32 (c ||| l <<< 16)) lens codes

/-- HUFF_BUILD (42_huffman.md R195). -/
def State.huffBuild (s : State) (l : Nat) : Except CmdError State := do
  s.checkBoth
  let nsym := s.nsym.toNat
  require (decide (1 ≤ nsym) && decide (nsym ≤ Config.nsymMax)) .illegalCommand
  require (decide (4 * nsym ≤ s.srcLen.toNat)) .outOfRange
  require (decide (4 * nsym ≤ s.dstCap.toNat)) .outOfRange
  let freq := s.frequencyRecords
  require (decide (usedSymbols freq ≤ 2 ^ l)) .illegalCommand
  let lens := packageMerge freq l
  let s := State.dstWords 0 (codeRecords lens (canon lens)) s
  return { s with outLen := BitVec.ofNat 32 (4 * nsym) }

/-- LZ77_TOKENIZE (43_lz77.md R220). -/
def State.lz77Tokenize (s : State) : Except CmdError State := do
  s.checkBoth
  require (decide (s.srcLen.toNat ≤ Config.blockMax)) .illegalCommand
  let toks := tokenize s.params s.srcBytes
  require (decide (4 * toks.length ≤ s.dstCap.toNat)) .outOfRange
  let s := State.dstWords 0 (toks.map Token.record) s
  return { s with outLen := BitVec.ofNat 32 (4 * toks.length) }

/-- COMPRESS (44_deflate_encode.md R245). -/
def State.compress (s : State) : Except CmdError State := do
  s.checkBoth
  let fields := streamFields s.params s.srcBytes
  let s ← State.writeFields { s with bwPos := 0#32 } fields
  let s ← s.alignWriter
  return { s with outLen := BitVec.ofNat 32 (s.bwPos.toNat / 8) }

/-- CRC32 (41_crc32.md R173). -/
def execCrc32 (s : State) : Result := s.conclude State.raise s.crc32Command

/-- HUFF_BUILD (42_huffman.md R195). -/
def execHuffBuild (l : BitVec 4) (s : State) : Result := s.conclude State.raise (s.huffBuild l.toNat)

/-- LZ77_TOKENIZE (43_lz77.md R220). -/
def execLz77Tokenize (s : State) : Result := s.conclude State.raise s.lz77Tokenize

/-- COMPRESS (44_deflate_encode.md R245). -/
def execCompress (s : State) : Result := s.conclude State.raiseCompress s.compress

end Sys2Proof.Machine
end

