-- ==== Sys2Proof/Machine/Decompress.lean ====
section
/-! DEFINITION. DECOMPRESS (45_deflate_decode.md R285). -/

namespace Sys2Proof.Machine

/-- DECOMPRESS (R285): the region checks, then the decoder FSM from the first block header to the end of the stream, as
one step (46_control.md R301). -/
def execDecompress (s : State) : Result :=
  match s.checkBoth with
  | .error e => .next (s.raiseDecompress e)
  | .ok _ => State.runStream s.streamFuel s.beginDecode

end Sys2Proof.Machine
end

