-- ==== Sys2Proof/Machine/DistSymbols.lean ====
section
/-! DEFINITION. The distance symbols as instructions of the decoder FSM (30_encoding.md R109, 45_deflate_decode.md R278, R280, R281). -/

namespace Sys2Proof.Machine

/-- Distances 1 to 1. -/
def execDist0 (s : State) : Result := s.distSymbol 0

/-- Distances 2 to 2. -/
def execDist1 (s : State) : Result := s.distSymbol 1

/-- Distances 3 to 3. -/
def execDist2 (s : State) : Result := s.distSymbol 2

/-- Distances 4 to 4. -/
def execDist3 (s : State) : Result := s.distSymbol 3

/-- Distances 5 to 6. -/
def execDist4 (s : State) : Result := s.distSymbol 4

/-- Distances 7 to 8. -/
def execDist5 (s : State) : Result := s.distSymbol 5

/-- Distances 9 to 12. -/
def execDist6 (s : State) : Result := s.distSymbol 6

/-- Distances 13 to 16. -/
def execDist7 (s : State) : Result := s.distSymbol 7

/-- Distances 17 to 24. -/
def execDist8 (s : State) : Result := s.distSymbol 8

/-- Distances 25 to 32. -/
def execDist9 (s : State) : Result := s.distSymbol 9

/-- Distances 33 to 48. -/
def execDist10 (s : State) : Result := s.distSymbol 10

/-- Distances 49 to 64. -/
def execDist11 (s : State) : Result := s.distSymbol 11

/-- Distances 65 to 96. -/
def execDist12 (s : State) : Result := s.distSymbol 12

/-- Distances 97 to 128. -/
def execDist13 (s : State) : Result := s.distSymbol 13

/-- Distances 129 to 192. -/
def execDist14 (s : State) : Result := s.distSymbol 14

/-- Distances 193 to 256. -/
def execDist15 (s : State) : Result := s.distSymbol 15

/-- Distances 257 to 384. -/
def execDist16 (s : State) : Result := s.distSymbol 16

/-- Distances 385 to 512. -/
def execDist17 (s : State) : Result := s.distSymbol 17

/-- Distances 513 to 768. -/
def execDist18 (s : State) : Result := s.distSymbol 18

/-- Distances 769 to 1024. -/
def execDist19 (s : State) : Result := s.distSymbol 19

/-- Distances 1025 to 1536. -/
def execDist20 (s : State) : Result := s.distSymbol 20

/-- Distances 1537 to 2048. -/
def execDist21 (s : State) : Result := s.distSymbol 21

/-- Distances 2049 to 3072. -/
def execDist22 (s : State) : Result := s.distSymbol 22

/-- Distances 3073 to 4096. -/
def execDist23 (s : State) : Result := s.distSymbol 23

/-- Distances 4097 to 6144. -/
def execDist24 (s : State) : Result := s.distSymbol 24

/-- Distances 6145 to 8192. -/
def execDist25 (s : State) : Result := s.distSymbol 25

/-- Distances 8193 to 12288. -/
def execDist26 (s : State) : Result := s.distSymbol 26

/-- Distances 12289 to 16384. -/
def execDist27 (s : State) : Result := s.distSymbol 27

/-- Distances 16385 to 24576. -/
def execDist28 (s : State) : Result := s.distSymbol 28

/-- Distances 24577 to 32768. -/
def execDist29 (s : State) : Result := s.distSymbol 29

/-- Reserved: CorruptData. -/
def execDistReserved30 (s : State) : Result := s.distSymbol 30

/-- Reserved: CorruptData. -/
def execDistReserved31 (s : State) : Result := s.distSymbol 31

end Sys2Proof.Machine
end

