-- ==== Sys2Proof/Machine/LlSymbols.lean ====
section
/-! DEFINITION. The literal/length symbols as instructions of the decoder FSM (30_encoding.md R107, R108, 45_deflate_decode.md R276 to R279). -/

namespace Sys2Proof.Machine

/-- A literal byte. -/
def execLlLiteral (b : Byte) (s : State) : Result := s.llSymbol b.toNat

/-- End of block. -/
def execLlEob (s : State) : Result := s.llSymbol 256

/-- Length 3. -/
def execLlLen257 (s : State) : Result := s.llSymbol 257

/-- Length 4. -/
def execLlLen258 (s : State) : Result := s.llSymbol 258

/-- Length 5. -/
def execLlLen259 (s : State) : Result := s.llSymbol 259

/-- Length 6. -/
def execLlLen260 (s : State) : Result := s.llSymbol 260

/-- Length 7. -/
def execLlLen261 (s : State) : Result := s.llSymbol 261

/-- Length 8. -/
def execLlLen262 (s : State) : Result := s.llSymbol 262

/-- Length 9. -/
def execLlLen263 (s : State) : Result := s.llSymbol 263

/-- Length 10. -/
def execLlLen264 (s : State) : Result := s.llSymbol 264

/-- Lengths 11 to 12. -/
def execLlLen265 (s : State) : Result := s.llSymbol 265

/-- Lengths 13 to 14. -/
def execLlLen266 (s : State) : Result := s.llSymbol 266

/-- Lengths 15 to 16. -/
def execLlLen267 (s : State) : Result := s.llSymbol 267

/-- Lengths 17 to 18. -/
def execLlLen268 (s : State) : Result := s.llSymbol 268

/-- Lengths 19 to 22. -/
def execLlLen269 (s : State) : Result := s.llSymbol 269

/-- Lengths 23 to 26. -/
def execLlLen270 (s : State) : Result := s.llSymbol 270

/-- Lengths 27 to 30. -/
def execLlLen271 (s : State) : Result := s.llSymbol 271

/-- Lengths 31 to 34. -/
def execLlLen272 (s : State) : Result := s.llSymbol 272

/-- Lengths 35 to 42. -/
def execLlLen273 (s : State) : Result := s.llSymbol 273

/-- Lengths 43 to 50. -/
def execLlLen274 (s : State) : Result := s.llSymbol 274

/-- Lengths 51 to 58. -/
def execLlLen275 (s : State) : Result := s.llSymbol 275

/-- Lengths 59 to 66. -/
def execLlLen276 (s : State) : Result := s.llSymbol 276

/-- Lengths 67 to 82. -/
def execLlLen277 (s : State) : Result := s.llSymbol 277

/-- Lengths 83 to 98. -/
def execLlLen278 (s : State) : Result := s.llSymbol 278

/-- Lengths 99 to 114. -/
def execLlLen279 (s : State) : Result := s.llSymbol 279

/-- Lengths 115 to 130. -/
def execLlLen280 (s : State) : Result := s.llSymbol 280

/-- Lengths 131 to 162. -/
def execLlLen281 (s : State) : Result := s.llSymbol 281

/-- Lengths 163 to 194. -/
def execLlLen282 (s : State) : Result := s.llSymbol 282

/-- Lengths 195 to 226. -/
def execLlLen283 (s : State) : Result := s.llSymbol 283

/-- Lengths 227 to 258. -/
def execLlLen284 (s : State) : Result := s.llSymbol 284

/-- Length 258. -/
def execLlLen285 (s : State) : Result := s.llSymbol 285

/-- Reserved: CorruptData. -/
def execLlReserved286 (s : State) : Result := s.llSymbol 286

/-- Reserved: CorruptData. -/
def execLlReserved287 (s : State) : Result := s.llSymbol 287

end Sys2Proof.Machine
end

