-- ==== Sys2Proof/Syntax.lean ====
section
/-! DEFINITION. The instructions: one constructor for each row of spec/opcode_table.json. Fourteen are command words
(30_encoding.md R92), one is the catch-all illegal command word (R94), and the rest are the selectors of a DEFLATE
stream, which a running DECOMPRESS executes (R101, R105, R107 to R109). -/

namespace Sys2Proof

inductive Instr where
  /-- 46_control.md R305. -/
  | nop
  /-- 46_control.md R306. -/
  | softReset
  /-- 40_bitstream.md R150; `n` is CMD[12:8]. -/
  | bwWrite (n : BitVec 5)
  /-- 40_bitstream.md R151; `n` is CMD[12:8]. -/
  | bwWriteCoded (n : BitVec 5)
  /-- 40_bitstream.md R152. -/
  | bwAlign
  /-- 40_bitstream.md R155. -/
  | brReadBit
  /-- 40_bitstream.md R156; `n` is CMD[12:8]. -/
  | brRead (n : BitVec 5)
  /-- 40_bitstream.md R157; `n` is CMD[12:8]. -/
  | brReadCoded (n : BitVec 5)
  /-- 40_bitstream.md R158. -/
  | brAlign
  /-- 41_crc32.md R173. -/
  | crc32
  /-- 42_huffman.md R195; `l` is CMD[19:16]. -/
  | huffBuild (l : BitVec 4)
  /-- 43_lz77.md R220. -/
  | lz77Tokenize
  /-- 44_deflate_encode.md R245. -/
  | compress
  /-- 45_deflate_decode.md R285. -/
  | decompress
  /-- 30_encoding.md R94: a command word `w` that no row of R92 admits. -/
  | illegalCommand (w : Word)
  /-- Block headers (30_encoding.md R101); `final` is BFINAL. -/
  | blockStored (final : Bool)
  | blockFixed (final : Bool)
  | blockDynamic (final : Bool)
  | blockReserved (final : Bool)
  /-- Code-length symbols (30_encoding.md R105). -/
  | cl0
  | cl1
  | cl2
  | cl3
  | cl4
  | cl5
  | cl6
  | cl7
  | cl8
  | cl9
  | cl10
  | cl11
  | cl12
  | cl13
  | cl14
  | cl15
  | cl16
  | cl17
  | cl18
  /-- Literal/length symbol 0..255 (30_encoding.md R107); `b` is the symbol. -/
  | llLiteral (b : Byte)
  /-- Literal/length symbol 256, end of block (R107). -/
  | llEob
  /-- Length symbols (30_encoding.md R108). -/
  | llLen257
  | llLen258
  | llLen259
  | llLen260
  | llLen261
  | llLen262
  | llLen263
  | llLen264
  | llLen265
  | llLen266
  | llLen267
  | llLen268
  | llLen269
  | llLen270
  | llLen271
  | llLen272
  | llLen273
  | llLen274
  | llLen275
  | llLen276
  | llLen277
  | llLen278
  | llLen279
  | llLen280
  | llLen281
  | llLen282
  | llLen283
  | llLen284
  | llLen285
  /-- Reserved literal/length symbols (R107). -/
  | llReserved286
  | llReserved287
  /-- Distance symbols (30_encoding.md R109). -/
  | dist0
  | dist1
  | dist2
  | dist3
  | dist4
  | dist5
  | dist6
  | dist7
  | dist8
  | dist9
  | dist10
  | dist11
  | dist12
  | dist13
  | dist14
  | dist15
  | dist16
  | dist17
  | dist18
  | dist19
  | dist20
  | dist21
  | dist22
  | dist23
  | dist24
  | dist25
  | dist26
  | dist27
  | dist28
  | dist29
  /-- Reserved distance symbols (R109). -/
  | distReserved30
  | distReserved31
  deriving DecidableEq, Repr

end Sys2Proof
end

