-- ==== Sys2Proof/Machine/Dispatch.lean ====
section
/-! DEFINITION. The dispatch: one arm for each constructor of Instr, each one call of its meaning. -/

namespace Sys2Proof.Machine

def exec (i : Instr) (s : State) : Host.Outcome State Fault Refusal :=
  match i with
  | .nop => Sys2Proof.Machine.execNop s
  | .softReset => Sys2Proof.Machine.execSoftReset s
  | .bwWrite n => Sys2Proof.Machine.execBwWrite n s
  | .bwWriteCoded n => Sys2Proof.Machine.execBwWriteCoded n s
  | .bwAlign => Sys2Proof.Machine.execBwAlign s
  | .brReadBit => Sys2Proof.Machine.execBrReadBit s
  | .brRead n => Sys2Proof.Machine.execBrRead n s
  | .brReadCoded n => Sys2Proof.Machine.execBrReadCoded n s
  | .brAlign => Sys2Proof.Machine.execBrAlign s
  | .crc32 => Sys2Proof.Machine.execCrc32 s
  | .huffBuild l => Sys2Proof.Machine.execHuffBuild l s
  | .lz77Tokenize => Sys2Proof.Machine.execLz77Tokenize s
  | .compress => Sys2Proof.Machine.execCompress s
  | .decompress => Sys2Proof.Machine.execDecompress s
  | .illegalCommand w => Sys2Proof.Machine.execIllegalCommand w s
  | .blockStored final => Sys2Proof.Machine.execBlockStored final s
  | .blockFixed final => Sys2Proof.Machine.execBlockFixed final s
  | .blockDynamic final => Sys2Proof.Machine.execBlockDynamic final s
  | .blockReserved final => Sys2Proof.Machine.execBlockReserved final s
  | .cl0 => Sys2Proof.Machine.execCl0 s
  | .cl1 => Sys2Proof.Machine.execCl1 s
  | .cl2 => Sys2Proof.Machine.execCl2 s
  | .cl3 => Sys2Proof.Machine.execCl3 s
  | .cl4 => Sys2Proof.Machine.execCl4 s
  | .cl5 => Sys2Proof.Machine.execCl5 s
  | .cl6 => Sys2Proof.Machine.execCl6 s
  | .cl7 => Sys2Proof.Machine.execCl7 s
  | .cl8 => Sys2Proof.Machine.execCl8 s
  | .cl9 => Sys2Proof.Machine.execCl9 s
  | .cl10 => Sys2Proof.Machine.execCl10 s
  | .cl11 => Sys2Proof.Machine.execCl11 s
  | .cl12 => Sys2Proof.Machine.execCl12 s
  | .cl13 => Sys2Proof.Machine.execCl13 s
  | .cl14 => Sys2Proof.Machine.execCl14 s
  | .cl15 => Sys2Proof.Machine.execCl15 s
  | .cl16 => Sys2Proof.Machine.execCl16 s
  | .cl17 => Sys2Proof.Machine.execCl17 s
  | .cl18 => Sys2Proof.Machine.execCl18 s
  | .llLiteral b => Sys2Proof.Machine.execLlLiteral b s
  | .llEob => Sys2Proof.Machine.execLlEob s
  | .llLen257 => Sys2Proof.Machine.execLlLen257 s
  | .llLen258 => Sys2Proof.Machine.execLlLen258 s
  | .llLen259 => Sys2Proof.Machine.execLlLen259 s
  | .llLen260 => Sys2Proof.Machine.execLlLen260 s
  | .llLen261 => Sys2Proof.Machine.execLlLen261 s
  | .llLen262 => Sys2Proof.Machine.execLlLen262 s
  | .llLen263 => Sys2Proof.Machine.execLlLen263 s
  | .llLen264 => Sys2Proof.Machine.execLlLen264 s
  | .llLen265 => Sys2Proof.Machine.execLlLen265 s
  | .llLen266 => Sys2Proof.Machine.execLlLen266 s
  | .llLen267 => Sys2Proof.Machine.execLlLen267 s
  | .llLen268 => Sys2Proof.Machine.execLlLen268 s
  | .llLen269 => Sys2Proof.Machine.execLlLen269 s
  | .llLen270 => Sys2Proof.Machine.execLlLen270 s
  | .llLen271 => Sys2Proof.Machine.execLlLen271 s
  | .llLen272 => Sys2Proof.Machine.execLlLen272 s
  | .llLen273 => Sys2Proof.Machine.execLlLen273 s
  | .llLen274 => Sys2Proof.Machine.execLlLen274 s
  | .llLen275 => Sys2Proof.Machine.execLlLen275 s
  | .llLen276 => Sys2Proof.Machine.execLlLen276 s
  | .llLen277 => Sys2Proof.Machine.execLlLen277 s
  | .llLen278 => Sys2Proof.Machine.execLlLen278 s
  | .llLen279 => Sys2Proof.Machine.execLlLen279 s
  | .llLen280 => Sys2Proof.Machine.execLlLen280 s
  | .llLen281 => Sys2Proof.Machine.execLlLen281 s
  | .llLen282 => Sys2Proof.Machine.execLlLen282 s
  | .llLen283 => Sys2Proof.Machine.execLlLen283 s
  | .llLen284 => Sys2Proof.Machine.execLlLen284 s
  | .llLen285 => Sys2Proof.Machine.execLlLen285 s
  | .llReserved286 => Sys2Proof.Machine.execLlReserved286 s
  | .llReserved287 => Sys2Proof.Machine.execLlReserved287 s
  | .dist0 => Sys2Proof.Machine.execDist0 s
  | .dist1 => Sys2Proof.Machine.execDist1 s
  | .dist2 => Sys2Proof.Machine.execDist2 s
  | .dist3 => Sys2Proof.Machine.execDist3 s
  | .dist4 => Sys2Proof.Machine.execDist4 s
  | .dist5 => Sys2Proof.Machine.execDist5 s
  | .dist6 => Sys2Proof.Machine.execDist6 s
  | .dist7 => Sys2Proof.Machine.execDist7 s
  | .dist8 => Sys2Proof.Machine.execDist8 s
  | .dist9 => Sys2Proof.Machine.execDist9 s
  | .dist10 => Sys2Proof.Machine.execDist10 s
  | .dist11 => Sys2Proof.Machine.execDist11 s
  | .dist12 => Sys2Proof.Machine.execDist12 s
  | .dist13 => Sys2Proof.Machine.execDist13 s
  | .dist14 => Sys2Proof.Machine.execDist14 s
  | .dist15 => Sys2Proof.Machine.execDist15 s
  | .dist16 => Sys2Proof.Machine.execDist16 s
  | .dist17 => Sys2Proof.Machine.execDist17 s
  | .dist18 => Sys2Proof.Machine.execDist18 s
  | .dist19 => Sys2Proof.Machine.execDist19 s
  | .dist20 => Sys2Proof.Machine.execDist20 s
  | .dist21 => Sys2Proof.Machine.execDist21 s
  | .dist22 => Sys2Proof.Machine.execDist22 s
  | .dist23 => Sys2Proof.Machine.execDist23 s
  | .dist24 => Sys2Proof.Machine.execDist24 s
  | .dist25 => Sys2Proof.Machine.execDist25 s
  | .dist26 => Sys2Proof.Machine.execDist26 s
  | .dist27 => Sys2Proof.Machine.execDist27 s
  | .dist28 => Sys2Proof.Machine.execDist28 s
  | .dist29 => Sys2Proof.Machine.execDist29 s
  | .distReserved30 => Sys2Proof.Machine.execDistReserved30 s
  | .distReserved31 => Sys2Proof.Machine.execDistReserved31 s

end Sys2Proof.Machine
end

