-- ==== Sys2Proof/WellFormed.lean ====
section
/-! DEFINITION. Which terms of Instr are instructions: the operand ranges of 30_encoding.md R92 and, for the catch-all,
that no row of R92 admits the word. -/

namespace Sys2Proof

/-- A command word that R93 decodes without raising IllegalCommand: the reserved bits are 0, OP is in R92's map, N and L
are in range where the opcode uses them and 0 where it does not. -/
def legalCommandWord (w : Word) : Bool :=
  let op := w.toNat % 256
  let n := w.toNat / 256 % 32
  let l := w.toNat / 65536 % 16
  let reserved := w.toNat / 8192 % 8 != 0 || w.toNat / 1048576 != 0
  !reserved &&
    (([0x00, 0x01, 0x12, 0x18, 0x1B, 0x20, 0x40, 0x50, 0x60].contains op && n == 0 && l == 0) ||
      ([0x10, 0x19].contains op && decide (n ≤ 16) && l == 0) ||
      ([0x11, 0x1A].contains op && decide (n ≤ 15) && l == 0) ||
      (op == 0x30 && n == 0 && decide (1 ≤ l)))

/-- The well-formed instructions. A stream selector has no operand that could be out of range. -/
def Instr.wellFormed : Instr → Bool
  | .bwWrite n => decide (n.toNat ≤ 16)
  | .bwWriteCoded n => decide (n.toNat ≤ 15)
  | .brRead n => decide (n.toNat ≤ 16)
  | .brReadCoded n => decide (n.toNat ≤ 15)
  | .huffBuild l => decide (1 ≤ l.toNat)
  | .illegalCommand w => !legalCommandWord w
  | .nop | .softReset | .bwAlign | .brReadBit | .brAlign | .crc32 | .lz77Tokenize | .compress
  | .decompress => true
  | .blockStored _ | .blockFixed _ | .blockDynamic _ | .blockReserved _ => true
  | .cl0 | .cl1 | .cl2 | .cl3 | .cl4 | .cl5 | .cl6 | .cl7 | .cl8 | .cl9 | .cl10 | .cl11 | .cl12
  | .cl13 | .cl14 | .cl15 | .cl16 | .cl17 | .cl18 => true
  | .llLiteral _ | .llEob | .llLen257 | .llLen258 | .llLen259 | .llLen260 | .llLen261 | .llLen262
  | .llLen263 | .llLen264 | .llLen265 | .llLen266 | .llLen267 | .llLen268 | .llLen269 | .llLen270
  | .llLen271 | .llLen272 | .llLen273 | .llLen274 | .llLen275 | .llLen276 | .llLen277 | .llLen278
  | .llLen279 | .llLen280 | .llLen281 | .llLen282 | .llLen283 | .llLen284 | .llLen285
  | .llReserved286 | .llReserved287 => true
  | .dist0 | .dist1 | .dist2 | .dist3 | .dist4 | .dist5 | .dist6 | .dist7 | .dist8 | .dist9
  | .dist10 | .dist11 | .dist12 | .dist13 | .dist14 | .dist15 | .dist16 | .dist17 | .dist18
  | .dist19 | .dist20 | .dist21 | .dist22 | .dist23 | .dist24 | .dist25 | .dist26 | .dist27
  | .dist28 | .dist29 | .distReserved30 | .distReserved31 => true

end Sys2Proof
end

