-- ==== Sys2Proof/Decode.lean ====
section
/-! DEFINITION. The decoder of every selector space of spec/30_encoding.md, and after it the encoder. A selector is read
in one of five spaces, and the same bits mean different rows in different spaces, so the space is part of what is
decoded: a command word comes from CMD, a stream selector from the state of the decoder FSM that reads it. -/

namespace Sys2Proof

/-- What is decoded: the bits, in the space they were read in. -/
inductive Selector where
  /-- The 32-bit word written to CMD (R90). -/
  | command (w : Word)
  /-- The 3 header bits of a block, BFINAL the lowest, BTYPE above it (R101). -/
  | blockHeader (h : BitVec 3)
  /-- A symbol of the code-length alphabet (R105). -/
  | clSymbol (s : BitVec 5)
  /-- A symbol of the literal/length alphabet (R107). -/
  | llSymbol (s : BitVec 9)
  /-- A symbol of the distance alphabet (R109). -/
  | distSymbol (s : BitVec 5)
  deriving DecidableEq, Repr

/-- Why a selector is no instruction. A command word is never rejected: an illegal one is ILLEGAL_COMMAND (R94). -/
inductive Reject where
  /-- The code-length alphabet ends at 18 (R105). -/
  | noSuchClSymbol (s : BitVec 5)
  /-- The literal/length alphabet ends at 287 (R107). -/
  | noSuchLlSymbol (s : BitVec 9)
  deriving DecidableEq, Repr

/-- OP = CMD[7:0] (R90). -/
def opField (w : Word) : Nat := (w.extractLsb' 0 8).toNat

/-- N = CMD[12:8] (R90). -/
def nField (w : Word) : BitVec 5 := w.extractLsb' 8 5

/-- L = CMD[19:16] (R90). -/
def lField (w : Word) : BitVec 4 := w.extractLsb' 16 4

/-- The reserved bits CMD[15:13] and CMD[31:20] are 0 (R90). -/
def reservedClear (w : Word) : Bool := w.extractLsb' 13 3 == 0#3 && w.extractLsb' 20 12 == 0#12

/-- R93's Decode: in its order the reserved bits, the opcode, then the ranges of N and L; a word that fails any of them
is ILLEGAL_COMMAND. -/
def decodeCommand (w : Word) : Instr :=
  let n := nField w
  let l := lField w
  let plain (i : Instr) : Instr := if n = 0#5 ∧ l = 0#4 then i else .illegalCommand w
  let withN (limit : Nat) (i : Instr) : Instr := if n.toNat ≤ limit ∧ l = 0#4 then i else .illegalCommand w
  if !reservedClear w then .illegalCommand w
  else match opField w with
    | 0x00 => plain .nop
    | 0x01 => plain .softReset
    | 0x10 => withN 16 (.bwWrite n)
    | 0x11 => withN 15 (.bwWriteCoded n)
    | 0x12 => plain .bwAlign
    | 0x18 => plain .brReadBit
    | 0x19 => withN 16 (.brRead n)
    | 0x1A => withN 15 (.brReadCoded n)
    | 0x1B => plain .brAlign
    | 0x20 => plain .crc32
    | 0x30 => if n = 0#5 ∧ 1 ≤ l.toNat then .huffBuild l else .illegalCommand w
    | 0x40 => plain .lz77Tokenize
    | 0x50 => plain .compress
    | 0x60 => plain .decompress
    | _ => .illegalCommand w

/-- R101: stream bit 0 is BFINAL, the two bits after it are BTYPE, LSB-first. -/
def decodeBlockHeader (h : BitVec 3) : Instr :=
  let final := h.getLsbD 0
  match (h.extractLsb' 1 2).toNat with
  | 0 => .blockStored final
  | 1 => .blockFixed final
  | 2 => .blockDynamic final
  | _ => .blockReserved final

/-- R105, symbol 0 first. -/
def clInstrs : List Instr :=
  [.cl0, .cl1, .cl2, .cl3, .cl4, .cl5, .cl6, .cl7, .cl8, .cl9,
   .cl10, .cl11, .cl12, .cl13, .cl14, .cl15, .cl16, .cl17, .cl18]

/-- R107 and R108, symbol 257 first. -/
def lengthInstrs : List Instr :=
  [.llLen257, .llLen258, .llLen259, .llLen260, .llLen261, .llLen262, .llLen263, .llLen264,
   .llLen265, .llLen266, .llLen267, .llLen268, .llLen269, .llLen270, .llLen271, .llLen272,
   .llLen273, .llLen274, .llLen275, .llLen276, .llLen277, .llLen278, .llLen279, .llLen280,
   .llLen281, .llLen282, .llLen283, .llLen284, .llLen285, .llReserved286, .llReserved287]

/-- R109, symbol 0 first. -/
def distInstrs : List Instr :=
  [.dist0, .dist1, .dist2, .dist3, .dist4, .dist5, .dist6, .dist7, .dist8, .dist9,
   .dist10, .dist11, .dist12, .dist13, .dist14, .dist15, .dist16, .dist17, .dist18, .dist19,
   .dist20, .dist21, .dist22, .dist23, .dist24, .dist25, .dist26, .dist27, .dist28, .dist29,
   .distReserved30, .distReserved31]

/-- R107: 0..255 a literal, 256 the end of the block, 257..287 the rows of `lengthInstrs`. -/
def decodeLl (s : BitVec 9) : Except Reject Instr :=
  if s.toNat ≤ 255 then .ok (.llLiteral (s.setWidth 8))
  else if s.toNat = 256 then .ok .llEob
  else match lengthInstrs[s.toNat - 257]? with
    | some i => .ok i
    | none => .error (.noSuchLlSymbol s)

/-- The decoder, total on every selector of every space. -/
def decode : Selector → Except Reject Instr
  | .command w => .ok (decodeCommand w)
  | .blockHeader h => .ok (decodeBlockHeader h)
  | .clSymbol s =>
    match clInstrs[s.toNat]? with
    | some i => .ok i
    | none => .error (.noSuchClSymbol s)
  | .llSymbol s => decodeLl s
  | .distSymbol s => .ok (distInstrs.getD s.toNat .distReserved31)

/-- The word `OP | N << 8 | L << 16` (R116). -/
def commandWord (op : Nat) (n : BitVec 5) (l : BitVec 4) : Word :=
  BitVec.ofNat 32 (op + n.toNat * 256 + l.toNat * 65536)

/-- BFINAL below BTYPE (R101). -/
def headerBits (btype : Nat) (final : Bool) : BitVec 3 :=
  BitVec.ofNat 3 ((if final then 1 else 0) + 2 * btype)

/-- The encoder: the bits of each instruction, in its space, from the tables of 30_encoding.md. -/
def encode : Instr → Selector
  | .nop => .command (commandWord 0x00 0 0)
  | .softReset => .command (commandWord 0x01 0 0)
  | .bwWrite n => .command (commandWord 0x10 n 0)
  | .bwWriteCoded n => .command (commandWord 0x11 n 0)
  | .bwAlign => .command (commandWord 0x12 0 0)
  | .brReadBit => .command (commandWord 0x18 0 0)
  | .brRead n => .command (commandWord 0x19 n 0)
  | .brReadCoded n => .command (commandWord 0x1A n 0)
  | .brAlign => .command (commandWord 0x1B 0 0)
  | .crc32 => .command (commandWord 0x20 0 0)
  | .huffBuild l => .command (commandWord 0x30 0 l)
  | .lz77Tokenize => .command (commandWord 0x40 0 0)
  | .compress => .command (commandWord 0x50 0 0)
  | .decompress => .command (commandWord 0x60 0 0)
  | .illegalCommand w => .command w
  | .blockStored final => .blockHeader (headerBits 0 final)
  | .blockFixed final => .blockHeader (headerBits 1 final)
  | .blockDynamic final => .blockHeader (headerBits 2 final)
  | .blockReserved final => .blockHeader (headerBits 3 final)
  | .cl0 => .clSymbol 0
  | .cl1 => .clSymbol 1
  | .cl2 => .clSymbol 2
  | .cl3 => .clSymbol 3
  | .cl4 => .clSymbol 4
  | .cl5 => .clSymbol 5
  | .cl6 => .clSymbol 6
  | .cl7 => .clSymbol 7
  | .cl8 => .clSymbol 8
  | .cl9 => .clSymbol 9
  | .cl10 => .clSymbol 10
  | .cl11 => .clSymbol 11
  | .cl12 => .clSymbol 12
  | .cl13 => .clSymbol 13
  | .cl14 => .clSymbol 14
  | .cl15 => .clSymbol 15
  | .cl16 => .clSymbol 16
  | .cl17 => .clSymbol 17
  | .cl18 => .clSymbol 18
  | .llLiteral b => .llSymbol (b.setWidth 9)
  | .llEob => .llSymbol 256
  | .llLen257 => .llSymbol 257
  | .llLen258 => .llSymbol 258
  | .llLen259 => .llSymbol 259
  | .llLen260 => .llSymbol 260
  | .llLen261 => .llSymbol 261
  | .llLen262 => .llSymbol 262
  | .llLen263 => .llSymbol 263
  | .llLen264 => .llSymbol 264
  | .llLen265 => .llSymbol 265
  | .llLen266 => .llSymbol 266
  | .llLen267 => .llSymbol 267
  | .llLen268 => .llSymbol 268
  | .llLen269 => .llSymbol 269
  | .llLen270 => .llSymbol 270
  | .llLen271 => .llSymbol 271
  | .llLen272 => .llSymbol 272
  | .llLen273 => .llSymbol 273
  | .llLen274 => .llSymbol 274
  | .llLen275 => .llSymbol 275
  | .llLen276 => .llSymbol 276
  | .llLen277 => .llSymbol 277
  | .llLen278 => .llSymbol 278
  | .llLen279 => .llSymbol 279
  | .llLen280 => .llSymbol 280
  | .llLen281 => .llSymbol 281
  | .llLen282 => .llSymbol 282
  | .llLen283 => .llSymbol 283
  | .llLen284 => .llSymbol 284
  | .llLen285 => .llSymbol 285
  | .llReserved286 => .llSymbol 286
  | .llReserved287 => .llSymbol 287
  | .dist0 => .distSymbol 0
  | .dist1 => .distSymbol 1
  | .dist2 => .distSymbol 2
  | .dist3 => .distSymbol 3
  | .dist4 => .distSymbol 4
  | .dist5 => .distSymbol 5
  | .dist6 => .distSymbol 6
  | .dist7 => .distSymbol 7
  | .dist8 => .distSymbol 8
  | .dist9 => .distSymbol 9
  | .dist10 => .distSymbol 10
  | .dist11 => .distSymbol 11
  | .dist12 => .distSymbol 12
  | .dist13 => .distSymbol 13
  | .dist14 => .distSymbol 14
  | .dist15 => .distSymbol 15
  | .dist16 => .distSymbol 16
  | .dist17 => .distSymbol 17
  | .dist18 => .distSymbol 18
  | .dist19 => .distSymbol 19
  | .dist20 => .distSymbol 20
  | .dist21 => .distSymbol 21
  | .dist22 => .distSymbol 22
  | .dist23 => .distSymbol 23
  | .dist24 => .distSymbol 24
  | .dist25 => .distSymbol 25
  | .dist26 => .distSymbol 26
  | .dist27 => .distSymbol 27
  | .dist28 => .distSymbol 28
  | .dist29 => .distSymbol 29
  | .distReserved30 => .distSymbol 30
  | .distReserved31 => .distSymbol 31

/-- The space in which the bits of an opcode-table row are read when nothing but their number is known. DESIGN CHOICE
(log 10): the five spaces of the table overlap, and only the reader of the stream knows which one it is in. More than 16
bits are a command word. Up to 8 bits are a block type below 4, a code-length symbol up to 18, and a distance symbol
above. Up to 16 bits are a literal/length symbol, but 18 to 29 are the distance symbols, to which the table gives 16. -/
def tableSelector (nbits w : Nat) : Selector :=
  if nbits > 16 then .command (BitVec.ofNat 32 w)
  else if nbits > 8 then
    if 18 ≤ w ∧ w ≤ 29 then .distSymbol (BitVec.ofNat 5 w) else .llSymbol (BitVec.ofNat 9 w)
  else if w < 4 then .blockHeader (headerBits w false)
  else if w ≤ 18 then .clSymbol (BitVec.ofNat 5 w)
  else .distSymbol (BitVec.ofNat 5 w)

/-- The instruction the decoder reads from the bits `w` of a table row of `nbits` bits, in the space `tableSelector`
gives; a block header's BFINAL, for which the table has no bit, is 0. -/
def decodeTableWord (nbits w : Nat) : Option Instr :=
  match decode (tableSelector nbits w) with
  | .ok i => some i
  | .error _ => none

end Sys2Proof
end

