-- ==== Sys2Proof/Machine/HostPort.lean ====
section
/-! DEFINITION. What the host's steps do: register accesses at REG_BASE and accesses to M, with the hazard of
70_reset_and_hazards.md R360. -/

namespace Sys2Proof.Machine

/-- The register a host access reaches (20_memory.md R70): an aligned 32-bit access inside the 64-byte window. Any other
access inside the window is refused (60_exceptions.md R336), and one outside it does not reach the engine (log 11). -/
def State.decodeAccess (s : State) (addr width : Nat) : Except Refusal Reg :=
  if addr < s.params.regBase ∨ s.params.regBase + 64 ≤ addr then .error .outsideWindow
  else if width = 4 ∧ (addr - s.params.regBase) % 4 = 0 then
    match Reg.all[(addr - s.params.regBase) / 4]? with
    | some r => .ok r
    | none => .error .registerAccess
  else .error .registerAccess

/-- Whether a command reads a source region (20_memory.md R61). -/
def usesSrc : Instr → Bool
  | .brReadBit | .brRead _ | .brReadCoded _ | .brAlign | .crc32 | .huffBuild _ | .lz77Tokenize | .compress
  | .decompress => true
  | _ => false

/-- Whether a command uses a destination region (20_memory.md R61). -/
def usesDst : Instr → Bool
  | .bwWrite _ | .bwWriteCoded _ | .bwAlign | .huffBuild _ | .lz77Tokenize | .compress | .decompress => true
  | _ => false

/-- Address `a` is a byte of a region of the accepted command (70_reset_and_hazards.md R360). An illegal command word
uses no region (log 12). -/
def State.inHazard (s : State) (a : Word) : Bool :=
  match s.pending with
  | none => false
  | some w =>
    (usesSrc (decodeCommand w) && inRegion s.srcAddr s.srcLen a.toNat) ||
      (usesDst (decodeCommand w) && inRegion s.dstAddr s.dstCap a.toNat)

/-- One host step. A register read has no side effect on the engine (20_memory.md R73); what it returns is `busData`. -/
def hostStep (op : HostOp) (s : State) : Result :=
  match op with
  | .readReg addr width =>
    match s.decodeAccess addr width with
    | .ok r => .next { s with busData := s.readReg r }
    | .error e => .refused e
  | .writeReg addr width v =>
    match s.decodeAccess addr width with
    | .ok r => .next (s.writeReg r v)
    | .error e => .refused e
  | .readMem a =>
    if s.inHazard a then .fault .hazard else .next { s with busData := (s.readMem a).setWidth 32 }
  | .writeMem a b => if s.inHazard a then .fault .hazard else .next (s.writeMem a b)

end Sys2Proof.Machine
end

