-- ==== Sys2Proof/Machine/Engine.lean ====
section
/-! DEFINITION. The engine's turn, the order of the agents' steps, and how a selector is put where the next step fetches
it. -/

namespace Sys2Proof.Machine

/-- The engine's turn (46_control.md R301): inside a Run of DECOMPRESS the FSM takes its next symbol (log 9), else the
accepted command runs, and with BUSY = 0 the engine does nothing (60_exceptions.md R341, log 6). -/
def engineTurn (s : State) : Result :=
  match s.work with
  | some _ => s.streamStep
  | none =>
    match s.pending with
    | some w => exec (decodeCommand w) s
    | none => .next s

/-- One step of the machine (20_memory.md R74). No agent's step comes inside a Run (00_scope.md R14); else the next event
of `inputs` happens, and when there is none it is the engine's turn (70_reset_and_hazards.md R365, log 5). -/
def agentStep (s : State) : Result :=
  match s.work with
  | some _ => s.streamStep
  | none =>
    match s.inputs with
    | [] => engineTurn s
    | .engine :: rest => engineTurn { s with inputs := rest }
    | .host op :: rest => hostStep op { s with inputs := rest }
    | .rst :: rest => .next (State.rst { s with inputs := rest })

/-- The selector that number `sym` is in the FSM state that reads it, where it is one of that space. -/
def Phase.selector (p : Phase) (sym : Nat) : Option Selector :=
  match p with
  | .header => if sym < 8 then some (.blockHeader (BitVec.ofNat 3 sym)) else none
  | .lengths _ _ _ _ => if sym ≤ 18 then some (.clSymbol (BitVec.ofNat 5 sym)) else none
  | .data _ _ => if sym ≤ 287 then some (.llSymbol (BitVec.ofNat 9 sym)) else none
  | .distance _ _ _ => if sym ≤ 31 then some (.distSymbol (BitVec.ofNat 5 sym)) else none

/-- A command word latched, and the engine's turn next. -/
def State.placeCommand (s : State) (w : Word) : State :=
  { s with pending := some w, work := none, inputs := .engine :: s.inputs }

/-- Bits written to the source region from its bit 0 on, and zeros up to the end of 8 bytes; the reader at bit 0. -/
def State.placeBits (s : State) (bits : List Bool) : State :=
  let byte (k : Nat) : Byte := BitVec.ofNat 8 (natOfLsb ((bits.drop (8 * k)).take 8))
  let put (t : State) (k : Nat) : State := t.writeMem (t.srcByteAddr k) (byte k)
  { (List.range 8).foldl put s with srcLen := 8#32, brPos := 0#32 }

/-- The bytes produced so far, if a DECOMPRESS is running. -/
def State.workOut (s : State) : List Byte := (s.work.map Decoder.out).getD []

/-- BFINAL of the current block, if a DECOMPRESS is running. -/
def State.workFinal (s : State) : Bool := (s.work.map Decoder.final).getD false

/-- The code of a symbol in a canonical table, as it stands on the stream (30_encoding.md R110). -/
def codeBits (lens : List Nat) (sym : Nat) : List Bool := bitsMsb (lens.getD sym 0) ((canon lens).getD sym 0)

/-- A code-length code of 19 codes of 5 bits. -/
def uniformClLen : List Nat := List.replicate 19 5

/-- The decoder FSM in a state that reads a selector of the given space, and the selector's bits next on the stream: the
header's own bits, or the symbol's code in the fixed tables (30_encoding.md R112, R113), a code-length symbol's in a
table of 19 codes of 5 bits (log 10). -/
def State.placeSelector (s : State) (x : Selector) : State :=
  match x with
  | .command w => s.placeCommand w
  | .blockHeader h =>
    { s.placeBits (bitsLsb 3 h.toNat) with work := some ⟨s.workOut, s.workFinal, .header⟩ }
  | .clSymbol c =>
    { s.placeBits (codeBits uniformClLen c.toNat) with
      work := some ⟨s.workOut, s.workFinal, .lengths 257 258 (decodeView uniformClLen) []⟩ }
  | .llSymbol c =>
    { s.placeBits (codeBits fixedLlLen c.toNat) with
      work := some ⟨s.workOut, s.workFinal, .data (decodeView fixedLlLen) (decodeView fixedDLen)⟩ }
  | .distSymbol c =>
    { s.placeBits (codeBits fixedDLen c.toNat) with
      work := some ⟨s.workOut, s.workFinal, .distance (decodeView fixedLlLen) (decodeView fixedDLen) 3⟩ }

end Sys2Proof.Machine
end

