-- ==== Sys2Proof/Machine/Step.lean ====
section
/-! DEFINITION. The step of the machine, and the state in which a given table word is what the next step runs. -/

namespace Sys2Proof.Machine

/-- One step (20_memory.md R74). -/
def step (s : State) : Host.Outcome State Fault Refusal := agentStep s

/-- `s` with the bits `w` of a table row of `nbits` bits stored where the next step fetches its selector (log 10). -/
def State.withFetchWord (s : State) (nbits w : Nat) : State := s.placeSelector (tableSelector nbits w)

end Sys2Proof.Machine
end

