-- ==== Sys2Proof/Safety.lean ====
section
/-! DEFINITION. What counts as a safe state and a safe run, and the terms the statements about the machine are written
in. -/

namespace Sys2Proof.Machine

/-- A state another agent can see: M is in canonical form, no command is inside its Run (46_control.md R301), and the
OPEN parameters are legal (00_scope.md R8). -/
abbrev State.Inv (s : State) : Prop := s.mem.wf = true ∧ s.work = none ∧ s.params.legal

/-- A step is safe when it answers a next state. -/
def Safe (s : State) : Prop := ∃ t, step s = .next t

/-- Every one of the first `k` steps is safe. -/
def SafeRun : Nat → State → Prop
  | 0, _ => True
  | k + 1, s => ∃ t, step s = .next t ∧ SafeRun k t

/-- The registers no command but SOFT_RESET writes (46_control.md R304), and the model's constant parameters. -/
def SameOperands (s t : State) : Prop :=
  t.srcAddr = s.srcAddr ∧ t.srcLen = s.srcLen ∧ t.dstAddr = s.dstAddr ∧ t.dstCap = s.dstCap ∧
    t.value = s.value ∧ t.nsym = s.nsym ∧ t.irqEn = s.irqEn ∧ t.params = s.params

/-- The bytes of M at the addresses that `p` admits are the same in both states. -/
def SameBytes (p : Nat → Prop) (s t : State) : Prop := ∀ a, p a → t.mem.read a = s.mem.read a

/-- Address `a` is no byte of the destination region (20_memory.md R62). -/
def State.OutsideDst (s : State) (a : Nat) : Prop := inRegion s.dstAddr s.dstCap a = false

/-- Address `a` is none of the first `n` bytes of the destination region. -/
def State.OutsideFirst (s : State) (n : Nat) (a : Nat) : Prop := ∀ i, i < n → a ≠ (s.dstByteAddr i).toNat

/-- Bit `p` of the destination region (10_state.md R33). -/
def State.dstBit (s : State) (p : Nat) : Bool := (s.dstByteRead (p / 8)).getLsbD (p % 8)

/-- Bit `i` of the byte at address `a` is none of the `n` destination bits from position `p` on. -/
def State.OutsideBits (s : State) (p n : Nat) (a i : Nat) : Prop :=
  ∀ k, k < n → ¬ (a = (s.dstByteAddr ((p + k) / 8)).toNat ∧ i = (p + k) % 8)

/-- The bits of M that `p` admits are the same in both states. -/
def SameMemBits (p : Nat → Nat → Prop) (s t : State) : Prop :=
  ∀ a i, i < 8 → p a i → (t.mem.read a).getLsbD i = (s.mem.read a).getLsbD i

/-- Record `k` of the destination region, little-endian (20_memory.md R63). -/
def State.dstWordAt (s : State) (k : Nat) : Nat :=
  (s.dstByteRead (4 * k)).toNat + (s.dstByteRead (4 * k + 1)).toNat * 256 +
    (s.dstByteRead (4 * k + 2)).toNat * 65536 + (s.dstByteRead (4 * k + 3)).toNat * 16777216

/-- The first `n` bytes of the destination region. -/
def State.dstBytes (s : State) (n : Nat) : List Byte := (List.range n).map s.dstByteRead

/-- The tokens cover `data` from position `i` to its end, literals and copies alike giving the bytes that stand there,
and every copy is legal (43_lz77.md R216). -/
def TokensCover (data : List Byte) : Nat → List Token → Prop
  | i, [] => i = data.length
  | i, .literal b :: rest => data[i]? = some b ∧ TokensCover data (i + 1) rest
  | i, .copy l d :: rest =>
    3 ≤ l ∧ l ≤ 258 ∧ 1 ≤ d ∧ d ≤ 32768 ∧ d ≤ i ∧ i + l ≤ data.length ∧
      (∀ j, j < l → data[i + j]? = data[i + j - d]?) ∧ TokensCover data (i + l) rest

/-- `n` bytes appended to `out`, each the one `dist` back from the end (45_deflate_decode.md R281). -/
def appendCopies (dist : Nat) : Nat → List Byte → List Byte
  | 0, out => out
  | n + 1, out => appendCopies dist n (out ++ [out.getD (out.length - dist) 0#8])

/-- The bytes a token sequence stands for, after `out`. -/
def expandTokens : List Byte → List Token → List Byte
  | out, [] => out
  | out, .literal b :: rest => expandTokens (out ++ [b]) rest
  | out, .copy l d :: rest => expandTokens (appendCopies d l out) rest

/-- The code lengths that pairs of code-length symbol and extra bits stand for, after `seq` (30_encoding.md R105). -/
def expandItems : List Nat → List ClItem → List Nat
  | seq, [] => seq
  | seq, i :: rest =>
    if i.sym = 16 then expandItems (seq ++ List.replicate (3 + i.extra) (seq.getLastD 0)) rest
    else if i.sym = 17 then expandItems (seq ++ List.replicate (3 + i.extra) 0) rest
    else if i.sym = 18 then expandItems (seq ++ List.replicate (11 + i.extra) 0) rest
    else expandItems (seq ++ [i.sym]) rest

/-- The Kraft sum of the nonzero lengths, times 2^m. -/
def kraft (m : Nat) (lens : List Nat) : Nat :=
  ((lens.filter (fun l => decide (l > 0))).map (fun l => 2 ^ (m - l))).sum

/-- The bits of the fields in turn, if every symbol has a code. -/
def fieldBits : List Field → Except CmdError (List Bool)
  | [] => .ok []
  | f :: fs =>
    match f.bits with
    | .error e => .error e
    | .ok bits =>
      match fieldBits fs with
      | .error e => .error e
      | .ok rest => .ok (bits ++ rest)

/-- The stream a COMPRESS in state `s` writes, before its pad (44_deflate_encode.md R245). -/
def State.compressedBits (s : State) : Except CmdError (List Bool) := fieldBits (streamFields s.params s.srcBytes)

/-- The state after a command that ends without error, with its results already written in `t` (46_control.md R301). -/
def State.finished (t : State) : State := { t with errcode := none, done := true, pending := none, work := none }

/-- The state after a command that started in `s`, changed nothing and ends in error `e` (60_exceptions.md R326). -/
def State.failed (s : State) (e : CmdError) : State :=
  { s with outLen := 0#32, errcode := some e, done := true, pending := none, work := none }

/-- The table that decodes the next symbol, where the FSM reads one (45_deflate_decode.md R273, R276, R278). -/
def Phase.view : Phase → Option DecodeView
  | .header => none
  | .lengths _ _ ct _ => some ct
  | .data lt _ => some lt
  | .distance _ dt _ => some dt

/-- Whether the FSM reads selectors of this one's space in that state (45_deflate_decode.md R275). -/
def Phase.reads : Phase → Selector → Bool
  | .header, .blockHeader _ => true
  | .lengths _ _ _ _, .clSymbol _ => true
  | .data _ _, .llSymbol _ => true
  | .distance _ _ _, .distSymbol _ => true
  | _, _ => false

/-- The state of a running DECOMPRESS that has produced `out` and is in FSM state `p`. -/
def State.decoding (s : State) (out : List Byte) (final : Bool) (p : Phase) : State :=
  { s with work := some ⟨out, final, p⟩ }

/-- The state after a DECOMPRESS that failed in `s` with `e`: M and BR_POS are those of the draw, and nothing else
changes beyond the end of the command (60_exceptions.md R326). -/
def State.decodeFailed (s : State) (e : CmdError) : State :=
  { s with
    mem := s.drawnMem e
    brPos := Config.freeWord s.draws
    draws := s.draws + 1
    outLen := 0#32
    errcode := some e
    done := true
    pending := none
    work := none }

end Sys2Proof.Machine
end

