-- ==== Sys2Proof/Certificates/Slice0/Obligations.lean ====
section
/-! DEFINITION. The statements for the provers, listed in OBLIGATIONS.json. -/

open Sys2Proof Sys2Proof.Machine

/-- For every well-formed instruction i of the whole opcode table, command words and stream selectors alike, with every
operand at every value the encoding admits, decode (encode i) is i. (30_encoding.md R90, R92, R93, R101, R105, R107,
R108, R109, R116) -/
def Obligations.DecodeEncodeRoundTrip : Prop :=
  ∀ i : Instr, i.wellFormed = true → decode (encode i) = .ok i

/-- Whenever the decoder reads a selector x as an instruction i, i is well-formed and encodes to x: no bit of a command
word, header or symbol is dropped, and every selector has one meaning. (30_encoding.md R90, R92, R93, R101, R105,
R107, R108, R109) -/
def Obligations.EncodeDecodeRoundTrip : Prop :=
  ∀ (x : Selector) (i : Instr), decode x = .ok i → i.wellFormed = true ∧ encode i = x

/-- For every command word w: if the reserved bits are not 0, or OP is not in the map of R92, or N or L is out of range
where used or nonzero where unused, w decodes to the illegal command and running it, from any state, changes nothing
but OUT_LEN = 0 and the end of the command with ERRCODE IllegalCommand. Every other word decodes to a command whose
encoding is w. (R93) -/
def Obligations.DecodeRaisesExactlyOnIllegalWords : Prop :=
  ∀ (w : Word) (s : State),
    (legalCommandWord w = false →
      decodeCommand w = .illegalCommand w ∧ exec (decodeCommand w) s = .next (s.failed .illegalCommand)) ∧
    (legalCommandWord w = true → decodeCommand w ≠ .illegalCommand w ∧ encode (decodeCommand w) = .command w)

/-- Selectors written out bit by bit from the encoding tables, at least one of each family, decode to the instruction
they stand for. (30_encoding.md R90, R92, R101, R105, R107, R108, R109) -/
def Obligations.SampleSelectorsDecode : Prop :=
  decode (.command 0b00000000000000000000000000000000#32) = .ok .nop ∧
    decode (.command 0b00000000000000000001000000010000#32) = .ok (.bwWrite 16#5) ∧
    decode (.command 0b00000000000000000000111100011010#32) = .ok (.brReadCoded 15#5) ∧
    decode (.command 0b00000000000000000000000000100000#32) = .ok .crc32 ∧
    decode (.command 0b00000000000011110000000000110000#32) = .ok (.huffBuild 15#4) ∧
    decode (.command 0b00000000000000000000000001000000#32) = .ok .lz77Tokenize ∧
    decode (.command 0b00000000000000000000000001010000#32) = .ok .compress ∧
    decode (.command 0b00000000000000000000000001100000#32) = .ok .decompress ∧
    decode (.command 0b00000000000000000010000000000000#32) =
      .ok (.illegalCommand 0b00000000000000000010000000000000#32) ∧
    decode (.blockHeader 0b101#3) = .ok (.blockDynamic true) ∧
    decode (.clSymbol 0b10010#5) = .ok .cl18 ∧
    decode (.llSymbol 0b001100001#9) = .ok (.llLiteral 0x61#8) ∧
    decode (.llSymbol 0b100011101#9) = .ok .llLen285 ∧
    decode (.distSymbol 0b11101#5) = .ok .dist29

/-- A host write of v to CMD while BUSY = 0 gives BUSY = 1, DONE = 0, irq = 0 and the latched word v, and changes
nothing else; a CMD write while BUSY = 1 changes nothing; and CMD reads 0. That a word is latched exactly while BUSY =
1, the last clause, is the model's reading (log 8). (46_control.md R300; 60_exceptions.md R332) -/
def Obligations.CmdWriteIsAccepted : Prop :=
  ∀ (s : State) (v : Word),
    (s.busy = false →
      hostStep (.writeReg (s.params.regBase + 8) 4 v) s = .next { s with done := false, pending := some v } ∧
      ({ s with done := false, pending := some v } : State).busy = true ∧
      ({ s with done := false, pending := some v } : State).irq = false) ∧
    (s.busy = true → hostStep (.writeReg (s.params.regBase + 8) 4 v) s = .next s) ∧
    hostStep (.readReg (s.params.regBase + 8) 4) s = .next { s with busData := 0#32 } ∧
    (s.busy = true ↔ ∃ w, s.pending = some w)

/-- Outside a Run: with the word w latched, when no event is listed, or the engine's turn is listed next, step is exec
of the decoded word (with that event taken off the list); when a host step is listed next, step is that host step
(with it taken off the list), whether or not a word is latched; and with no word latched, the engine's turn, listed
next or come because no event is listed, changes nothing but the list. The list of events is the model's choice (log
5), and so is the idle turn (log 6). (46_control.md R300, R301; 20_memory.md R74; 60_exceptions.md R341;
70_reset_and_hazards.md R365) -/
def Obligations.StepRunsAcceptedCommand : Prop :=
  ∀ (s : State), s.work = none →
    (∀ w, s.pending = some w → s.inputs = [] → step s = exec (decodeCommand w) s) ∧
    (∀ w rest, s.pending = some w → s.inputs = .engine :: rest →
      step s = exec (decodeCommand w) { s with inputs := rest }) ∧
    (∀ op rest, s.inputs = .host op :: rest → step s = hostStep op { s with inputs := rest }) ∧
    (s.pending = none → s.inputs = [] → step s = .next s) ∧
    (∀ rest, s.pending = none → s.inputs = .engine :: rest → step s = .next { s with inputs := rest })

/-- When a DECOMPRESS is inside its Run, whatever events are listed: if the FSM fetches the selector with number n at
BR_POS, leaving the state t, and that selector decodes to i, step is exec of i at t; if the fetch raises e, step ends
the command in e. A header with fewer than 3 bits left is Truncated. Where no code of the table in use matches, fewer
bits left than its largest length is Truncated, and that many bits left, or an empty table, is CorruptData. That such
a step executes one symbol and leaves the events alone is the model's choice (log 9): R301 makes the Run one step.
(42_huffman.md R189; 45_deflate_decode.md R261, R262, R264, R275, R276; 60_exceptions.md R322, R323) -/
def Obligations.StepRunsFetchedSymbol : Prop :=
  ∀ (s : State) (d : Decoder), s.work = some d →
    let p := s.brPos.toNat
    (∀ (n : Nat) (t : State) (x : Selector) (i : Instr),
      s.fetchSymbol d = .ok (n, t) → d.phase.selector n = some x → decode x = .ok i → step s = exec i t) ∧
    (∀ e, s.fetchSymbol d = .error e → step s = .next (s.decodeFailed e)) ∧
    (s.srcRegionOk = true → d.phase = .header → s.srcBits < p + 3 → step s = .next (s.decodeFailed .truncated)) ∧
    (∀ v : DecodeView, s.srcRegionOk = true → d.phase.view = some v →
      (∀ n, 1 ≤ n → v.minLen ≤ n → n ≤ v.maxLen → p + n ≤ s.srcBits →
        v.lookup n (natOfMsb 0 (s.srcBitList p n)) = none) →
      (v.maxLen ≠ 0 → s.srcBits < p + v.maxLen → step s = .next (s.decodeFailed .truncated)) ∧
      (v.maxLen = 0 ∨ p + v.maxLen ≤ s.srcBits → step s = .next (s.decodeFailed .corruptData)))

/-- While a command w is latched: a host write of any value to any of the 16 registers changes nothing; a host read
returns the current register value; and a host access to a byte of the source or destination region that w uses is
the hazard fault. (R302) -/
def Obligations.BusyHostStepsAreDropped : Prop :=
  ∀ (s : State) (w : Word), s.pending = some w →
    (∀ (k : Nat) (r : Reg) (v : Word), Reg.all[k]? = some r →
      hostStep (.writeReg (s.params.regBase + 4 * k) 4 v) s = .next s ∧
      hostStep (.readReg (s.params.regBase + 4 * k) 4) s = .next { s with busData := s.readReg r }) ∧
    (∀ (a : Word) (b : Byte),
      (usesSrc (decodeCommand w) = true ∧ inRegion s.srcAddr s.srcLen a.toNat = true) ∨
        (usesDst (decodeCommand w) = true ∧ inRegion s.dstAddr s.dstCap a.toNat = true) →
      hostStep (.readMem a) s = .fault .hazard ∧ hostStep (.writeMem a b) s = .fault .hazard)

/-- A host access to a byte of M that is in no region of the latched command, or while no command is latched, is no
hazard: a read returns the byte, a write changes that byte and no other, and no register changes. M is in canonical
form. That an illegal word has no region, and that a refused region's bytes are taken without wrapping, is the model's
choice (log 12), and so is an access of one byte a step (log 13). (70_reset_and_hazards.md R360; 20_memory.md R60,
R65, R74) -/
def Obligations.HostMemoryAccess : Prop :=
  ∀ (s : State) (a : Word) (b : Byte), s.mem.wf = true →
    (∀ w, s.pending = some w →
      (usesSrc (decodeCommand w) = true → inRegion s.srcAddr s.srcLen a.toNat = false) ∧
      (usesDst (decodeCommand w) = true → inRegion s.dstAddr s.dstCap a.toNat = false)) →
    hostStep (.readMem a) s = .next { s with busData := (s.readMem a).setWidth 32 } ∧
    ∃ t, hostStep (.writeMem a b) s = .next t ∧ t = { s with mem := t.mem } ∧ t.readMem a = b ∧
      SameBytes (fun x => x ≠ a.toNat) s t

/-- A host access inside the 64 bytes from REG_BASE whose width is not 4 bytes or whose offset is not a multiple of 4 is
refused by name, for a read and for a write; every aligned 32-bit access at an offset 0x00 to 0x3C is answered.
(R336) -/
def Obligations.RegisterWindowRefusals : Prop :=
  ∀ (s : State) (offset width : Nat) (v : Word), offset < 64 →
    (¬ (width = 4 ∧ offset % 4 = 0) →
      hostStep (.readReg (s.params.regBase + offset) width) s = .refused .registerAccess ∧
      hostStep (.writeReg (s.params.regBase + offset) width v) s = .refused .registerAccess) ∧
    (width = 4 → offset % 4 = 0 →
      (∃ t, hostStep (.readReg (s.params.regBase + offset) width) s = .next t) ∧
      ∃ t, hostStep (.writeReg (s.params.regBase + offset) width v) s = .next t)

/-- STATUS reads BUSY, DONE, ERRCODE != 0, BR_POS >= 8 * SRC_LEN and BW_POS >= 8 * DST_CAP in bits 0 to 4 and 0 above,
and 0x18 at reset; while idle a write with bit 1 set clears DONE and changes nothing else, and a write with bit 1
clear changes nothing. In every state irq is STATUS bit 1 and CTRL bit 0, so the write with bit 1 set makes it 0 and
the other leaves it. (R25; and the output irq of 60_exceptions.md R332, R333) -/
def Obligations.StatusRegisterFields : Prop :=
  ∀ (s : State),
    (s.readReg .status).getLsbD 0 = s.busy ∧
    (s.readReg .status).getLsbD 1 = s.done ∧
    ((s.readReg .status).getLsbD 2 = true ↔ s.readReg .errcode ≠ 0#32) ∧
    ((s.readReg .status).getLsbD 3 = true ↔ (s.readReg .brPos).toNat ≥ 8 * (s.readReg .srcLen).toNat) ∧
    ((s.readReg .status).getLsbD 4 = true ↔ (s.readReg .bwPos).toNat ≥ 8 * (s.readReg .dstCap).toNat) ∧
    (∀ k, 5 ≤ k → (s.readReg .status).getLsbD k = false) ∧
    State.reset.readReg .status = 0x18#32 ∧
    s.irq = ((s.readReg .status).getLsbD 1 && (s.readReg .ctrl).getLsbD 0) ∧
    (s.busy = false → ∀ v : Word,
      ∃ t, hostStep (.writeReg (s.params.regBase + 4) 4 v) s = .next t ∧
        t = (if v.getLsbD 1 then { s with done := false } else s) ∧ t.irq = (s.irq && !v.getLsbD 1))

/-- While BUSY = 0, a host write of v to register k of the map changes that register to v (CTRL to bit 0 of v, with
irq from then on DONE and that bit), leaves every other register, irq, M, the latch and every further field of the
state as they were, and does nothing at all to ERRCODE, OUT_LEN, RESULT, the reserved word and ID; CMD and the
reserved word read 0 and ID reads 1. CMD and STATUS writes have statements of their own. (10_state.md R23, R24, R27,
R28, R31; 60_exceptions.md R332, R333, R337, R342) -/
def Obligations.IdleRegisterWrites : Prop :=
  ∀ (s : State) (k : Nat) (r : Reg) (v : Word), s.busy = false → Reg.all[k]? = some r → r ≠ .cmd → r ≠ .status →
    ∃ t, hostStep (.writeReg (s.params.regBase + 4 * k) 4 v) s = .next t ∧
      (r ∈ [Reg.errcode, .outLen, .result, .reserved, .id] → t = s) ∧
      (r ∈ [Reg.srcAddr, .srcLen, .dstAddr, .dstCap, .brPos, .bwPos, .value, .nsym] → t.readReg r = v) ∧
      (r = .ctrl → t.readReg .ctrl = v &&& 1#32 ∧ t.irq = (s.done && v.getLsbD 0)) ∧
      (r ≠ .ctrl → t.irq = s.irq) ∧
      (∀ q, q ≠ r → q ≠ .status → t.readReg q = s.readReg q) ∧
      t.readReg .cmd = 0#32 ∧ t.readReg .reserved = 0#32 ∧ t.readReg .id = 1#32 ∧
      t.mem = s.mem ∧ t.pending = s.pending ∧ t.done = s.done ∧ t.work = s.work ∧ t.inputs = s.inputs ∧
      t.params = s.params ∧ t.busData = s.busData ∧ t.draws = s.draws

/-- When rst is the next event outside a Run, the step gives every register its reset value, with STATUS 0x18 and irq 0,
no latched word, BUSY = 0 and no working state, and M as it was: a command that was accepted and had not run makes
none of its writes. The parameters, the further events, the last bus data and the draw counter are the model's own
and stay (log 14). (70_reset_and_hazards.md R350, R351, R352) -/
def Obligations.RstCancelsAndKeepsMemory : Prop :=
  ∀ (s : State) (rest : List Event), s.work = none → s.inputs = .rst :: rest →
    ∃ t, step s = .next t ∧ t.busy = false ∧ t.pending = none ∧ t.work = none ∧ t.mem = s.mem ∧ t.irq = false ∧
      (∀ r, t.readReg r = State.reset.readReg r) ∧ t.readReg .status = 0x18#32 ∧ t.readReg .id = 1#32 ∧
      (∀ r, r ≠ .status → r ≠ .id → t.readReg r = 0#32) ∧
      t.params = s.params ∧ t.inputs = rest ∧ t.busData = s.busData ∧ t.draws = s.draws

/-- From every state, with every command word, Run answers a next state: DONE = 1, BUSY = 0, nothing latched, no working
state, and irq equal to IRQ_EN. No run ends in a fault or a refusal, DECOMPRESS included. (70_reset_and_hazards.md
R365, R366; 46_control.md R301; 60_exceptions.md R327, R332) -/
def Obligations.EveryCommandEnds : Prop :=
  ∀ (w : Word) (s : State), ∃ t, exec (decodeCommand w) s = .next t ∧ t.done = true ∧ t.busy = false ∧
    t.pending = none ∧ t.work = none ∧ t.irq = t.irqEn

/-- NOP runs in every state: OUT_LEN is 0, ERRCODE is 0, DONE is 1, and nothing else changes but the end of the command.
(R305) -/
def Obligations.NopClearsError : Prop :=
  ∀ s : State, exec .nop s = .next ({ s with outLen := 0#32 } : State).finished

/-- SOFT_RESET runs in every state: CTRL, ERRCODE, the region, result, operand and cursor registers are 0, M is
unchanged, and STATUS reads DONE = 1, ERR = 0, BR_END = 1, BW_END = 1 with irq 0. (R306) -/
def Obligations.SoftResetClearsRegisters : Prop :=
  ∀ s : State, ∃ t, exec .softReset s = .next t ∧
    t = ({ s with
      irqEn := false, srcAddr := 0#32, srcLen := 0#32, dstAddr := 0#32, dstCap := 0#32, outLen := 0#32, brPos := 0#32,
      bwPos := 0#32, value := 0#32, result := 0#32, nsym := 0#32 } : State).finished ∧
    (∀ r, r ≠ .status → r ≠ .id → t.readReg r = State.reset.readReg r) ∧ t.readReg .status = 0x1A#32 ∧
    t.irq = false ∧ t.mem = s.mem

/-- BW_WRITE with any N from 0 to 16: bit k of VALUE goes to destination bit BW_POS + k, every other bit of M stays,
BW_POS moves by N, OUT_LEN is the bytes begun, and no other register changes. A bad destination region ends in
IllegalCommand, a write past 8 * DST_CAP in OutOfRange, each with nothing changed but OUT_LEN = 0. M is in canonical
form. (R150) -/
def Obligations.BwWriteWritesValueBits : Prop :=
  ∀ (nb : BitVec 5) (s : State), s.mem.wf = true → nb.toNat ≤ 16 →
    let p := s.bwPos.toNat
    let n := nb.toNat
    (s.dstRegionOk = false → exec (.bwWrite nb) s = .next (s.failed .illegalCommand)) ∧
    (s.dstRegionOk = true → p + n > 8 * s.dstCap.toNat → exec (.bwWrite nb) s = .next (s.failed .outOfRange)) ∧
    (s.dstRegionOk = true → p + n ≤ 8 * s.dstCap.toNat →
      ∃ t, exec (.bwWrite nb) s = .next t ∧
        t = ({ s with
          mem := t.mem
          bwPos := BitVec.ofNat 32 (p + n)
          outLen := BitVec.ofNat 32 ((p + n + 7) / 8) } : State).finished ∧
        (∀ k, k < n → t.dstBit (p + k) = s.value.getLsbD k) ∧
        SameMemBits (s.OutsideBits p n) s t)

/-- BW_WRITE_CODED with any N from 0 to 15: bit N-1-k of VALUE goes to destination bit BW_POS + k, every other bit of M
stays, BW_POS moves by N, OUT_LEN is the bytes begun, and no other register changes. A bad destination region ends
in IllegalCommand, a write past 8 * DST_CAP in OutOfRange, each with nothing changed but OUT_LEN = 0. M is in
canonical form. (R151) -/
def Obligations.BwWriteCodedWritesValueBits : Prop :=
  ∀ (nb : BitVec 5) (s : State), s.mem.wf = true → nb.toNat ≤ 15 →
    let p := s.bwPos.toNat
    let n := nb.toNat
    (s.dstRegionOk = false → exec (.bwWriteCoded nb) s = .next (s.failed .illegalCommand)) ∧
    (s.dstRegionOk = true → p + n > 8 * s.dstCap.toNat → exec (.bwWriteCoded nb) s = .next (s.failed .outOfRange)) ∧
    (s.dstRegionOk = true → p + n ≤ 8 * s.dstCap.toNat →
      ∃ t, exec (.bwWriteCoded nb) s = .next t ∧
        t = ({ s with
          mem := t.mem
          bwPos := BitVec.ofNat 32 (p + n)
          outLen := BitVec.ofNat 32 ((p + n + 7) / 8) } : State).finished ∧
        (∀ k, k < n → t.dstBit (p + k) = s.value.getLsbD (n - 1 - k)) ∧
        SameMemBits (s.OutsideBits p n) s t)

/-- BW_ALIGN: 0 to 7 zero bits bring BW_POS to a byte boundary, every other bit of M stays, OUT_LEN is BW_POS div 8, and
no other register changes. A bad destination region ends in IllegalCommand, a write past 8 * DST_CAP in OutOfRange,
each with nothing changed but OUT_LEN = 0. M is in canonical form. (R152) -/
def Obligations.BwAlignPadsWithZeros : Prop :=
  ∀ (s : State), s.mem.wf = true → 
    let p := s.bwPos.toNat
    let n := (8 - p % 8) % 8
    (s.dstRegionOk = false → exec .bwAlign s = .next (s.failed .illegalCommand)) ∧
    (s.dstRegionOk = true → p + n > 8 * s.dstCap.toNat → exec .bwAlign s = .next (s.failed .outOfRange)) ∧
    (s.dstRegionOk = true → p + n ≤ 8 * s.dstCap.toNat →
      ∃ t, exec .bwAlign s = .next t ∧
        t = ({ s with
          mem := t.mem
          bwPos := BitVec.ofNat 32 (p + n)
          outLen := BitVec.ofNat 32 ((p + n) / 8) } : State).finished ∧
        (∀ k, k < n → t.dstBit (p + k) = false) ∧
        SameMemBits (s.OutsideBits p n) s t)

/-- BR_READ_BIT: RESULT is the source bit at BR_POS, zero-extended, BR_POS moves by 1, OUT_LEN is 0, and M and every
other register stay. A bad source region ends in IllegalCommand, a read past 8 * SRC_LEN in OutOfRange, each with
nothing changed but OUT_LEN = 0. (R155) -/
def Obligations.BrReadBitReadsOneBit : Prop :=
  ∀ (s : State), 
    let p := s.brPos.toNat
    let n := 1
    (s.srcRegionOk = false → exec .brReadBit s = .next (s.failed .illegalCommand)) ∧
    (s.srcRegionOk = true → p + n > 8 * s.srcLen.toNat → exec .brReadBit s = .next (s.failed .outOfRange)) ∧
    (s.srcRegionOk = true → p + n ≤ 8 * s.srcLen.toNat →
      ∃ t, exec .brReadBit s = .next t ∧
        t = ({ s with
          brPos := BitVec.ofNat 32 (p + n)
          outLen := 0#32
          result := t.result } : State).finished ∧
        (∀ k, t.result.getLsbD k = (decide (k = 0) && s.srcBit p)))

/-- BR_READ with any N from 0 to 16: RESULT bit k is the source bit at BR_POS + k for k < N and 0 above, BR_POS moves by
N, OUT_LEN is 0, and M and every other register stay. A bad source region ends in IllegalCommand, a read past 8 *
SRC_LEN in OutOfRange, each with nothing changed but OUT_LEN = 0. (R156) -/
def Obligations.BrReadReadsLsbFirst : Prop :=
  ∀ (nb : BitVec 5) (s : State), nb.toNat ≤ 16 →
    let p := s.brPos.toNat
    let n := nb.toNat
    (s.srcRegionOk = false → exec (.brRead nb) s = .next (s.failed .illegalCommand)) ∧
    (s.srcRegionOk = true → p + n > 8 * s.srcLen.toNat → exec (.brRead nb) s = .next (s.failed .outOfRange)) ∧
    (s.srcRegionOk = true → p + n ≤ 8 * s.srcLen.toNat →
      ∃ t, exec (.brRead nb) s = .next t ∧
        t = ({ s with
          brPos := BitVec.ofNat 32 (p + n)
          outLen := 0#32
          result := t.result } : State).finished ∧
        (∀ k, t.result.getLsbD k = (decide (k < n) && s.srcBit (p + k))))

/-- BR_READ_CODED with any N from 0 to 15: the first bit read is RESULT bit N-1, RESULT is 0 above, BR_POS moves by N,
OUT_LEN is 0, and M and every other register stay. A bad source region ends in IllegalCommand, a read past 8 *
SRC_LEN in OutOfRange, each with nothing changed but OUT_LEN = 0. (R157) -/
def Obligations.BrReadCodedReadsMsbFirst : Prop :=
  ∀ (nb : BitVec 5) (s : State), nb.toNat ≤ 15 →
    let p := s.brPos.toNat
    let n := nb.toNat
    (s.srcRegionOk = false → exec (.brReadCoded nb) s = .next (s.failed .illegalCommand)) ∧
    (s.srcRegionOk = true → p + n > 8 * s.srcLen.toNat → exec (.brReadCoded nb) s = .next (s.failed .outOfRange)) ∧
    (s.srcRegionOk = true → p + n ≤ 8 * s.srcLen.toNat →
      ∃ t, exec (.brReadCoded nb) s = .next t ∧
        t = ({ s with
          brPos := BitVec.ofNat 32 (p + n)
          outLen := 0#32
          result := t.result } : State).finished ∧
        (∀ k, t.result.getLsbD k = (decide (k < n) && s.srcBit (p + (n - 1 - k)))))

/-- BR_ALIGN: BR_POS becomes the next multiple of 8 (itself at a boundary), OUT_LEN is 0, and M, RESULT and every other
register stay. A bad source region ends in IllegalCommand and a boundary past 8 * SRC_LEN in OutOfRange, each with
nothing changed but OUT_LEN = 0. (R158) -/
def Obligations.BrAlignSkipsToByteBoundary : Prop :=
  ∀ (s : State),
    let p := (s.brPos.toNat + 7) / 8 * 8
    (s.srcRegionOk = false → exec .brAlign s = .next (s.failed .illegalCommand)) ∧
    (s.srcRegionOk = true → p > 8 * s.srcLen.toNat → exec .brAlign s = .next (s.failed .outOfRange)) ∧
    (s.srcRegionOk = true → p ≤ 8 * s.srcLen.toNat →
      exec .brAlign s = .next ({ s with brPos := BitVec.ofNat 32 p, outLen := 0#32 } : State).finished)

/-- If BW_WRITE with N <= 16 ends without error, and then the source region is made the destination region and BR_POS
the old BW_POS, BR_READ with the same N gives RESULT = VALUE mod 2^N; and BW_WRITE_CODED followed by BR_READ_CODED
with N <= 15 does too. M is in canonical form. (40_bitstream.md R143, R144, R147, R148) -/
def Obligations.WrittenFieldReadsBack : Prop :=
  ∀ (nb : BitVec 5) (s t : State), s.mem.wf = true →
    (nb.toNat ≤ 16 → exec (.bwWrite nb) s = .next t → t.errcode = none →
      ∃ u, exec (.brRead nb) { t with srcAddr := s.dstAddr, srcLen := s.dstCap, brPos := s.bwPos } = .next u ∧
        u.errcode = none ∧ u.result.toNat = s.value.toNat % 2 ^ nb.toNat) ∧
    (nb.toNat ≤ 15 → exec (.bwWriteCoded nb) s = .next t → t.errcode = none →
      ∃ u, exec (.brReadCoded nb) { t with srcAddr := s.dstAddr, srcLen := s.dstCap, brPos := s.bwPos } = .next u ∧
        u.errcode = none ∧ u.result.toNat = s.value.toNat % 2 ^ nb.toNat)

/-- CRC32 in every state with a legal source region: RESULT is Crc32 of the source bytes (0 for an empty region),
OUT_LEN is 0, and the cursors, M and every other register stay; a bad region ends in IllegalCommand with RESULT
unchanged. The checksum of "123456789" is 0xCBF43926. (R173) -/
def Obligations.Crc32ChecksumsSource : Prop :=
  (∀ s : State,
      (s.srcRegionOk = false → exec .crc32 s = .next (s.failed .illegalCommand)) ∧
      (s.srcRegionOk = true →
        exec .crc32 s = .next ({ s with result := crc32 s.srcBytes, outLen := 0#32 } : State).finished) ∧
      (s.srcLen = 0#32 → crc32 s.srcBytes = 0#32)) ∧
    crc32 [0x31#8, 0x32#8, 0x33#8, 0x34#8, 0x35#8, 0x36#8, 0x37#8, 0x38#8, 0x39#8] = 0xCBF43926#32

/-- For every byte sequence, the table-driven Crc32 equals the checksum that shifts one bit at a time: each byte is
xored into the register and the register is shifted eight times, xoring in 0xEDB88320 whenever a 1 falls out.
(41_crc32.md R170, R171) -/
def Obligations.CrcTableDrivenIsBitSerial : Prop :=
  ∀ bytes : List Byte,
    crc32 bytes =
      bytes.foldl (fun c b => Nat.repeat crcShift 8 (c ^^^ b.setWidth 32)) 0xFFFFFFFF#32 ^^^ 0xFFFFFFFF#32

/-- HUFF_BUILD with any L from 1 to 15: in order, a bad region or NSYM outside 1..288 ends in IllegalCommand, a source
or destination below 4 * NSYM bytes in OutOfRange, more than 2^L used symbols in IllegalCommand, each with nothing
changed but OUT_LEN = 0; else record s of the destination is the code of symbol s with its length above bit 16, from
package-merge and the canonical codes of the source's frequencies, OUT_LEN is 4 * NSYM, every other byte of M and
every other register stays. M is in canonical form. (R195) -/
def Obligations.HuffBuildWritesCodeRecords : Prop :=
  (∀ (l : BitVec 4) (s : State), s.mem.wf = true → 1 ≤ l.toNat →
      let nsym := s.nsym.toNat
      let freq := (List.range nsym).map s.srcWord
      let lens := packageMerge freq l.toNat
      (s.bothRegionsOk = false → exec (.huffBuild l) s = .next (s.failed .illegalCommand)) ∧
      (s.bothRegionsOk = true → nsym < 1 ∨ nsym > 288 →
        exec (.huffBuild l) s = .next (s.failed .illegalCommand)) ∧
      (s.bothRegionsOk = true → 1 ≤ nsym → nsym ≤ 288 → s.srcLen.toNat < 4 * nsym ∨ s.dstCap.toNat < 4 * nsym →
        exec (.huffBuild l) s = .next (s.failed .outOfRange)) ∧
      (s.bothRegionsOk = true → 1 ≤ nsym → nsym ≤ 288 → 4 * nsym ≤ s.srcLen.toNat → 4 * nsym ≤ s.dstCap.toNat →
        (2 ^ l.toNat < usedSymbols freq → exec (.huffBuild l) s = .next (s.failed .illegalCommand)) ∧
        (usedSymbols freq ≤ 2 ^ l.toNat →
          ∃ t, exec (.huffBuild l) s = .next t ∧
            t = ({ s with mem := t.mem, outLen := BitVec.ofNat 32 (4 * nsym) } : State).finished ∧
            (∀ k, k < nsym → t.dstWordAt k =
              (BitVec.ofNat 32 ((canon lens).getD k 0 ||| lens.getD k 0 <<< 16)).toNat) ∧
            SameBytes (s.OutsideFirst (4 * nsym)) s t))) ∧
    packageMerge [1, 1, 2] 15 = [2, 2, 1] ∧ canon [2, 2, 1] = [2, 3, 0]

/-- For every frequency list and every L >= 1, no code length exceeds L, and a symbol has a length exactly if its
frequency is not 0. (42_huffman.md R182, R183, R184, R192) -/
def Obligations.PackageMergeLengthsInRange : Prop :=
  ∀ (freq : List Nat) (limit : Nat), 1 ≤ limit →
    (packageMerge freq limit).length = freq.length ∧
    ∀ k, (packageMerge freq limit).getD k 0 ≤ limit ∧
      (0 < (packageMerge freq limit).getD k 0 ↔ 0 < freq.getD k 0)

/-- For every frequency list with at least two used symbols and at most 2^L of them, the Kraft sum of the code lengths,
taken over 2^L, is exactly 2^L. (42_huffman.md R185, R192) -/
def Obligations.PackageMergeKraftSumIsOne : Prop :=
  ∀ (freq : List Nat) (limit : Nat), 2 ≤ usedSymbols freq → usedSymbols freq ≤ 2 ^ limit →
    kraft limit (packageMerge freq limit) = 2 ^ limit

/-- For every length list whose Kraft sum is at most 1, the code of a symbol is below 2 to its length, and for two
symbols with codes the leading bits of the longer code are never the shorter code. (42_huffman.md R186, R187) -/
def Obligations.CanonicalCodesPrefixFree : Prop :=
  ∀ (lens : List Nat) (m : Nat), (∀ l ∈ lens, l ≤ m) → kraft m lens ≤ 2 ^ m →
    (∀ k, 0 < lens.getD k 0 → (canon lens).getD k 0 < 2 ^ lens.getD k 0) ∧
    (∀ j k, j ≠ k → 0 < lens.getD j 0 → lens.getD j 0 ≤ lens.getD k 0 →
      (canon lens).getD k 0 / 2 ^ (lens.getD k 0 - lens.getD j 0) ≠ (canon lens).getD j 0)

/-- For every length list whose Kraft sum is at most 1, when the next source bits are the code of symbol k, MSB-first,
DecodeSymbol on the list's decode view gives k and moves BR_POS past the code and changes nothing else.
(42_huffman.md R187, R188, R189; 30_encoding.md R110, R114) -/
def Obligations.DecodeSymbolReadsItsCode : Prop :=
  ∀ (lens : List Nat) (m k : Nat) (s : State) (eof : CmdError), (∀ l ∈ lens, l ≤ m) → kraft m lens ≤ 2 ^ m →
    0 < lens.getD k 0 → s.srcRegionOk = true → s.brPos.toNat + lens.getD k 0 ≤ s.srcBits →
    s.srcBitList s.brPos.toNat (lens.getD k 0) = bitsMsb (lens.getD k 0) ((canon lens).getD k 0) →
    s.decodeSymbol (decodeView lens) eof =
      .ok (k, { s with brPos := BitVec.ofNat 32 (s.brPos.toNat + lens.getD k 0) })

/-- If exactly one frequency is not 0, its symbol gets length 1 and code 0 and no other symbol gets a length; if all are
0, no symbol gets a length, and decoding from that table raises CorruptData before a bit is read. (42_huffman.md
R183, R184, R189) -/
def Obligations.SingleAndEmptyTables : Prop :=
  (∀ (freq : List Nat) (limit k : Nat), 0 < freq.getD k 0 → (∀ j, j ≠ k → freq.getD j 0 = 0) →
      (∀ j, (packageMerge freq limit).getD j 0 = if j = k then 1 else 0) ∧
      (canon (packageMerge freq limit)).getD k 0 = 0) ∧
    (∀ (freq : List Nat) (limit : Nat) (s : State) (eof : CmdError), (∀ f ∈ freq, f = 0) →
      (∀ l ∈ packageMerge freq limit, l = 0) ∧
      s.decodeSymbol (decodeView (packageMerge freq limit)) eof = .error .corruptData)

/-- For every input and every LZ_* parameters: the tokens cover the input exactly, each literal is the byte it stands
at, each match has 3 <= length <= 258 and 1 <= distance <= 32768 with the distance at most its position, and every
byte of a match equals the byte the distance before it. The tokens depend on the input and the three LZ_* parameters
alone. (R216) -/
def Obligations.TokensCoverTheirInput : Prop :=
  (∀ (ps : Params) (data : List Byte), TokensCover data 0 (tokenize ps data)) ∧
    (∀ (ps qs : Params) (data : List Byte), ps.lzMaxChain = qs.lzMaxChain → ps.lzGoodLen = qs.lzGoodLen →
      ps.lzGoodChain = qs.lzGoodChain → tokenize ps data = tokenize qs data)

/-- For every input and every LZ_* parameters, expanding the tokens from the left, each match copied one byte at a time
from its distance back, gives the input. (43_lz77.md R216; 45_deflate_decode.md R281) -/
def Obligations.ExpandingTokensRestoresInput : Prop :=
  ∀ (ps : Params) (data : List Byte), expandTokens [] (tokenize ps data) = data

/-- LZ77_TOKENIZE: in order, a bad region or SRC_LEN above BLOCK_MAX ends in IllegalCommand, and a destination too small
for the records in OutOfRange, each with nothing changed but OUT_LEN = 0; else record k of the destination is the
record of token k, OUT_LEN is 4 times the number of tokens, every other byte of M and every other register stays. M
is in canonical form. (43_lz77.md R220; 30_encoding.md R97) -/
def Obligations.Lz77TokenizeWritesRecords : Prop :=
  ∀ s : State, s.mem.wf = true →
    let toks := tokenize s.params s.srcBytes
    (s.bothRegionsOk = false → exec .lz77Tokenize s = .next (s.failed .illegalCommand)) ∧
    (s.bothRegionsOk = true → 131072 < s.srcLen.toNat → exec .lz77Tokenize s = .next (s.failed .illegalCommand)) ∧
    (s.bothRegionsOk = true → s.srcLen.toNat ≤ 131072 → s.dstCap.toNat < 4 * toks.length →
      exec .lz77Tokenize s = .next (s.failed .outOfRange)) ∧
    (s.bothRegionsOk = true → s.srcLen.toNat ≤ 131072 → 4 * toks.length ≤ s.dstCap.toNat →
      ∃ t, exec .lz77Tokenize s = .next t ∧
        t = ({ s with mem := t.mem, outLen := BitVec.ofNat 32 (4 * toks.length) } : State).finished ∧
        (∀ k tok, toks[k]? = some tok → t.dstWordAt k = tok.record.toNat) ∧
        SameBytes (s.OutsideFirst (4 * toks.length)) s t)

/-- The record of a literal is its byte with the rest 0; the record of a match with 3 <= length <= 258 and 1 <= distance
<= 32768 has bit 31 set, bits 30:23 clear, distance - 1 in bits 22:8 and length - 3 in bits 7:0. (R97) -/
def Obligations.TokenRecordFields : Prop :=
  (∀ b : Byte, (Token.literal b).record.toNat = b.toNat) ∧
    (∀ l d : Nat, 3 ≤ l → l ≤ 258 → 1 ≤ d → d ≤ 32768 →
      (Token.copy l d).record.getLsbD 31 = true ∧
      ((Token.copy l d).record.extractLsb' 23 8).toNat = 0 ∧
      ((Token.copy l d).record.extractLsb' 8 15).toNat = d - 1 ∧
      ((Token.copy l d).record.extractLsb' 0 8).toNat = l - 3)

/-- For every sequence of code lengths up to 15, expanding the pairs of RLE by the meanings of the code-length symbols
gives the sequence back, and every pair is a symbol of the alphabet whose extra value fits its extra bits.
(44_deflate_encode.md R238; 30_encoding.md R105) -/
def Obligations.RunLengthCodeExpandsBack : Prop :=
  ∀ seq : List Nat, (∀ l ∈ seq, l ≤ 15) →
    expandItems [] (rle seq) = seq ∧ ∀ i ∈ rle seq, i.sym ≤ 18 ∧ i.extra < 2 ^ clExtraBits i.sym

/-- For every length from 3 to 258 the symbol of LenCode is one of the 29, its base is at most the length, and the rest
fits its extra bits; 258 has symbol 285; and the same for every distance from 1 to 32768 and the 30 distance
symbols. (30_encoding.md R108, R109, R111) -/
def Obligations.LengthAndDistanceCodesHoldTheirValue : Prop :=
  (∀ len : Nat, 3 ≤ len → len ≤ 258 →
      lenCode len ≤ 28 ∧ lengthBase (lenCode len) ≤ len ∧
      len - lengthBase (lenCode len) < 2 ^ lengthExtra (lenCode len) ∧ (len = 258 ↔ lenCode len = 28)) ∧
    (∀ dist : Nat, 1 ≤ dist → dist ≤ 32768 →
      distCode dist ≤ 29 ∧ distBase (distCode dist) ≤ dist ∧
      dist - distBase (distCode dist) < 2 ^ distExtra (distCode dist))

/-- For every input and every LZ_* parameters, the lookup of every symbol the bit-packing machine writes succeeds, so
CorruptData is never raised by COMPRESS. (R242) -/
def Obligations.EncoderNeverMissesACode : Prop :=
  ∀ (ps : Params) (data : List Byte), ∃ bits, fieldBits (streamFields ps data) = .ok bits

/-- COMPRESS in every state with legal regions, whose stream is the bits the encoder lists: if they fit in 8 * DST_CAP,
destination bit p is bit p of the stream and 0 in the pad, OUT_LEN is the number of bytes, BW_POS is 8 * OUT_LEN,
and every other byte of M and every other register stays; if they do not, it ends in OutOfRange with OUT_LEN = 0. A
bad region ends in IllegalCommand. M is in canonical form. (44_deflate_encode.md R240, R245; 40_bitstream.md R143,
R144, R145) -/
def Obligations.CompressWritesTheStream : Prop :=
  ∀ (s : State) (bits : List Bool), s.mem.wf = true →
    (s.bothRegionsOk = false → ∃ t, exec .compress s = .next t ∧ t.errcode = some .illegalCommand ∧ t.outLen = 0#32) ∧
    (s.bothRegionsOk = true → s.compressedBits = .ok bits → 8 * s.dstCap.toNat < bits.length →
      ∃ t, exec .compress s = .next t ∧ t.errcode = some .outOfRange ∧ t.outLen = 0#32) ∧
    (s.bothRegionsOk = true → s.compressedBits = .ok bits → bits.length ≤ 8 * s.dstCap.toNat →
      let n := (bits.length + 7) / 8
      ∃ t, exec .compress s = .next t ∧
        t = ({ s with
          mem := t.mem
          bwPos := BitVec.ofNat 32 (8 * n)
          outLen := BitVec.ofNat 32 n } : State).finished ∧
        (∀ p, p < 8 * n → t.dstBit p = bits.getD p false) ∧
        SameBytes (s.OutsideFirst n) s t)

/-- A block of b bytes takes at most 4513 + 16 * b bits; and from every state with legal regions and a DST_CAP of at
least 2 * N + (4513 * nb + 7) div 8 bytes, COMPRESS ends without error, with BW_POS = 8 * OUT_LEN. (R247) -/
def Obligations.CompressFitsItsBound : Prop :=
  (∀ (ps : Params) (block : List Byte) (final : Bool), ∃ bits,
      fieldBits (blockFields ps block final) = .ok bits ∧ bits.length ≤ 4513 + 16 * block.length) ∧
    (∀ s : State, s.bothRegionsOk = true →
      2 * s.srcLen.toNat + (4513 * blockCount s.srcLen.toNat + 7) / 8 ≤ s.dstCap.toNat →
      ∃ t, exec .compress s = .next t ∧ t.errcode = none ∧ t.bwPos.toNat = 8 * t.outLen.toNat)

/-- Two runs of COMPRESS that end without error, from states with the same source bytes and the same parameters, give
the same OUT_LEN and the same output bytes, wherever their regions lie and whatever the rest of M, the destination
included, held before. M is in canonical form in both. (R246) -/
def Obligations.CompressDependsOnSourceAlone : Prop :=
  ∀ (s s' t t' : State), s.mem.wf = true → s'.mem.wf = true → s.srcBytes = s'.srcBytes →
    s.params.lzMaxChain = s'.params.lzMaxChain → s.params.lzGoodLen = s'.params.lzGoodLen →
    s.params.lzGoodChain = s'.params.lzGoodChain →
    exec .compress s = .next t → exec .compress s' = .next t' → t.errcode = none → t'.errcode = none →
    t.outLen = t'.outLen ∧ t.dstBytes t.outLen.toNat = t'.dstBytes t'.outLen.toNat

/-- From every state with legal regions whose source begins with a final stored block of any bytes data (whatever the
skipped header bits and whatever follows), with room for them: DECOMPRESS ends without error, the destination bytes
are data, OUT_LEN is their number, BR_POS is the bits read, and every other byte of M and every other register
stays. M is in canonical form. (45_deflate_decode.md R264, R265, R266, R285; 30_encoding.md R101, R102) -/
def Obligations.DecompressCopiesAStoredBlock : Prop :=
  ∀ (s : State) (header : Byte) (data rest : List Byte), s.mem.wf = true → s.bothRegionsOk = true →
    header.toNat % 8 = 1 → data.length ≤ 65535 → data.length ≤ s.dstCap.toNat →
    s.srcBytes =
      header :: BitVec.ofNat 8 (data.length % 256) :: BitVec.ofNat 8 (data.length / 256) ::
        BitVec.ofNat 8 ((65535 - data.length) % 256) :: BitVec.ofNat 8 ((65535 - data.length) / 256) :: (data ++ rest) →
    ∃ t, exec .decompress s = .next t ∧
      t = ({ s with
        mem := t.mem
        brPos := BitVec.ofNat 32 (40 + 8 * data.length)
        outLen := BitVec.ofNat 32 data.length } : State).finished ∧
      t.dstBytes data.length = data ∧ SameBytes (s.OutsideFirst data.length) s t

/-- From every state with legal regions that do not overlap, the one step of DECOMPRESS gives the state that running
the machine symbol by symbol from the first block header gives; from every other state DECOMPRESS ends in
IllegalCommand with OUT_LEN = 0. The symbol steps are the model's choice (log 9): R301 makes the Run one step, and no
state inside it is seen. (45_deflate_decode.md R264, R275, R285; 46_control.md R301; 20_memory.md R66;
70_reset_and_hazards.md R366) -/
def Obligations.DecompressIsItsSymbolSteps : Prop :=
  ∀ s : State,
    (s.bothRegionsOk = true → ∃ k, Host.Core.run Sys2Proof.core k s.beginDecode = exec .decompress s) ∧
    (s.bothRegionsOk = false →
      ∃ t, exec .decompress s = .next t ∧ t.errcode = some .illegalCommand ∧ t.outLen = 0#32)

/-- For every command word and state: if the command ends in error e, ERRCODE is its code, OUT_LEN is 0, RESULT and
every register but the command's own cursor are unchanged (BW_POS may differ after COMPRESS only, BR_POS after
DECOMPRESS only), M is unchanged after every command but those two, and every byte outside the destination region is
unchanged after those too. (R326) -/
def Obligations.CommandErrorResults : Prop :=
  ∀ (w : Word) (s t : State) (e : CmdError), exec (decodeCommand w) s = .next t → t.errcode = some e →
    t.readReg .errcode = BitVec.ofNat 32 e.code ∧ t.outLen = 0#32 ∧ t.result = s.result ∧ SameOperands s t ∧
    (decodeCommand w ≠ .decompress → t.brPos = s.brPos) ∧
    (decodeCommand w ≠ .compress → t.bwPos = s.bwPos) ∧
    (decodeCommand w ≠ .compress → decodeCommand w ≠ .decompress → t.mem = s.mem) ∧
    SameBytes s.OutsideDst s t

/-- For every command word and state, after the command every byte of M outside the destination region is as it was, and
a command that uses no destination region leaves all of M as it was. (20_memory.md R61, R62, R65) -/
def Obligations.CommandsWriteOnlyTheirDestination : Prop :=
  ∀ (w : Word) (s t : State), exec (decodeCommand w) s = .next t →
    SameBytes s.OutsideDst s t ∧ (usesDst (decodeCommand w) = false → t.mem = s.mem)

/-- For every command word: from two states that differ only in M and hold the same bytes in the source region, the
command leaves the same ERRCODE, OUT_LEN and RESULT, and, where it ends without error, the same BR_POS and BW_POS; and
where a command of two regions (HUFF_BUILD, LZ77_TOKENIZE, COMPRESS, DECOMPRESS) ends without error, the same OUT_LEN
first bytes of the destination region. BW_WRITE, BW_WRITE_CODED and BW_ALIGN read the destination bytes they change,
and this says nothing of those. (20_memory.md R61, R62) -/
def Obligations.CommandsReadOnlyTheirSource : Prop :=
  ∀ (w : Word) (s t t' : State) (m : Memory), s.mem.wf = true → m.wf = true →
    (∀ i, i < s.srcLen.toNat → m.read (s.srcByteAddr i).toNat = s.mem.read (s.srcByteAddr i).toNat) →
    exec (decodeCommand w) s = .next t → exec (decodeCommand w) { s with mem := m } = .next t' →
    t.errcode = t'.errcode ∧ t.outLen = t'.outLen ∧ t.result = t'.result ∧
      (t.errcode = none → t.brPos = t'.brPos ∧ t.bwPos = t'.bwPos) ∧
      (t.errcode = none → usesSrc (decodeCommand w) = true → usesDst (decodeCommand w) = true →
        t.dstBytes t.outLen.toNat = t'.dstBytes t.outLen.toNat)

/-- For every command word but SOFT_RESET, from every state, the command leaves SRC_ADDR, SRC_LEN, DST_ADDR, DST_CAP,
VALUE, NSYM and CTRL as they were, so the same command word may be started again with the same operands. (R304) -/
def Obligations.OperandRegistersPreserved : Prop :=
  ∀ (w : Word) (s t : State), decodeCommand w ≠ .softReset → exec (decodeCommand w) s = .next t → SameOperands s t

/-- From every state in which M is in canonical form, no command is inside its Run and the OPEN parameters are legal, a
step that answers a next state gives such a state: no agent ever sees a state inside a Run. (00_scope.md R8, R14;
46_control.md R301; 20_memory.md R60) -/
def Obligations.StepKeepsTheInvariant : Prop :=
  ∀ s t : State, s.Inv → step s = .next t → t.Inv

/-- At reset M is in canonical form, no command is inside its Run, and the parameters (the reference values of R8 and
the model's REG_BASE 0, log 4) are legal. (70_reset_and_hazards.md R350; 00_scope.md R8) -/
def Obligations.ResetMeetsTheInvariant : Prop :=
  State.reset.Inv

/-- With the FSM at a block header: BLOCK_FIXED gives the state DATA with the decode views of the fixed lengths and its
BFINAL, nothing else changing; BLOCK_RESERVED ends the command with CorruptData, BR_POS and the destination bytes
drawn and nothing else changed but OUT_LEN = 0. (45_deflate_decode.md R264, R267, R275; 60_exceptions.md R326) -/
def Obligations.FixedAndReservedBlockHeaders : Prop :=
  ∀ (s : State) (out : List Byte) (old final : Bool), s.work = some ⟨out, old, .header⟩ →
    exec (.blockFixed final) s =
      .next (s.decoding out final (.data (decodeView fixedLlLen) (decodeView fixedDLen))) ∧
    exec (.blockReserved final) s = .next (s.decodeFailed .corruptData)

/-- With the FSM at a block header and p = BR_POS: BLOCK_DYNAMIC reads HLIT, HDIST and HCLEN from 5, 5 and 4 bits; fewer
bits left is Truncated, HLIT + 257 > 286 is CorruptData, and too few bits for the HCLEN + 4 code-length lengths is
Truncated; else the FSM awaits HLIT + 257 + HDIST + 1 lengths, decoded by the view of the 19 lengths sent in
CL_ORDER (0 where not sent), BR_POS is past the header and nothing else changes. (45_deflate_decode.md R261, R270,
R272, R275; 30_encoding.md R104, R106) -/
def Obligations.DynamicBlockHeader : Prop :=
  ∀ (s : State) (out : List Byte) (old final : Bool), s.work = some ⟨out, old, .header⟩ → s.srcRegionOk = true →
    let p := s.brPos.toNat
    let field (i n : Nat) : Nat := natOfLsb (s.srcBitList (p + i) n)
    let hlit := field 0 5
    let hdist := field 5 5
    let sent := field 10 4 + 4
    (s.srcBits < p + 14 → exec (.blockDynamic final) s = .next (s.decodeFailed .truncated)) ∧
    (p + 14 ≤ s.srcBits → 286 < hlit + 257 →
      exec (.blockDynamic final) s = .next (s.decodeFailed .corruptData)) ∧
    (p + 14 ≤ s.srcBits → hlit + 257 ≤ 286 → s.srcBits < p + 14 + 3 * sent →
      exec (.blockDynamic final) s = .next (s.decodeFailed .truncated)) ∧
    (hlit + 257 ≤ 286 → p + 14 + 3 * sent ≤ s.srcBits →
      ∃ cl : List Nat, cl.length = 19 ∧
        (∀ j, j < 19 → cl.getD (clOrder.getD j 0) 0 = if j < sent then field (14 + 3 * j) 3 else 0) ∧
        exec (.blockDynamic final) s =
          .next (({ s with brPos := BitVec.ofNat 32 (p + 14 + 3 * sent) } : State).decoding out final
            (.lengths (hlit + 257) (hlit + 257 + hdist + 1) (decodeView cl) [])))

/-- With the FSM at a block header, q the next byte of the source and len its LEN field: fewer than 4 bytes left is
Truncated and LEN + NLEN != 0xFFFF is CorruptData; else the bytes are taken one by one, so fewer than len bytes left
is Truncated where the destination has room for those left, and a destination that is full before len bytes and before
those left is OutOfRange; else, with len bytes left and room for them, the bytes are appended to the output and to the
destination, BR_POS is past them, and the final block ends the command with OUT_LEN while another leaves the FSM at
the next header. Every other byte of M and every other register stays. M is in canonical form and the regions are
legal. (45_deflate_decode.md R261, R263, R264, R266; 20_memory.md R69) -/
def Obligations.StoredBlockHeader : Prop :=
  ∀ (s : State) (out : List Byte) (old final : Bool), s.work = some ⟨out, old, .header⟩ → s.mem.wf = true →
    s.bothRegionsOk = true → s.brPos.toNat ≤ s.srcBits →
    let q := (s.brPos.toNat + 7) / 8
    let len := (s.srcByte q).toNat + 256 * (s.srcByte (q + 1)).toNat
    let nlen := (s.srcByte (q + 2)).toNat + 256 * (s.srcByte (q + 3)).toNat
    let data := (List.range len).map (fun j => s.srcByte (q + 4 + j))
    (s.srcLen.toNat < q + 4 → exec (.blockStored final) s = .next (s.decodeFailed .truncated)) ∧
    (q + 4 ≤ s.srcLen.toNat → len + nlen ≠ 65535 →
      exec (.blockStored final) s = .next (s.decodeFailed .corruptData)) ∧
    (q + 4 ≤ s.srcLen.toNat → s.srcLen.toNat < q + 4 + len → len + nlen = 65535 →
      out.length + (s.srcLen.toNat - (q + 4)) ≤ s.dstCap.toNat →
      exec (.blockStored final) s = .next (s.decodeFailed .truncated)) ∧
    (q + 4 ≤ s.srcLen.toNat → len + nlen = 65535 → out.length ≤ s.dstCap.toNat →
      s.dstCap.toNat < out.length + len → s.dstCap.toNat < out.length + (s.srcLen.toNat - (q + 4)) →
      exec (.blockStored final) s = .next (s.decodeFailed .outOfRange)) ∧
    (q + 4 + len ≤ s.srcLen.toNat → len + nlen = 65535 → out.length + len ≤ s.dstCap.toNat →
      ∃ (t : State) (m : Memory), exec (.blockStored final) s = .next t ∧
        (let u : State := { s with mem := m, brPos := BitVec.ofNat 32 (8 * (q + 4 + len)) }
         t = if final then ({ u with outLen := BitVec.ofNat 32 (out.length + len) } : State).finished
             else u.decoding (out ++ data) false .header) ∧
        (∀ j, j < len → m.read (s.dstByteAddr (out.length + j)).toNat = s.srcByte (q + 4 + j)) ∧
        (∀ a, (∀ j, j < len → a ≠ (s.dstByteAddr (out.length + j)).toNat) → m.read a = s.mem.read a))

/-- With the FSM in the length sequence, below its total: CL_0 to CL_15 append their value; when the sequence is
complete the FSM goes to DATA with the views of its literal/length and distance parts, else it stays. Nothing else
changes. (30_encoding.md R105; 45_deflate_decode.md R270, R273, R275) -/
def Obligations.ClLengthSymbolsAppendOneLength : Prop :=
  ∀ (i : Instr) (sym : BitVec 5) (s : State) (out : List Byte) (final : Bool) (nLit total : Nat) (ct : DecodeView)
      (seq : List Nat),
    encode i = .clSymbol sym → sym.toNat ≤ 15 → s.work = some ⟨out, final, .lengths nLit total ct seq⟩ →
    (seq.length + 1 < total →
      exec i s = .next (s.decoding out final (.lengths nLit total ct (seq ++ [sym.toNat])))) ∧
    (seq.length + 1 = total →
      exec i s = .next (s.decoding out final
        (.data (decodeView ((seq ++ [sym.toNat]).take nLit)) (decodeView ((seq ++ [sym.toNat]).drop nLit)))))

/-- With the FSM in the length sequence: CL_16 with no previous length is CorruptData; with too few bits left for the
extra bits each is Truncated; else x is their value and CL_16 appends 3 + x copies of the last length, CL_17 3 + x
zeros, CL_18 11 + x zeros: past the total is CorruptData, at the total the FSM goes to DATA, below it stays. BR_POS
moves past the extra bits and nothing else changes. (30_encoding.md R105, R115; 45_deflate_decode.md R261, R273,
R274) -/
def Obligations.ClRepeatSymbolsAppendRuns : Prop :=
  ∀ (i : Instr) (width base : Nat) (s : State) (out : List Byte) (final : Bool) (nLit total : Nat) (ct : DecodeView)
      (seq : List Nat),
    (i, width, base) ∈ [(Instr.cl16, 2, 3), (Instr.cl17, 3, 3), (Instr.cl18, 7, 11)] →
    s.srcRegionOk = true → s.work = some ⟨out, final, .lengths nLit total ct seq⟩ →
    let p := s.brPos.toNat
    let x := natOfLsb (s.srcBitList p width)
    let seq' := seq ++ List.replicate (base + x) (if i = .cl16 then seq.getLastD 0 else 0)
    let u : State := { s with brPos := BitVec.ofNat 32 (p + width) }
    (i = .cl16 → seq = [] → exec i s = .next (s.decodeFailed .corruptData)) ∧
    ((i = .cl16 → seq ≠ []) → s.srcBits < p + width → exec i s = .next (s.decodeFailed .truncated)) ∧
    ((i = .cl16 → seq ≠ []) → p + width ≤ s.srcBits → total < seq'.length →
      exec i s = .next (s.decodeFailed .corruptData)) ∧
    ((i = .cl16 → seq ≠ []) → p + width ≤ s.srcBits → seq'.length = total →
      exec i s = .next (u.decoding out final (.data (decodeView (seq'.take nLit)) (decodeView (seq'.drop nLit))))) ∧
    ((i = .cl16 → seq ≠ []) → p + width ≤ s.srcBits → seq'.length < total →
      exec i s = .next (u.decoding out final (.lengths nLit total ct seq')))

/-- With the FSM at DATA: LL_LITERAL appends its byte to the output and writes destination byte len(out), every other
byte of M staying, and at len(out) = DST_CAP ends in OutOfRange; LL_EOB of the final block ends the command with
OUT_LEN = len(out), and of another leaves the FSM at the next header. No other register changes. M is in canonical
form. (30_encoding.md R107; 45_deflate_decode.md R263, R264, R276, R285) -/
def Obligations.LiteralAndEndOfBlock : Prop :=
  ∀ (s : State) (out : List Byte) (final : Bool) (lt dt : DecodeView), s.mem.wf = true →
    s.work = some ⟨out, final, .data lt dt⟩ →
    (∀ b : Byte, out.length ≠ s.dstCap.toNat →
      ∃ t, exec (.llLiteral b) s = .next t ∧
        t = ({ s with mem := t.mem } : State).decoding (out ++ [b]) final (.data lt dt) ∧
        t.dstByteRead out.length = b ∧ SameBytes (fun a => a ≠ (s.dstByteAddr out.length).toNat) s t) ∧
    (∀ b : Byte, out.length = s.dstCap.toNat → exec (.llLiteral b) s = .next (s.decodeFailed .outOfRange)) ∧
    (final = true →
      exec .llEob s = .next ({ s with outLen := BitVec.ofNat 32 out.length } : State).finished) ∧
    (final = false → exec .llEob s = .next (s.decoding out false .header))

/-- With the FSM at DATA: a length symbol with too few bits left for its extra bits is Truncated, else the FSM awaits
the distance of a match whose length is the base of R108 plus the extra value, BR_POS moves past the extra bits and
nothing else changes; LL_RESERVED_286 and 287 end in CorruptData. (30_encoding.md R107, R108, R115;
45_deflate_decode.md R261, R276, R278, R279) -/
def Obligations.LengthSymbolsStartAMatch : Prop :=
  ∀ (i : Instr) (sym : BitVec 9) (s : State) (out : List Byte) (final : Bool) (lt dt : DecodeView),
    encode i = .llSymbol sym → s.srcRegionOk = true → s.work = some ⟨out, final, .data lt dt⟩ →
    let p := s.brPos.toNat
    let c := sym.toNat - 257
    (257 ≤ sym.toNat → sym.toNat ≤ 285 → s.srcBits < p + lengthExtra c →
      exec i s = .next (s.decodeFailed .truncated)) ∧
    (257 ≤ sym.toNat → sym.toNat ≤ 285 → p + lengthExtra c ≤ s.srcBits →
      exec i s = .next (({ s with brPos := BitVec.ofNat 32 (p + lengthExtra c) } : State).decoding out final
        (.distance lt dt (lengthBase c + natOfLsb (s.srcBitList p (lengthExtra c)))))) ∧
    (286 ≤ sym.toNat → exec i s = .next (s.decodeFailed .corruptData))

/-- With the FSM awaiting the distance of a match of a given length: DIST_RESERVED_30 and 31 end in CorruptData; a
distance symbol with too few bits left for its extra bits is Truncated; the distance is the base of R109 plus the
extra value, and one above len(out) is CorruptData; with too little room for the match it is OutOfRange; else the
output grows by the copies, each the byte the distance back, the destination bytes are those of the output, the FSM
is at DATA, BR_POS is past the extra bits, and every other byte of M and every other register stays. M is in
canonical form, the regions are legal and len(out) is at most DST_CAP. (30_encoding.md R109, R115;
45_deflate_decode.md R261, R263, R278, R280, R281) -/
def Obligations.DistanceSymbolsCopy : Prop :=
  ∀ (i : Instr) (sym : BitVec 5) (s : State) (out : List Byte) (final : Bool) (lt dt : DecodeView) (length : Nat),
    encode i = .distSymbol sym → s.mem.wf = true → s.bothRegionsOk = true → out.length ≤ s.dstCap.toNat →
    s.work = some ⟨out, final, .distance lt dt length⟩ →
    let p := s.brPos.toNat
    let g := sym.toNat
    let dist := distBase g + natOfLsb (s.srcBitList p (distExtra g))
    (30 ≤ g → exec i s = .next (s.decodeFailed .corruptData)) ∧
    (g ≤ 29 → s.srcBits < p + distExtra g → exec i s = .next (s.decodeFailed .truncated)) ∧
    (g ≤ 29 → p + distExtra g ≤ s.srcBits → out.length < dist →
      exec i s = .next (s.decodeFailed .corruptData)) ∧
    (g ≤ 29 → p + distExtra g ≤ s.srcBits → dist ≤ out.length → s.dstCap.toNat < out.length + length →
      exec i s = .next (s.decodeFailed .outOfRange)) ∧
    (g ≤ 29 → p + distExtra g ≤ s.srcBits → dist ≤ out.length → out.length + length ≤ s.dstCap.toNat →
      ∃ t, exec i s = .next t ∧
        (let out' := appendCopies dist length out
         t = ({ s with
           mem := t.mem
           brPos := BitVec.ofNat 32 (p + distExtra g) } : State).decoding out' final (.data lt dt) ∧
         out'.length = out.length + length ∧
         (∀ j, j < length → t.dstByteRead (out.length + j) = out'.getD (out.length + j) 0#8)) ∧
        (∀ a, (∀ j, j < length → a ≠ (s.dstByteAddr (out.length + j)).toNat) → t.mem.read a = s.mem.read a))

/-- For every stream selector's instruction: with no DECOMPRESS running, or with the decoder FSM in a state that reads
another kind of selector, it is refused by name, since the working state it acts on does not exist; with the FSM in
the state that reads its kind, it answers a next state. The refusals are the model's choice (log 9). (10_state.md R38,
R39; 45_deflate_decode.md R275) -/
def Obligations.SymbolsNeedTheirFsmState : Prop :=
  ∀ (i : Instr) (s : State), (∀ w, encode i ≠ .command w) →
    (s.work = none → exec i s = .refused .noStreamContext) ∧
    (∀ d, s.work = some d → d.phase.reads (encode i) = false → exec i s = .refused .noStreamContext) ∧
    (∀ d, s.work = some d → d.phase.reads (encode i) = true → ∃ t, exec i s = .next t)

/-- For every state from which COMPRESS ends without error, and any later state with the same M whose source region is
that output and whose destination region, apart from it, has room for the input: DECOMPRESS ends without error with
OUT_LEN the input's length and the input bytes at the destination. M is in canonical form. (44_deflate_encode.md
R248) -/
def Obligations.RoundTripRestoresInput : Prop :=
  ∀ (s t u : State), s.mem.wf = true → exec .compress s = .next t → t.errcode = none →
    u.mem = t.mem → u.srcAddr = s.dstAddr → u.srcLen = t.outLen → u.bothRegionsOk = true →
    s.srcLen.toNat ≤ u.dstCap.toNat →
    ∃ v, exec .decompress u = .next v ∧ v.errcode = none ∧ v.outLen = s.srcLen ∧
      v.dstBytes s.srcLen.toNat = s.srcBytes
end

