-- ==== Sys2Proof/Laws/State.lean ====
section
/-! SUPPORT. One lemma for each field and each named update of the state, so that no later proof unfolds a record
update. -/

namespace Sys2Proof.Machine

@[simp] theorem State.writeMem_params (s : State) (a : Word) (b : Byte) : (s.writeMem a b).params = s.params := rfl
@[simp] theorem State.writeMem_irqEn (s : State) (a : Word) (b : Byte) : (s.writeMem a b).irqEn = s.irqEn := rfl
@[simp] theorem State.writeMem_done (s : State) (a : Word) (b : Byte) : (s.writeMem a b).done = s.done := rfl
@[simp] theorem State.writeMem_errcode (s : State) (a : Word) (b : Byte) : (s.writeMem a b).errcode = s.errcode := rfl
@[simp] theorem State.writeMem_srcAddr (s : State) (a : Word) (b : Byte) : (s.writeMem a b).srcAddr = s.srcAddr := rfl
@[simp] theorem State.writeMem_srcLen (s : State) (a : Word) (b : Byte) : (s.writeMem a b).srcLen = s.srcLen := rfl
@[simp] theorem State.writeMem_dstAddr (s : State) (a : Word) (b : Byte) : (s.writeMem a b).dstAddr = s.dstAddr := rfl
@[simp] theorem State.writeMem_dstCap (s : State) (a : Word) (b : Byte) : (s.writeMem a b).dstCap = s.dstCap := rfl
@[simp] theorem State.writeMem_outLen (s : State) (a : Word) (b : Byte) : (s.writeMem a b).outLen = s.outLen := rfl
@[simp] theorem State.writeMem_brPos (s : State) (a : Word) (b : Byte) : (s.writeMem a b).brPos = s.brPos := rfl
@[simp] theorem State.writeMem_bwPos (s : State) (a : Word) (b : Byte) : (s.writeMem a b).bwPos = s.bwPos := rfl
@[simp] theorem State.writeMem_value (s : State) (a : Word) (b : Byte) : (s.writeMem a b).value = s.value := rfl
@[simp] theorem State.writeMem_result (s : State) (a : Word) (b : Byte) : (s.writeMem a b).result = s.result := rfl
@[simp] theorem State.writeMem_nsym (s : State) (a : Word) (b : Byte) : (s.writeMem a b).nsym = s.nsym := rfl
@[simp] theorem State.writeMem_pending (s : State) (a : Word) (b : Byte) : (s.writeMem a b).pending = s.pending := rfl
@[simp] theorem State.writeMem_mem (s : State) (a : Word) (b : Byte) : (s.writeMem a b).mem = s.mem.write a.toNat b := rfl
@[simp] theorem State.writeMem_work (s : State) (a : Word) (b : Byte) : (s.writeMem a b).work = s.work := rfl
@[simp] theorem State.writeMem_inputs (s : State) (a : Word) (b : Byte) : (s.writeMem a b).inputs = s.inputs := rfl
@[simp] theorem State.writeMem_busData (s : State) (a : Word) (b : Byte) : (s.writeMem a b).busData = s.busData := rfl
@[simp] theorem State.writeMem_draws (s : State) (a : Word) (b : Byte) : (s.writeMem a b).draws = s.draws := rfl

@[simp] theorem State.dstByteWrite_params (s : State) (i : Nat) (b : Byte) : (s.dstByteWrite i b).params = s.params := rfl
@[simp] theorem State.dstByteWrite_irqEn (s : State) (i : Nat) (b : Byte) : (s.dstByteWrite i b).irqEn = s.irqEn := rfl
@[simp] theorem State.dstByteWrite_done (s : State) (i : Nat) (b : Byte) : (s.dstByteWrite i b).done = s.done := rfl
@[simp] theorem State.dstByteWrite_errcode (s : State) (i : Nat) (b : Byte) : (s.dstByteWrite i b).errcode = s.errcode := rfl
@[simp] theorem State.dstByteWrite_srcAddr (s : State) (i : Nat) (b : Byte) : (s.dstByteWrite i b).srcAddr = s.srcAddr := rfl
@[simp] theorem State.dstByteWrite_srcLen (s : State) (i : Nat) (b : Byte) : (s.dstByteWrite i b).srcLen = s.srcLen := rfl
@[simp] theorem State.dstByteWrite_dstAddr (s : State) (i : Nat) (b : Byte) : (s.dstByteWrite i b).dstAddr = s.dstAddr := rfl
@[simp] theorem State.dstByteWrite_dstCap (s : State) (i : Nat) (b : Byte) : (s.dstByteWrite i b).dstCap = s.dstCap := rfl
@[simp] theorem State.dstByteWrite_outLen (s : State) (i : Nat) (b : Byte) : (s.dstByteWrite i b).outLen = s.outLen := rfl
@[simp] theorem State.dstByteWrite_brPos (s : State) (i : Nat) (b : Byte) : (s.dstByteWrite i b).brPos = s.brPos := rfl
@[simp] theorem State.dstByteWrite_bwPos (s : State) (i : Nat) (b : Byte) : (s.dstByteWrite i b).bwPos = s.bwPos := rfl
@[simp] theorem State.dstByteWrite_value (s : State) (i : Nat) (b : Byte) : (s.dstByteWrite i b).value = s.value := rfl
@[simp] theorem State.dstByteWrite_result (s : State) (i : Nat) (b : Byte) : (s.dstByteWrite i b).result = s.result := rfl
@[simp] theorem State.dstByteWrite_nsym (s : State) (i : Nat) (b : Byte) : (s.dstByteWrite i b).nsym = s.nsym := rfl
@[simp] theorem State.dstByteWrite_pending (s : State) (i : Nat) (b : Byte) : (s.dstByteWrite i b).pending = s.pending := rfl
@[simp] theorem State.dstByteWrite_mem (s : State) (i : Nat) (b : Byte) : (s.dstByteWrite i b).mem = s.mem.write (s.dstByteAddr i).toNat b := rfl
@[simp] theorem State.dstByteWrite_work (s : State) (i : Nat) (b : Byte) : (s.dstByteWrite i b).work = s.work := rfl
@[simp] theorem State.dstByteWrite_inputs (s : State) (i : Nat) (b : Byte) : (s.dstByteWrite i b).inputs = s.inputs := rfl
@[simp] theorem State.dstByteWrite_busData (s : State) (i : Nat) (b : Byte) : (s.dstByteWrite i b).busData = s.busData := rfl
@[simp] theorem State.dstByteWrite_draws (s : State) (i : Nat) (b : Byte) : (s.dstByteWrite i b).draws = s.draws := rfl

@[simp] theorem State.putBit_params (s : State) (b : Bool) : (s.putBit b).params = s.params := rfl
@[simp] theorem State.putBit_irqEn (s : State) (b : Bool) : (s.putBit b).irqEn = s.irqEn := rfl
@[simp] theorem State.putBit_done (s : State) (b : Bool) : (s.putBit b).done = s.done := rfl
@[simp] theorem State.putBit_errcode (s : State) (b : Bool) : (s.putBit b).errcode = s.errcode := rfl
@[simp] theorem State.putBit_srcAddr (s : State) (b : Bool) : (s.putBit b).srcAddr = s.srcAddr := rfl
@[simp] theorem State.putBit_srcLen (s : State) (b : Bool) : (s.putBit b).srcLen = s.srcLen := rfl
@[simp] theorem State.putBit_dstAddr (s : State) (b : Bool) : (s.putBit b).dstAddr = s.dstAddr := rfl
@[simp] theorem State.putBit_dstCap (s : State) (b : Bool) : (s.putBit b).dstCap = s.dstCap := rfl
@[simp] theorem State.putBit_outLen (s : State) (b : Bool) : (s.putBit b).outLen = s.outLen := rfl
@[simp] theorem State.putBit_brPos (s : State) (b : Bool) : (s.putBit b).brPos = s.brPos := rfl
@[simp] theorem State.putBit_bwPos (s : State) (b : Bool) : (s.putBit b).bwPos = s.bwPos + 1#32 := rfl
@[simp] theorem State.putBit_value (s : State) (b : Bool) : (s.putBit b).value = s.value := rfl
@[simp] theorem State.putBit_result (s : State) (b : Bool) : (s.putBit b).result = s.result := rfl
@[simp] theorem State.putBit_nsym (s : State) (b : Bool) : (s.putBit b).nsym = s.nsym := rfl
@[simp] theorem State.putBit_pending (s : State) (b : Bool) : (s.putBit b).pending = s.pending := rfl
@[simp] theorem State.putBit_mem (s : State) (b : Bool) : (s.putBit b).mem = s.mem.write (s.dstByteAddr (s.bwPos.toNat / 8)).toNat
      (setBit (s.dstByteRead (s.bwPos.toNat / 8)) (s.bwPos.toNat % 8) b) := rfl
@[simp] theorem State.putBit_work (s : State) (b : Bool) : (s.putBit b).work = s.work := rfl
@[simp] theorem State.putBit_inputs (s : State) (b : Bool) : (s.putBit b).inputs = s.inputs := rfl
@[simp] theorem State.putBit_busData (s : State) (b : Bool) : (s.putBit b).busData = s.busData := rfl
@[simp] theorem State.putBit_draws (s : State) (b : Bool) : (s.putBit b).draws = s.draws := rfl

@[simp] theorem State.accept_params (s : State) (w : Word) : (s.accept w).params = s.params := rfl
@[simp] theorem State.accept_irqEn (s : State) (w : Word) : (s.accept w).irqEn = s.irqEn := rfl
@[simp] theorem State.accept_done (s : State) (w : Word) : (s.accept w).done = false := rfl
@[simp] theorem State.accept_errcode (s : State) (w : Word) : (s.accept w).errcode = s.errcode := rfl
@[simp] theorem State.accept_srcAddr (s : State) (w : Word) : (s.accept w).srcAddr = s.srcAddr := rfl
@[simp] theorem State.accept_srcLen (s : State) (w : Word) : (s.accept w).srcLen = s.srcLen := rfl
@[simp] theorem State.accept_dstAddr (s : State) (w : Word) : (s.accept w).dstAddr = s.dstAddr := rfl
@[simp] theorem State.accept_dstCap (s : State) (w : Word) : (s.accept w).dstCap = s.dstCap := rfl
@[simp] theorem State.accept_outLen (s : State) (w : Word) : (s.accept w).outLen = s.outLen := rfl
@[simp] theorem State.accept_brPos (s : State) (w : Word) : (s.accept w).brPos = s.brPos := rfl
@[simp] theorem State.accept_bwPos (s : State) (w : Word) : (s.accept w).bwPos = s.bwPos := rfl
@[simp] theorem State.accept_value (s : State) (w : Word) : (s.accept w).value = s.value := rfl
@[simp] theorem State.accept_result (s : State) (w : Word) : (s.accept w).result = s.result := rfl
@[simp] theorem State.accept_nsym (s : State) (w : Word) : (s.accept w).nsym = s.nsym := rfl
@[simp] theorem State.accept_pending (s : State) (w : Word) : (s.accept w).pending = some w := rfl
@[simp] theorem State.accept_mem (s : State) (w : Word) : (s.accept w).mem = s.mem := rfl
@[simp] theorem State.accept_work (s : State) (w : Word) : (s.accept w).work = s.work := rfl
@[simp] theorem State.accept_inputs (s : State) (w : Word) : (s.accept w).inputs = s.inputs := rfl
@[simp] theorem State.accept_busData (s : State) (w : Word) : (s.accept w).busData = s.busData := rfl
@[simp] theorem State.accept_draws (s : State) (w : Word) : (s.accept w).draws = s.draws := rfl

@[simp] theorem State.complete_params (s : State) (e : Option CmdError) : (s.complete e).params = s.params := rfl
@[simp] theorem State.complete_irqEn (s : State) (e : Option CmdError) : (s.complete e).irqEn = s.irqEn := rfl
@[simp] theorem State.complete_done (s : State) (e : Option CmdError) : (s.complete e).done = true := rfl
@[simp] theorem State.complete_errcode (s : State) (e : Option CmdError) : (s.complete e).errcode = e := rfl
@[simp] theorem State.complete_srcAddr (s : State) (e : Option CmdError) : (s.complete e).srcAddr = s.srcAddr := rfl
@[simp] theorem State.complete_srcLen (s : State) (e : Option CmdError) : (s.complete e).srcLen = s.srcLen := rfl
@[simp] theorem State.complete_dstAddr (s : State) (e : Option CmdError) : (s.complete e).dstAddr = s.dstAddr := rfl
@[simp] theorem State.complete_dstCap (s : State) (e : Option CmdError) : (s.complete e).dstCap = s.dstCap := rfl
@[simp] theorem State.complete_outLen (s : State) (e : Option CmdError) : (s.complete e).outLen = s.outLen := rfl
@[simp] theorem State.complete_brPos (s : State) (e : Option CmdError) : (s.complete e).brPos = s.brPos := rfl
@[simp] theorem State.complete_bwPos (s : State) (e : Option CmdError) : (s.complete e).bwPos = s.bwPos := rfl
@[simp] theorem State.complete_value (s : State) (e : Option CmdError) : (s.complete e).value = s.value := rfl
@[simp] theorem State.complete_result (s : State) (e : Option CmdError) : (s.complete e).result = s.result := rfl
@[simp] theorem State.complete_nsym (s : State) (e : Option CmdError) : (s.complete e).nsym = s.nsym := rfl
@[simp] theorem State.complete_pending (s : State) (e : Option CmdError) : (s.complete e).pending = none := rfl
@[simp] theorem State.complete_mem (s : State) (e : Option CmdError) : (s.complete e).mem = s.mem := rfl
@[simp] theorem State.complete_work (s : State) (e : Option CmdError) : (s.complete e).work = none := rfl
@[simp] theorem State.complete_inputs (s : State) (e : Option CmdError) : (s.complete e).inputs = s.inputs := rfl
@[simp] theorem State.complete_busData (s : State) (e : Option CmdError) : (s.complete e).busData = s.busData := rfl
@[simp] theorem State.complete_draws (s : State) (e : Option CmdError) : (s.complete e).draws = s.draws := rfl

@[simp] theorem State.raise_params (s : State) (e : CmdError) : (s.raise e).params = s.params := rfl
@[simp] theorem State.raise_irqEn (s : State) (e : CmdError) : (s.raise e).irqEn = s.irqEn := rfl
@[simp] theorem State.raise_done (s : State) (e : CmdError) : (s.raise e).done = true := rfl
@[simp] theorem State.raise_errcode (s : State) (e : CmdError) : (s.raise e).errcode = some e := rfl
@[simp] theorem State.raise_srcAddr (s : State) (e : CmdError) : (s.raise e).srcAddr = s.srcAddr := rfl
@[simp] theorem State.raise_srcLen (s : State) (e : CmdError) : (s.raise e).srcLen = s.srcLen := rfl
@[simp] theorem State.raise_dstAddr (s : State) (e : CmdError) : (s.raise e).dstAddr = s.dstAddr := rfl
@[simp] theorem State.raise_dstCap (s : State) (e : CmdError) : (s.raise e).dstCap = s.dstCap := rfl
@[simp] theorem State.raise_outLen (s : State) (e : CmdError) : (s.raise e).outLen = 0#32 := rfl
@[simp] theorem State.raise_brPos (s : State) (e : CmdError) : (s.raise e).brPos = s.brPos := rfl
@[simp] theorem State.raise_bwPos (s : State) (e : CmdError) : (s.raise e).bwPos = s.bwPos := rfl
@[simp] theorem State.raise_value (s : State) (e : CmdError) : (s.raise e).value = s.value := rfl
@[simp] theorem State.raise_result (s : State) (e : CmdError) : (s.raise e).result = s.result := rfl
@[simp] theorem State.raise_nsym (s : State) (e : CmdError) : (s.raise e).nsym = s.nsym := rfl
@[simp] theorem State.raise_pending (s : State) (e : CmdError) : (s.raise e).pending = none := rfl
@[simp] theorem State.raise_mem (s : State) (e : CmdError) : (s.raise e).mem = s.mem := rfl
@[simp] theorem State.raise_work (s : State) (e : CmdError) : (s.raise e).work = none := rfl
@[simp] theorem State.raise_inputs (s : State) (e : CmdError) : (s.raise e).inputs = s.inputs := rfl
@[simp] theorem State.raise_busData (s : State) (e : CmdError) : (s.raise e).busData = s.busData := rfl
@[simp] theorem State.raise_draws (s : State) (e : CmdError) : (s.raise e).draws = s.draws := rfl

@[simp] theorem State.clearDone_params (s : State) : (s.clearDone).params = s.params := rfl
@[simp] theorem State.clearDone_irqEn (s : State) : (s.clearDone).irqEn = s.irqEn := rfl
@[simp] theorem State.clearDone_done (s : State) : (s.clearDone).done = false := rfl
@[simp] theorem State.clearDone_errcode (s : State) : (s.clearDone).errcode = s.errcode := rfl
@[simp] theorem State.clearDone_srcAddr (s : State) : (s.clearDone).srcAddr = s.srcAddr := rfl
@[simp] theorem State.clearDone_srcLen (s : State) : (s.clearDone).srcLen = s.srcLen := rfl
@[simp] theorem State.clearDone_dstAddr (s : State) : (s.clearDone).dstAddr = s.dstAddr := rfl
@[simp] theorem State.clearDone_dstCap (s : State) : (s.clearDone).dstCap = s.dstCap := rfl
@[simp] theorem State.clearDone_outLen (s : State) : (s.clearDone).outLen = s.outLen := rfl
@[simp] theorem State.clearDone_brPos (s : State) : (s.clearDone).brPos = s.brPos := rfl
@[simp] theorem State.clearDone_bwPos (s : State) : (s.clearDone).bwPos = s.bwPos := rfl
@[simp] theorem State.clearDone_value (s : State) : (s.clearDone).value = s.value := rfl
@[simp] theorem State.clearDone_result (s : State) : (s.clearDone).result = s.result := rfl
@[simp] theorem State.clearDone_nsym (s : State) : (s.clearDone).nsym = s.nsym := rfl
@[simp] theorem State.clearDone_pending (s : State) : (s.clearDone).pending = s.pending := rfl
@[simp] theorem State.clearDone_mem (s : State) : (s.clearDone).mem = s.mem := rfl
@[simp] theorem State.clearDone_work (s : State) : (s.clearDone).work = s.work := rfl
@[simp] theorem State.clearDone_inputs (s : State) : (s.clearDone).inputs = s.inputs := rfl
@[simp] theorem State.clearDone_busData (s : State) : (s.clearDone).busData = s.busData := rfl
@[simp] theorem State.clearDone_draws (s : State) : (s.clearDone).draws = s.draws := rfl

end Sys2Proof.Machine
end

