-- ==== Sys2Proof/Laws/Memory.lean ====
section
/-! SUPPORT. What the memory operations do: a read after a write, the bytes a write leaves alone, and the canonical form,
which every operation keeps and in which equal memories are equal lists. -/

namespace Sys2Proof.Machine

/-- An address nothing has written holds its power-on draw (70_reset_and_hazards.md R352). -/
@[simp] theorem Memory.read_nil (x : Nat) : Memory.read [] x = Config.powerOnByte x := rfl

theorem Memory.read_cons (a : Nat) (b : Byte) (m : Memory) (x : Nat) :
    Memory.read ((a, b) :: m) x = if a = x then b else Memory.read m x := rfl

@[simp] theorem Memory.wf_nil : Memory.wf [] = true := rfl

theorem Memory.wfFrom_cons (low a : Nat) (b : Byte) (m : Memory) :
    Memory.wfFrom low ((a, b) :: m) = true ↔ low ≤ a ∧ a < Config.memSize ∧ Memory.wfFrom (a + 1) m = true := by
  simp [Memory.wfFrom, and_assoc]

theorem Memory.wfFrom_mono {low low' : Nat} (h : low ≤ low') :
    ∀ {m : Memory}, Memory.wfFrom low' m = true → Memory.wfFrom low m = true
  | [], _ => rfl
  | (_, _) :: _, hm => by
    rw [Memory.wfFrom_cons] at hm ⊢
    exact ⟨Nat.le_trans h hm.1, hm.2⟩

/-- Below the least listed address every address reads as its draw. -/
theorem Memory.readWith_below {draw : Nat → Byte} {x : Nat} :
    ∀ {low : Nat} {m : Memory}, Memory.wfFrom low m = true → x < low → m.readWith draw x = draw x
  | _, [], _, _ => rfl
  | low, (a, b) :: m, hm, hx => by
    rw [Memory.wfFrom_cons] at hm
    have hne : a ≠ x := by omega
    rw [Memory.readWith, if_neg hne]
    exact Memory.readWith_below hm.2.2 (by omega)

/-- A read after a write, whatever unlisted addresses read as. -/
theorem Memory.readWith_write (draw : Nat → Byte) (x y : Nat) (v : Byte) :
    ∀ m : Memory, (m.write x v).readWith draw y = if y = x then v else m.readWith draw y
  | [] => by
    by_cases h : y = x
    · simp [Memory.write, Memory.readWith, h]
    · simp [Memory.write, Memory.readWith, h, Ne.symm h]
  | (a, b) :: m => by
    have ih := Memory.readWith_write draw x y v m
    unfold Memory.write
    by_cases h : y = x
    · subst h
      split
      · simp [Memory.readWith]
      · split
        · simp [Memory.readWith]
        · rename_i hne
          rw [Memory.readWith, if_neg (Ne.symm hne), ih, if_pos rfl, if_pos rfl]
    · have h' : x ≠ y := Ne.symm h
      split
      · simp [Memory.readWith, h']
      · split
        · rename_i hxa
          subst hxa
          simp [Memory.readWith, h']
        · simp [Memory.readWith, ih, h]

/-- A read after a write, in one line. -/
theorem Memory.read_write (m : Memory) (x y : Nat) (v : Byte) :
    (m.write x v).read y = if y = x then v else m.read y :=
  Memory.readWith_write _ x y v m

/-- A read after a write to the same address gives the byte written. -/
@[simp] theorem Memory.read_write_same (m : Memory) (x : Nat) (v : Byte) : (m.write x v).read x = v := by
  rw [Memory.read_write, if_pos rfl]

/-- A write leaves every other address alone. -/
theorem Memory.read_write_other {x y : Nat} (h : y ≠ x) (v : Byte) (m : Memory) : (m.write x v).read y = m.read y := by
  rw [Memory.read_write, if_neg h]

/-- Two memories in canonical form that read alike under every power-on draw are the same list. -/
theorem Memory.eq_of_readWith_from : ∀ {low : Nat} {m m' : Memory}, Memory.wfFrom low m = true →
    Memory.wfFrom low m' = true → (∀ draw x, m.readWith draw x = m'.readWith draw x) → m = m'
  | _, [], [], _, _, _ => rfl
  | _, [], (a, b) :: _, _, _, h => by
    have := h (fun _ => b + 1#8) a
    simp [Memory.readWith] at this
  | _, (a, b) :: _, [], _, _, h => by
    have := h (fun _ => b + 1#8) a
    simp [Memory.readWith] at this
  | low, (a, b) :: m, (a', b') :: m', hm, hm', h => by
    rw [Memory.wfFrom_cons] at hm hm'
    have haa : a = a' := by
      rcases Nat.lt_trichotomy a a' with hlt | he | hlt
      · have := h (fun _ => b + 1#8) a
        rw [Memory.readWith, if_pos rfl, Memory.readWith, if_neg (by omega),
          Memory.readWith_below hm'.2.2 (by omega)] at this
        simp at this
      · exact he
      · have := h (fun _ => b' + 1#8) a'
        rw [Memory.readWith, if_neg (by omega), Memory.readWith_below hm.2.2 (by omega), Memory.readWith,
          if_pos rfl] at this
        simp at this
    subst haa
    have hbb : b = b' := by simpa [Memory.readWith] using h (fun _ => 0#8) a
    subst hbb
    have hrest : m = m' := by
      refine Memory.eq_of_readWith_from hm.2.2 hm'.2.2 (fun draw x => ?_)
      by_cases hx : a = x
      · rw [Memory.readWith_below hm.2.2 (by omega), Memory.readWith_below hm'.2.2 (by omega)]
      · simpa [Memory.readWith, hx] using h draw x
    rw [hrest]

theorem Memory.eq_of_readWith {m m' : Memory} (hm : m.wf = true) (hm' : m'.wf = true)
    (h : ∀ draw x, m.readWith draw x = m'.readWith draw x) : m = m' :=
  Memory.eq_of_readWith_from hm hm' h

theorem Memory.write_wfFrom {x : Nat} (hx : x < Config.memSize) (v : Byte) :
    ∀ {low : Nat} {m : Memory}, low ≤ x → Memory.wfFrom low m = true → Memory.wfFrom low (m.write x v) = true
  | low, [], hl, _ => (Memory.wfFrom_cons ..).2 ⟨hl, hx, rfl⟩
  | low, (a, b) :: m, hl, hm => by
    rw [Memory.wfFrom_cons] at hm
    obtain ⟨hla, ha, hrest⟩ := hm
    unfold Memory.write
    split
    · exact (Memory.wfFrom_cons ..).2 ⟨hl, hx, (Memory.wfFrom_cons ..).2 ⟨by omega, ha, hrest⟩⟩
    · split
      · rename_i _ hxa
        exact (Memory.wfFrom_cons ..).2 ⟨hl, hx, by rw [hxa]; exact hrest⟩
      · exact (Memory.wfFrom_cons ..).2 ⟨hla, ha, Memory.write_wfFrom hx v (by omega) hrest⟩

/-- A write keeps the canonical form. -/
theorem Memory.write_wf {m : Memory} (h : m.wf = true) {x : Nat} (hx : x < Config.memSize) (v : Byte) :
    (m.write x v).wf = true :=
  Memory.write_wfFrom hx v (Nat.zero_le _) h

/-- Every 32-bit address is an address of M. -/
theorem word_lt_memSize (a : Word) : a.toNat < Config.memSize := a.isLt

theorem State.writeMem_wf {s : State} (h : s.mem.wf = true) (a : Word) (b : Byte) : (s.writeMem a b).mem.wf = true :=
  Memory.write_wf h (word_lt_memSize a) b

theorem State.dstByteWrite_wf {s : State} (h : s.mem.wf = true) (i : Nat) (b : Byte) :
    (s.dstByteWrite i b).mem.wf = true :=
  State.writeMem_wf h _ b

/-- Drawing the bytes of a region keeps the canonical form. -/
theorem Memory.drawBytes_wf (k : Nat) (base : Word) :
    ∀ (n : Nat) {m : Memory}, m.wf = true → (m.drawBytes k base n).wf = true
  | 0, _, h => h
  | n + 1, _, h => Memory.write_wf (Memory.drawBytes_wf k base n h) (word_lt_memSize _) _

/-- Drawing the bytes of a region leaves every other address alone. -/
theorem Memory.read_drawBytes_other (k : Nat) (base : Word) (y : Nat) :
    ∀ (n : Nat) (m : Memory), (∀ i, i < n → y ≠ (base + BitVec.ofNat 32 i).toNat) →
      (m.drawBytes k base n).read y = m.read y
  | 0, _, _ => rfl
  | n + 1, m, h => by
    unfold Memory.drawBytes
    rw [Memory.read_write_other (h n (Nat.lt_succ_self n))]
    exact Memory.read_drawBytes_other k base y n m (fun i hi => h i (Nat.lt_succ_of_lt hi))

theorem State.drawnMem_wf {s : State} (h : s.mem.wf = true) (e : CmdError) : (s.drawnMem e).wf = true := by
  cases e
  case illegalCommand => exact h
  all_goals exact Memory.drawBytes_wf _ _ _ h

@[simp] theorem State.reset_mem_wf : State.reset.mem.wf = true := rfl

end Sys2Proof.Machine
end

