-- ==== Sys2Proof/Laws/BitStream.lean ====
section
/-! SUPPORT. What the bit-stream primitives do (40_bitstream.md section 1): the values of bit lists, the bits a writer
puts into M and those it leaves alone, and when a read or a write succeeds. -/

namespace Sys2Proof.Machine

@[simp] theorem bitsLsb_zero (v : Nat) : bitsLsb 0 v = [] := rfl

@[simp] theorem length_bitsLsb : ∀ n v : Nat, (bitsLsb n v).length = n
  | 0, _ => rfl
  | n + 1, v => by simp [bitsLsb, length_bitsLsb n]

@[simp] theorem length_bitsMsb (n v : Nat) : (bitsMsb n v).length = n := by simp [bitsMsb]

theorem getElem?_bitsLsb : ∀ (n v k : Nat), k < n → (bitsLsb n v)[k]? = some (v.testBit k)
  | 0, _, _, h => absurd h (Nat.not_lt_zero _)
  | n + 1, v, 0, _ => by
    simp only [bitsLsb, List.getElem?_cons_zero, Nat.testBit_zero]
    rcases Nat.mod_two_eq_zero_or_one v with h | h <;> simp [h]
  | n + 1, v, k + 1, h => by
    simp only [bitsLsb, List.getElem?_cons_succ]
    rw [getElem?_bitsLsb n (v / 2) k (by omega), Nat.testBit_succ]

theorem getElem?_bitsMsb (n v k : Nat) (h : k < n) : (bitsMsb n v)[k]? = some (v.testBit (n - 1 - k)) := by
  unfold bitsMsb
  rw [List.getElem?_reverse (by simpa using h), length_bitsLsb, getElem?_bitsLsb n v _ (by omega)]

/-- The value of the bits of a field is the field (R143, R147). -/
@[simp] theorem natOfLsb_bitsLsb : ∀ n v : Nat, natOfLsb (bitsLsb n v) = v % 2 ^ n
  | 0, v => by simp [natOfLsb, Nat.mod_one]
  | n + 1, v => by
    have h2 : v % 2 < 2 := Nat.mod_lt _ (by omega)
    have hb : (v % 2 == 1).toNat = v % 2 := by
      rcases (by omega : v % 2 = 0 ∨ v % 2 = 1) with h | h <;> simp [h]
    rw [bitsLsb, natOfLsb, natOfLsb_bitsLsb n, hb, Nat.pow_succ, Nat.mul_comm (2 ^ n) 2, Nat.mod_mul]

theorem natOfMsb_append (acc : Nat) (xs ys : List Bool) : natOfMsb acc (xs ++ ys) = natOfMsb (natOfMsb acc xs) ys := by
  induction xs generalizing acc with
  | nil => rfl
  | cons x xs ih => exact ih _

/-- The value of the bits of a code is the code (R144, R148). -/
@[simp] theorem natOfMsb_bitsMsb : ∀ n v : Nat, natOfMsb 0 (bitsMsb n v) = v % 2 ^ n
  | 0, v => by simp [bitsMsb, natOfMsb, Nat.mod_one]
  | n + 1, v => by
    have hb : (v % 2 == 1).toNat = v % 2 := by
      rcases (by omega : v % 2 = 0 ∨ v % 2 = 1) with h | h <;> simp [h]
    have ih := natOfMsb_bitsMsb n (v / 2)
    unfold bitsMsb at ih ⊢
    rw [bitsLsb, List.reverse_cons, natOfMsb_append, ih]
    simp only [natOfMsb, hb]
    rw [Nat.pow_succ, Nat.mul_comm (2 ^ n) 2, Nat.mod_mul]
    omega

theorem natOfLsb_lt : ∀ bits : List Bool, natOfLsb bits < 2 ^ bits.length
  | [] => by simp [natOfLsb]
  | b :: bs => by
    have := natOfLsb_lt bs
    cases b <;> simp [natOfLsb, Nat.pow_succ] <;> omega

/-- Bit `k` of the value of bits read LSB-first is the `k`-th of them. -/
theorem testBit_natOfLsb : ∀ (bits : List Bool) (k : Nat), (natOfLsb bits).testBit k = bits.getD k false
  | [], k => by simp [natOfLsb]
  | b :: bs, 0 => by cases b <;> simp [natOfLsb, Nat.testBit_zero]
  | b :: bs, k + 1 => by
    have h : (b.toNat + 2 * natOfLsb bs) / 2 = natOfLsb bs := by cases b <;> simp <;> omega
    rw [natOfLsb, Nat.testBit_succ, h, testBit_natOfLsb bs k]
    simp

theorem natOfMsb_eq : ∀ (bits : List Bool) (acc : Nat), natOfMsb acc bits = acc * 2 ^ bits.length + natOfLsb bits.reverse
  | [], acc => by simp [natOfMsb, natOfLsb]
  | b :: bs, acc => by
    have happ : ∀ xs : List Bool, natOfLsb (xs ++ [b]) = natOfLsb xs + b.toNat * 2 ^ xs.length := by
      intro xs
      induction xs with
      | nil => simp [natOfLsb]
      | cons x xs ih =>
        simp only [List.cons_append, natOfLsb, ih, List.length_cons, Nat.pow_succ]
        rw [Nat.mul_add]
        rw [show 2 * (b.toNat * 2 ^ xs.length) = b.toNat * (2 ^ xs.length * 2) by
          rw [Nat.mul_left_comm, Nat.mul_comm 2 (2 ^ xs.length)]]
        omega
    rw [natOfMsb, natOfMsb_eq bs, List.reverse_cons, happ, List.length_reverse, List.length_cons, Nat.pow_succ]
    rw [Nat.add_mul, Nat.mul_comm 2 acc, Nat.mul_assoc, Nat.mul_comm 2 (2 ^ bs.length)]
    omega

/-- Bit `k` of the value of `n` bits read MSB-first is the one `k` before their last. -/
theorem testBit_natOfMsb (bits : List Bool) (k : Nat) : (natOfMsb 0 bits).testBit k = bits.reverse.getD k false := by
  rw [natOfMsb_eq, Nat.zero_mul, Nat.zero_add, testBit_natOfLsb]

/-- Only the named bit changes (R141). -/
theorem getLsbD_setBit (b : Byte) (k i : Nat) (v : Bool) (hk : k < 8) (hi : i < 8) :
    (setBit b k v).getLsbD i = if i = k then v else b.getLsbD i := by
  have shift : ∀ k i : Fin 8, (1#8 <<< k.val).getLsbD i.val = decide (i = k) := by decide
  have hs := shift ⟨k, hk⟩ ⟨i, hi⟩
  simp only [Fin.mk.injEq] at hs
  rw [setBit, BitVec.getLsbD_or, BitVec.getLsbD_and, BitVec.getLsbD_not, hs]
  by_cases h : i = k
  · cases v <;> simp [h, hk]
  · cases v <;> simp only [hs, h, hi, decide_false, decide_true, Bool.not_false, Bool.and_true, Bool.or_false,
      if_false, if_true] <;> simp

/-! The reader. -/

@[simp] theorem length_srcBitList (s : State) : ∀ p n : Nat, (s.srcBitList p n).length = n
  | _, 0 => rfl
  | p, n + 1 => by simp [State.srcBitList, length_srcBitList s (p + 1) n]

theorem getElem?_srcBitList (s : State) : ∀ p n k : Nat, k < n → (s.srcBitList p n)[k]? = some (s.srcBit (p + k))
  | _, 0, _, h => absurd h (Nat.not_lt_zero _)
  | p, n + 1, 0, _ => by simp [State.srcBitList]
  | p, n + 1, k + 1, h => by
    simp only [State.srcBitList, List.getElem?_cons_succ]
    rw [getElem?_srcBitList s (p + 1) n k (by omega)]
    congr 2; omega

theorem srcBitList_append (s : State) : ∀ p m n : Nat,
    s.srcBitList p (m + n) = s.srcBitList p m ++ s.srcBitList (p + m) n
  | _, 0, _ => by simp [State.srcBitList]
  | p, m + 1, n => by
    rw [show m + 1 + n = (m + n) + 1 by omega]
    simp only [State.srcBitList, List.cons_append]
    rw [srcBitList_append s (p + 1) m n, show p + 1 + m = p + (m + 1) by omega]

/-- The source bits depend on SRC_ADDR and M only. -/
theorem srcBit_congr {s t : State} (ha : t.srcAddr = s.srcAddr) (hm : t.mem = s.mem) (p : Nat) :
    t.srcBit p = s.srcBit p := by
  simp [State.srcBit, State.srcByte, State.readMem, State.srcByteAddr, ha, hm]

theorem srcBitList_congr {s t : State} (ha : t.srcAddr = s.srcAddr) (hm : t.mem = s.mem) : ∀ p n : Nat,
    t.srcBitList p n = s.srcBitList p n
  | _, 0 => rfl
  | p, n + 1 => by simp [State.srcBitList, srcBit_congr ha hm, srcBitList_congr ha hm (p + 1) n]

/-- Everything a read of `n` bits can do (R146, R147). -/
theorem readBits_cases (s : State) (n : Nat) (eof : CmdError) :
    (s.srcBits < s.brPos.toNat + n ∧ s.readBits n eof = .error eof) ∨
    (s.brPos.toNat + n ≤ s.srcBits ∧
      s.readBits n eof = .ok (s.srcBitList s.brPos.toNat n, { s with brPos := s.brPos + BitVec.ofNat 32 n })) := by
  unfold State.readBits
  split
  · exact .inl ⟨by omega, rfl⟩
  · exact .inr ⟨by omega, rfl⟩

theorem readRange_error {s : State} {n : Nat} {eof : CmdError} (h : s.srcBits < s.brPos.toNat + n) :
    s.readRange n eof = .error eof := by
  rcases readBits_cases s n eof with ⟨_, e⟩ | ⟨h', _⟩
  · simp [State.readRange, e]
  · omega

theorem readRange_ok {s : State} {n : Nat} {eof : CmdError} (h : s.brPos.toNat + n ≤ s.srcBits) :
    s.readRange n eof =
      .ok (natOfLsb (s.srcBitList s.brPos.toNat n), { s with brPos := s.brPos + BitVec.ofNat 32 n }) := by
  rcases readBits_cases s n eof with ⟨h', _⟩ | ⟨_, e⟩
  · omega
  · simp [State.readRange, e]

theorem readRangeCoded_error {s : State} {n : Nat} {eof : CmdError} (h : s.srcBits < s.brPos.toNat + n) :
    s.readRangeCoded n eof = .error eof := by
  rcases readBits_cases s n eof with ⟨_, e⟩ | ⟨h', _⟩
  · simp [State.readRangeCoded, e]
  · omega

theorem readRangeCoded_ok {s : State} {n : Nat} {eof : CmdError} (h : s.brPos.toNat + n ≤ s.srcBits) :
    s.readRangeCoded n eof =
      .ok (natOfMsb 0 (s.srcBitList s.brPos.toNat n), { s with brPos := s.brPos + BitVec.ofNat 32 n }) := by
  rcases readBits_cases s n eof with ⟨h', _⟩ | ⟨_, e⟩
  · omega
  · simp [State.readRangeCoded, e]

/-- A read moves BR_POS and nothing else. -/
theorem readRange_frame {s t : State} {n v : Nat} {eof : CmdError} (h : s.readRange n eof = .ok (v, t)) :
    s.brPos.toNat + n ≤ s.srcBits ∧ t = { s with brPos := s.brPos + BitVec.ofNat 32 n } ∧
      v = natOfLsb (s.srcBitList s.brPos.toNat n) := by
  rcases Nat.lt_or_ge s.srcBits (s.brPos.toNat + n) with h' | h'
  · rw [readRange_error h'] at h; cases h
  · rw [readRange_ok h'] at h; cases h; exact ⟨h', rfl, rfl⟩

theorem regionFits_iff (start length : Word) :
    regionFits start length = true ↔ length.toNat ≤ 536870911 ∧ start.toNat + length.toNat ≤ 4294967296 := by
  rw [regionFits, Bool.and_eq_true, decide_eq_true_iff, decide_eq_true_iff]
  rfl

/-- A region that passes R66 has fewer than 2^32 bits, so a cursor inside it never wraps. -/
theorem bits_lt_of_regionFits {start length : Word} (h : regionFits start length = true) :
    8 * length.toNat < 4294967296 := by
  rw [regionFits_iff] at h
  omega

theorem toNat_add_of_le {p bound : Word} {n : Nat} (hb : 8 * bound.toNat < 4294967296)
    (h : p.toNat + n ≤ 8 * bound.toNat) : (p + BitVec.ofNat 32 n).toNat = p.toNat + n := by
  rw [BitVec.toNat_add, BitVec.toNat_ofNat]
  omega

/-! The writer. -/

/-- In a destination region that passes R66, byte `i` is at DST_ADDR + i. -/
theorem toNat_dstByteAddr {s : State} (h : s.dstRegionOk = true) {i : Nat} (hi : i < s.dstCap.toNat) :
    (s.dstByteAddr i).toNat = s.dstAddr.toNat + i := by
  rw [State.dstRegionOk, regionFits_iff] at h
  rw [State.dstByteAddr, BitVec.toNat_add, BitVec.toNat_ofNat]
  omega

theorem dstByteAddr_inj {s : State} (h : s.dstRegionOk = true) {i j : Nat} (hi : i < s.dstCap.toNat)
    (hj : j < s.dstCap.toNat) (e : (s.dstByteAddr i).toNat = (s.dstByteAddr j).toNat) : i = j := by
  rw [toNat_dstByteAddr h hi, toNat_dstByteAddr h hj] at e
  omega

/-- In a source region that passes R66, byte `i` is at SRC_ADDR + i. -/
theorem toNat_srcByteAddr {s : State} (h : s.srcRegionOk = true) {i : Nat} (hi : i < s.srcLen.toNat) :
    (s.srcByteAddr i).toNat = s.srcAddr.toNat + i := by
  rw [State.srcRegionOk, regionFits_iff] at h
  rw [State.srcByteAddr, BitVec.toNat_add, BitVec.toNat_ofNat]
  omega

/-- The bytes of a destination region that passes R66 are in it. -/
theorem inRegion_dstByteAddr {s : State} (h : s.dstRegionOk = true) {i : Nat} (hi : i < s.dstCap.toNat) :
    inRegion s.dstAddr s.dstCap (s.dstByteAddr i).toNat = true := by
  rw [toNat_dstByteAddr h hi]
  simp [inRegion]
  omega

/-- With two regions that pass R66, no source byte is a destination byte. -/
theorem srcByteAddr_ne_dstByteAddr {s : State} (h : s.bothRegionsOk = true) {i j : Nat} (hi : i < s.srcLen.toNat)
    (hj : j < s.dstCap.toNat) : (s.srcByteAddr i).toNat ≠ (s.dstByteAddr j).toNat := by
  simp only [State.bothRegionsOk, Bool.and_eq_true] at h
  rw [toNat_srcByteAddr h.1.1 hi, toNat_dstByteAddr h.1.2 hj]
  have ho := h.2
  simp [State.regionsOverlap] at ho
  omega

/-- PutBit changes M and BW_POS and nothing else. -/
theorem putBit_frame (s : State) (b : Bool) :
    s.putBit b = { s with mem := (s.putBit b).mem, bwPos := s.bwPos + 1#32 } := rfl

theorem putBits_frame : ∀ (bits : List Bool) (s : State),
    State.putBits bits s =
      { s with mem := (State.putBits bits s).mem, bwPos := s.bwPos + BitVec.ofNat 32 bits.length }
  | [], s => by simp [State.putBits]
  | b :: bs, s => by
    have h := putBits_frame bs (s.putBit b)
    have hp : s.bwPos + 1#32 + BitVec.ofNat 32 bs.length = s.bwPos + BitVec.ofNat 32 (bs.length + 1) := by
      rw [BitVec.add_assoc]; congr 1
      apply BitVec.eq_of_toNat_eq
      rw [BitVec.toNat_add, BitVec.toNat_ofNat, BitVec.toNat_ofNat]
      simp only [BitVec.toNat_ofNat]
      omega
    have e : State.putBits (b :: bs) s = State.putBits bs (s.putBit b) := rfl
    rw [e]
    generalize State.putBits bs (s.putBit b) = t at h
    rw [h, List.length_cons, ← hp]
    rfl

theorem putBits_wf : ∀ (bits : List Bool) {s : State}, s.mem.wf = true → (State.putBits bits s).mem.wf = true
  | [], _, h => h
  | _ :: bs, _, h => putBits_wf bs (State.dstByteWrite_wf h _ _)

/-- PutBit changes bit BW_POS of the destination and no other bit of M (R141). -/
theorem getLsbD_read_putBit (s : State) (b : Bool) (a i : Nat) (hi : i < 8) :
    ((s.putBit b).mem.read a).getLsbD i =
      if a = (s.dstByteAddr (s.bwPos.toNat / 8)).toNat ∧ i = s.bwPos.toNat % 8 then b
      else (s.mem.read a).getLsbD i := by
  simp only [State.putBit, State.dstByteWrite_mem]
  rw [Memory.read_write]
  by_cases ha : a = (s.dstByteAddr (s.bwPos.toNat / 8)).toNat
  · rw [if_pos ha, getLsbD_setBit _ _ _ _ (Nat.mod_lt _ (by omega)) hi]
    simp [ha, State.dstByteRead, State.readMem]
  · simp [ha]

/-- Everything a write of `bits` can do (R142). -/
theorem writeBits_cases (s : State) (bits : List Bool) :
    (s.dstBits < s.bwPos.toNat + bits.length ∧ s.writeBits bits = .error .outOfRange) ∨
    (s.bwPos.toNat + bits.length ≤ s.dstBits ∧ s.writeBits bits = .ok (State.putBits bits s)) := by
  unfold State.writeBits
  split
  · exact .inl ⟨by omega, rfl⟩
  · exact .inr ⟨by omega, rfl⟩

/-- The bits of a write in a region that passes R66: the written ones, and every other bit of M as it was (R142, R143). -/
theorem putBits_bits : ∀ (bits : List Bool) {s : State}, s.dstRegionOk = true →
    s.bwPos.toNat + bits.length ≤ s.dstBits →
    (∀ k, k < bits.length → (State.putBits bits s).dstBit (s.bwPos.toNat + k) = bits.getD k false) ∧
      SameMemBits (s.OutsideBits s.bwPos.toNat bits.length) s (State.putBits bits s)
  | [], s, _, _ => ⟨fun _ h => absurd h (Nat.not_lt_zero _), fun _ _ _ _ => rfl⟩
  | b :: bs, s, hreg, hle => by
    have hb : s.dstBits < 4294967296 := bits_lt_of_regionFits hreg
    simp only [List.length_cons] at hle ⊢
    have hpos : (s.putBit b).bwPos.toNat = s.bwPos.toNat + 1 := by
      simp only [State.putBit, BitVec.toNat_add, BitVec.toNat_ofNat]
      omega
    have ih := putBits_bits bs (s := s.putBit b) hreg
      (by rw [hpos]; show _ ≤ s.dstBits; omega)
    rw [hpos] at ih
    have hout : ∀ a i, i < 8 → s.OutsideBits (s.bwPos.toNat + 1) bs.length a i →
        ((State.putBits bs (s.putBit b)).mem.read a).getLsbD i = ((s.putBit b).mem.read a).getLsbD i :=
      fun a i hi ho => ih.2 a i hi ho
    refine ⟨fun k hk => ?_, fun a i hi ho => ?_⟩
    · cases k with
      | zero =>
        have hf := putBits_frame (b :: bs) s
        have hd : ∀ p, (State.putBits (b :: bs) s).dstBit p =
            (((State.putBits bs (s.putBit b)).mem.read (s.dstByteAddr (p / 8)).toNat).getLsbD (p % 8)) := by
          intro p
          rw [hf]; rfl
        rw [hd, hout _ _ (Nat.mod_lt _ (by omega)), getLsbD_read_putBit s _ _ _ (Nat.mod_lt _ (by omega))]
        · simp
        · intro j hj hc
          have hi : (s.bwPos.toNat + 0) / 8 = (s.bwPos.toNat + 1 + j) / 8 :=
            dstByteAddr_inj hreg (by simp only [State.dstBits] at hle; omega)
              (by simp only [State.dstBits] at hle; omega) hc.1
          omega
      | succ k =>
        have := ih.1 k (by omega)
        rw [show s.bwPos.toNat + (k + 1) = s.bwPos.toNat + 1 + k by omega]
        rw [List.getD_cons_succ]
        exact this
    · have h1 : s.OutsideBits (s.bwPos.toNat + 1) bs.length a i := by
        intro j hj hc
        exact ho (j + 1) (by omega) (by rw [show s.bwPos.toNat + (j + 1) = s.bwPos.toNat + 1 + j by omega]; exact hc)
      have h0 : ¬ (a = (s.dstByteAddr (s.bwPos.toNat / 8)).toNat ∧ i = s.bwPos.toNat % 8) := ho 0 (by omega)
      show ((State.putBits bs (s.putBit b)).mem.read a).getLsbD i = _
      rw [hout a i hi h1, getLsbD_read_putBit s _ _ _ hi, if_neg h0]

end Sys2Proof.Machine
end

