-- ==== Sys2Proof/Laws/Builders.lean ====
section
/-! SUPPORT. The first facts about the canonical Huffman builder (42_huffman.md) and the match finder (43_lz77.md): sizes,
the order's permutation, the largest length, and what a match length says about the bytes. -/

namespace Sys2Proof.Machine

/-! The canonical Huffman builder. -/

theorem insertPackage_perm (p : Package) : ∀ l : List Package, (insertPackage p l).Perm (p :: l)
  | [] => .refl _
  | q :: qs => by
    unfold insertPackage
    split
    · exact .refl _
    · exact ((insertPackage_perm p qs).cons q).trans (.swap p q qs)

/-- Sorting keeps the packages (00_scope.md R11). -/
theorem sortPackages_perm : ∀ l : List Package, (sortPackages l).Perm l
  | [] => .refl _
  | p :: ps => (insertPackage_perm p _).trans ((sortPackages_perm ps).cons p)

@[simp] theorem length_sortPackages (l : List Package) : (sortPackages l).length = l.length :=
  (sortPackages_perm l).length_eq

@[simp] theorem length_pairPackages : ∀ l : List Package, (pairPackages l).length = l.length / 2
  | [] => rfl
  | [_] => by simp [pairPackages]
  | _ :: _ :: rest => by
    simp only [pairPackages, List.length_cons, length_pairPackages rest]
    omega

@[simp] theorem length_leafPackages : ∀ (s : Nat) (freq : List Nat), (leafPackages s freq).length = usedSymbols freq
  | _, [] => rfl
  | s, f :: fs => by
    have ih := length_leafPackages (s + 1) fs
    unfold leafPackages usedSymbols
    unfold usedSymbols at ih
    by_cases h : f > 0 <;> simp [h, ih]

@[simp] theorem length_assignLength (len : Nat) : ∀ (code : Nat) (lens codes : List Nat),
    (assignLength len code lens codes).2.length = codes.length
  | _, [], _ => by simp [assignLength]
  | _, _ :: _, [] => by simp [assignLength]
  | code, l :: lens, c :: codes => by
    unfold assignLength
    split <;> simp [length_assignLength len _ lens codes]

@[simp] theorem length_assignLengths (lens : List Nat) : ∀ (count len code : Nat) (codes : List Nat),
    (assignLengths lens count len code codes).length = codes.length
  | 0, _, _, _ => rfl
  | count + 1, len, code, codes => by
    rw [assignLengths, length_assignLengths lens count]
    exact length_assignLength len code lens codes

/-- Every symbol of the alphabet has an entry (R186). -/
@[simp] theorem length_canon (lens : List Nat) : (canon lens).length = lens.length := by simp [canon]

theorem le_foldl_max : ∀ (l : List Nat) (a : Nat), a ≤ l.foldl max a ∧ ∀ x ∈ l, x ≤ l.foldl max a
  | [], a => ⟨Nat.le_refl a, fun _ h => by cases h⟩
  | y :: ys, a => by
    have h := le_foldl_max ys (max a y)
    refine ⟨Nat.le_trans (Nat.le_max_left a y) h.1, fun x hx => ?_⟩
    rcases List.mem_cons.1 hx with rfl | hx
    · exact Nat.le_trans (Nat.le_max_right a x) h.1
    · exact h.2 x hx

/-- No length is above the largest. -/
theorem le_maxLength {lens : List Nat} {l : Nat} (h : l ∈ lens) : l ≤ maxLength lens := (le_foldl_max lens 0).2 l h

/-! The match finder. -/

theorem commonRun_le : ∀ (limit : Nat) (xs ys : List Byte), commonRun limit xs ys ≤ limit
  | 0, _, _ => by simp [commonRun]
  | limit + 1, [], _ => by simp [commonRun]
  | limit + 1, _ :: _, [] => by simp [commonRun]
  | limit + 1, x :: xs, y :: ys => by
    unfold commonRun
    split
    · exact Nat.succ_le_succ (commonRun_le limit xs ys)
    · exact Nat.zero_le _

/-- The bytes of a common run are equal. -/
theorem commonRun_eq : ∀ (limit : Nat) (xs ys : List Byte) (j : Nat), j < commonRun limit xs ys → xs[j]? = ys[j]?
  | 0, _, _, _, h => by simp [commonRun] at h
  | _ + 1, [], _, _, h => by simp [commonRun] at h
  | _ + 1, _ :: _, [], _, h => by simp [commonRun] at h
  | limit + 1, x :: xs, y :: ys, j, h => by
    unfold commonRun at h
    split at h
    · rename_i e
      cases j with
      | zero => simp [e]
      | succ j => simpa using commonRun_eq limit xs ys j (by omega)
    · omega

/-- A match stays below MAX_MATCH and inside the input (R212). -/
theorem matchLen_le (data : List Byte) (p i : Nat) :
    matchLen data p i ≤ Config.maxMatch ∧ matchLen data p i ≤ data.length - i := by
  have h := commonRun_le (min Config.maxMatch (data.length - i)) (data.drop p) (data.drop i)
  exact ⟨Nat.le_trans h (Nat.min_le_left _ _), Nat.le_trans h (Nat.min_le_right _ _)⟩

/-- The bytes of a match are those the distance before (R212). -/
theorem matchLen_eq (data : List Byte) (p i j : Nat) (h : j < matchLen data p i) : data[p + j]? = data[i + j]? := by
  have := commonRun_eq _ _ _ j h
  simpa [List.getElem?_drop] using this

/-- A candidate lies before the position and inside the window (R211). -/
theorem candidates_bounds {ix : Index} {t : Triple} {i p : Nat} (h : p ∈ candidates ix t i) :
    p < i ∧ i - p ≤ Config.window := by
  simpa [candidates] using And.right (by simpa [candidates] using h : _ ∧ _)

end Sys2Proof.Machine
end

