-- ==== Sys2Proof/Laws/Lifecycle.lean ====
section
/-! SUPPORT. How a command begins and ends (46_control.md R300, R301; 60_exceptions.md R325, R326): the checks, the
completion, and the two ways a Run concludes. -/

namespace Sys2Proof.Machine

@[simp] theorem require_true (e : CmdError) : require true e = .ok () := rfl

@[simp] theorem require_false (e : CmdError) : require false e = .error e := rfl

@[simp] theorem State.conclude_ok (s t : State) (f : CmdError → State → State) :
    s.conclude f (.ok t) = .next t.finished := rfl

@[simp] theorem State.conclude_raise (s : State) (e : CmdError) :
    s.conclude State.raise (.error e) = .next (s.failed e) := rfl

/-- A concluded Run is a next state, whatever the rule of the command gave. -/
theorem State.conclude_next (s : State) (f : CmdError → State → State) (r : Except CmdError State) :
    ∃ t, s.conclude f r = .next t ∧ ((∃ u, r = .ok u ∧ t = u.finished) ∨ ∃ e, r = .error e ∧ t = f e s) := by
  cases r with
  | ok u => exact ⟨_, rfl, .inl ⟨u, rfl, rfl⟩⟩
  | error e => exact ⟨_, rfl, .inr ⟨e, rfl, rfl⟩⟩

theorem State.raiseDecompress_eq (s : State) (e : CmdError) : s.raiseDecompress e = s.decodeFailed e := rfl

@[simp] theorem State.raise_busy (s : State) (e : CmdError) : (s.raise e).busy = false := rfl

@[simp] theorem State.complete_busy (s : State) (e : Option CmdError) : (s.complete e).busy = false := rfl

@[simp] theorem State.accept_busy (s : State) (w : Word) : (s.accept w).busy = true := rfl

/-- BUSY is 1 exactly while a word is latched (log 8). -/
theorem State.busy_iff (s : State) : s.busy = true ↔ ∃ w, s.pending = some w := by
  cases h : s.pending <;> simp [State.busy, h]

/-- The checks of R66 either pass and change nothing or raise IllegalCommand. -/
theorem State.checkSrc_eq (s : State) :
    s.checkSrc = if s.srcRegionOk then .ok () else .error .illegalCommand := rfl

theorem State.checkDst_eq (s : State) :
    s.checkDst = if s.dstRegionOk then .ok () else .error .illegalCommand := rfl

theorem State.checkBoth_eq (s : State) :
    s.checkBoth = if s.bothRegionsOk then .ok () else .error .illegalCommand := rfl

theorem State.bothRegionsOk_src {s : State} (h : s.bothRegionsOk = true) : s.srcRegionOk = true := by
  simp only [State.bothRegionsOk, Bool.and_eq_true] at h
  exact h.1.1

theorem State.bothRegionsOk_dst {s : State} (h : s.bothRegionsOk = true) : s.dstRegionOk = true := by
  simp only [State.bothRegionsOk, Bool.and_eq_true] at h
  exact h.1.2

/-- Drawing the destination bytes changes no byte outside the destination region. -/
theorem State.read_drawnMem_outside {s : State} (e : CmdError) (h : s.dstRegionOk = true) {a : Nat}
    (ha : s.OutsideDst a) : (s.drawnMem e).read a = s.mem.read a := by
  have key : (Memory.drawBytes s.draws s.dstAddr s.dstCap.toNat s.mem).read a = s.mem.read a := by
    refine Memory.read_drawBytes_other _ _ _ _ _ (fun i hi e => ?_)
    have := inRegion_dstByteAddr h hi
    rw [show s.dstByteAddr i = s.dstAddr + BitVec.ofNat 32 i from rfl, ← e] at this
    rw [State.OutsideDst, this] at ha
    cases ha
  cases e <;> first | exact key | rfl

/-- A write to a byte of the destination region changes no byte outside it. -/
theorem State.read_dstByteWrite_outside {s : State} (h : s.dstRegionOk = true) {i : Nat} (hi : i < s.dstCap.toNat)
    (b : Byte) {a : Nat} (ha : s.OutsideDst a) : (s.dstByteWrite i b).mem.read a = s.mem.read a := by
  refine Memory.read_write_other (fun e => ?_) b s.mem
  have := inRegion_dstByteAddr h hi
  rw [← e, show inRegion s.dstAddr s.dstCap a = false from ha] at this
  cases this

theorem State.dstWord_frame (s : State) (k : Nat) (w : Word) : s.dstWord k w = { s with mem := (s.dstWord k w).mem } :=
  rfl

/-- Writing the records changes M only. -/
theorem State.dstWords_frame : ∀ (ws : List Word) (k : Nat) (s : State),
    State.dstWords k ws s = { s with mem := (State.dstWords k ws s).mem }
  | [], _, _ => rfl
  | w :: ws, k, s => by
    show State.dstWords (k + 1) ws (s.dstWord k w) = { s with mem := (State.dstWords (k + 1) ws (s.dstWord k w)).mem }
    rw [State.dstWord_frame s k w]
    generalize (s.dstWord k w).mem = m
    exact State.dstWords_frame ws (k + 1) { s with mem := m }

theorem State.dstWord_wf {s : State} (h : s.mem.wf = true) (k : Nat) (w : Word) : (s.dstWord k w).mem.wf = true :=
  State.dstByteWrite_wf
    (State.dstByteWrite_wf (State.dstByteWrite_wf (State.dstByteWrite_wf h _ _) _ _) _ _) _ _

theorem State.dstWords_wf : ∀ (ws : List Word) (k : Nat) {s : State}, s.mem.wf = true →
    (State.dstWords k ws s).mem.wf = true
  | [], _, _, h => h
  | _ :: ws, k, _, h => State.dstWords_wf ws (k + 1) (State.dstWord_wf h _ _)

end Sys2Proof.Machine
end

