-- ==== Sys2Proof/Laws/Decoder.lean ====
section
/-! SUPPORT. What the parts of the decoder FSM do (45_deflate_decode.md): which fields each may change, that it keeps M
in canonical form, and how far a fetch moves BR_POS. -/

namespace Sys2Proof.Machine

/-- A reader's move: only BR_POS differs, it has not gone back, and it is within the source region. -/
structure ReaderMove (s t : State) : Prop where
  frame : t = { s with brPos := t.brPos }
  mono : s.brPos.toNat ≤ t.brPos.toNat
  bound : t.brPos.toNat ≤ s.srcBits

/-- A put's move: only M differs, and it keeps the canonical form and every byte outside the destination region. -/
structure WriterMove (s t : State) : Prop where
  frame : t = { s with mem := t.mem }
  wf : s.mem.wf = true → t.mem.wf = true
  outside : s.dstRegionOk = true → SameBytes s.OutsideDst s t

theorem ReaderMove.trans {s t u : State} (h : ReaderMove s t) (h' : ReaderMove t u) : ReaderMove s u where
  frame := by rw [h'.frame, h.frame]
  mono := Nat.le_trans h.mono h'.mono
  bound := by
    have hb := h'.bound
    have : t.srcBits = s.srcBits := by rw [h.frame]; rfl
    omega

theorem WriterMove.refl (s : State) : WriterMove s s where
  frame := rfl
  wf := id
  outside := fun _ _ _ => rfl

theorem WriterMove.trans {s t u : State} (h : WriterMove s t) (h' : WriterMove t u) : WriterMove s u where
  frame := by rw [h'.frame, h.frame]
  wf := fun hw => h'.wf (h.wf hw)
  outside := fun hr a ha => by
    have e : t.dstRegionOk = true := by rw [h.frame]; exact hr
    have ha' : t.OutsideDst a := by rw [h.frame]; exact ha
    rw [h'.outside e a ha', h.outside hr a ha]

/-- A successful read moves the reader by its width (R146). -/
theorem readRange_move {s t : State} {n v : Nat} {eof : CmdError} (hb : s.srcRegionOk = true)
    (h : s.readRange n eof = .ok (v, t)) : ReaderMove s t ∧ t.brPos.toNat = s.brPos.toNat + n := by
  obtain ⟨hle, rfl, -⟩ := readRange_frame h
  have hn : (s.brPos + BitVec.ofNat 32 n).toNat = s.brPos.toNat + n := toNat_add_of_le (bits_lt_of_regionFits hb) hle
  exact ⟨⟨rfl, by simp only [hn]; omega, by simp only [hn]; exact hle⟩, hn⟩

/-- Decoding a code moves the reader by at least one bit (42_huffman.md R189). -/
theorem decodeBits_move (v : DecodeView) (eof : CmdError) : ∀ (fuel len code : Nat) {s t : State} {sym : Nat},
    s.srcRegionOk = true → State.decodeBits v eof fuel len code s = .ok (sym, t) →
    ReaderMove s t ∧ s.brPos.toNat < t.brPos.toNat
  | 0, _, _, _, _, _, _, h => by cases h
  | fuel + 1, len, code, s, t, sym, hb, h => by
    unfold State.decodeBits at h
    split at h
    · cases h
    · rename_i bit s' hr
      obtain ⟨hm, hn⟩ := readRange_move hb hr
      split at h
      · cases h
        exact ⟨hm, by omega⟩
      · split at h
        · cases h
        · have hb' : s'.srcRegionOk = true := by rw [hm.frame]; exact hb
          obtain ⟨hm', hlt⟩ := decodeBits_move v eof fuel _ _ hb' h
          exact ⟨hm.trans hm', by omega⟩

/-- One more bit of a code (40_bitstream.md R148). -/
theorem natOfMsb_srcBitList_succ (s : State) (p n : Nat) :
    natOfMsb 0 (s.srcBitList p (n + 1)) = 2 * natOfMsb 0 (s.srcBitList p n) + (s.srcBit (p + n)).toNat := by
  rw [srcBitList_append, natOfMsb_append]
  rfl

/-- The loop of R189 where no code matches from `len` bits on: CorruptData by the view's largest length, or Truncated
where the bits end before it. `s` is the state at the first bit of the code. -/
theorem decodeBits_noMatch (v : DecodeView) (eof : CmdError) (s : State) (hreg : s.srcRegionOk = true) :
    ∀ (fuel len : Nat), fuel + len = v.maxLen → 0 < fuel → s.brPos.toNat + len ≤ s.srcBits →
      (∀ n, len < n → v.minLen ≤ n → n ≤ v.maxLen → s.brPos.toNat + n ≤ s.srcBits →
        v.lookup n (natOfMsb 0 (s.srcBitList s.brPos.toNat n)) = none) →
      State.decodeBits v eof fuel len (natOfMsb 0 (s.srcBitList s.brPos.toNat len))
          { s with brPos := s.brPos + BitVec.ofNat 32 len } =
        .error (if s.srcBits < s.brPos.toNat + v.maxLen then eof else .corruptData)
  | 0, _, _, h0, _, _ => absurd h0 (Nat.lt_irrefl 0)
  | fuel + 1, len, hf, _, hle, hno => by
    have hb : 8 * s.srcLen.toNat < 4294967296 := bits_lt_of_regionFits hreg
    have hpos : (s.brPos + BitVec.ofNat 32 len).toNat = s.brPos.toNat + len := toNat_add_of_le hb hle
    unfold State.decodeBits
    rcases Nat.lt_or_ge s.srcBits (s.brPos.toNat + len + 1) with hlt | hge
    · rw [readRange_error (s := { s with brPos := s.brPos + BitVec.ofNat 32 len })
        (by show s.srcBits < (s.brPos + BitVec.ofNat 32 len).toNat + 1; omega)]
      rw [if_pos (by omega)]
    · rw [readRange_ok (s := { s with brPos := s.brPos + BitVec.ofNat 32 len })
        (by show (s.brPos + BitVec.ofNat 32 len).toNat + 1 ≤ s.srcBits; omega)]
      have hcode : 2 * natOfMsb 0 (s.srcBitList s.brPos.toNat len) +
          natOfLsb (State.srcBitList { s with brPos := s.brPos + BitVec.ofNat 32 len }
            (s.brPos + BitVec.ofNat 32 len).toNat 1) = natOfMsb 0 (s.srcBitList s.brPos.toNat (len + 1)) := by
        rw [natOfMsb_srcBitList_succ, hpos]
        simp [State.srcBitList, natOfLsb, State.srcBit, State.srcByte, State.readMem, State.srcByteAddr]
      have hadd : s.brPos + BitVec.ofNat 32 len + BitVec.ofNat 32 1 = s.brPos + BitVec.ofNat 32 (len + 1) := by
        rw [BitVec.add_assoc, ← BitVec.ofNat_add]
      have hnone : (if v.minLen ≤ len + 1 then
          v.lookup (len + 1) (natOfMsb 0 (s.srcBitList s.brPos.toNat (len + 1))) else none) = none := by
        split
        · exact hno (len + 1) (by omega) ‹_› (by omega) (by omega)
        · rfl
      dsimp only
      rw [hcode, hnone, hadd]
      dsimp only
      by_cases hmax : v.maxLen ≤ len + 1
      · rw [if_pos hmax, if_neg (by omega)]
      · rw [if_neg hmax]
        exact decodeBits_noMatch v eof s hreg fuel (len + 1) (by omega) (by omega) (by omega)
          (fun n hn => hno n (by omega))

/-- A table none of whose codes matches: what DecodeSymbol raises (R189, R261, R262). -/
theorem decodeSymbol_noMatch {v : DecodeView} {s : State} (eof : CmdError) (hreg : s.srcRegionOk = true)
    (hmax : v.maxLen ≠ 0)
    (hno : ∀ n, 1 ≤ n → v.minLen ≤ n → n ≤ v.maxLen → s.brPos.toNat + n ≤ s.srcBits →
      v.lookup n (natOfMsb 0 (s.srcBitList s.brPos.toNat n)) = none) :
    s.decodeSymbol v eof = .error (if s.srcBits < s.brPos.toNat + v.maxLen then eof else .corruptData) := by
  unfold State.decodeSymbol
  rw [if_neg hmax]
  rcases Nat.lt_or_ge s.srcBits s.brPos.toNat with h | h
  · rw [if_pos (by omega)]
    obtain ⟨k, hk⟩ := Nat.exists_eq_succ_of_ne_zero hmax
    rw [hk, State.decodeBits, readRange_error (by omega)]
  · have := decodeBits_noMatch v eof s hreg v.maxLen 0 rfl (by omega) (by omega) (fun n hn => hno n hn)
    simpa [State.srcBitList, natOfMsb] using this

theorem decodeSymbol_move {v : DecodeView} {eof : CmdError} {s t : State} {sym : Nat} (hb : s.srcRegionOk = true)
    (h : s.decodeSymbol v eof = .ok (sym, t)) : ReaderMove s t ∧ s.brPos.toNat < t.brPos.toNat := by
  unfold State.decodeSymbol at h
  split at h
  · cases h
  · exact decodeBits_move v eof _ _ _ hb h

/-- Fetching a selector moves the reader by at least one bit and changes nothing else (R262, R264). -/
theorem fetchSymbol_move {d : Decoder} {s t : State} {sym : Nat} (hb : s.srcRegionOk = true)
    (h : s.fetchSymbol d = .ok (sym, t)) : ReaderMove s t ∧ s.brPos.toNat < t.brPos.toNat := by
  unfold State.fetchSymbol at h
  split at h
  · simp only [bind, Except.bind] at h
    split at h
    · cases h
    · rename_i r1 h1
      obtain ⟨v1, s1⟩ := r1
      split at h
      · cases h
      · rename_i r2 h2
        obtain ⟨v2, s2⟩ := r2
        cases h
        obtain ⟨m1, n1⟩ := readRange_move hb h1
        have hb1 : s1.srcRegionOk = true := by rw [m1.frame]; exact hb
        obtain ⟨m2, n2⟩ := readRange_move hb1 h2
        exact ⟨m1.trans m2, by show s.brPos.toNat < s2.brPos.toNat; omega⟩
  all_goals exact decodeSymbol_move hb h

/-- Put appends one byte and writes it, or the region is full (R263). -/
theorem put_cases (s : State) (out : List Byte) (b : Byte) :
    (out.length = s.dstCap.toNat ∧ s.put out b = .error .outOfRange) ∨
    (out.length ≠ s.dstCap.toNat ∧ s.put out b = .ok (out ++ [b], s.dstByteWrite out.length b)) := by
  unfold State.put
  split
  · exact .inl ⟨‹_›, rfl⟩
  · exact .inr ⟨‹_›, rfl⟩

theorem put_move {s t : State} {out out' : List Byte} {b : Byte} (hle : out.length ≤ s.dstCap.toNat)
    (h : s.put out b = .ok (out', t)) :
    WriterMove s t ∧ out' = out ++ [b] ∧ out'.length ≤ t.dstCap.toNat := by
  rcases put_cases s out b with ⟨_, e⟩ | ⟨hne, e⟩
  · rw [e] at h; cases h
  · rw [e] at h
    cases h
    refine ⟨⟨rfl, fun hw => State.dstByteWrite_wf hw _ _, fun hr a ha => ?_⟩, rfl, ?_⟩
    · exact State.read_dstByteWrite_outside hr (by omega) b ha
    · simp only [List.length_append, List.length_singleton, State.dstByteWrite_dstCap]
      omega

/-- The expander's copy: the output grows by the copies, M changes in the destination region only (R278, R281). -/
theorem copyMatch_move (dist : Nat) : ∀ (n : Nat) {s t : State} {out out' : List Byte},
    out.length ≤ s.dstCap.toNat → State.copyMatch dist n out s = .ok (out', t) →
    WriterMove s t ∧ out' = appendCopies dist n out ∧ out'.length ≤ t.dstCap.toNat
  | 0, s, _, _, _, hle, h => by
    cases h
    exact ⟨WriterMove.refl s, rfl, hle⟩
  | n + 1, s, t, out, out', hle, h => by
    unfold State.copyMatch at h
    split at h
    · cases h
    · rename_i o u hp
      obtain ⟨hm, rfl, hle'⟩ := put_move hle hp
      obtain ⟨hm', he, hl⟩ := copyMatch_move dist n hle' h
      exact ⟨hm.trans hm', he, hl⟩

/-- A match that does not fit ends in OutOfRange. -/
theorem copyMatch_outOfRange (dist : Nat) : ∀ (n : Nat) {s : State} {out : List Byte},
    out.length ≤ s.dstCap.toNat → s.dstCap.toNat < out.length + n →
    State.copyMatch dist n out s = .error .outOfRange
  | 0, _, _, hle, hlt => by omega
  | n + 1, s, out, hle, hlt => by
    unfold State.copyMatch
    rcases put_cases s out (out.getD (out.length - dist) 0#8) with ⟨_, e⟩ | ⟨hne, e⟩
    · rw [e]
    · rw [e]
      exact copyMatch_outOfRange dist n
        (by simp only [List.length_append, List.length_singleton, State.dstByteWrite_dstCap]; omega)
        (by simp only [List.length_append, List.length_singleton, State.dstByteWrite_dstCap]; omega)

@[simp] theorem length_appendCopies (dist : Nat) : ∀ (n : Nat) (out : List Byte),
    (appendCopies dist n out).length = out.length + n
  | 0, _ => rfl
  | n + 1, out => by
    rw [appendCopies, length_appendCopies dist n]
    simp only [List.length_append, List.length_singleton]
    omega

/-- A symbol's outcome is always a next state: the FSM goes on, or the command has ended in error (R275). -/
theorem settle_next (s : State) (r : Except CmdError State) :
    (∃ t, r = .ok t ∧ s.settle r = .next t) ∨ ∃ e, r = .error e ∧ s.settle r = .next (s.decodeFailed e) := by
  cases r with
  | ok t => exact .inl ⟨t, rfl, rfl⟩
  | error e => exact .inr ⟨e, rfl, rfl⟩

theorem settle_is_next (s : State) (r : Except CmdError State) : ∃ t, s.settle r = .next t := by
  rcases settle_next s r with ⟨t, _, h⟩ | ⟨e, _, h⟩ <;> exact ⟨_, h⟩

/-- The end of a block changes the working state, or ends the command (R264, R285). -/
theorem endBlock_cases (s : State) (out : List Byte) (final : Bool) :
    (final = true ∧ s.endBlock out final = ({ s with outLen := BitVec.ofNat 32 out.length } : State).finished) ∨
    (final = false ∧ s.endBlock out final = s.decoding out false .header) := by
  cases final
  · exact .inr ⟨rfl, rfl⟩
  · exact .inl ⟨rfl, rfl⟩

/-- A symbol where the FSM is not in the state that reads it is refused (log 9). -/
theorem symbol_without_work {s : State} (h : s.work = none) (n : Nat) (final : Bool) :
    s.blockSymbol n final = .refused .noStreamContext ∧ s.clSymbol n = .refused .noStreamContext ∧
      s.llSymbol n = .refused .noStreamContext ∧ s.distSymbol n = .refused .noStreamContext := by
  simp [State.blockSymbol, State.clSymbol, State.llSymbol, State.distSymbol, h]

/-- A block header in the FSM state that reads one is a next state, and in every other it is refused (log 9). -/
theorem blockSymbol_reads {s : State} {d : Decoder} (h : s.work = some d) (x : BitVec 3) (n : Nat) (final : Bool) :
    (d.phase.reads (.blockHeader x) = true → ∃ t, s.blockSymbol n final = .next t) ∧
      (d.phase.reads (.blockHeader x) = false → s.blockSymbol n final = .refused .noStreamContext) := by
  obtain ⟨out, old, p⟩ := d
  cases p <;> simp only [State.blockSymbol, h, Phase.reads] <;> simp
  exact settle_is_next _ _

/-- The same for a code-length symbol. -/
theorem clSymbol_reads {s : State} {d : Decoder} (h : s.work = some d) (x : BitVec 5) (n : Nat) :
    (d.phase.reads (.clSymbol x) = true → ∃ t, s.clSymbol n = .next t) ∧
      (d.phase.reads (.clSymbol x) = false → s.clSymbol n = .refused .noStreamContext) := by
  obtain ⟨out, old, p⟩ := d
  cases p <;> simp only [State.clSymbol, h, Phase.reads] <;> simp
  exact settle_is_next _ _

/-- The same for a literal/length symbol. -/
theorem llSymbol_reads {s : State} {d : Decoder} (h : s.work = some d) (x : BitVec 9) (n : Nat) :
    (d.phase.reads (.llSymbol x) = true → ∃ t, s.llSymbol n = .next t) ∧
      (d.phase.reads (.llSymbol x) = false → s.llSymbol n = .refused .noStreamContext) := by
  obtain ⟨out, old, p⟩ := d
  cases p <;> simp only [State.llSymbol, h, Phase.reads] <;> simp
  exact settle_is_next _ _

/-- The same for a distance symbol. -/
theorem distSymbol_reads {s : State} {d : Decoder} (h : s.work = some d) (x : BitVec 5) (n : Nat) :
    (d.phase.reads (.distSymbol x) = true → ∃ t, s.distSymbol n = .next t) ∧
      (d.phase.reads (.distSymbol x) = false → s.distSymbol n = .refused .noStreamContext) := by
  obtain ⟨out, old, p⟩ := d
  cases p <;> simp only [State.distSymbol, h, Phase.reads] <;> simp
  exact settle_is_next _ _

/-- One symbol of a running stream, when the FSM's step has answered it: the stream goes on to the next, or has ended. -/
theorem runStream_succ (fuel : Nat) {s t : State} (h : s.streamStep = .next t) :
    State.runStream (fuel + 1) s = if t.work.isNone then .next t else State.runStream fuel t := by
  rw [State.runStream, h]

end Sys2Proof.Machine
end

