-- ==== Sys2Proof/Laws/Encoder.lean ====
section
/-! SUPPORT. What writing a list of fields does (44_deflate_encode.md R240, R241): it is one write of the bits of all the
fields, or the first error. -/

namespace Sys2Proof.Machine

theorem putBits_append : ∀ (xs ys : List Bool) (s : State),
    State.putBits (xs ++ ys) s = State.putBits ys (State.putBits xs s)
  | [], _, _ => rfl
  | _ :: xs, ys, _ => putBits_append xs ys _

theorem toNat_bwPos_putBits {s : State} (hreg : s.dstRegionOk = true) {bits : List Bool}
    (h : s.bwPos.toNat + bits.length ≤ s.dstBits) :
    (State.putBits bits s).bwPos.toNat = s.bwPos.toNat + bits.length := by
  rw [putBits_frame]
  exact toNat_add_of_le (bits_lt_of_regionFits hreg) h

/-- The fields written in turn, when every symbol has a code and the bits fit: one write of their bits. -/
theorem writeFields_ok : ∀ (fs : List Field) {s : State} {bits : List Bool}, s.dstRegionOk = true →
    fieldBits fs = .ok bits → s.bwPos.toNat + bits.length ≤ s.dstBits →
    State.writeFields s fs = .ok (State.putBits bits s)
  | [], _, _, _, h, _ => by cases h; rfl
  | f :: fs, s, bits, hreg, h, hle => by
    unfold fieldBits at h
    split at h
    · cases h
    · rename_i xs hx
      split at h
      · cases h
      · rename_i ys hy
        cases h
        rw [List.length_append] at hle
        have hw : s.writeField f = .ok (State.putBits xs s) := by
          rcases writeBits_cases s xs with ⟨h', _⟩ | ⟨_, e⟩
          · omega
          · rw [State.writeField, hx]; exact e
        have hf : (State.putBits xs s).dstRegionOk = true := by rw [putBits_frame]; exact hreg
        have hb : (State.putBits xs s).dstBits = s.dstBits := by rw [putBits_frame]; rfl
        unfold State.writeFields
        rw [hw]
        show State.writeFields (State.putBits xs s) fs = _
        rw [writeFields_ok fs hf hy (by rw [hb, toNat_bwPos_putBits hreg (by omega)]; omega), putBits_append]

/-- When the bits do not fit, the fields end in OutOfRange (R241). -/
theorem writeFields_outOfRange : ∀ (fs : List Field) {s : State} {bits : List Bool}, s.dstRegionOk = true →
    fieldBits fs = .ok bits → s.bwPos.toNat ≤ s.dstBits → s.dstBits < s.bwPos.toNat + bits.length →
    State.writeFields s fs = .error .outOfRange
  | [], _, _, _, h, _, hlt => by
    cases h
    simp only [List.length_nil] at hlt
    omega
  | f :: fs, s, bits, hreg, h, hpos, hlt => by
    unfold fieldBits at h
    split at h
    · cases h
    · rename_i xs hx
      split at h
      · cases h
      · rename_i ys hy
        cases h
        rw [List.length_append] at hlt
        rcases writeBits_cases s xs with ⟨_, e⟩ | ⟨h', e⟩
        · unfold State.writeFields
          rw [State.writeField, hx]
          simp only [e]
        · have hf : (State.putBits xs s).dstRegionOk = true := by rw [putBits_frame]; exact hreg
          have hb : (State.putBits xs s).dstBits = s.dstBits := by rw [putBits_frame]; rfl
          unfold State.writeFields
          rw [State.writeField, hx]
          simp only [e]
          exact writeFields_outOfRange fs hf hy (by rw [hb, toNat_bwPos_putBits hreg h']; omega)
            (by rw [hb, toNat_bwPos_putBits hreg h']; omega)

theorem fieldBits_append : ∀ (fs gs : List Field) {xs ys : List Bool}, fieldBits fs = .ok xs → fieldBits gs = .ok ys →
    fieldBits (fs ++ gs) = .ok (xs ++ ys)
  | [], _, _, _, hx, hy => by cases hx; exact hy
  | f :: fs, gs, xs, ys, hx, hy => by
    unfold fieldBits at hx
    split at hx
    · cases hx
    · rename_i as ha
      split at hx
      · cases hx
      · rename_i bs hb
        cases hx
        show fieldBits (f :: (fs ++ gs)) = _
        unfold fieldBits
        rw [ha]
        simp only [fieldBits_append fs gs hb hy, List.append_assoc]

end Sys2Proof.Machine
end

