-- ==== Sys2Proof/Laws/PerInstr.lean ====
section
/-! SUPPORT. For each instruction, that decoding its encoding gives it back (spec/30_encoding.md), and what the decoder
does with a command word that is no command. -/

namespace Sys2Proof

theorem opField_eq (w : Word) : opField w = w.toNat % 256 := by
  simp [opField, BitVec.extractLsb'_toNat]

theorem nField_toNat (w : Word) : (nField w).toNat = w.toNat / 256 % 32 := by
  simp [nField, BitVec.extractLsb'_toNat, Nat.shiftRight_eq_div_pow]

theorem lField_toNat (w : Word) : (lField w).toNat = w.toNat / 65536 % 16 := by
  simp [lField, BitVec.extractLsb'_toNat, Nat.shiftRight_eq_div_pow]

theorem nField_eq_zero (w : Word) : nField w = 0#5 ↔ w.toNat / 256 % 32 = 0 := by
  rw [← nField_toNat, ← BitVec.toNat_inj]; rfl

theorem lField_eq_zero (w : Word) : lField w = 0#4 ↔ w.toNat / 65536 % 16 = 0 := by
  rw [← lField_toNat, ← BitVec.toNat_inj]; rfl

theorem reservedClear_eq (w : Word) :
    reservedClear w = (w.toNat / 8192 % 8 == 0 && w.toNat / 1048576 == 0) := by
  have h1 : (w.extractLsb' 13 3 == 0#3) = (w.toNat / 8192 % 8 == 0) := by
    rw [Bool.eq_iff_iff]
    simp [← BitVec.toNat_inj, BitVec.extractLsb'_toNat, Nat.shiftRight_eq_div_pow]
  have h2 : (w.extractLsb' 20 12 == 0#12) = (w.toNat / 1048576 == 0) := by
    have := w.isLt
    rw [Bool.eq_iff_iff]
    simp [← BitVec.toNat_inj, BitVec.extractLsb'_toNat, Nat.shiftRight_eq_div_pow]
    omega
  rw [reservedClear, h1, h2]

/-- A word that no row of R92 admits decodes to the illegal command of that word (R93, R94). -/
theorem decodeCommand_illegal {w : Word} (h : legalCommandWord w = false) : decodeCommand w = .illegalCommand w := by
  unfold decodeCommand
  rw [opField_eq]
  by_cases hr : reservedClear w = true
  · rw [reservedClear_eq] at hr
    simp only [legalCommandWord] at h
    simp only [reservedClear_eq, hr]
    simp only [Bool.and_eq_true, beq_iff_eq] at hr
    split
    · rfl
    split <;> rename_i hop <;>
      first
      | (simp [hop, hr.1, hr.2] at h
         simp [nField_eq_zero, lField_eq_zero, nField_toNat, lField_toNat]
         intros; simp_all)
      | rfl
  · simp [hr]

end Sys2Proof

namespace Sys2Proof.Laws.RoundTrip

/-- Decoding the encoding of a well-formed instruction gives the instruction. -/
def Statement (i : Instr) : Prop := i.wellFormed = true → decode (encode i) = .ok i

theorem nop : Statement .nop := fun _ => rfl

theorem softReset : Statement .softReset := fun _ => rfl

theorem bwWrite (n : BitVec 5) : Statement (.bwWrite n) := fun h =>
  congrArg Except.ok
    ((by decide : ∀ n : BitVec 5, (Instr.bwWrite n).wellFormed = true → decodeCommand (commandWord 0x10 n 0) = .bwWrite n) n h)

theorem bwWriteCoded (n : BitVec 5) : Statement (.bwWriteCoded n) := fun h =>
  congrArg Except.ok
    ((by decide : ∀ n : BitVec 5, (Instr.bwWriteCoded n).wellFormed = true → decodeCommand (commandWord 0x11 n 0) = .bwWriteCoded n) n h)

theorem bwAlign : Statement .bwAlign := fun _ => rfl

theorem brReadBit : Statement .brReadBit := fun _ => rfl

theorem brRead (n : BitVec 5) : Statement (.brRead n) := fun h =>
  congrArg Except.ok
    ((by decide : ∀ n : BitVec 5, (Instr.brRead n).wellFormed = true → decodeCommand (commandWord 0x19 n 0) = .brRead n) n h)

theorem brReadCoded (n : BitVec 5) : Statement (.brReadCoded n) := fun h =>
  congrArg Except.ok
    ((by decide : ∀ n : BitVec 5, (Instr.brReadCoded n).wellFormed = true → decodeCommand (commandWord 0x1A n 0) = .brReadCoded n) n h)

theorem brAlign : Statement .brAlign := fun _ => rfl

theorem crc32 : Statement .crc32 := fun _ => rfl

theorem huffBuild (l : BitVec 4) : Statement (.huffBuild l) := fun h =>
  congrArg Except.ok
    ((by decide : ∀ l : BitVec 4, (Instr.huffBuild l).wellFormed = true → decodeCommand (commandWord 0x30 0 l) = .huffBuild l) l h)

theorem lz77Tokenize : Statement .lz77Tokenize := fun _ => rfl

theorem compress : Statement .compress := fun _ => rfl

theorem decompress : Statement .decompress := fun _ => rfl

theorem illegalCommand (w : Word) : Statement (.illegalCommand w) := fun h =>
  congrArg Except.ok (decodeCommand_illegal (by simpa [Instr.wellFormed] using h))

theorem blockStored (final : Bool) : Statement (.blockStored final) := fun _ => by cases final <;> rfl

theorem blockFixed (final : Bool) : Statement (.blockFixed final) := fun _ => by cases final <;> rfl

theorem blockDynamic (final : Bool) : Statement (.blockDynamic final) := fun _ => by cases final <;> rfl

theorem blockReserved (final : Bool) : Statement (.blockReserved final) := fun _ => by cases final <;> rfl

theorem cl0 : Statement .cl0 := fun _ => rfl

theorem cl1 : Statement .cl1 := fun _ => rfl

theorem cl2 : Statement .cl2 := fun _ => rfl

theorem cl3 : Statement .cl3 := fun _ => rfl

theorem cl4 : Statement .cl4 := fun _ => rfl

theorem cl5 : Statement .cl5 := fun _ => rfl

theorem cl6 : Statement .cl6 := fun _ => rfl

theorem cl7 : Statement .cl7 := fun _ => rfl

theorem cl8 : Statement .cl8 := fun _ => rfl

theorem cl9 : Statement .cl9 := fun _ => rfl

theorem cl10 : Statement .cl10 := fun _ => rfl

theorem cl11 : Statement .cl11 := fun _ => rfl

theorem cl12 : Statement .cl12 := fun _ => rfl

theorem cl13 : Statement .cl13 := fun _ => rfl

theorem cl14 : Statement .cl14 := fun _ => rfl

theorem cl15 : Statement .cl15 := fun _ => rfl

theorem cl16 : Statement .cl16 := fun _ => rfl

theorem cl17 : Statement .cl17 := fun _ => rfl

theorem cl18 : Statement .cl18 := fun _ => rfl

theorem llLiteral (b : Byte) : Statement (.llLiteral b) := fun _ => by
  have hb := b.isLt
  have h : (b.setWidth 9).toNat = b.toNat := by simp; omega
  have h' : (b.setWidth 9).toNat ≤ 255 := by omega
  have e : (b.setWidth 9).setWidth 8 = b := by
    apply BitVec.eq_of_toNat_eq
    rw [BitVec.toNat_setWidth, h]
    exact Nat.mod_eq_of_lt hb
  simp only [encode, decode, decodeLl, if_pos h', e]

theorem llEob : Statement .llEob := fun _ => rfl

theorem llLen257 : Statement .llLen257 := fun _ => rfl

theorem llLen258 : Statement .llLen258 := fun _ => rfl

theorem llLen259 : Statement .llLen259 := fun _ => rfl

theorem llLen260 : Statement .llLen260 := fun _ => rfl

theorem llLen261 : Statement .llLen261 := fun _ => rfl

theorem llLen262 : Statement .llLen262 := fun _ => rfl

theorem llLen263 : Statement .llLen263 := fun _ => rfl

theorem llLen264 : Statement .llLen264 := fun _ => rfl

theorem llLen265 : Statement .llLen265 := fun _ => rfl

theorem llLen266 : Statement .llLen266 := fun _ => rfl

theorem llLen267 : Statement .llLen267 := fun _ => rfl

theorem llLen268 : Statement .llLen268 := fun _ => rfl

theorem llLen269 : Statement .llLen269 := fun _ => rfl

theorem llLen270 : Statement .llLen270 := fun _ => rfl

theorem llLen271 : Statement .llLen271 := fun _ => rfl

theorem llLen272 : Statement .llLen272 := fun _ => rfl

theorem llLen273 : Statement .llLen273 := fun _ => rfl

theorem llLen274 : Statement .llLen274 := fun _ => rfl

theorem llLen275 : Statement .llLen275 := fun _ => rfl

theorem llLen276 : Statement .llLen276 := fun _ => rfl

theorem llLen277 : Statement .llLen277 := fun _ => rfl

theorem llLen278 : Statement .llLen278 := fun _ => rfl

theorem llLen279 : Statement .llLen279 := fun _ => rfl

theorem llLen280 : Statement .llLen280 := fun _ => rfl

theorem llLen281 : Statement .llLen281 := fun _ => rfl

theorem llLen282 : Statement .llLen282 := fun _ => rfl

theorem llLen283 : Statement .llLen283 := fun _ => rfl

theorem llLen284 : Statement .llLen284 := fun _ => rfl

theorem llLen285 : Statement .llLen285 := fun _ => rfl

theorem llReserved286 : Statement .llReserved286 := fun _ => rfl

theorem llReserved287 : Statement .llReserved287 := fun _ => rfl

theorem dist0 : Statement .dist0 := fun _ => rfl

theorem dist1 : Statement .dist1 := fun _ => rfl

theorem dist2 : Statement .dist2 := fun _ => rfl

theorem dist3 : Statement .dist3 := fun _ => rfl

theorem dist4 : Statement .dist4 := fun _ => rfl

theorem dist5 : Statement .dist5 := fun _ => rfl

theorem dist6 : Statement .dist6 := fun _ => rfl

theorem dist7 : Statement .dist7 := fun _ => rfl

theorem dist8 : Statement .dist8 := fun _ => rfl

theorem dist9 : Statement .dist9 := fun _ => rfl

theorem dist10 : Statement .dist10 := fun _ => rfl

theorem dist11 : Statement .dist11 := fun _ => rfl

theorem dist12 : Statement .dist12 := fun _ => rfl

theorem dist13 : Statement .dist13 := fun _ => rfl

theorem dist14 : Statement .dist14 := fun _ => rfl

theorem dist15 : Statement .dist15 := fun _ => rfl

theorem dist16 : Statement .dist16 := fun _ => rfl

theorem dist17 : Statement .dist17 := fun _ => rfl

theorem dist18 : Statement .dist18 := fun _ => rfl

theorem dist19 : Statement .dist19 := fun _ => rfl

theorem dist20 : Statement .dist20 := fun _ => rfl

theorem dist21 : Statement .dist21 := fun _ => rfl

theorem dist22 : Statement .dist22 := fun _ => rfl

theorem dist23 : Statement .dist23 := fun _ => rfl

theorem dist24 : Statement .dist24 := fun _ => rfl

theorem dist25 : Statement .dist25 := fun _ => rfl

theorem dist26 : Statement .dist26 := fun _ => rfl

theorem dist27 : Statement .dist27 := fun _ => rfl

theorem dist28 : Statement .dist28 := fun _ => rfl

theorem dist29 : Statement .dist29 := fun _ => rfl

theorem distReserved30 : Statement .distReserved30 := fun _ => rfl

theorem distReserved31 : Statement .distReserved31 := fun _ => rfl

end Sys2Proof.Laws.RoundTrip
end

