-- ==== Sys2Proof/Tests/Slice0.lean ====
section
/-! SUPPORT. The model's own tests: the checks of WellFormed, a word of every opcode-table row decoded, one or two steps
of each instruction with results from spec/95_test_vectors.md or the tables of spec/30_encoding.md, and for each
statement with hypotheses a state and operands that meet them. -/

namespace Sys2Proof.Tests

set_option Elab.async false

open Sys2Proof.Machine

/-! ## Helpers -/

/-- The answer is a next state that passes `p`. -/
def answers (p : State → Bool) : Result → Bool
  | .next t => p t
  | _ => false

theorem next_of_answers {p : State → Bool} {r : Result} (h : answers p r = true) :
    ∃ t, r = .next t ∧ p t = true := by
  cases r with
  | next t => exact ⟨t, rfl, h⟩
  | fault _ => cases h
  | refused _ => cases h

/-- Bytes laid from address `a` on. -/
def bytesAt (a : Nat) : List Byte → Memory
  | [] => []
  | v :: vs => (a, v) :: bytesAt (a + 1) vs

/-- Reset, with `src` as the source region at 0x100 and `cap` bytes of destination region at 0x400, the first of them 0. -/
def machine (src : List Byte) (cap : Nat) : State :=
  { State.reset with
    srcAddr := 0x100#32
    srcLen := BitVec.ofNat 32 src.length
    dstAddr := 0x400#32
    dstCap := BitVec.ofNat 32 cap
    mem := bytesAt 0x100 src ++ bytesAt 0x400 (List.replicate (min cap 32) 0#8) }

/-- The destination region begins with `bs`. -/
def dstIs (bs : List Byte) (t : State) : Bool := t.dstBytes bs.length == bs

/-- The command ended without error, with this OUT_LEN. -/
def okOut (n : Nat) (t : State) : Bool := t.errcode == none && t.done && t.pending == none && t.outLen.toNat == n

/-- The command ended in this error. -/
def endedIn (e : CmdError) (t : State) : Bool := t.errcode == some e && t.done && t.outLen == 0#32

/-- A decode view with no code, for the tests of a symbol's own effect. -/
def noView : DecodeView := ⟨[], 0, 0⟩

/-- A running DECOMPRESS on `src` with the FSM in state `p` and `out` produced. -/
def running (src : List Byte) (cap : Nat) (out : List Byte) (p : Phase) : State :=
  { machine src cap with
    dstAddr := 0x400#32
    mem := bytesAt 0x100 src ++ bytesAt 0x400 out
    work := some ⟨out, true, p⟩ }

/-! ## WellFormed: one ill-formed term for each check (30_encoding.md R92, R93) -/

theorem test_ill_bwWrite : (Instr.bwWrite 17#5).wellFormed = false := by decide
theorem test_ill_bwWriteCoded : (Instr.bwWriteCoded 16#5).wellFormed = false := by decide
theorem test_ill_brRead : (Instr.brRead 17#5).wellFormed = false := by decide
theorem test_ill_brReadCoded : (Instr.brReadCoded 16#5).wellFormed = false := by decide
theorem test_ill_huffBuild : (Instr.huffBuild 0#4).wellFormed = false := by decide
theorem test_ill_illegalCommand : (Instr.illegalCommand 0x00001010#32).wellFormed = false := by decide

/-! ## Decoding: a word of every row, bit by bit from 30_encoding.md -/

/-- R90, R92. -/
theorem test_decode_commands :
    [decodeCommand 0b00000000000000000000000000000000#32,
     decodeCommand 0b00000000000000000000000000000001#32,
     decodeCommand 0b00000000000000000001000000010000#32,
     decodeCommand 0b00000000000000000000111100010001#32,
     decodeCommand 0b00000000000000000000000000010010#32,
     decodeCommand 0b00000000000000000000000000011000#32,
     decodeCommand 0b00000000000000000000100100011001#32,
     decodeCommand 0b00000000000000000000000100011010#32,
     decodeCommand 0b00000000000000000000000000011011#32,
     decodeCommand 0b00000000000000000000000000100000#32,
     decodeCommand 0b00000000000011110000000000110000#32,
     decodeCommand 0b00000000000000000000000001000000#32,
     decodeCommand 0b00000000000000000000000001010000#32,
     decodeCommand 0b00000000000000000000000001100000#32] =
    [.nop, .softReset, .bwWrite 16#5, .bwWriteCoded 15#5, .bwAlign, .brReadBit, .brRead 9#5,
     .brReadCoded 1#5, .brAlign, .crc32, .huffBuild 15#4, .lz77Tokenize, .compress, .decompress] := by decide

/-- R93, R94; V-BW-13 to V-BW-15, V-BR-13, V-HUF-26, and a reserved bit set. -/
theorem test_decode_illegal_commands :
    [0x00000002#32, 0x00001110#32, 0x00001011#32, 0x00000112#32, 0x00001119#32, 0x00000030#32,
     0x00010000#32, 0x00002000#32, 0x00100000#32, 0x80000050#32].all
      (fun w => decodeCommand w == .illegalCommand w) = true := by decide

/-- R101: BFINAL is the first bit, BTYPE the next two, LSB-first. -/
theorem test_decode_block_headers :
    [0b000#3, 0b001#3, 0b010#3, 0b011#3, 0b100#3, 0b101#3, 0b110#3, 0b111#3].map decodeBlockHeader =
    [.blockStored false, .blockStored true, .blockFixed false, .blockFixed true,
     .blockDynamic false, .blockDynamic true, .blockReserved false, .blockReserved true] := by decide

/-- R105. -/
theorem test_decode_cl_1 :
    [decode (.clSymbol 0b00000#5),
     decode (.clSymbol 0b00001#5),
     decode (.clSymbol 0b00010#5),
     decode (.clSymbol 0b00011#5),
     decode (.clSymbol 0b00100#5),
     decode (.clSymbol 0b00101#5),
     decode (.clSymbol 0b00110#5),
     decode (.clSymbol 0b00111#5),
     decode (.clSymbol 0b01000#5),
     decode (.clSymbol 0b01001#5),
     decode (.clSymbol 0b01010#5)] =
    [.ok .cl0,
     .ok .cl1,
     .ok .cl2,
     .ok .cl3,
     .ok .cl4,
     .ok .cl5,
     .ok .cl6,
     .ok .cl7,
     .ok .cl8,
     .ok .cl9,
     .ok .cl10] := rfl

/-- R105. -/
theorem test_decode_cl_2 :
    [decode (.clSymbol 0b01011#5),
     decode (.clSymbol 0b01100#5),
     decode (.clSymbol 0b01101#5),
     decode (.clSymbol 0b01110#5),
     decode (.clSymbol 0b01111#5),
     decode (.clSymbol 0b10000#5),
     decode (.clSymbol 0b10001#5),
     decode (.clSymbol 0b10010#5)] =
    [.ok .cl11,
     .ok .cl12,
     .ok .cl13,
     .ok .cl14,
     .ok .cl15,
     .ok .cl16,
     .ok .cl17,
     .ok .cl18] := rfl

/-- R107, R108. -/
theorem test_decode_ll_1 :
    [decode (.llSymbol 0b001000001#9),
     decode (.llSymbol 0b011111111#9),
     decode (.llSymbol 0b100000000#9),
     decode (.llSymbol 0b100000001#9),
     decode (.llSymbol 0b100000010#9),
     decode (.llSymbol 0b100000011#9),
     decode (.llSymbol 0b100000100#9),
     decode (.llSymbol 0b100000101#9),
     decode (.llSymbol 0b100000110#9),
     decode (.llSymbol 0b100000111#9),
     decode (.llSymbol 0b100001000#9)] =
    [.ok (.llLiteral 0x41#8),
     .ok (.llLiteral 0xFF#8),
     .ok .llEob,
     .ok .llLen257,
     .ok .llLen258,
     .ok .llLen259,
     .ok .llLen260,
     .ok .llLen261,
     .ok .llLen262,
     .ok .llLen263,
     .ok .llLen264] := rfl

/-- R107, R108. -/
theorem test_decode_ll_2 :
    [decode (.llSymbol 0b100001001#9),
     decode (.llSymbol 0b100001010#9),
     decode (.llSymbol 0b100001011#9),
     decode (.llSymbol 0b100001100#9),
     decode (.llSymbol 0b100001101#9),
     decode (.llSymbol 0b100001110#9),
     decode (.llSymbol 0b100001111#9),
     decode (.llSymbol 0b100010000#9),
     decode (.llSymbol 0b100010001#9),
     decode (.llSymbol 0b100010010#9),
     decode (.llSymbol 0b100010011#9)] =
    [.ok .llLen265,
     .ok .llLen266,
     .ok .llLen267,
     .ok .llLen268,
     .ok .llLen269,
     .ok .llLen270,
     .ok .llLen271,
     .ok .llLen272,
     .ok .llLen273,
     .ok .llLen274,
     .ok .llLen275] := rfl

/-- R107, R108. -/
theorem test_decode_ll_3 :
    [decode (.llSymbol 0b100010100#9),
     decode (.llSymbol 0b100010101#9),
     decode (.llSymbol 0b100010110#9),
     decode (.llSymbol 0b100010111#9),
     decode (.llSymbol 0b100011000#9),
     decode (.llSymbol 0b100011001#9),
     decode (.llSymbol 0b100011010#9),
     decode (.llSymbol 0b100011011#9),
     decode (.llSymbol 0b100011100#9),
     decode (.llSymbol 0b100011101#9),
     decode (.llSymbol 0b100011110#9)] =
    [.ok .llLen276,
     .ok .llLen277,
     .ok .llLen278,
     .ok .llLen279,
     .ok .llLen280,
     .ok .llLen281,
     .ok .llLen282,
     .ok .llLen283,
     .ok .llLen284,
     .ok .llLen285,
     .ok .llReserved286] := rfl

/-- R107, R108. -/
theorem test_decode_ll_4 :
    [decode (.llSymbol 0b100011111#9)] =
    [.ok .llReserved287] := rfl

/-- R109. -/
theorem test_decode_dist_1 :
    [decode (.distSymbol 0b00000#5),
     decode (.distSymbol 0b00001#5),
     decode (.distSymbol 0b00010#5),
     decode (.distSymbol 0b00011#5),
     decode (.distSymbol 0b00100#5),
     decode (.distSymbol 0b00101#5),
     decode (.distSymbol 0b00110#5),
     decode (.distSymbol 0b00111#5),
     decode (.distSymbol 0b01000#5),
     decode (.distSymbol 0b01001#5),
     decode (.distSymbol 0b01010#5)] =
    [.ok .dist0,
     .ok .dist1,
     .ok .dist2,
     .ok .dist3,
     .ok .dist4,
     .ok .dist5,
     .ok .dist6,
     .ok .dist7,
     .ok .dist8,
     .ok .dist9,
     .ok .dist10] := rfl

/-- R109. -/
theorem test_decode_dist_2 :
    [decode (.distSymbol 0b01011#5),
     decode (.distSymbol 0b01100#5),
     decode (.distSymbol 0b01101#5),
     decode (.distSymbol 0b01110#5),
     decode (.distSymbol 0b01111#5),
     decode (.distSymbol 0b10000#5),
     decode (.distSymbol 0b10001#5),
     decode (.distSymbol 0b10010#5),
     decode (.distSymbol 0b10011#5),
     decode (.distSymbol 0b10100#5),
     decode (.distSymbol 0b10101#5)] =
    [.ok .dist11,
     .ok .dist12,
     .ok .dist13,
     .ok .dist14,
     .ok .dist15,
     .ok .dist16,
     .ok .dist17,
     .ok .dist18,
     .ok .dist19,
     .ok .dist20,
     .ok .dist21] := rfl

/-- R109. -/
theorem test_decode_dist_3 :
    [decode (.distSymbol 0b10110#5),
     decode (.distSymbol 0b10111#5),
     decode (.distSymbol 0b11000#5),
     decode (.distSymbol 0b11001#5),
     decode (.distSymbol 0b11010#5),
     decode (.distSymbol 0b11011#5),
     decode (.distSymbol 0b11100#5),
     decode (.distSymbol 0b11101#5),
     decode (.distSymbol 0b11110#5),
     decode (.distSymbol 0b11111#5)] =
    [.ok .dist22,
     .ok .dist23,
     .ok .dist24,
     .ok .dist25,
     .ok .dist26,
     .ok .dist27,
     .ok .dist28,
     .ok .dist29,
     .ok .distReserved30,
     .ok .distReserved31] := rfl

/-- R105 and R107: the alphabets end at 18 and 287. -/
theorem test_decode_rejects :
    [decode (.clSymbol 0b10011#5), decode (.clSymbol 0b11111#5), decode (.llSymbol 0b100100000#9)] =
    [.error (.noSuchClSymbol 19#5), .error (.noSuchClSymbol 31#5), .error (.noSuchLlSymbol 288#9)] := rfl

/-- The rows of the opcode table by their own bits (log 10). -/
theorem test_decodeTableWord :
    [decodeTableWord 32 0x1010, decodeTableWord 32 0x2000, decodeTableWord 8 0b10, decodeTableWord 8 18,
     decodeTableWord 16 0x41, decodeTableWord 16 285, decodeTableWord 16 29, decodeTableWord 8 31] =
    [some (.bwWrite 16#5), some (.illegalCommand 0x2000#32), some (.blockDynamic false), some .cl18,
     some (.llLiteral 0x41#8), some .llLen285, some .dist29, some .distReserved31] := by decide

/-- `withFetchWord` puts each row where the next step runs it: one row of each space, as the first step after reset. -/
theorem test_withFetchWord_command :
    step (State.reset.withFetchWord 32 0x20) = exec .crc32 { State.reset with pending := some 0x20#32 } := rfl

/-- The same for a literal/length symbol: 'a' is put. -/
theorem test_withFetchWord_literal :
    answers (fun t => (t.work.map Decoder.out) == none) (step (State.reset.withFetchWord 16 0x61)) = true ∧
      answers (fun t => (t.work.map Decoder.out) == some [0x61#8])
        (step ({ State.reset with dstAddr := 0x400#32, dstCap := 1#32 }.withFetchWord 16 0x61)) = true := by
  decide +kernel

/-- The same for a code-length symbol and a distance symbol: with no output, distance 1 is CorruptData (R280). -/
theorem test_withFetchWord_symbols :
    answers (fun t => match t.work with
      | some ⟨_, _, .lengths 257 258 _ [7]⟩ => true
      | _ => false) (step (State.reset.withFetchWord 8 7)) = true ∧
      answers (endedIn .corruptData) (step (State.reset.withFetchWord 16 18)) = true := by
  decide +kernel

/-! ## The commands -/

/-- R305: NOP clears an error. -/
theorem test_nop : answers (okOut 0) (exec .nop { State.reset with errcode := some .truncated, outLen := 7#32 }) = true := by
  decide

/-- R306. -/
theorem test_softReset :
    answers (fun t => t.statusWord == 0x1A#32 && t.srcLen == 0#32 && !t.irqEn && t.mem == [(5, 9#8)])
      (exec .softReset { machine [1#8] 3 with irqEn := true, mem := [(5, 9#8)] }) = true := by decide

/-- V-BW-1. -/
theorem test_bwWrite :
    answers (fun t => okOut 1 t && dstIs [0x05#8] t && t.bwPos == 3#32)
      (exec (.bwWrite 3#5) { machine [] 1 with value := 5#32 }) = true := by decide

/-- V-BW-7: the other bits of the byte stay. -/
theorem test_bwWrite_keeps_bits :
    answers (fun t => okOut 1 t && dstIs [0xF7#8] t && t.bwPos == 4#32)
      (exec (.bwWrite 1#5) { machine [] 1 with mem := [(0x400, 0xFF#8)], bwPos := 3#32 }) = true := by decide

/-- V-BW-2. -/
theorem test_bwWriteCoded :
    answers (fun t => okOut 1 t && dstIs [0x1D#8] t && t.bwPos == 6#32)
      (exec (.bwWriteCoded 3#5) { machine [] 1 with mem := [(0x400, 0x05#8)], bwPos := 3#32, value := 6#32 }) = true := by
  decide

/-- V-BW-9. -/
theorem test_bwWriteCoded_fifteen :
    answers (fun t => okOut 2 t && dstIs [0x01#8, 0x40#8] t && t.bwPos == 15#32)
      (exec (.bwWriteCoded 15#5) { machine [] 2 with value := 0x4001#32 }) = true := by decide

/-- V-BW-3. -/
theorem test_bwAlign :
    answers (fun t => okOut 1 t && dstIs [0x1D#8] t && t.bwPos == 8#32)
      (exec .bwAlign { machine [] 1 with mem := [(0x400, 0x1D#8)], bwPos := 6#32 }) = true := by decide

/-- V-BW-11: a pad of 0 bits past the bound. -/
theorem test_bwAlign_past_the_bound :
    answers (fun t => endedIn .outOfRange t && t.bwPos == 24#32) (exec .bwAlign { machine [] 2 with bwPos := 24#32 }) =
      true := by decide

/-- V-BR-1. -/
theorem test_brReadBit :
    answers (fun t => okOut 0 t && t.result == 1#32 && t.brPos == 3#32)
      (exec .brReadBit { machine [0xB4#8] 0 with brPos := 2#32 }) = true := by decide

/-- V-BR-12. -/
theorem test_brReadBit_empty : answers (endedIn .outOfRange) (exec .brReadBit (machine [] 0)) = true := by decide

/-- V-BR-2. -/
theorem test_brRead :
    answers (fun t => okOut 0 t && t.result == 0x1B#32 && t.brPos == 12#32)
      (exec (.brRead 8#5) { machine [0xB4#8, 0x01#8] 0 with brPos := 4#32 }) = true := by decide

/-- V-BR-5. -/
theorem test_brRead_past_the_bound :
    answers (fun t => endedIn .outOfRange t && t.result == 0x77#32 && t.brPos == 1#32)
      (exec (.brRead 16#5) { machine [0xCD#8, 0xAB#8] 0 with brPos := 1#32, result := 0x77#32 }) = true := by decide

/-- V-BR-3. -/
theorem test_brReadCoded :
    answers (fun t => okOut 0 t && t.result == 5#32 && t.brPos == 5#32)
      (exec (.brReadCoded 3#5) { machine [0xB4#8] 0 with brPos := 2#32 }) = true := by decide

/-- V-BR-7. -/
theorem test_brReadCoded_fifteen :
    answers (fun t => okOut 0 t && t.result == 0x4001#32 && t.brPos == 15#32)
      (exec (.brReadCoded 15#5) (machine [0x01#8, 0x40#8] 0)) = true := by decide

/-- V-BR-10. -/
theorem test_brAlign :
    answers (fun t => okOut 0 t && t.brPos == 24#32)
      (exec .brAlign { machine [1#8, 1#8, 1#8] 0 with brPos := 17#32 }) = true := by decide

/-- V-BR-11. -/
theorem test_brAlign_past_the_bound :
    answers (fun t => endedIn .outOfRange t && t.brPos == 17#32)
      (exec .brAlign { machine [1#8, 1#8] 0 with brPos := 17#32 }) = true := by decide

/-- V-CRC-3: "abc". -/
theorem test_crc32 :
    answers (fun t => okOut 0 t && t.result == 0x352441C2#32) (exec .crc32 (machine [0x61#8, 0x62#8, 0x63#8] 0)) =
      true := by decide +kernel

/-- V-CRC-10: a region that ends exactly at 2^32. -/
theorem test_crc32_top_of_memory :
    answers (fun t => okOut 0 t && t.result == 0xD202EF8D#32)
      (exec .crc32 { State.reset with srcAddr := 0xFFFFFFFF#32, srcLen := 1#32, mem := [(0xFFFFFFFF, 0#8)] }) =
      true := by decide +kernel

/-- The frequencies, as records of four bytes. -/
def frequencies4 (fs : List Nat) : List Byte := fs.flatMap (fun f => [BitVec.ofNat 8 f, 0#8, 0#8, 0#8])

/-- V-HUF-8: lengths 2, 4, 4, 1, 0, 3. -/
theorem test_huffBuild :
    answers (fun t => okOut 24 t && ((List.range 6).map t.dstWordAt ==
        [0x00020002, 0x0004000E, 0x0004000F, 0x00010000, 0x00000000, 0x00030006]))
      (exec (.huffBuild 15#4) { machine (frequencies4 [3, 1, 1, 5, 0, 2]) 24 with nsym := 6#32 }) = true := by
  decide +kernel

/-- V-HUF-25: five used symbols and L = 2. -/
theorem test_huffBuild_too_many :
    answers (endedIn .illegalCommand)
      (exec (.huffBuild 2#4) { machine (frequencies4 [1, 1, 1, 1, 1]) 20 with nsym := 5#32 }) = true := by
  decide +kernel

/-- V-LZ-3: "abcabc". -/
theorem test_lz77Tokenize :
    answers (fun t => okOut 16 t && ((List.range 4).map t.dstWordAt == [0x61, 0x62, 0x63, 0x80000200]))
      (exec .lz77Tokenize (machine [0x61#8, 0x62#8, 0x63#8, 0x61#8, 0x62#8, 0x63#8] 16)) = true := by decide +kernel

/-- V-LZ-13: the regions overlap. -/
theorem test_lz77Tokenize_overlap :
    answers (endedIn .illegalCommand)
      (exec .lz77Tokenize { State.reset with
        srcAddr := 0x100#32
        srcLen := 16#32
        dstAddr := 0x10F#32
        dstCap := 64#32 }) = true := by decide +kernel

/-- V-ENC-20 and V-ENC-1: the empty input, in the 12 bytes it needs. -/
theorem test_compress :
    answers (fun t => okOut 12 t && t.bwPos == 96#32 && dstIs
        [0x05#8, 0xC0#8, 0x81#8, 0x08#8, 0x00#8, 0x00#8, 0x00#8, 0x00#8, 0x20#8, 0x7F#8, 0xEB#8, 0x03#8] t)
      (exec .compress (machine [] 12)) = true := by decide +kernel

/-- V-ENC-21: the regions overlap, and nothing is written. -/
theorem test_compress_overlap :
    answers (fun t => endedIn .illegalCommand t && t.mem == bytesAt 0x100 [7#8, 1#8, 2#8, 3#8])
      (exec .compress { machine [7#8, 1#8, 2#8, 3#8] 64 with
        dstAddr := 0x102#32
        mem := bytesAt 0x100 [7#8, 1#8, 2#8, 3#8] }) = true := by decide +kernel

/-- V-DEC-5: a stored block, then a fixed one: "hiabcabcabc". -/
theorem test_decompress :
    answers (fun t => okOut 11 t && t.brPos == 102#32 && dstIs
        [0x68#8, 0x69#8, 0x61#8, 0x62#8, 0x63#8, 0x61#8, 0x62#8, 0x63#8, 0x61#8, 0x62#8, 0x63#8] t)
      (exec .decompress (machine
        [0x00#8, 0x02#8, 0x00#8, 0xFD#8, 0xFF#8, 0x68#8, 0x69#8, 0x4B#8, 0x4C#8, 0x4A#8, 0x86#8, 0x20#8, 0x00#8] 11)) =
      true := by decide +kernel

/-- V-DEC-19: code-length symbol 16 first in the length sequence. -/
theorem test_decompress_corrupt :
    answers (fun t => endedIn .corruptData t && t.bwPos == 0#32)
      (exec .decompress (machine [0x05#8, 0x00#8, 0x02#8, 0x24#8] 4096)) = true := by decide +kernel

/-- V-BW-13. -/
theorem test_illegalCommand :
    answers (fun t => endedIn .illegalCommand t && t.bwPos == 5#32)
      (exec (decodeCommand 0x1110#32) { machine [] 1 with bwPos := 5#32 }) = true := by decide

/-! ## The stream symbols -/

/-- V-DEC-1 after its header: "hello". -/
theorem test_blockStored :
    answers (fun t => okOut 5 t && t.brPos == 80#32 && dstIs [0x68#8, 0x65#8, 0x6C#8, 0x6C#8, 0x6F#8] t)
      (exec (.blockStored true) { running
        [0x01#8, 0x05#8, 0x00#8, 0xFA#8, 0xFF#8, 0x68#8, 0x65#8, 0x6C#8, 0x6C#8, 0x6F#8] 5 [] .header with
          brPos := 3#32 }) = true := by decide +kernel

/-- V-DEC-12: LEN + NLEN is 0x10000. -/
theorem test_blockStored_corrupt :
    answers (endedIn .corruptData)
      (exec (.blockStored true) { running
        [0x01#8, 0x05#8, 0x00#8, 0xFB#8, 0xFF#8, 0x68#8, 0x65#8, 0x6C#8, 0x6C#8, 0x6F#8] 5 [] .header with
          brPos := 3#32 }) = true := by decide +kernel

/-- R267, R112: the literal/length view has the codes 00110000 for 0 and 0000000 for 256, and 32 distance codes. -/
theorem test_blockFixed :
    answers (fun t => match t.work with
      | some ⟨[], false, .data lt dt⟩ =>
        lt.lookup 8 0b00110000 == some 0 && lt.lookup 7 0b0000000 == some 256 && lt.lookup 9 0b111111111 == some 255 &&
          dt.lookup 5 31 == some 31
      | _ => false) (exec (.blockFixed false) (running [] 0 [] .header)) = true := by decide +kernel

/-- The first bytes of V-ENC-6, traced in 44_deflate_encode.md R249: HLIT 7, HDIST 2, 18 code-length lengths. -/
theorem test_blockDynamic :
    answers (fun t => t.brPos == 71#32 && (match t.work with
      | some ⟨[], true, .lengths 264 267 _ []⟩ => true
      | _ => false))
      (exec (.blockDynamic true) { running
        [0x3D#8, 0xC2#8, 0x31#8, 0x0D#8, 0x00#8, 0x00#8, 0x00#8, 0x83#8, 0x30#8] 12 [] .header with brPos := 3#32 }) =
      true := by decide +kernel

/-- V-DEC-18: HLIT is 30. -/
theorem test_blockDynamic_corrupt :
    answers (endedIn .corruptData)
      (exec (.blockDynamic true) { running [0xF5#8, 0x00#8, 0x00#8, 0x00#8] 12 [] .header with brPos := 3#32 }) =
      true := by decide +kernel

/-- V-DEC-11. -/
theorem test_blockReserved :
    answers (endedIn .corruptData) (exec (.blockReserved true) { running [0x07#8] 12 [] .header with brPos := 3#32 }) =
      true := by decide +kernel

/-- The length sequence that a code-length symbol leaves, from the sequence [5, 7]. -/
def seqAfter (i : Instr) (src : List Byte) (seq : List Nat) : Bool :=
  answers (fun t => match t.work with
    | some ⟨_, _, .lengths 257 280 _ seq'⟩ => seq' == seq
    | _ => false) (exec i (running src 0 [] (.lengths 257 280 noView [5, 7])))

/-- R105: each of 0 to 15 is one length of its own value. -/
theorem test_cl_lengths :
    seqAfter .cl0 [] [5, 7, 0] && seqAfter .cl1 [] [5, 7, 1] && seqAfter .cl2 [] [5, 7, 2] &&
      seqAfter .cl3 [] [5, 7, 3] && seqAfter .cl4 [] [5, 7, 4] && seqAfter .cl5 [] [5, 7, 5] &&
      seqAfter .cl6 [] [5, 7, 6] && seqAfter .cl7 [] [5, 7, 7] && seqAfter .cl8 [] [5, 7, 8] &&
      seqAfter .cl9 [] [5, 7, 9] && seqAfter .cl10 [] [5, 7, 10] && seqAfter .cl11 [] [5, 7, 11] &&
      seqAfter .cl12 [] [5, 7, 12] && seqAfter .cl13 [] [5, 7, 13] && seqAfter .cl14 [] [5, 7, 14] &&
      seqAfter .cl15 [] [5, 7, 15] = true := by decide +kernel

/-- R105: 16 repeats the last length 3 + extra times, 17 zeros 3 + extra, 18 zeros 11 + extra. -/
theorem test_cl_repeats :
    seqAfter .cl16 [0b10#8] [5, 7, 7, 7, 7, 7, 7] && seqAfter .cl17 [0b001#8] [5, 7, 0, 0, 0, 0] &&
      seqAfter .cl18 [0b0000001#8] ([5, 7] ++ List.replicate 12 0) = true := by decide +kernel

/-- R107 and V-DEC-30: a literal is put where there is room, and is OutOfRange where there is none. -/
theorem test_llLiteral :
    answers (fun t => (t.work.map Decoder.out) == some [0x61#8] && dstIs [0x61#8] t)
      (exec (.llLiteral 0x61#8) (running [] 1 [] (.data noView noView))) = true ∧
    answers (endedIn .outOfRange) (exec (.llLiteral 0x61#8) (running [] 0 [] (.data noView noView))) = true := by
  decide +kernel

/-- R264, R285. -/
theorem test_llEob : answers (okOut 2) (exec .llEob (running [] 4 [1#8, 2#8] (.data noView noView))) = true := by
  decide +kernel

/-- The length of the match that a length symbol starts. -/
def matchAfter (i : Instr) (src : List Byte) : Nat :=
  match exec i (running src 0 [] (.data noView noView)) with
  | .next t =>
    match t.work with
    | some ⟨_, _, .distance _ _ n⟩ => n
    | _ => 0
  | _ => 0

/-- R108: the shortest length of each symbol 257 to 285, its extra bits all 0. -/
theorem test_length_symbols_shortest :
    (lengthInstrs.take 29).map (fun i => matchAfter i [0x00#8]) =
    [3, 4, 5, 6, 7, 8, 9, 10, 11, 13, 15, 17, 19, 23, 27, 31, 35, 43, 51, 59, 67, 83, 99, 115, 131, 163, 195, 227, 258] :=
  by decide +kernel

/-- R108: the longest length of each symbol, its extra bits all 1; symbol 284 reaches 258 (V-DEC-8). -/
theorem test_length_symbols_longest :
    (lengthInstrs.take 29).map (fun i => matchAfter i [0xFF#8]) =
    [3, 4, 5, 6, 7, 8, 9, 10, 12, 14, 16, 18, 22, 26, 30, 34, 42, 50, 58, 66, 82, 98, 114, 130, 162, 194, 226, 258, 258] :=
  by decide +kernel

/-- V-DEC-16, and symbol 287 likewise. -/
theorem test_ll_reserved :
    [Instr.llReserved286, .llReserved287].all
      (fun i => answers (endedIn .corruptData) (exec i (running [] 9 [] (.data noView noView)))) = true := by
  decide +kernel

/-- Output of `n` bytes 1, 2, ..., n. -/
def ramp (n : Nat) : List Byte := (List.range n).map (fun k => BitVec.ofNat 8 (k + 1))

/-- A distance symbol with extra bits all 0 and the given output copies this byte first. -/
def copies (i : Instr) (n : Nat) (b : Byte) : Bool :=
  answers (fun t => (t.work.map (fun d => d.out.getD n 0#8)) == some b && t.dstByteRead n == b)
    (exec i (running [0#8, 0#8] 200 (ramp n) (.distance noView noView 3)))

/-- R109: the shortest distance of the symbols 0 to 14 reaches the first of that many bytes. -/
theorem test_dist_shortest :
    ((distInstrs.take 15).zip [1, 2, 3, 4, 5, 7, 9, 13, 17, 25, 33, 49, 65, 97, 129]).all
      (fun p => copies p.1 p.2 1#8) = true := by decide +kernel

/-- R280: with one byte fewer of output the same distance, and every longer one, is CorruptData. -/
theorem test_dist_too_far :
    ((distInstrs.take 15).zip [0, 1, 2, 3, 4, 6, 8, 12, 16, 24, 32, 48, 64, 96, 128]).all
      (fun p => answers (endedIn .corruptData)
        (exec p.1 (running [0#8, 0#8] 200 (ramp p.2) (.distance noView noView 3)))) = true ∧
    (distInstrs.drop 15).all (fun i => answers (endedIn .corruptData)
        (exec i (running [0#8, 0#8] 200 (ramp 192) (.distance noView noView 3)))) = true := by decide +kernel

/-- R109: the ranges of the distance symbols follow each other from 1 to 32768. -/
theorem test_dist_ranges :
    (List.range 29).all (fun g => distBase (g + 1) == distBase g + 2 ^ distExtra g) = true ∧
      distBase 0 = 1 ∧ distBase 29 + 2 ^ distExtra 29 = 32769 := by decide +kernel

/-- A copy that overlaps its own output: distance 1, length 3 (R281). -/
theorem test_dist0_overlap :
    answers (fun t => dstIs [0x61#8, 0x61#8, 0x61#8, 0x61#8] t)
      (exec .dist0 (running [] 4 [0x61#8] (.distance noView noView 3))) = true := by decide +kernel

/-! ## The host's steps -/

/-- R24, R25, R26: CTRL, STATUS and ERRCODE as words, after an error with the interrupt enabled. -/
theorem test_status_words :
    let s : State := { State.reset with irqEn := true, done := true, errcode := some .truncated, brPos := 8#32 }
    s.ctrlWord = 1#32 ∧ s.statusWord = 0x1E#32 ∧ s.errWord = 3#32 ∧ s.irq = true := by decide

/-- R170 and R175: entries of the CRC table, at both ends and the middle. -/
theorem test_crcTable :
    crcTable.length = 256 ∧ crcTable.getD 0 1#32 = 0x00000000#32 ∧ crcTable.getD 1 0#32 = 0x77073096#32 ∧
      crcTable.getD 128 0#32 = 0xEDB88320#32 ∧ crcTable.getD 255 0#32 = 0x2D02EF8D#32 := by decide +kernel

/-- R352: at reset every byte of M is its power-on draw, and rst keeps M. -/
theorem test_power_on (a : Word) :
    State.reset.readMem a = Config.powerOnByte a.toNat ∧
      (State.rst { machine [7#8] 0 with done := true }).mem = [(0x100, 7#8)] :=
  ⟨rfl, by decide⟩

/-- R74, R300: a listed host write to CMD is the next step, and latches the word. -/
theorem test_step_host :
    answers (fun t => t.pending == some 0x20#32 && t.busy && t.inputs == [.engine])
      (step { State.reset with inputs := [.host (.writeReg 8 4 0x20#32), .engine] }) = true := by decide

/-! ## Witnesses: for each statement with hypotheses, a state and operands that meet them -/

/-- A destination region that wraps, and a source region that does. -/
def badDst : State := { State.reset with dstAddr := 0xFFFFFFFF#32, dstCap := 2#32 }
def badSrc : State := { State.reset with srcAddr := 0xFFFFFFFF#32, srcLen := 2#32 }

/-- An accepted COMPRESS with source 0x100 to 0x103 and destination 0x400 to 0x407. -/
def accepted : State := { machine [1#8, 2#8, 3#8, 4#8] 8 with pending := some 0x50#32 }

theorem witness_DecodeEncodeRoundTrip :
    (Instr.bwWrite 16#5).wellFormed = true ∧ (Instr.huffBuild 1#4).wellFormed = true ∧
      (Instr.illegalCommand 0x1110#32).wellFormed = true ∧ (Instr.llLiteral 255#8).wellFormed = true := by decide

theorem witness_EncodeDecodeRoundTrip :
    decode (.command 0x000F0030#32) = .ok (.huffBuild 15#4) ∧ decode (.clSymbol 18#5) = .ok .cl18 ∧
      decode (.llSymbol 287#9) = .ok .llReserved287 := ⟨rfl, rfl, rfl⟩

theorem witness_DecodeRaisesExactlyOnIllegalWords :
    legalCommandWord 0x1110#32 = false ∧ legalCommandWord 0x1010#32 = true := by decide

theorem witness_CmdWriteIsAccepted : State.reset.busy = false ∧ accepted.busy = true := by decide

theorem witness_StepRunsAcceptedCommand :
    (accepted.work = none ∧ accepted.pending = some 0x50#32 ∧ accepted.inputs = []) ∧
      (State.work { accepted with inputs := [.engine, .rst] } = none ∧
        State.inputs { accepted with inputs := [.engine, .rst] } = .engine :: [.rst]) ∧
      (State.reset.work = none ∧ State.reset.pending = none ∧ State.reset.inputs = []) := by decide

/-- The clauses on a listed host step, with a word latched and with none, and on an idle engine's turn. -/
theorem witness_StepRunsAcceptedCommand_events :
    (State.work { accepted with inputs := [.host (.readReg 4 4), .engine] } = none ∧
        State.inputs { accepted with inputs := [.host (.readReg 4 4), .engine] } = .host (.readReg 4 4) :: [.engine]) ∧
      (State.work { State.reset with inputs := [.host (.writeMem 7#32 9#8)] } = none ∧
        State.inputs { State.reset with inputs := [.host (.writeMem 7#32 9#8)] } = .host (.writeMem 7#32 9#8) :: []) ∧
      (State.work { State.reset with inputs := [.engine] } = none ∧
        State.pending { State.reset with inputs := [.engine] } = none ∧
        State.inputs { State.reset with inputs := [.engine] } = .engine :: []) := by decide

theorem witness_StepRunsFetchedSymbol :
    let s := running [0x03#8] 0 [] .header
    s.work = some ⟨[], true, .header⟩ ∧
      s.fetchSymbol ⟨[], true, .header⟩ = .ok (3, { s with brPos := 3#32 }) ∧
      Phase.selector .header 3 = some (.blockHeader 3#3) ∧ decode (.blockHeader 3#3) = .ok (.blockFixed true) :=
  ⟨rfl, rfl, rfl, rfl⟩

/-- No code of the view is next on the source. -/
abbrev noCode (s : State) (v : DecodeView) : Prop :=
  ∀ n, n < v.maxLen + 1 → 1 ≤ n → v.minLen ≤ n → s.brPos.toNat + n ≤ s.srcBits →
    v.lookup n (natOfMsb 0 (s.srcBitList s.brPos.toNat n)) = none

/-- The table of the one code 0 of length 1. -/
def oneCode : DecodeView := decodeView [1]

/-- The FSM in state `p` with the reader at bit `n` of the byte 0x80. -/
def fetching (n : Nat) (p : Phase) : State := { running [0x80#8] 0 [] p with brPos := BitVec.ofNat 32 n }

/-- The clauses on a fetch that fails: a header with 2 bits left; the one code 0 where the next bit is 1, and where there
is no next bit; and an empty table. -/
theorem witness_StepRunsFetchedSymbol_errors :
    ((fetching 6 .header).srcRegionOk = true ∧ (fetching 6 .header).srcBits < 6 + 3) ∧
      ((fetching 7 (.data oneCode noView)).work = some ⟨[], true, .data oneCode noView⟩ ∧
        Phase.view (.data oneCode noView) = some oneCode) ∧
      (noCode (fetching 7 (.data oneCode noView)) oneCode ∧
        7 + oneCode.maxLen ≤ (fetching 7 (.data oneCode noView)).srcBits) ∧
      (noCode (fetching 8 (.data oneCode noView)) oneCode ∧ oneCode.maxLen ≠ 0 ∧
        (fetching 8 (.data oneCode noView)).srcBits < 8 + oneCode.maxLen) ∧
      noCode (fetching 7 (.data noView noView)) noView ∧ noView.maxLen = 0 :=
  ⟨by decide, ⟨rfl, rfl⟩, by decide +kernel, by decide +kernel, by decide +kernel⟩

theorem witness_BusyHostStepsAreDropped :
    accepted.pending = some 0x50#32 ∧ Reg.all[15]? = some Reg.id ∧ Reg.all[0]? = some Reg.ctrl ∧
      (usesSrc (decodeCommand 0x50#32) = true ∧ inRegion accepted.srcAddr accepted.srcLen 0x103 = true) ∧
      (usesDst (decodeCommand 0x50#32) = true ∧ inRegion accepted.dstAddr accepted.dstCap 0x400 = true) := by decide

theorem witness_HostMemoryAccess :
    accepted.mem.wf = true ∧ accepted.pending = some 0x50#32 ∧
      inRegion accepted.srcAddr accepted.srcLen 0x104 = false ∧
      inRegion accepted.dstAddr accepted.dstCap 0x3FF = false ∧ State.reset.pending = none := by decide

theorem witness_RegisterWindowRefusals :
    (62 < 64 ∧ ¬ (4 = 4 ∧ 62 % 4 = 0)) ∧ (0 < 64 ∧ ¬ (2 = 4 ∧ 0 % 4 = 0)) ∧ (60 < 64 ∧ 60 % 4 = 0) := by decide

theorem witness_StatusRegisterFields : State.reset.busy = false ∧ (2#32).getLsbD 1 = true := by decide

theorem witness_IdleRegisterWrites :
    State.reset.busy = false ∧ Reg.all[0]? = some Reg.ctrl ∧ Reg.ctrl ≠ .cmd ∧ Reg.ctrl ≠ .status ∧
      Reg.all[15]? = some Reg.id ∧ Reg.id ≠ .cmd ∧ Reg.id ≠ .status := by decide

theorem witness_RstCancelsAndKeepsMemory :
    State.work { accepted with inputs := [.rst, .engine] } = none ∧
      State.inputs { accepted with inputs := [.rst, .engine] } = .rst :: [.engine] := by decide

theorem witness_BwWriteWritesValueBits :
    (badDst.mem.wf = true ∧ (16#5).toNat ≤ 16 ∧ badDst.dstRegionOk = false) ∧
      (let s : State := { machine [] 2 with bwPos := 1#32 }
       s.mem.wf = true ∧ s.dstRegionOk = true ∧ s.bwPos.toNat + (16#5).toNat > 8 * s.dstCap.toNat) ∧
      (let s : State := machine [] 2
       s.mem.wf = true ∧ s.dstRegionOk = true ∧ s.bwPos.toNat + (16#5).toNat ≤ 8 * s.dstCap.toNat) := by decide

theorem witness_BwWriteCodedWritesValueBits :
    (badDst.mem.wf = true ∧ (15#5).toNat ≤ 15 ∧ badDst.dstRegionOk = false) ∧
      (let s : State := { machine [] 2 with bwPos := 2#32 }
       s.mem.wf = true ∧ s.dstRegionOk = true ∧ s.bwPos.toNat + (15#5).toNat > 8 * s.dstCap.toNat) ∧
      (let s : State := { machine [] 2 with bwPos := 1#32 }
       s.mem.wf = true ∧ s.dstRegionOk = true ∧ s.bwPos.toNat + (15#5).toNat ≤ 8 * s.dstCap.toNat) := by decide

theorem witness_BwAlignPadsWithZeros :
    (badDst.mem.wf = true ∧ badDst.dstRegionOk = false) ∧
      (let s : State := { machine [] 2 with bwPos := 17#32 }
       s.mem.wf = true ∧ s.dstRegionOk = true ∧
         s.bwPos.toNat + (8 - s.bwPos.toNat % 8) % 8 > 8 * s.dstCap.toNat) ∧
      (let s : State := { machine [] 2 with bwPos := 9#32 }
       s.mem.wf = true ∧ s.dstRegionOk = true ∧
         s.bwPos.toNat + (8 - s.bwPos.toNat % 8) % 8 ≤ 8 * s.dstCap.toNat) := by decide

theorem witness_BrReadBitReadsOneBit :
    badSrc.srcRegionOk = false ∧
      (let s : State := { machine [1#8] 0 with brPos := 8#32 }
       s.srcRegionOk = true ∧ s.brPos.toNat + 1 > 8 * s.srcLen.toNat) ∧
      (let s : State := { machine [1#8] 0 with brPos := 7#32 }
       s.srcRegionOk = true ∧ s.brPos.toNat + 1 ≤ 8 * s.srcLen.toNat) := by decide

theorem witness_BrReadReadsLsbFirst :
    ((16#5).toNat ≤ 16 ∧ badSrc.srcRegionOk = false) ∧
      (let s : State := { machine [1#8, 2#8] 0 with brPos := 1#32 }
       s.srcRegionOk = true ∧ s.brPos.toNat + (16#5).toNat > 8 * s.srcLen.toNat) ∧
      (let s : State := machine [1#8, 2#8] 0
       s.srcRegionOk = true ∧ s.brPos.toNat + (16#5).toNat ≤ 8 * s.srcLen.toNat) := by decide

theorem witness_BrReadCodedReadsMsbFirst :
    ((15#5).toNat ≤ 15 ∧ badSrc.srcRegionOk = false) ∧
      (let s : State := { machine [1#8, 2#8] 0 with brPos := 2#32 }
       s.srcRegionOk = true ∧ s.brPos.toNat + (15#5).toNat > 8 * s.srcLen.toNat) ∧
      (let s : State := { machine [1#8, 2#8] 0 with brPos := 1#32 }
       s.srcRegionOk = true ∧ s.brPos.toNat + (15#5).toNat ≤ 8 * s.srcLen.toNat) := by decide

theorem witness_BrAlignSkipsToByteBoundary :
    badSrc.srcRegionOk = false ∧
      (let s : State := { machine [1#8] 0 with brPos := 9#32 }
       s.srcRegionOk = true ∧ (s.brPos.toNat + 7) / 8 * 8 > 8 * s.srcLen.toNat) ∧
      (let s : State := { machine [1#8] 0 with brPos := 8#32 }
       s.srcRegionOk = true ∧ (s.brPos.toNat + 7) / 8 * 8 ≤ 8 * s.srcLen.toNat) := by decide

theorem witness_WrittenFieldReadsBack :
    (machine [] 2).mem.wf = true ∧ (16#5).toNat ≤ 16 ∧ (15#5).toNat ≤ 15 ∧
      (∃ t, exec (.bwWrite 16#5) (machine [] 2) = .next t ∧ (t.errcode == none) = true) ∧
      ∃ t, exec (.bwWriteCoded 15#5) (machine [] 2) = .next t ∧ (t.errcode == none) = true :=
  ⟨by decide, by decide, by decide, next_of_answers (by decide), next_of_answers (by decide)⟩

theorem witness_Crc32ChecksumsSource :
    badSrc.srcRegionOk = false ∧ (machine [1#8] 0).srcRegionOk = true ∧ (machine [] 0).srcLen = 0#32 := by decide

theorem witness_HuffBuildWritesCodeRecords :
    (badSrc.mem.wf = true ∧ 1 ≤ (1#4).toNat ∧ badSrc.bothRegionsOk = false) ∧
      (State.reset.bothRegionsOk = true ∧ State.reset.nsym.toNat < 1) ∧
      (let s : State := { machine (frequencies4 [1, 1, 1]) 12 with nsym := 289#32 }
       s.mem.wf = true ∧ s.bothRegionsOk = true ∧ s.nsym.toNat > 288) ∧
      (let s : State := { machine (frequencies4 [1, 1, 1]) 11 with nsym := 3#32 }
       s.mem.wf = true ∧ s.bothRegionsOk = true ∧ 1 ≤ s.nsym.toNat ∧ s.nsym.toNat ≤ 288 ∧
         s.dstCap.toNat < 4 * s.nsym.toNat) ∧
      (let s : State := { machine (frequencies4 [1, 1, 1]) 12 with nsym := 3#32 }
       s.mem.wf = true ∧ s.bothRegionsOk = true ∧ 4 * s.nsym.toNat ≤ s.srcLen.toNat ∧
         4 * s.nsym.toNat ≤ s.dstCap.toNat ∧
         2 ^ (1#4).toNat < usedSymbols ((List.range s.nsym.toNat).map s.srcWord)) ∧
      (let s : State := { machine (frequencies4 [1, 1]) 8 with nsym := 2#32 }
       s.mem.wf = true ∧ s.bothRegionsOk = true ∧ 4 * s.nsym.toNat ≤ s.srcLen.toNat ∧
         4 * s.nsym.toNat ≤ s.dstCap.toNat ∧
         usedSymbols ((List.range s.nsym.toNat).map s.srcWord) ≤ 2 ^ (1#4).toNat) := by decide +kernel

theorem witness_PackageMergeLengthsInRange :
    1 ≤ 1 ∧ packageMerge [1, 0, 3] 1 = [1, 0, 1] ∧ packageMerge [1, 0, 3] 15 = [1, 0, 1] := by decide +kernel

theorem witness_PackageMergeKraftSumIsOne :
    2 ≤ usedSymbols [1, 0, 1] ∧ usedSymbols [1, 0, 1] ≤ 2 ^ 1 ∧ 2 ≤ usedSymbols [1, 1, 1, 1] ∧
      usedSymbols [1, 1, 1, 1] ≤ 2 ^ 2 := by decide

theorem witness_CanonicalCodesPrefixFree :
    (∀ l ∈ [1, 2, 2], l ≤ 2) ∧ kraft 2 [1, 2, 2] ≤ 2 ^ 2 ∧ 0 < [1, 2, 2].getD 0 0 ∧
      [1, 2, 2].getD 0 0 ≤ [1, 2, 2].getD 2 0 := by decide

theorem witness_DecodeSymbolReadsItsCode :
    let s : State := { machine [0xC0#8] 0 with brPos := 6#32 }
    (∀ l ∈ [1, 2, 2], l ≤ 2) ∧ kraft 2 [1, 2, 2] ≤ 2 ^ 2 ∧ 0 < [1, 2, 2].getD 2 0 ∧ s.srcRegionOk = true ∧
      s.brPos.toNat + [1, 2, 2].getD 2 0 ≤ s.srcBits ∧
      s.srcBitList s.brPos.toNat ([1, 2, 2].getD 2 0) =
        bitsMsb ([1, 2, 2].getD 2 0) ((canon [1, 2, 2]).getD 2 0) := by decide +kernel

theorem witness_SingleAndEmptyTables :
    (0 < [0, 7].getD 1 0 ∧ ∀ j, j ≠ 1 → [0, 7].getD j 0 = 0) ∧ ∀ f ∈ [0, 0, 0], f = 0 := by
  refine ⟨⟨by decide, fun j hj => ?_⟩, by decide⟩
  match j with
  | 0 => rfl
  | 1 => exact absurd rfl hj
  | _ + 2 => rfl

theorem witness_Lz77TokenizeWritesRecords :
    (badDst.mem.wf = true ∧ badDst.bothRegionsOk = false) ∧
      (let s : State := { State.reset with srcLen := 131073#32 }
       s.mem.wf = true ∧ s.bothRegionsOk = true ∧ 131072 < s.srcLen.toNat) ∧
      (let s : State := machine [0x61#8, 0x62#8] 7
       s.mem.wf = true ∧ s.bothRegionsOk = true ∧ s.srcLen.toNat ≤ 131072 ∧
         s.dstCap.toNat < 4 * (tokenize s.params s.srcBytes).length) ∧
      (let s : State := machine [0x61#8, 0x62#8] 8
       s.mem.wf = true ∧ s.bothRegionsOk = true ∧ s.srcLen.toNat ≤ 131072 ∧
         4 * (tokenize s.params s.srcBytes).length ≤ s.dstCap.toNat) := by decide +kernel

theorem witness_TokensCoverTheirInput :
    let ps := Params.reference
    let qs : Params := { Params.reference with regBase := 64 }
    ps.lzMaxChain = qs.lzMaxChain ∧ ps.lzGoodLen = qs.lzGoodLen ∧ ps.lzGoodChain = qs.lzGoodChain ∧ ps ≠ qs := by decide

theorem witness_TokenRecordFields :
    (3 ≤ 3 ∧ 3 ≤ 258 ∧ 1 ≤ 1 ∧ 1 ≤ 32768) ∧ (3 ≤ 258 ∧ 258 ≤ 258 ∧ 1 ≤ 32768 ∧ 32768 ≤ 32768) ∧
      (Token.copy 258 32768).record = 0x807FFFFF#32 := by decide

theorem witness_RunLengthCodeExpandsBack : ∀ l ∈ [0, 0, 0, 15], l ≤ 15 := by decide

theorem witness_LengthAndDistanceCodesHoldTheirValue :
    (3 ≤ 3 ∧ 3 ≤ 258) ∧ (3 ≤ 258 ∧ 258 ≤ 258) ∧ (1 ≤ 1 ∧ 1 ≤ 32768) ∧ (1 ≤ 32768 ∧ 32768 ≤ 32768) ∧
      lenCode 258 = 28 ∧ distCode 32768 = 29 := by decide +kernel

/-- The stream of the empty input has 92 bits (V-ENC-1). -/
theorem empty_stream : ∃ bits, (machine [] 12).compressedBits = .ok bits ∧ bits.length = 92 := by
  have h : (match (machine [] 12).compressedBits with
      | .ok bits => bits.length == 92
      | .error _ => false) = true := by decide +kernel
  split at h
  · rename_i bits e
    exact ⟨bits, e, by simpa using h⟩
  · cases h

theorem witness_CompressWritesTheStream :
    (badDst.mem.wf = true ∧ badDst.bothRegionsOk = false) ∧
      (∃ bits, (machine [] 11).mem.wf = true ∧ (machine [] 11).bothRegionsOk = true ∧
        (machine [] 11).compressedBits = .ok bits ∧ 8 * (machine [] 11).dstCap.toNat < bits.length) ∧
      ∃ bits, (machine [] 12).mem.wf = true ∧ (machine [] 12).bothRegionsOk = true ∧
        (machine [] 12).compressedBits = .ok bits ∧ bits.length ≤ 8 * (machine [] 12).dstCap.toNat := by
  obtain ⟨bits, h, hl⟩ := empty_stream
  refine ⟨by decide, ⟨bits, by decide, by decide, h, ?_⟩, bits, by decide, by decide, h, ?_⟩ <;> rw [hl] <;> decide

theorem witness_CompressFitsItsBound :
    let s : State := machine [] 565
    s.bothRegionsOk = true ∧ 2 * s.srcLen.toNat + (4513 * blockCount s.srcLen.toNat + 7) / 8 ≤ s.dstCap.toNat := by
  decide +kernel

theorem witness_CompressDependsOnSourceAlone :
    let s : State := machine [] 12
    let s' : State := { machine [] 13 with dstAddr := 0x800#32, mem := [(0x800, 9#8)] }
    s.mem.wf = true ∧ s'.mem.wf = true ∧ s.srcBytes = s'.srcBytes ∧ s.params = s'.params ∧
      (∃ t, exec .compress s = .next t ∧ (t.errcode == none) = true) ∧
      ∃ t, exec .compress s' = .next t ∧ (t.errcode == none) = true :=
  ⟨by decide, by decide, rfl, rfl, next_of_answers (by decide +kernel), next_of_answers (by decide +kernel)⟩

theorem witness_DecompressCopiesAStoredBlock :
    let s : State := machine [0xF9#8, 0x01#8, 0x00#8, 0xFE#8, 0xFF#8, 0x61#8, 0x00#8] 1
    s.mem.wf = true ∧ s.bothRegionsOk = true ∧ (0xF9#8).toNat % 8 = 1 ∧ [0x61#8].length ≤ 65535 ∧
      [0x61#8].length ≤ s.dstCap.toNat ∧
      s.srcBytes = 0xF9#8 :: BitVec.ofNat 8 ([0x61#8].length % 256) :: BitVec.ofNat 8 ([0x61#8].length / 256) ::
        BitVec.ofNat 8 ((65535 - [0x61#8].length) % 256) :: BitVec.ofNat 8 ((65535 - [0x61#8].length) / 256) ::
        ([0x61#8] ++ [0x00#8]) := by decide +kernel

theorem witness_DecompressIsItsSymbolSteps :
    (machine [1#8] 4).bothRegionsOk = true ∧ badDst.bothRegionsOk = false ∧
      State.bothRegionsOk { machine [1#8, 2#8] 4 with dstAddr := 0x101#32 } = false := by decide

/-- R285, R66: DECOMPRESS with regions that share one byte. -/
theorem test_decompress_overlap :
    answers (endedIn .illegalCommand) (exec .decompress { machine [1#8, 2#8] 4 with dstAddr := 0x101#32 }) = true := by
  decide +kernel

theorem witness_CommandErrorResults :
    (∃ t, exec (decodeCommand 0x1110#32) State.reset = .next t ∧ (t.errcode == some .illegalCommand) = true) ∧
      (∃ t, exec (decodeCommand 0x50#32) (machine [] 11) = .next t ∧ (t.errcode == some .outOfRange) = true) ∧
      ∃ t, exec (decodeCommand 0x60#32) (machine [] 11) = .next t ∧ (t.errcode == some .truncated) = true :=
  ⟨next_of_answers (by decide), next_of_answers (by decide +kernel), next_of_answers (by decide +kernel)⟩

theorem witness_CommandsWriteOnlyTheirDestination :
    (∃ t, exec (decodeCommand 0x20#32) State.reset = .next t ∧ (t.done) = true) ∧
      usesDst (decodeCommand 0x20#32) = false := ⟨next_of_answers (by decide), by decide⟩

/-- A DECOMPRESS that ends without error from both states: the empty fixed block of V-DEC-4. -/
theorem witness_CommandsReadOnlyTheirSource_two_regions :
    let s : State := machine [0x03#8, 0x00#8] 4
    let m : Memory := [(9, 1#8), (0x100, 3#8), (0x101, 0#8)]
    s.mem.wf = true ∧ m.wf = true ∧
      (∀ i, i < s.srcLen.toNat → m.read (s.srcByteAddr i).toNat = s.mem.read (s.srcByteAddr i).toNat) ∧
      usesSrc (decodeCommand 0x60#32) = true ∧ usesDst (decodeCommand 0x60#32) = true ∧
      (∃ t, exec (decodeCommand 0x60#32) s = .next t ∧ (t.errcode == none) = true) ∧
      ∃ t, exec (decodeCommand 0x60#32) { s with mem := m } = .next t ∧ (t.errcode == none) = true :=
  ⟨by decide, by decide, by decide, by decide, by decide, next_of_answers (by decide +kernel),
    next_of_answers (by decide +kernel)⟩

theorem witness_CommandsReadOnlyTheirSource :
    let s : State := machine [7#8] 4
    let m : Memory := [(9, 1#8), (0x100, 7#8)]
    s.mem.wf = true ∧ m.wf = true ∧
      (∀ i, i < s.srcLen.toNat → m.read (s.srcByteAddr i).toNat = s.mem.read (s.srcByteAddr i).toNat) ∧
      (∃ t, exec (decodeCommand 0x60#32) s = .next t ∧ t.done = true) ∧
      ∃ t, exec (decodeCommand 0x60#32) { s with mem := m } = .next t ∧ t.done = true :=
  ⟨by decide, by decide, by decide, next_of_answers (by decide +kernel), next_of_answers (by decide +kernel)⟩

theorem witness_OperandRegistersPreserved :
    decodeCommand 0x00#32 ≠ .softReset ∧ ∃ t, exec (decodeCommand 0x00#32) State.reset = .next t ∧ t.done = true :=
  ⟨by decide, next_of_answers (by decide)⟩

theorem witness_StepKeepsTheInvariant :
    accepted.Inv ∧ State.reset.Inv ∧ ∃ t, step State.reset = .next t ∧ (t == State.reset) = true :=
  ⟨by decide, by decide, next_of_answers (by decide)⟩

theorem witness_FixedAndReservedBlockHeaders : (running [] 4 [] .header).work = some ⟨[], true, .header⟩ := rfl

theorem witness_DynamicBlockHeader :
    let at3 (src : List Byte) : State := { running src 4 [] .header with brPos := 3#32 }
    let field (s : State) (i n : Nat) : Nat := natOfLsb (s.srcBitList (s.brPos.toNat + i) n)
    (at3 [0x05#8, 0#8]).work = some ⟨[], true, .header⟩ ∧
      ((at3 [0x05#8, 0#8]).srcRegionOk = true ∧ (at3 [0x05#8, 0#8]).srcBits < 3 + 14) ∧
      (let s := at3 [0xF5#8, 0#8, 0#8]
       s.srcRegionOk = true ∧ 3 + 14 ≤ s.srcBits ∧ 286 < field s 0 5 + 257) ∧
      (let s := at3 [0xED#8, 0#8, 0#8]
       s.srcRegionOk = true ∧ 3 + 14 ≤ s.srcBits ∧ field s 0 5 + 257 ≤ 286 ∧
         s.srcBits < 3 + 14 + 3 * (field s 10 4 + 4)) ∧
      (let s := at3 [0xED#8, 0#8, 0#8, 0#8]
       s.srcRegionOk = true ∧ field s 0 5 + 257 ≤ 286 ∧ 3 + 14 + 3 * (field s 10 4 + 4) ≤ s.srcBits) := by
  decide +kernel

theorem witness_StoredBlockHeader :
    let at3 (src : List Byte) (cap : Nat) : State := { running src cap [] .header with brPos := 3#32 }
    (let s := at3 [1#8, 0#8, 0#8, 0xFF#8] 4
     s.mem.wf = true ∧ s.bothRegionsOk = true ∧ s.brPos.toNat ≤ s.srcBits ∧ s.srcLen.toNat < 1 + 4) ∧
      (let s := at3 [1#8, 0#8, 0#8, 0xFF#8, 0xFE#8] 4
       s.mem.wf = true ∧ s.bothRegionsOk = true ∧ 1 + 4 ≤ s.srcLen.toNat ∧
         (s.srcByte 1).toNat + 256 * (s.srcByte 2).toNat + ((s.srcByte 3).toNat + 256 * (s.srcByte 4).toNat) ≠ 65535) ∧
      (let s := at3 [1#8, 1#8, 0#8, 0xFE#8, 0xFF#8, 9#8] 1
       s.mem.wf = true ∧ s.bothRegionsOk = true ∧ s.work = some ⟨[], true, .header⟩ ∧ 1 + 4 + 1 ≤ s.srcLen.toNat ∧
         (s.srcByte 1).toNat + 256 * (s.srcByte 2).toNat = 1 ∧
         (s.srcByte 3).toNat + 256 * (s.srcByte 4).toNat = 65534 ∧ 0 + 1 ≤ s.dstCap.toNat) := by decide +kernel

/-- A state whose stored block has LEN 2 and the NLEN that goes with it. -/
abbrev storedTwo (s : State) : Prop :=
  s.mem.wf = true ∧ s.bothRegionsOk = true ∧ s.brPos.toNat ≤ s.srcBits ∧ 1 + 4 ≤ s.srcLen.toNat ∧
    (s.srcByte 1).toNat + 256 * (s.srcByte 2).toNat = 2 ∧ (s.srcByte 3).toNat + 256 * (s.srcByte 4).toNat = 65533

/-- LEN is 2: with one byte left and room for one, with two left and room for one, and with one left and room for none. -/
theorem witness_StoredBlockHeader_errors :
    let at3 (rest : List Byte) (cap : Nat) : State :=
      { running ([1#8, 2#8, 0#8, 0xFD#8, 0xFF#8] ++ rest) cap [] .header with brPos := 3#32 }
    (let s := at3 [9#8] 1
     storedTwo s ∧ s.srcLen.toNat < 1 + 4 + 2 ∧ 0 + (s.srcLen.toNat - (1 + 4)) ≤ s.dstCap.toNat) ∧
      (let s := at3 [9#8, 9#8] 1
       storedTwo s ∧ s.dstCap.toNat < 0 + 2 ∧ s.dstCap.toNat < 0 + (s.srcLen.toNat - (1 + 4))) ∧
      (let s := at3 [9#8] 0
       storedTwo s ∧ s.dstCap.toNat < 0 + 2 ∧ s.dstCap.toNat < 0 + (s.srcLen.toNat - (1 + 4))) := by decide +kernel

/-- R266: the byte is read before it is put, so the same three streams are Truncated, OutOfRange and OutOfRange. -/
theorem test_blockStored_order :
    let end3 (rest : List Byte) (cap : Nat) : Result := exec (.blockStored true)
      { running ([1#8, 2#8, 0#8, 0xFD#8, 0xFF#8] ++ rest) cap [] .header with brPos := 3#32 }
    answers (endedIn .truncated) (end3 [9#8] 1) = true ∧ answers (endedIn .outOfRange) (end3 [9#8, 9#8] 1) = true ∧
      answers (endedIn .outOfRange) (end3 [9#8] 0) = true := by decide +kernel

theorem witness_ClLengthSymbolsAppendOneLength :
    encode .cl15 = .clSymbol 15#5 ∧ (15#5).toNat ≤ 15 ∧
      (running [] 0 [] (.lengths 257 258 noView [])).work = some ⟨[], true, .lengths 257 258 noView []⟩ ∧
      ([] : List Nat).length + 1 < 258 ∧ (List.replicate 257 1).length + 1 = 258 :=
  ⟨rfl, by decide, rfl, by decide, congrArg (· + 1) List.length_replicate⟩

theorem witness_ClRepeatSymbolsAppendRuns :
    (Instr.cl16, 2, 3) ∈ [(Instr.cl16, 2, 3), (Instr.cl17, 3, 3), (Instr.cl18, 7, 11)] ∧
      (let s := running [0#8] 0 [] (.lengths 257 258 noView [])
       s.srcRegionOk = true ∧ s.work = some ⟨[], true, .lengths 257 258 noView []⟩) ∧
      (let s : State := { running [0#8] 0 [] (.lengths 257 258 noView [1]) with brPos := 7#32 }
       [1] ≠ ([] : List Nat) ∧ s.srcBits < s.brPos.toNat + 2) ∧
      (let s : State := { running [0#8] 0 [] (.lengths 257 258 noView [1]) with brPos := 6#32 }
       s.brPos.toNat + 2 ≤ s.srcBits ∧
         [1].length + (3 + natOfLsb (s.srcBitList s.brPos.toNat 2)) < 258 ∧
         (List.replicate 255 1).length + (3 + natOfLsb (s.srcBitList s.brPos.toNat 2)) = 258 ∧
         258 < (List.replicate 256 1).length + (3 + natOfLsb (s.srcBitList s.brPos.toNat 2))) := by decide +kernel

theorem witness_LiteralAndEndOfBlock :
    (let s := running [] 1 [] (.data noView noView)
     s.mem.wf = true ∧ s.work = some ⟨[], true, .data noView noView⟩ ∧ ([] : List Byte).length ≠ s.dstCap.toNat) ∧
      (let s := running [] 1 [9#8] (.data noView noView)
       s.mem.wf = true ∧ s.work = some ⟨[9#8], true, .data noView noView⟩ ∧ [9#8].length = s.dstCap.toNat) := by
  decide +kernel

theorem witness_LengthSymbolsStartAMatch :
    encode .llLen265 = .llSymbol 265#9 ∧ encode .llReserved286 = .llSymbol 286#9 ∧
      (let s : State := { running [0#8] 9 [] (.data noView noView) with brPos := 8#32 }
       s.srcRegionOk = true ∧ s.work = some ⟨[], true, .data noView noView⟩ ∧
         s.srcBits < s.brPos.toNat + lengthExtra (265 - 257)) ∧
      (let s : State := { running [0#8] 9 [] (.data noView noView) with brPos := 7#32 }
       s.srcRegionOk = true ∧ s.brPos.toNat + lengthExtra (265 - 257) ≤ s.srcBits) := by decide +kernel

theorem witness_DistanceSymbolsCopy :
    encode .dist4 = .distSymbol 4#5 ∧ encode .distReserved30 = .distSymbol 30#5 ∧
      (let s : State := { running [0#8] 8 (ramp 5) (.distance noView noView 3) with brPos := 8#32 }
       s.mem.wf = true ∧ s.bothRegionsOk = true ∧ (ramp 5).length ≤ s.dstCap.toNat ∧
         s.work = some ⟨ramp 5, true, .distance noView noView 3⟩ ∧ s.srcBits < s.brPos.toNat + distExtra 4) ∧
      (let s : State := running [0#8] 8 (ramp 4) (.distance noView noView 3)
       s.bothRegionsOk = true ∧ s.brPos.toNat + distExtra 4 ≤ s.srcBits ∧
         (ramp 4).length < distBase 4 + natOfLsb (s.srcBitList 0 (distExtra 4))) ∧
      (let s : State := running [0#8] 7 (ramp 5) (.distance noView noView 3)
       s.bothRegionsOk = true ∧ distBase 4 + natOfLsb (s.srcBitList 0 (distExtra 4)) ≤ (ramp 5).length ∧
         s.dstCap.toNat < (ramp 5).length + 3) ∧
      (let s : State := running [0#8] 8 (ramp 5) (.distance noView noView 3)
       s.mem.wf = true ∧ s.bothRegionsOk = true ∧
         distBase 4 + natOfLsb (s.srcBitList 0 (distExtra 4)) ≤ (ramp 5).length ∧
         (ramp 5).length + 3 ≤ s.dstCap.toNat) := by decide +kernel

theorem witness_SymbolsNeedTheirFsmState :
    (∀ w, encode .cl0 ≠ .command w) ∧ State.reset.work = none ∧
      ((running [] 0 [] .header).work = some ⟨[], true, .header⟩ ∧ Phase.reads .header (encode .cl0) = false) ∧
      ((running [] 0 [] (.lengths 257 258 noView [])).work = some ⟨[], true, .lengths 257 258 noView []⟩ ∧
        Phase.reads (.lengths 257 258 noView []) (encode .cl0) = true) :=
  ⟨fun _ h => (by cases h), rfl, ⟨rfl, rfl⟩, rfl, rfl⟩

theorem witness_RoundTripRestoresInput :
    (machine [] 12).mem.wf = true ∧
      ∃ t, exec .compress (machine [] 12) = .next t ∧ (t.errcode == none &&
        State.bothRegionsOk { t with
          srcAddr := (machine [] 12).dstAddr
          srcLen := t.outLen
          dstAddr := 0x800#32
          dstCap := 0#32 }) = true := ⟨by decide, next_of_answers (by decide +kernel)⟩

end Sys2Proof.Tests
end

section
/-! Every step of the machine keeps the invariant of 00_scope.md R8 and R14 (O49). The parts of a Run are read through one
relation, `RunMove`: the registers that only the host sets stay (46_control.md R304), and M stays in canonical form. -/

namespace Sys2Proof

/-- The instructions a command word can decode to (30_encoding.md R92, R94). -/
inductive Instr.IsCommand : Instr → Prop
  | nop : IsCommand .nop
  | softReset : IsCommand .softReset
  | bwWrite (n : BitVec 5) : IsCommand (.bwWrite n)
  | bwWriteCoded (n : BitVec 5) : IsCommand (.bwWriteCoded n)
  | bwAlign : IsCommand .bwAlign
  | brReadBit : IsCommand .brReadBit
  | brRead (n : BitVec 5) : IsCommand (.brRead n)
  | brReadCoded (n : BitVec 5) : IsCommand (.brReadCoded n)
  | brAlign : IsCommand .brAlign
  | crc32 : IsCommand .crc32
  | huffBuild (l : BitVec 4) : IsCommand (.huffBuild l)
  | lz77Tokenize : IsCommand .lz77Tokenize
  | compress : IsCommand .compress
  | decompress : IsCommand .decompress
  | illegalCommand (w : Word) : IsCommand (.illegalCommand w)

theorem Instr.IsCommand.ite {p : Prop} [Decidable p] {i : Instr} (hi : i.IsCommand) (w : Word) :
    (if p then i else .illegalCommand w).IsCommand := by
  split
  · exact hi
  · exact .illegalCommand w

theorem decodeCommand_isCommand (w : Word) : (decodeCommand w).IsCommand := by
  unfold decodeCommand
  split
  · exact .illegalCommand w
  · split
    · exact .ite .nop w
    · exact .ite .softReset w
    · exact .ite (.bwWrite _) w
    · exact .ite (.bwWriteCoded _) w
    · exact .ite .bwAlign w
    · exact .ite .brReadBit w
    · exact .ite (.brRead _) w
    · exact .ite (.brReadCoded _) w
    · exact .ite .brAlign w
    · exact .ite .crc32 w
    · exact .ite (.huffBuild _) w
    · exact .ite .lz77Tokenize w
    · exact .ite .compress w
    · exact .ite .decompress w
    · exact .illegalCommand w

end Sys2Proof

namespace Sys2Proof.Machine

/-- A monadic rule that succeeds is its first part's success followed by the rest's. -/
theorem except_bind_eq_ok {α β : Type} {x : Except CmdError α} {f : α → Except CmdError β} {b : β} :
    x >>= f = .ok b ↔ ∃ a, x = .ok a ∧ f a = .ok b := by
  cases x with
  | error e =>
    constructor
    · intro h
      cases h
    · rintro ⟨_, h, -⟩
      cases h
  | ok a =>
    constructor
    · exact fun h => ⟨a, rfl, h⟩
    · rintro ⟨_, h, hf⟩
      cases h
      exact hf

/-! What a part of a Run may change. -/

theorem SameOperands.refl (s : State) : SameOperands s s := ⟨rfl, rfl, rfl, rfl, rfl, rfl, rfl, rfl⟩

theorem SameOperands.trans {s t u : State} (h : SameOperands s t) (h' : SameOperands t u) : SameOperands s u := by
  simp_all [SameOperands]

/-- A move inside a Run: the registers no command writes stay, and M keeps its canonical form. -/
structure RunMove (s t : State) : Prop where
  operands : SameOperands s t
  wf : s.mem.wf = true → t.mem.wf = true

theorem RunMove.refl (s : State) : RunMove s s := ⟨.refl s, id⟩

theorem RunMove.trans {s t u : State} (h : RunMove s t) (h' : RunMove t u) : RunMove s u :=
  ⟨h.operands.trans h'.operands, fun hw => h'.wf (h.wf hw)⟩

theorem RunMove.params {s t : State} (h : RunMove s t) : t.params = s.params := by
  obtain ⟨-, -, -, -, -, -, -, hp⟩ := h.operands
  exact hp

theorem RunMove.srcRegionOk {s t : State} (h : RunMove s t) : t.srcRegionOk = s.srcRegionOk := by
  obtain ⟨ha, hl, -⟩ := h.operands
  simp only [State.srcRegionOk, ha, hl]

theorem ReaderMove.runMove {s t : State} (h : ReaderMove s t) : RunMove s t := by
  rw [h.frame]
  exact ⟨.refl s, id⟩

theorem State.Inv.work_eq_none {s : State} (hs : s.Inv) : s.work = none := by
  obtain ⟨-, hwork, -⟩ := hs
  exact hwork

/-- A command inside its Run that ends in `t` gives a state other agents can see. -/
theorem RunMove.inv {s t : State} (h : RunMove s t) (hw : t.work = none) (hs : s.Inv) : t.Inv := by
  obtain ⟨hmem, -, hlegal⟩ := hs
  exact ⟨h.wf hmem, hw, h.params ▸ hlegal⟩

/-! The ends of a Run. -/

theorem finished_runMove (s : State) : RunMove s s.finished := ⟨.refl s, id⟩

theorem failed_runMove (s : State) (e : CmdError) : RunMove s (s.failed e) := ⟨.refl s, id⟩

theorem raiseCompress_runMove (s : State) (e : CmdError) : RunMove s (s.raiseCompress e) :=
  ⟨.refl s, fun hw => State.drawnMem_wf hw e⟩

theorem raiseDecompress_runMove (s : State) (e : CmdError) : RunMove s (s.raiseDecompress e) :=
  ⟨.refl s, fun hw => State.drawnMem_wf hw e⟩

/-- A command whose rule and whose error are both moves makes a move, and its Run is over (46_control.md R301). -/
theorem conclude_runMove {s t : State} {onError : CmdError → State → State} {r : Except CmdError State}
    (hok : ∀ u, r = .ok u → RunMove s u) (herr : ∀ e, RunMove s (onError e s) ∧ (onError e s).work = none)
    (h : s.conclude onError r = .next t) : RunMove s t ∧ t.work = none := by
  obtain ⟨t', ht', hcases⟩ := State.conclude_next s onError r
  rw [h] at ht'
  cases ht'
  rcases hcases with ⟨u, hu, rfl⟩ | ⟨e, -, rfl⟩
  · exact ⟨(hok u hu).trans (finished_runMove u), rfl⟩
  · exact herr e

theorem conclude_raise_runMove {s t : State} {r : Except CmdError State} (hok : ∀ u, r = .ok u → RunMove s u)
    (h : s.conclude State.raise r = .next t) : RunMove s t ∧ t.work = none :=
  conclude_runMove hok (fun e => ⟨failed_runMove s e, rfl⟩) h

/-! The bit-stream reader. -/

theorem readRange_runMove {s t : State} {n v : Nat} {eof : CmdError} (h : s.readRange n eof = .ok (v, t)) :
    RunMove s t := by
  obtain ⟨-, rfl, -⟩ := readRange_frame h
  exact ⟨.refl s, id⟩

/-- A read of a field whose value is only used to compute a result. -/
theorem readRange_bind_runMove {α : Type} {s t : State} {n : Nat} {eof : CmdError} {a : α}
    {k : Nat × State → Except CmdError (α × State)} (h : s.readRange n eof >>= k = .ok (a, t))
    (hk : ∀ v u, ∃ b, k (v, u) = .ok (b, u)) : RunMove s t := by
  obtain ⟨⟨v, u⟩, hr, h⟩ := except_bind_eq_ok.1 h
  obtain ⟨b, hb⟩ := hk v u
  rw [hb] at h
  cases h
  exact readRange_runMove hr

theorem readRangeCoded_runMove {s t : State} {n v : Nat} {eof : CmdError}
    (h : s.readRangeCoded n eof = .ok (v, t)) : RunMove s t := by
  rcases Nat.lt_or_ge s.srcBits (s.brPos.toNat + n) with hn | hn
  · rw [readRangeCoded_error hn] at h
    cases h
  · rw [readRangeCoded_ok hn] at h
    cases h
    exact ⟨.refl s, id⟩

theorem alignReader_runMove {s t : State} {eof : CmdError} (h : s.alignReader eof = .ok t) : RunMove s t := by
  unfold State.alignReader at h
  dsimp only at h
  split at h
  · cases h
  · cases h
    exact ⟨.refl s, id⟩

theorem brRead_runMove {s t : State} {n : Nat} (h : s.brRead n = .ok t) : RunMove s t := by
  obtain ⟨_, -, h⟩ := except_bind_eq_ok.1 h
  obtain ⟨⟨v, u⟩, hr, h⟩ := except_bind_eq_ok.1 h
  cases h
  exact (readRange_runMove hr).trans ⟨.refl u, id⟩

theorem brReadCoded_runMove {s t : State} {n : Nat} (h : s.brReadCoded n = .ok t) : RunMove s t := by
  obtain ⟨_, -, h⟩ := except_bind_eq_ok.1 h
  obtain ⟨⟨v, u⟩, hr, h⟩ := except_bind_eq_ok.1 h
  cases h
  exact (readRangeCoded_runMove hr).trans ⟨.refl u, id⟩

theorem brAlign_runMove {s t : State} (h : s.brAlign = .ok t) : RunMove s t := by
  obtain ⟨_, -, h⟩ := except_bind_eq_ok.1 h
  obtain ⟨u, hr, h⟩ := except_bind_eq_ok.1 h
  cases h
  exact (alignReader_runMove hr).trans ⟨.refl u, id⟩

/-! The bit-stream writer. -/

theorem putBits_runMove (bits : List Bool) (s : State) : RunMove s (State.putBits bits s) where
  operands := by
    rw [putBits_frame]
    exact .refl s
  wf := putBits_wf bits

theorem writeBits_runMove {s t : State} {bits : List Bool} (h : s.writeBits bits = .ok t) : RunMove s t := by
  rcases writeBits_cases s bits with ⟨-, e⟩ | ⟨-, e⟩ <;> rw [e] at h <;> cases h
  exact putBits_runMove bits s

/-- A writer's command: a region check, one write, and a result that makes a move (40_bitstream.md R150 to R152). -/
theorem checkedWrite_runMove {s t : State} {check : Except CmdError Unit} {bits : List Bool} {f : State → State}
    (h : (do check; let u ← s.writeBits bits; return f u) = .ok t) (hf : ∀ u, RunMove u (f u)) : RunMove s t := by
  obtain ⟨_, -, h⟩ := except_bind_eq_ok.1 h
  obtain ⟨u, hw, h⟩ := except_bind_eq_ok.1 h
  cases h
  exact (writeBits_runMove hw).trans (hf u)

theorem bwWrite_runMove {s t : State} {n : Nat} (h : s.bwWrite n = .ok t) : RunMove s t :=
  checkedWrite_runMove h (fun u => ⟨.refl u, id⟩)

theorem bwWriteCoded_runMove {s t : State} {n : Nat} (h : s.bwWriteCoded n = .ok t) : RunMove s t :=
  checkedWrite_runMove h (fun u => ⟨.refl u, id⟩)

theorem bwAlign_runMove {s t : State} (h : s.bwAlign = .ok t) : RunMove s t :=
  checkedWrite_runMove h (fun u => ⟨.refl u, id⟩)

/-! The commands over whole regions but DECOMPRESS. -/

theorem dstWords_runMove (ws : List Word) (k : Nat) (s : State) : RunMove s (State.dstWords k ws s) where
  operands := by
    rw [State.dstWords_frame]
    exact .refl s
  wf := State.dstWords_wf ws k

theorem crc32Command_runMove {s t : State} (h : s.crc32Command = .ok t) : RunMove s t := by
  obtain ⟨_, -, h⟩ := except_bind_eq_ok.1 h
  cases h
  exact ⟨.refl s, id⟩

theorem huffBuild_runMove {s t : State} {l : Nat} (h : s.huffBuild l = .ok t) : RunMove s t := by
  iterate 5 obtain ⟨_, -, h⟩ := except_bind_eq_ok.1 h
  cases h
  exact (dstWords_runMove _ 0 s).trans ⟨.refl _, id⟩

theorem lz77Tokenize_runMove {s t : State} (h : s.lz77Tokenize = .ok t) : RunMove s t := by
  iterate 3 obtain ⟨_, -, h⟩ := except_bind_eq_ok.1 h
  cases h
  exact (dstWords_runMove _ 0 s).trans ⟨.refl _, id⟩

theorem writeField_runMove {s t : State} {f : Field} (h : s.writeField f = .ok t) : RunMove s t := by
  unfold State.writeField at h
  split at h
  · exact writeBits_runMove h
  · cases h

theorem writeFields_runMove : ∀ (fs : List Field) {s t : State}, State.writeFields s fs = .ok t → RunMove s t
  | [], s, _, h => by
    cases h
    exact .refl s
  | f :: fs, s, t, h => by
    unfold State.writeFields at h
    split at h
    next u hu => exact (writeField_runMove hu).trans (writeFields_runMove fs h)
    next => cases h

theorem compress_runMove {s t : State} (h : s.compress = .ok t) : RunMove s t := by
  obtain ⟨_, -, h⟩ := except_bind_eq_ok.1 h
  obtain ⟨u, hf, h⟩ := except_bind_eq_ok.1 h
  obtain ⟨u', ha, h⟩ := except_bind_eq_ok.1 h
  cases h
  have hstart : RunMove s { s with bwPos := 0#32 } := ⟨.refl s, id⟩
  exact ((hstart.trans (writeFields_runMove _ hf)).trans (writeBits_runMove ha)).trans ⟨.refl u', id⟩

/-! The decoder FSM of DECOMPRESS. -/

theorem put_runMove {s t : State} {out out' : List Byte} {b : Byte} (h : s.put out b = .ok (out', t)) :
    RunMove s t := by
  rcases put_cases s out b with ⟨-, e⟩ | ⟨-, e⟩ <;> rw [e] at h <;> cases h
  exact ⟨.refl s, fun hw => State.dstByteWrite_wf hw _ _⟩

theorem copyMatch_runMove (dist : Nat) : ∀ (n : Nat) {s t : State} {out out' : List Byte},
    State.copyMatch dist n out s = .ok (out', t) → RunMove s t
  | 0, s, _, _, _, h => by
    cases h
    exact .refl s
  | n + 1, s, t, out, out', h => by
    unfold State.copyMatch at h
    split at h
    next => cases h
    next hp => exact (put_runMove hp).trans (copyMatch_runMove dist n h)

theorem copyStored_runMove : ∀ (n : Nat) {s t : State} {out out' : List Byte},
    State.copyStored n out s = .ok (out', t) → RunMove s t
  | 0, s, _, _, _, h => by
    cases h
    exact .refl s
  | n + 1, s, t, out, out', h => by
    unfold State.copyStored at h
    split at h
    next => cases h
    next hr =>
      split at h
      next => cases h
      next hp => exact ((readRange_runMove hr).trans (put_runMove hp)).trans (copyStored_runMove n h)

theorem readClLengths_runMove : ∀ (syms : List Nat) {s t : State} {sent : List (Nat × Nat)},
    State.readClLengths syms s = .ok (sent, t) → RunMove s t
  | [], s, _, _, h => by
    cases h
    exact .refl s
  | sym :: syms, s, t, sent, h => by
    unfold State.readClLengths at h
    split at h
    next => cases h
    next hr =>
      split at h
      next => cases h
      next hrest =>
        cases h
        exact (readRange_runMove hr).trans (readClLengths_runMove syms hrest)

theorem endBlock_runMove (s : State) (out : List Byte) (final : Bool) : RunMove s (s.endBlock out final) := by
  rcases endBlock_cases s out final with ⟨-, e⟩ | ⟨-, e⟩ <;> rw [e] <;> exact ⟨.refl s, id⟩

theorem storedBlock_runMove {s t : State} {out : List Byte} {final : Bool} (h : s.storedBlock out final = .ok t) :
    RunMove s t := by
  obtain ⟨s₁, halign, h⟩ := except_bind_eq_ok.1 h
  obtain ⟨⟨len, s₂⟩, hlen, h⟩ := except_bind_eq_ok.1 h
  obtain ⟨⟨nlen, s₃⟩, hnlen, h⟩ := except_bind_eq_ok.1 h
  have hheader : RunMove s s₃ :=
    ((alignReader_runMove halign).trans (readRange_runMove hlen)).trans (readRange_runMove hnlen)
  dsimp only at h
  split at h
  · cases h
  · obtain ⟨⟨out', s₄⟩, hcopy, h⟩ := except_bind_eq_ok.1 h
    cases h
    exact (hheader.trans (copyStored_runMove len hcopy)).trans (endBlock_runMove s₄ out' final)

theorem dynamicBlock_runMove {s t : State} {out : List Byte} {final : Bool} (h : s.dynamicBlock out final = .ok t) :
    RunMove s t := by
  obtain ⟨⟨hlit, s₁⟩, h₁, h⟩ := except_bind_eq_ok.1 h
  obtain ⟨⟨hdist, s₂⟩, h₂, h⟩ := except_bind_eq_ok.1 h
  obtain ⟨⟨hclen, s₃⟩, h₃, h⟩ := except_bind_eq_ok.1 h
  have hcounts : RunMove s s₃ := ((readRange_runMove h₁).trans (readRange_runMove h₂)).trans (readRange_runMove h₃)
  dsimp only at h
  split at h
  · cases h
  · obtain ⟨⟨sent, s₄⟩, h₄, h⟩ := except_bind_eq_ok.1 h
    cases h
    exact (hcounts.trans (readClLengths_runMove _ h₄)).trans ⟨.refl s₄, id⟩

theorem clAppend_runMove {s t : State} {sym : Nat} {seq seq' : List Nat} (h : s.clAppend sym seq = .ok (seq', t)) :
    RunMove s t := by
  unfold State.clAppend at h
  split at h
  · cases h
    exact .refl s
  split at h
  · split at h
    · cases h
    · exact readRange_bind_runMove h (fun _ _ => ⟨_, rfl⟩)
  split at h
  · exact readRange_bind_runMove h (fun _ _ => ⟨_, rfl⟩)
  split at h
  · exact readRange_bind_runMove h (fun _ _ => ⟨_, rfl⟩)
  · cases h

theorem clContinue_runMove {s t : State} {d : Decoder} {nLit total : Nat} {ct : DecodeView} {seq : List Nat}
    (h : s.clContinue d nLit total ct seq = .ok t) : RunMove s t := by
  unfold State.clContinue at h
  split at h
  · cases h
  · split at h <;> cases h <;> exact ⟨.refl s, id⟩

/-- A symbol whose rule makes a move makes one whether it succeeds or fails (45_deflate_decode.md R275). -/
theorem settle_runMove {s t : State} {r : Except CmdError State} (hok : ∀ u, r = .ok u → RunMove s u)
    (h : s.settle r = .next t) : RunMove s t := by
  rcases settle_next s r with ⟨u, hu, e⟩ | ⟨e', -, e⟩ <;> rw [h] at e <;> cases e
  · exact hok t hu
  · exact raiseDecompress_runMove s e'

theorem blockSymbol_runMove {s t : State} {btype : Nat} {final : Bool} (h : s.blockSymbol btype final = .next t) :
    RunMove s t := by
  unfold State.blockSymbol at h
  split at h
  · refine settle_runMove (fun u hu => ?_) h
    split at hu
    · exact storedBlock_runMove hu
    split at hu
    · cases hu
      exact ⟨.refl s, id⟩
    split at hu
    · exact dynamicBlock_runMove hu
    · cases hu
  · cases h

theorem clSymbol_runMove {s t : State} {sym : Nat} (h : s.clSymbol sym = .next t) : RunMove s t := by
  unfold State.clSymbol at h
  split at h
  · refine settle_runMove (fun u hu => ?_) h
    obtain ⟨⟨seq, s'⟩, happend, hu⟩ := except_bind_eq_ok.1 hu
    exact (clAppend_runMove happend).trans (clContinue_runMove hu)
  · cases h

theorem llSymbol_runMove {s t : State} {sym : Nat} (h : s.llSymbol sym = .next t) : RunMove s t := by
  unfold State.llSymbol at h
  split at h
  next out final lt dt _ =>
    refine settle_runMove (fun u hu => ?_) h
    split at hu
    · obtain ⟨⟨out', s'⟩, hput, hu⟩ := except_bind_eq_ok.1 hu
      cases hu
      exact (put_runMove hput).trans ⟨.refl s', id⟩
    split at hu
    · cases hu
      exact endBlock_runMove s out final
    split at hu
    · obtain ⟨⟨x, s'⟩, hread, hu⟩ := except_bind_eq_ok.1 hu
      cases hu
      exact (readRange_runMove hread).trans ⟨.refl s', id⟩
    · cases hu
  next => cases h

theorem distSymbol_runMove {s t : State} {g : Nat} (h : s.distSymbol g = .next t) : RunMove s t := by
  unfold State.distSymbol at h
  split at h
  · refine settle_runMove (fun u hu => ?_) h
    split at hu
    · cases hu
    · obtain ⟨⟨x, s'⟩, hread, hu⟩ := except_bind_eq_ok.1 hu
      dsimp only at hu
      split at hu
      · cases hu
      · obtain ⟨⟨out', s''⟩, hcopy, hu⟩ := except_bind_eq_ok.1 hu
        cases hu
        exact ((readRange_runMove hread).trans (copyMatch_runMove _ _ hcopy)).trans ⟨.refl s'', id⟩
  · cases h

theorem runSymbol_runMove {s t : State} {p : Phase} {sym : Nat} (h : s.runSymbol p sym = .next t) : RunMove s t := by
  cases p with
  | header => exact blockSymbol_runMove h
  | lengths nLit total ct seq => exact clSymbol_runMove h
  | data lt dt => exact llSymbol_runMove h
  | distance lt dt length => exact distSymbol_runMove h

theorem streamStep_runMove {s t : State} (hb : s.srcRegionOk = true) (h : s.streamStep = .next t) : RunMove s t := by
  unfold State.streamStep at h
  split at h
  · cases h
  · split at h
    next hf => exact (fetchSymbol_move hb hf).1.runMove.trans (runSymbol_runMove h)
    next =>
      cases h
      exact raiseDecompress_runMove s _

/-- A stream that ends leaves no symbol half run, and every symbol of it made a move. -/
theorem runStream_runMove : ∀ (fuel : Nat) {s t : State}, s.srcRegionOk = true →
    State.runStream fuel s = .next t → RunMove s t ∧ t.work = none
  | 0, _, _, _, h => by cases h
  | fuel + 1, s, t, hb, h => by
    cases hs : s.streamStep with
    | next s' =>
      have hmove : RunMove s s' := streamStep_runMove hb hs
      rw [runStream_succ fuel hs] at h
      split at h
      next hnone =>
        cases h
        exact ⟨hmove, Option.isNone_iff_eq_none.1 hnone⟩
      next =>
        obtain ⟨hrest, hwork⟩ := runStream_runMove fuel (hmove.srcRegionOk.trans hb) h
        exact ⟨hmove.trans hrest, hwork⟩
    | fault f => simp [State.runStream, hs] at h
    | refused r => simp [State.runStream, hs] at h

theorem execDecompress_runMove {s t : State} (h : execDecompress s = .next t) : RunMove s t ∧ t.work = none := by
  unfold execDecompress at h
  rw [State.checkBoth_eq] at h
  by_cases hok : s.bothRegionsOk = true
  · rw [if_pos hok] at h
    have hbegin : RunMove s s.beginDecode := ⟨.refl s, id⟩
    obtain ⟨hmove, hwork⟩ :=
      runStream_runMove s.streamFuel (hbegin.srcRegionOk.trans (State.bothRegionsOk_src hok)) h
    exact ⟨hbegin.trans hmove, hwork⟩
  · rw [if_neg hok] at h
    cases h
    exact ⟨raiseDecompress_runMove s _, rfl⟩

/-! The commands, the host's steps and the step of the machine. -/

/-- The Run of every command but SOFT_RESET makes a move, and it is over in the one step (46_control.md R301, R304). -/
theorem exec_command_runMove {i : Instr} (hi : i.IsCommand) (hne : i ≠ .softReset) {s t : State}
    (h : exec i s = .next t) : RunMove s t ∧ t.work = none := by
  cases hi with
  | softReset => exact absurd rfl hne
  | nop =>
    exact conclude_raise_runMove (r := .ok { s with outLen := 0#32 })
      (fun u hu => by cases hu; exact ⟨.refl s, id⟩) h
  | bwWrite n => exact conclude_raise_runMove (fun _ => bwWrite_runMove) h
  | bwWriteCoded n => exact conclude_raise_runMove (fun _ => bwWriteCoded_runMove) h
  | bwAlign => exact conclude_raise_runMove (fun _ => bwAlign_runMove) h
  | brReadBit => exact conclude_raise_runMove (fun _ => brRead_runMove) h
  | brRead n => exact conclude_raise_runMove (fun _ => brRead_runMove) h
  | brReadCoded n => exact conclude_raise_runMove (fun _ => brReadCoded_runMove) h
  | brAlign => exact conclude_raise_runMove (fun _ => brAlign_runMove) h
  | crc32 => exact conclude_raise_runMove (fun _ => crc32Command_runMove) h
  | huffBuild l => exact conclude_raise_runMove (fun _ => huffBuild_runMove) h
  | lz77Tokenize => exact conclude_raise_runMove (fun _ => lz77Tokenize_runMove) h
  | compress =>
    exact conclude_runMove (fun _ => compress_runMove) (fun e => ⟨raiseCompress_runMove s e, rfl⟩) h
  | decompress => exact execDecompress_runMove h
  | illegalCommand w => exact conclude_raise_runMove (r := .error .illegalCommand) (fun _ hu => nomatch hu) h

theorem execSoftReset_inv {s t : State} (hs : s.Inv) (h : execSoftReset s = .next t) : t.Inv := by
  obtain ⟨hmem, -, hlegal⟩ := hs
  cases h
  exact ⟨hmem, rfl, hlegal⟩

theorem exec_command_inv {i : Instr} (hi : i.IsCommand) {s t : State} (hs : s.Inv) (h : exec i s = .next t) :
    t.Inv := by
  by_cases hne : i = .softReset
  · subst hne
    exact execSoftReset_inv hs h
  · obtain ⟨hmove, hwork⟩ := exec_command_runMove hi hne h
    exact hmove.inv hwork hs

theorem engineTurn_inv {s t : State} (hs : s.Inv) (h : engineTurn s = .next t) : t.Inv := by
  have hwork : s.work = none := State.Inv.work_eq_none hs
  unfold engineTurn at h
  rw [hwork] at h
  cases hp : s.pending with
  | none =>
    rw [hp] at h
    cases h
    exact hs
  | some w =>
    rw [hp] at h
    exact exec_command_inv (decodeCommand_isCommand w) hs h

theorem writeReg_inv {s : State} (hs : s.Inv) (r : Reg) (v : Word) : (s.writeReg r v).Inv := by
  unfold State.writeReg
  split
  · exact hs
  cases r with
  | status =>
    dsimp only [State.writeIdleReg]
    split <;> exact hs
  | _ => exact hs

theorem writeMem_inv {s : State} (hs : s.Inv) (a : Word) (b : Byte) : (s.writeMem a b).Inv := by
  obtain ⟨hmem, hrest⟩ := hs
  exact ⟨State.writeMem_wf hmem a b, hrest⟩

theorem hostStep_inv {s t : State} {op : HostOp} (hs : s.Inv) (h : hostStep op s = .next t) : t.Inv := by
  unfold hostStep at h
  cases op with
  | readReg addr width =>
    dsimp only at h
    split at h <;> cases h
    exact hs
  | writeReg addr width v =>
    dsimp only at h
    split at h <;> cases h
    exact writeReg_inv hs _ v
  | readMem a =>
    dsimp only at h
    split at h <;> cases h
    exact hs
  | writeMem a b =>
    dsimp only at h
    split at h <;> cases h
    exact writeMem_inv hs a b

theorem rst_inv {s : State} (hs : s.Inv) : s.rst.Inv := by
  obtain ⟨hmem, -, hlegal⟩ := hs
  exact ⟨hmem, rfl, hlegal⟩

/-- Settles O49: the next event is the engine's turn, a host step or `rst`, and each keeps the invariant. -/
theorem stepKeepsTheInvariant : Obligations.StepKeepsTheInvariant := by
  intro s t hs h
  have hwork : s.work = none := State.Inv.work_eq_none hs
  unfold step agentStep at h
  split at h
  next hd =>
    rw [hwork] at hd
    cases hd
  next =>
    split at h
    next => exact engineTurn_inv hs h
    next rest _ => exact engineTurn_inv (s := { s with inputs := rest }) hs h
    next rest _ => exact hostStep_inv (s := { s with inputs := rest }) hs h
    next rest _ =>
      cases h
      exact rst_inv (s := { s with inputs := rest }) hs

end Sys2Proof.Machine
end

section
/-! The register file as the host sees it (10_state.md R23 to R33; 60_exceptions.md R332, R333): where a register access
lands, the bits of STATUS (O11), and what an idle write changes (O12). -/

namespace Sys2Proof.Machine

/-! The registers' words. -/

/-- A word built from a list of bits, bit 0 first, has those bits and 0 above them. -/
theorem getLsbD_ofNat_natOfLsb {n : Nat} {bits : List Bool} (h : bits.length ≤ n) (k : Nat) :
    (BitVec.ofNat n (natOfLsb bits)).getLsbD k = bits.getD k false := by
  have hlt : natOfLsb bits < 2 ^ n := Nat.lt_of_lt_of_le (natOfLsb_lt bits) (Nat.pow_le_pow_right (by decide) h)
  rw [BitVec.getLsbD, BitVec.toNat_ofNat, Nat.mod_eq_of_lt hlt, testBit_natOfLsb]

theorem statusWord_eq (s : State) :
    s.statusWord = BitVec.ofNat 32 (natOfLsb [s.busy, s.done, s.errFlag, s.brEnd, s.bwEnd]) := by
  simp only [State.statusWord, natOfLsb]
  congr 1
  omega

/-- The bits of STATUS (10_state.md R25). -/
theorem getLsbD_statusWord (s : State) (k : Nat) :
    s.statusWord.getLsbD k = [s.busy, s.done, s.errFlag, s.brEnd, s.bwEnd].getD k false := by
  rw [statusWord_eq]
  exact getLsbD_ofNat_natOfLsb (by simp) k

theorem errFlag_iff (s : State) : s.errFlag = true ↔ s.errWord ≠ 0#32 := bne_iff_ne

theorem brEnd_iff (s : State) : s.brEnd = true ↔ s.brPos.toNat ≥ 8 * s.srcLen.toNat := decide_eq_true_iff

theorem bwEnd_iff (s : State) : s.bwEnd = true ↔ s.bwPos.toNat ≥ 8 * s.dstCap.toNat := decide_eq_true_iff

/-- CTRL shows IRQ_EN alone (10_state.md R24). -/
theorem getLsbD_zero_ctrlWord (s : State) : s.ctrlWord.getLsbD 0 = s.irqEn := by
  cases h : s.irqEn <;> simp [State.ctrlWord, h]

/-- The interrupt output in terms of what the host reads (60_exceptions.md R332). -/
theorem irq_eq_status_and_ctrl (s : State) : s.irq = (s.statusWord.getLsbD 1 && s.ctrlWord.getLsbD 0) := by
  rw [getLsbD_statusWord, getLsbD_zero_ctrlWord]
  rfl

/-! Where a host access lands, and an idle write. -/

/-- An aligned 32-bit access at register `k` of the map reaches that register (20_memory.md R70). -/
theorem decodeAccess_register (s : State) {k : Nat} {r : Reg} (h : Reg.all[k]? = some r) :
    s.decodeAccess (s.params.regBase + 4 * k) 4 = .ok r := by
  obtain ⟨hk, -⟩ := List.getElem?_eq_some_iff.1 h
  have hk : k < 16 := hk
  have hin : ¬(s.params.regBase + 4 * k < s.params.regBase ∨
      s.params.regBase + 64 ≤ s.params.regBase + 4 * k) := by omega
  rw [State.decodeAccess, if_neg hin, Nat.add_sub_cancel_left, if_pos ⟨rfl, Nat.mul_mod_right 4 k⟩,
    Nat.mul_div_cancel_left k (by decide), h]

theorem hostStep_writeReg_register (s : State) {k : Nat} {r : Reg} (h : Reg.all[k]? = some r) (v : Word) :
    hostStep (.writeReg (s.params.regBase + 4 * k) 4 v) s = .next (s.writeReg r v) := by
  rw [hostStep, decodeAccess_register s h]

theorem writeReg_idle {s : State} (h : s.busy = false) (r : Reg) (v : Word) : s.writeReg r v = s.writeIdleReg r v := by
  simp [State.writeReg, h]

/-- A STATUS write takes the interrupt back where it clears DONE, and leaves it elsewhere (60_exceptions.md R333). -/
theorem irq_writeIdleReg_status (s : State) (v : Word) :
    (s.writeIdleReg .status v).irq = (s.irq && !v.getLsbD 1) := by
  rw [State.writeIdleReg]
  cases v.getLsbD 1 with
  | false => exact (Bool.and_true s.irq).symm
  | true => exact (Bool.and_false s.irq).symm

/-- Settles O11: each bit of STATUS is one flag, and the write goes through the access rule of R70. -/
theorem statusRegisterFields : Obligations.StatusRegisterFields := by
  intro s
  have hbit (k : Nat) : (s.readReg .status).getLsbD k = _ := getLsbD_statusWord s k
  refine ⟨hbit 0, hbit 1, ?_, ?_, ?_, ?_, by decide, irq_eq_status_and_ctrl s, ?_⟩
  · rw [hbit 2]
    exact errFlag_iff s
  · rw [hbit 3]
    exact brEnd_iff s
  · rw [hbit 4]
    exact bwEnd_iff s
  · intro k hk
    rw [hbit k, List.getD_eq_getElem?_getD, List.getElem?_eq_none hk, Option.getD_none]
  · intro hidle v
    refine ⟨s.writeIdleReg .status v, ?_, rfl, irq_writeIdleReg_status s v⟩
    rw [← writeReg_idle hidle]
    exact hostStep_writeReg_register s (k := 1) rfl v

/-- An idle write to any register but CMD and STATUS, field by field (10_state.md R23, R24, R27, R28). -/
theorem writeIdleReg_eq (s : State) {r : Reg} (hcmd : r ≠ .cmd) (hstatus : r ≠ .status) (v : Word) :
    s.writeIdleReg r v =
      { s with
        irqEn := if r = .ctrl then v.getLsbD 0 else s.irqEn
        srcAddr := if r = .srcAddr then v else s.srcAddr
        srcLen := if r = .srcLen then v else s.srcLen
        dstAddr := if r = .dstAddr then v else s.dstAddr
        dstCap := if r = .dstCap then v else s.dstCap
        brPos := if r = .brPos then v else s.brPos
        bwPos := if r = .bwPos then v else s.bwPos
        value := if r = .value then v else s.value
        nsym := if r = .nsym then v else s.nsym } := by
  cases r with
  | cmd => exact absurd rfl hcmd
  | status => exact absurd rfl hstatus
  | _ => rfl

/-- A write to a read-only register is ignored (10_state.md R23, R31; 60_exceptions.md R337). -/
theorem writeIdleReg_readOnly (s : State) {r : Reg} (h : r ∈ [Reg.errcode, .outLen, .result, .reserved, .id])
    (v : Word) : s.writeIdleReg r v = s := by
  simp only [List.mem_cons, List.not_mem_nil, or_false] at h
  rcases h with rfl | rfl | rfl | rfl | rfl <;> rfl

/-- An operand register reads as what was written (10_state.md R27, R28, R32, R33). -/
theorem readReg_writeIdleReg_operand (s : State) {r : Reg}
    (h : r ∈ [Reg.srcAddr, .srcLen, .dstAddr, .dstCap, .brPos, .bwPos, .value, .nsym]) (v : Word) :
    (s.writeIdleReg r v).readReg r = v := by
  simp only [List.mem_cons, List.not_mem_nil, or_false] at h
  rcases h with rfl | rfl | rfl | rfl | rfl | rfl | rfl | rfl <;> rfl

/-- CTRL keeps bit 0 of the word written (10_state.md R24). -/
theorem readReg_writeIdleReg_ctrl (s : State) (v : Word) : (s.writeIdleReg .ctrl v).readReg .ctrl = v &&& 1#32 := by
  rw [BitVec.and_one_eq_setWidth_ofBool_getLsbD]
  show (if v.getLsbD 0 then 1#32 else 0#32) = _
  cases v.getLsbD 0 <;> rfl

/-- The registers a write does not name read as before; STATUS is computed from others (10_state.md R25). -/
theorem readReg_writeIdleReg_other (s : State) {r q : Reg} (hcmd : r ≠ .cmd) (hstatus : r ≠ .status) (v : Word)
    (hq : q ≠ r) (hcomputed : q ≠ .status) : (s.writeIdleReg r v).readReg q = s.readReg q := by
  rw [writeIdleReg_eq s hcmd hstatus]
  cases q with
  | status => exact absurd rfl hcomputed
  | ctrl => simp [State.readReg, State.ctrlWord, hq.symm]
  | srcAddr | srcLen | dstAddr | dstCap | brPos | bwPos | value | nsym => exact if_neg hq.symm
  | cmd | errcode | outLen | result | reserved | id => rfl

/-- Settles O12: the access reaches the register, and the write's next state is known field by field. -/
theorem idleRegisterWrites : Obligations.IdleRegisterWrites := by
  intro s k r v hidle hk hcmd hstatus
  have hstep := hostStep_writeReg_register s hk v
  rw [writeReg_idle hidle] at hstep
  refine ⟨_, hstep, (writeIdleReg_readOnly s · v), (readReg_writeIdleReg_operand s · v), ?_, ?_,
    fun q hq hcomputed => readReg_writeIdleReg_other s hcmd hstatus v hq hcomputed, rfl, rfl, rfl, ?_⟩
  · rintro rfl
    exact ⟨readReg_writeIdleReg_ctrl s v, rfl⟩
  · intro hctrl
    rw [writeIdleReg_eq s hcmd hstatus, State.irq, if_neg hctrl]
    rfl
  · rw [writeIdleReg_eq s hcmd hstatus]
    exact ⟨rfl, rfl, rfl, rfl, rfl, rfl, rfl, rfl⟩

end Sys2Proof.Machine
end

section
/-! A selector of the stream runs as a symbol of its own space (O59): the instruction it is decoded to has one meaning for
each space, so what holds of the four kinds of symbol holds of every instruction of the stream. -/

namespace Sys2Proof.Machine

/-- What a selector does: a command word is its command, and a stream selector is the symbol of that number of its space
(30_encoding.md R90, R101, R105, R107, R109). -/
def State.runSelector (s : State) : Selector → Result
  | .command w => exec (decodeCommand w) s
  | .blockHeader h => s.blockSymbol (h.toNat / 2) (h.toNat % 2 == 1)
  | .clSymbol c => s.clSymbol c.toNat
  | .llSymbol c => s.llSymbol c.toNat
  | .distSymbol c => s.distSymbol c.toNat

/-- An instruction of the stream is the run of its selector. -/
theorem exec_eq_runSelector (i : Instr) (s : State) (hstream : ∀ w, encode i ≠ .command w) :
    exec i s = s.runSelector (encode i) := by
  cases i with
  | nop | softReset | bwWrite n | bwWriteCoded n | bwAlign | brReadBit | brRead n | brReadCoded n | brAlign | crc32
  | huffBuild l | lz77Tokenize | compress | decompress | illegalCommand w => exact absurd rfl (hstream _)
  | blockStored final | blockFixed final | blockDynamic final | blockReserved final => cases final <;> rfl
  | llLiteral b =>
    have hnumber : (b.setWidth 9).toNat = b.toNat := BitVec.toNat_setWidth_of_le (by decide)
    show s.llSymbol b.toNat = s.llSymbol (b.setWidth 9).toNat
    rw [hnumber]
  | _ => rfl

theorem runSelector_without_work {s : State} (hwork : s.work = none) {x : Selector}
    (hstream : ∀ w, x ≠ .command w) : s.runSelector x = .refused .noStreamContext := by
  cases x with
  | command w => exact absurd rfl (hstream w)
  | blockHeader h =>
    obtain ⟨hblock, -⟩ := symbol_without_work hwork (h.toNat / 2) (h.toNat % 2 == 1)
    exact hblock
  | clSymbol c =>
    obtain ⟨-, hcl, -⟩ := symbol_without_work hwork c.toNat false
    exact hcl
  | llSymbol c =>
    obtain ⟨-, -, hll, -⟩ := symbol_without_work hwork c.toNat false
    exact hll
  | distSymbol c =>
    obtain ⟨-, -, -, hdist⟩ := symbol_without_work hwork c.toNat false
    exact hdist

/-- A stream selector is answered in the FSM state that reads its space, and refused in every other (log 9). -/
theorem runSelector_reads {s : State} {d : Decoder} (hwork : s.work = some d) {x : Selector}
    (hstream : ∀ w, x ≠ .command w) :
    (d.phase.reads x = true → ∃ t, s.runSelector x = .next t) ∧
      (d.phase.reads x = false → s.runSelector x = .refused .noStreamContext) := by
  cases x with
  | command w => exact absurd rfl (hstream w)
  | blockHeader h => exact blockSymbol_reads hwork h _ _
  | clSymbol c => exact clSymbol_reads hwork c _
  | llSymbol c => exact llSymbol_reads hwork c _
  | distSymbol c => exact distSymbol_reads hwork c _

/-- Settles O59: the instruction is the run of its selector, and each space has its own FSM state. -/
theorem symbolsNeedTheirFsmState : Obligations.SymbolsNeedTheirFsmState := by
  intro i s hstream
  rw [exec_eq_runSelector i s hstream]
  exact ⟨fun hwork => runSelector_without_work hwork hstream,
    fun _ hwork => (runSelector_reads hwork hstream).2,
    fun _ hwork => (runSelector_reads hwork hstream).1⟩

end Sys2Proof.Machine
end

section
/-! Two runs of one command side by side (20_memory.md R61, R62, R65; O46, O47): the second starts from other bytes of M
outside the source region. `Twin` is what the two keep in common through every part of a Run: all but M, the source
bytes, and the destination bits put out so far, while the first leaves the bytes outside the destination region alone.
O47 compares the two runs; O46 compares a run with itself. -/

namespace Sys2Proof.Machine

/-! Two outcomes of one rule. -/

/-- Both outcomes are the same error, or both are values that `R` relates. -/
def Paired {α : Type} (R : α → α → Prop) (x y : Except CmdError α) : Prop :=
  (∃ e, x = .error e ∧ y = .error e) ∨ ∃ a b, x = .ok a ∧ y = .ok b ∧ R a b

/-- What a rule that also answers a value gives in both runs: the same value, and states that `R` relates for it. -/
def SameValue {α : Type} (R : α → State → State → Prop) (x y : α × State) : Prop := x.1 = y.1 ∧ R x.1 x.2 y.2

theorem Paired.error {α : Type} {R : α → α → Prop} (e : CmdError) : Paired R (.error e) (.error e) :=
  .inl ⟨e, rfl, rfl⟩

theorem Paired.ok {α : Type} {R : α → α → Prop} {a b : α} (h : R a b) : Paired R (.ok a) (.ok b) :=
  .inr ⟨a, b, rfl, rfl, h⟩

theorem Paired.value {α : Type} {R : α → State → State → Prop} {v : α} {t t' : State} (h : R v t t') :
    Paired (SameValue R) (.ok (v, t)) (.ok (v, t')) :=
  .ok ⟨rfl, h⟩

theorem Paired.mono {α : Type} {R S : α → α → Prop} {x y : Except CmdError α} (h : Paired R x y)
    (hRS : ∀ a b, R a b → S a b) : Paired S x y := by
  rcases h with ⟨e, rfl, rfl⟩ | ⟨a, b, rfl, rfl, hab⟩
  · exact .error e
  · exact .ok (hRS a b hab)

theorem Paired.bind {α β : Type} {R : α → α → Prop} {S : β → β → Prop} {x y : Except CmdError α}
    {f g : α → Except CmdError β} (h : Paired R x y) (hk : ∀ a b, R a b → Paired S (f a) (g b)) :
    Paired S (x >>= f) (y >>= g) := by
  rcases h with ⟨e, rfl, rfl⟩ | ⟨a, b, rfl, rfl, hab⟩
  · exact .error e
  · exact hk a b hab

/-- After a rule that answers a value, the rest runs on the same value in both runs. -/
theorem Paired.bindValue {α β : Type} {R : α → State → State → Prop} {S : β → β → Prop}
    {x y : Except CmdError (α × State)} {f g : α × State → Except CmdError β} (h : Paired (SameValue R) x y)
    (hk : ∀ v t t', R v t t' → Paired S (f (v, t)) (g (v, t'))) : Paired S (x >>= f) (y >>= g) := by
  refine h.bind ?_
  rintro ⟨v, t⟩ ⟨_, t'⟩ ⟨rfl, ht⟩
  exact hk v t t' ht

/-- A check that both runs make on the same operands: it fails in both, or both go on knowing that it held. -/
theorem Paired.afterRequire {β : Type} {S : β → β → Prop} {ok : Bool} {e : CmdError}
    {f g : Unit → Except CmdError β} (h : ok = true → Paired S (f ()) (g ())) :
    Paired S (require ok e >>= f) (require ok e >>= g) := by
  cases ok with
  | false => exact .error e
  | true => exact h rfl

/-! What two runs keep in common. A set of bit positions is the predicate it satisfies. -/

/-- No bit position. -/
def NoBits (_ : Nat) : Prop := False

/-- The first `n` bit positions. -/
def BitsBelow (n p : Nat) : Prop := p < n

/-- The bit positions from `lo` up to `hi`, which is not one of them. -/
def BitsBetween (lo hi p : Nat) : Prop := lo ≤ p ∧ p < hi

theorem not_bitsBetween_self (lo p : Nat) : ¬ BitsBetween lo lo p := by
  unfold BitsBetween
  omega

/-- Two contents of M for commands that start in `s`: the source bytes and the destination bits in `W` are the same in
both, and outside the destination region the first is as it was in `s`. -/
structure TwinMem (s : State) (W : Nat → Prop) (m m' : Memory) : Prop where
  src : ∀ i, i < s.srcLen.toNat → m'.read (s.srcByteAddr i).toNat = m.read (s.srcByteAddr i).toNat
  dst : ∀ p, W p → (m'.read (s.dstByteAddr (p / 8)).toNat).getLsbD (p % 8) =
    (m.read (s.dstByteAddr (p / 8)).toNat).getLsbD (p % 8)
  outside : ∀ a, s.OutsideDst a → m.read a = s.mem.read a

/-- Two states of the two runs that started in `s`: they differ in M alone, and M as `TwinMem` says. -/
inductive Twin (s : State) (W : Nat → Prop) : State → State → Prop
  | mk (t : State) (m' : Memory) (operands : SameOperands s t) (mem : TwinMem s W t.mem m') :
    Twin s W t { t with mem := m' }

theorem TwinMem.mono {s : State} {V W : Nat → Prop} {m m' : Memory} (h : TwinMem s W m m') (hVW : ∀ p, V p → W p) :
    TwinMem s V m m' :=
  ⟨h.src, fun p hp => h.dst p (hVW p hp), h.outside⟩

theorem Twin.mono {s t t' : State} {V W : Nat → Prop} (h : Twin s W t t') (hVW : ∀ p, V p → W p) : Twin s V t t' := by
  obtain ⟨m', hop, hmem⟩ := h
  exact .mk t m' hop (hmem.mono hVW)

theorem Twin.operands {s t t' : State} {W : Nat → Prop} (h : Twin s W t t') : SameOperands s t := by
  cases h
  assumption

theorem Twin.operands' {s t t' : State} {W : Nat → Prop} (h : Twin s W t t') : SameOperands s t' := by
  cases h
  assumption

theorem Twin.work {s t t' : State} {W : Nat → Prop} (h : Twin s W t t') : t'.work = t.work := by
  cases h
  rfl

theorem Twin.mono_noBits {s t t' : State} {W : Nat → Prop} (h : Twin s W t t') : Twin s NoBits t t' :=
  h.mono fun _ => False.elim

/-- The two runs at their start. -/
theorem Twin.start {s : State} {m : Memory}
    (hsrc : ∀ i, i < s.srcLen.toNat → m.read (s.srcByteAddr i).toNat = s.mem.read (s.srcByteAddr i).toNat) :
    Twin s NoBits s { s with mem := m } :=
  .mk s m (.refl s) ⟨hsrc, fun _ hp => hp.elim, fun _ _ => rfl⟩

/-- The two runs write the same registers alike. -/
theorem Twin.update {s t t' : State} {W : Nat → Prop} (h : Twin s W t t') (f : State → State)
    (hf : ∀ m, f { t with mem := m } = { f t with mem := m } := by intro; rfl)
    (hmem : (f t).mem = t.mem := by rfl) (hop : SameOperands t (f t) := by exact .refl _) :
    Twin s W (f t) (f t') := by
  obtain ⟨m', hop', hmem'⟩ := h
  rw [hf m']
  exact .mk (f t) m' (hop'.trans hop) (hmem ▸ hmem')

theorem SameOperands.srcByteAddr {s t : State} (h : SameOperands s t) (i : Nat) :
    t.srcByteAddr i = s.srcByteAddr i := by
  obtain ⟨ha, -⟩ := h
  rw [State.srcByteAddr, ha, State.srcByteAddr]

theorem SameOperands.srcLen {s t : State} (h : SameOperands s t) : t.srcLen = s.srcLen := by
  obtain ⟨-, hl, -⟩ := h
  exact hl

theorem SameOperands.srcBits {s t : State} (h : SameOperands s t) : t.srcBits = s.srcBits := by
  rw [State.srcBits, h.srcLen, State.srcBits]

theorem SameOperands.srcRegionOk {s t : State} (h : SameOperands s t) : t.srcRegionOk = s.srcRegionOk := by
  obtain ⟨ha, hl, -⟩ := h
  rw [State.srcRegionOk, ha, hl, State.srcRegionOk]

theorem SameOperands.dstByteAddr {s t : State} (h : SameOperands s t) (i : Nat) :
    t.dstByteAddr i = s.dstByteAddr i := by
  obtain ⟨-, -, ha, -⟩ := h
  rw [State.dstByteAddr, ha, State.dstByteAddr]

theorem SameOperands.dstCap {s t : State} (h : SameOperands s t) : t.dstCap = s.dstCap := by
  obtain ⟨-, -, -, hc, -⟩ := h
  exact hc

theorem SameOperands.dstBits {s t : State} (h : SameOperands s t) : t.dstBits = s.dstBits := by
  rw [State.dstBits, h.dstCap, State.dstBits]

theorem SameOperands.dstRegionOk {s t : State} (h : SameOperands s t) : t.dstRegionOk = s.dstRegionOk := by
  obtain ⟨-, -, ha, hc, -⟩ := h
  rw [State.dstRegionOk, ha, hc, State.dstRegionOk]

theorem SameOperands.outsideDst {s t : State} (h : SameOperands s t) {a : Nat} (ha : s.OutsideDst a) :
    t.OutsideDst a := by
  obtain ⟨-, -, hd, hc, -⟩ := h
  rw [State.OutsideDst, hd, hc]
  exact ha

/-! The source region in both runs. -/

theorem srcByte_twin {s t t' : State} {W : Nat → Prop} (h : Twin s W t t') {i : Nat} (hi : i < t.srcLen.toNat) :
    t'.srcByte i = t.srcByte i := by
  obtain ⟨m', hop, hmem⟩ := h
  have hsrc := hmem.src i (hop.srcLen ▸ hi)
  rw [← hop.srcByteAddr] at hsrc
  exact hsrc

theorem srcBytes_twin {s t t' : State} {W : Nat → Prop} (h : Twin s W t t') : t'.srcBytes = t.srcBytes := by
  have hlen : t'.srcLen = t.srcLen := by cases h; rfl
  rw [State.srcBytes, hlen]
  exact List.map_congr_left (fun i hi => srcByte_twin h (List.mem_range.1 hi))

theorem frequencyRecords_twin {s t t' : State} {W : Nat → Prop} (h : Twin s W t t')
    (hle : 4 * t.nsym.toNat ≤ t.srcLen.toNat) : t'.frequencyRecords = t.frequencyRecords := by
  have hnsym : t'.nsym = t.nsym := by cases h; rfl
  rw [State.frequencyRecords, hnsym]
  refine List.map_congr_left (fun k hk => ?_)
  have hk : k < t.nsym.toNat := List.mem_range.1 hk
  rw [State.srcWord, srcByte_twin h (by omega), srcByte_twin h (by omega), srcByte_twin h (by omega),
    srcByte_twin h (by omega), State.srcWord]

theorem srcBitList_twin {s t t' : State} {W : Nat → Prop} (h : Twin s W t t') : ∀ (p n : Nat), p + n ≤ t.srcBits →
    t'.srcBitList p n = t.srcBitList p n
  | _, 0, _ => rfl
  | p, n + 1, hle => by
    have hbyte : t'.srcByte (p / 8) = t.srcByte (p / 8) :=
      srcByte_twin h (by simp only [State.srcBits] at hle; omega)
    rw [State.srcBitList, State.srcBit, hbyte, srcBitList_twin h (p + 1) n (by omega)]
    rfl

/-! The bit-stream reader. -/

theorem readBits_paired {s t t' : State} {W : Nat → Prop} (h : Twin s W t t') (n : Nat) (eof : CmdError) :
    Paired (SameValue fun _ => Twin s W) (t.readBits n eof) (t'.readBits n eof) := by
  have hbr : t'.brPos = t.brPos := by cases h; rfl
  have hbits : t'.srcBits = t.srcBits := by cases h; rfl
  rw [State.readBits, State.readBits, hbr, hbits]
  split
  · exact .error eof
  · rw [srcBitList_twin h _ _ (by omega)]
    exact .value (h.update (fun t => { t with brPos := _ }))

theorem readRange_eq_bind (s : State) (n : Nat) (eof : CmdError) :
    s.readRange n eof = s.readBits n eof >>= fun x => .ok (natOfLsb x.1, x.2) := by
  rw [State.readRange]
  cases s.readBits n eof <;> rfl

theorem readRangeCoded_eq_bind (s : State) (n : Nat) (eof : CmdError) :
    s.readRangeCoded n eof = s.readBits n eof >>= fun x => .ok (natOfMsb 0 x.1, x.2) := by
  rw [State.readRangeCoded]
  cases s.readBits n eof <;> rfl

theorem readRange_paired {s t t' : State} {W : Nat → Prop} (h : Twin s W t t') (n : Nat) (eof : CmdError) :
    Paired (SameValue fun _ => Twin s W) (t.readRange n eof) (t'.readRange n eof) := by
  rw [readRange_eq_bind, readRange_eq_bind]
  exact (readBits_paired h n eof).bindValue (fun _ _ _ hu => .value hu)

theorem readRangeCoded_paired {s t t' : State} {W : Nat → Prop} (h : Twin s W t t') (n : Nat) (eof : CmdError) :
    Paired (SameValue fun _ => Twin s W) (t.readRangeCoded n eof) (t'.readRangeCoded n eof) := by
  rw [readRangeCoded_eq_bind, readRangeCoded_eq_bind]
  exact (readBits_paired h n eof).bindValue (fun _ _ _ hu => .value hu)

theorem alignReader_paired {s t t' : State} {W : Nat → Prop} (h : Twin s W t t') (eof : CmdError) :
    Paired (Twin s W) (t.alignReader eof) (t'.alignReader eof) := by
  have hbr : t'.brPos = t.brPos := by cases h; rfl
  have hbits : t'.srcBits = t.srcBits := by cases h; rfl
  simp only [State.alignReader, hbr, hbits]
  split
  · exact .error eof
  · exact .ok (h.update (fun t => { t with brPos := _ }))

/-! Writes to the destination region in both runs. -/

theorem ne_dstByteAddr_of_outsideDst {s : State} (hreg : s.dstRegionOk = true) {k a : Nat} (hk : k < s.dstCap.toNat)
    (ha : s.OutsideDst a) : a ≠ (s.dstByteAddr k).toNat := by
  rintro rfl
  rw [State.OutsideDst, inRegion_dstByteAddr hreg hk] at ha
  cases ha

/-- The same byte written to the same place. -/
theorem TwinMem.write {s : State} {W : Nat → Prop} {m m' : Memory} (h : TwinMem s W m m') (hreg : s.dstRegionOk = true)
    {k : Nat} (hk : k < s.dstCap.toNat) (b : Byte) :
    TwinMem s (fun p => W p ∨ p / 8 = k) (m.write (s.dstByteAddr k).toNat b) (m'.write (s.dstByteAddr k).toNat b) where
  src i hi := by
    rw [Memory.read_write, Memory.read_write, h.src i hi]
  dst p hp := by
    rw [Memory.read_write, Memory.read_write]
    split
    next => rfl
    next hne =>
      rcases hp with hp | hp
      · exact h.dst p hp
      · exact absurd (congrArg (fun j => (s.dstByteAddr j).toNat) hp) hne
  outside a ha := by
    rw [Memory.read_write_other (ne_dstByteAddr_of_outsideDst hreg hk ha)]
    exact h.outside a ha

/-- The same bit written to the same place, whatever the rest of its byte is. -/
theorem TwinMem.writeBit {s : State} {W : Nat → Prop} {m m' : Memory} (h : TwinMem s W m m')
    (hreg : s.dstRegionOk = true) {p : Nat} (hp : p < s.dstBits) (b : Bool) :
    TwinMem s (fun q => q = p ∨ W q)
      (m.write (s.dstByteAddr (p / 8)).toNat (setBit (m.read (s.dstByteAddr (p / 8)).toNat) (p % 8) b))
      (m'.write (s.dstByteAddr (p / 8)).toNat (setBit (m'.read (s.dstByteAddr (p / 8)).toNat) (p % 8) b)) where
  src i hi := by
    rw [Memory.read_write, Memory.read_write]
    split
    next heq => rw [← heq, h.src i hi]
    next => exact h.src i hi
  dst q hq := by
    have hlt (n : Nat) : n % 8 < 8 := Nat.mod_lt n (by decide)
    rw [Memory.read_write, Memory.read_write]
    split
    next heq =>
      rw [getLsbD_setBit _ _ _ _ (hlt p) (hlt q), getLsbD_setBit _ _ _ _ (hlt p) (hlt q)]
      split
      next => rfl
      next hbit =>
        have hold := h.dst q (hq.resolve_left (fun e => hbit (by rw [e])))
        rwa [heq] at hold
    next haddr => exact h.dst q (hq.resolve_left (fun e => haddr (by rw [e])))
  outside a ha := by
    have hk : p / 8 < s.dstCap.toNat := by
      rw [State.dstBits] at hp
      omega
    rw [Memory.read_write_other (ne_dstByteAddr_of_outsideDst hreg hk ha)]
    exact h.outside a ha

theorem Twin.startOutput {s t t' : State} (h : Twin s NoBits t t') : Twin s (BitsBelow 0) t t' :=
  h.mono fun p hp => absurd hp (Nat.not_lt_zero p)

/-- The next byte of the output. -/
theorem Twin.dstByteWrite_next {s t t' : State} {k : Nat} (h : Twin s (BitsBelow (8 * k)) t t')
    (hreg : s.dstRegionOk = true) (hk : k < s.dstCap.toNat) (b : Byte) :
    Twin s (BitsBelow (8 * (k + 1))) (t.dstByteWrite k b) (t'.dstByteWrite k b) := by
  obtain ⟨m', hop, hmem⟩ := h
  have hsub (p : Nat) (hp : BitsBelow (8 * (k + 1)) p) : BitsBelow (8 * k) p ∨ p / 8 = k := by
    unfold BitsBelow at hp ⊢
    omega
  have hwrite := (hmem.write hreg hk b).mono hsub
  rw [← hop.dstByteAddr] at hwrite
  exact .mk (t.dstByteWrite k b) _ hop hwrite

/-- The next record of the output (20_memory.md R63). -/
theorem Twin.dstWord_next {s t t' : State} {k : Nat} (h : Twin s (BitsBelow (8 * (4 * k))) t t')
    (hreg : s.dstRegionOk = true) (hk : 4 * (k + 1) ≤ s.dstCap.toNat) (v : Word) :
    Twin s (BitsBelow (8 * (4 * (k + 1)))) (t.dstWord k v) (t'.dstWord k v) :=
  (((h.dstByteWrite_next hreg (by omega) _).dstByteWrite_next hreg (by omega) _).dstByteWrite_next hreg
    (by omega) _).dstByteWrite_next hreg (by omega) _

theorem Twin.dstWords {s : State} (hreg : s.dstRegionOk = true) : ∀ (ws : List Word) (k : Nat) {t t' : State},
    Twin s (BitsBelow (8 * (4 * k))) t t' → 4 * (k + ws.length) ≤ s.dstCap.toNat →
    Twin s (BitsBelow (8 * (4 * (k + ws.length)))) (State.dstWords k ws t) (State.dstWords k ws t')
  | [], _, _, _, h, _ => h
  | w :: ws, k, _, _, h, hle => by
    rw [List.length_cons, Nat.add_comm ws.length 1, ← Nat.add_assoc] at hle ⊢
    exact Twin.dstWords hreg ws (k + 1) (h.dstWord_next hreg (by omega) w) hle

/-! The bit-stream writer: `lo` is where it stood when the two runs began to write. -/

theorem Twin.putBit {s t t' : State} {lo : Nat} (h : Twin s (BitsBetween lo t.bwPos.toNat) t t')
    (hreg : s.dstRegionOk = true) (hp : t.bwPos.toNat < s.dstBits) (b : Bool) :
    Twin s (BitsBetween lo (t.putBit b).bwPos.toNat) (t.putBit b) (t'.putBit b) := by
  obtain ⟨m', hop, hmem⟩ := h
  have hnext : (t.bwPos + 1#32).toNat ≤ t.bwPos.toNat + 1 := by
    rw [BitVec.toNat_add]
    exact Nat.mod_le _ _
  have hsub (p : Nat) (hp : BitsBetween lo (t.bwPos + 1#32).toNat p) :
      p = t.bwPos.toNat ∨ BitsBetween lo t.bwPos.toNat p := by
    unfold BitsBetween at hp ⊢
    omega
  have hwrite := (hmem.writeBit hreg hp b).mono hsub
  rw [← hop.dstByteAddr] at hwrite
  exact .mk (t.putBit b) _ hop hwrite

theorem Twin.putBits {s : State} {lo : Nat} (hreg : s.dstRegionOk = true) : ∀ (bits : List Bool) {t t' : State},
    Twin s (BitsBetween lo t.bwPos.toNat) t t' → t.bwPos.toNat + bits.length ≤ s.dstBits →
    Twin s (BitsBetween lo (State.putBits bits t).bwPos.toNat) (State.putBits bits t) (State.putBits bits t')
  | [], _, _, h, _ => h
  | b :: bs, t, t', h, hle => by
    have hb : 8 * s.dstCap.toNat < 4294967296 := bits_lt_of_regionFits hreg
    rw [List.length_cons] at hle
    have hpos : (t.putBit b).bwPos.toNat = t.bwPos.toNat + 1 :=
      toNat_add_of_le (n := 1) hb (by rw [State.dstBits] at hle; omega)
    exact Twin.putBits hreg bs (h.putBit hreg (by omega) b) (by omega)

/-- Two runs of a writer whose output starts at bit `lo`. -/
abbrev WriterTwin (s : State) (lo : Nat) (t t' : State) : Prop := Twin s (BitsBetween lo t.bwPos.toNat) t t'

theorem Twin.startWriter {s t t' : State} (h : Twin s NoBits t t') : WriterTwin s t.bwPos.toNat t t' :=
  h.mono fun p hp => not_bitsBetween_self _ p hp

theorem writeBits_paired {s t t' : State} {lo : Nat} (hreg : s.dstRegionOk = true) (h : WriterTwin s lo t t')
    (bits : List Bool) : Paired (WriterTwin s lo) (t.writeBits bits) (t'.writeBits bits) := by
  have hbw : t'.bwPos = t.bwPos := by cases h; rfl
  rw [State.writeBits, State.writeBits, hbw, h.operands.dstBits, h.operands'.dstBits]
  split
  · exact .error .outOfRange
  · exact .ok (h.putBits hreg bits (by omega))

theorem alignWriter_paired {s t t' : State} {lo : Nat} (hreg : s.dstRegionOk = true) (h : WriterTwin s lo t t') :
    Paired (WriterTwin s lo) t.alignWriter t'.alignWriter := by
  have hbw : t'.bwPos = t.bwPos := by cases h; rfl
  rw [State.alignWriter, State.alignWriter, hbw]
  exact writeBits_paired hreg h _

theorem writeField_paired {s t t' : State} {lo : Nat} (hreg : s.dstRegionOk = true) (h : WriterTwin s lo t t')
    (f : Field) : Paired (WriterTwin s lo) (t.writeField f) (t'.writeField f) := by
  unfold State.writeField
  cases f.bits with
  | error e => exact .error e
  | ok bits => exact writeBits_paired hreg h bits

theorem writeFields_cons (s : State) (f : Field) (fs : List Field) :
    s.writeFields (f :: fs) = s.writeField f >>= (State.writeFields · fs) := by
  rw [State.writeFields]
  cases s.writeField f <;> rfl

theorem writeFields_paired {s : State} {lo : Nat} (hreg : s.dstRegionOk = true) : ∀ (fs : List Field) {t t' : State},
    WriterTwin s lo t t' → Paired (WriterTwin s lo) (t.writeFields fs) (t'.writeFields fs)
  | [], _, _, h => .ok h
  | f :: fs, t, t', h => by
    rw [writeFields_cons, writeFields_cons]
    exact (writeField_paired hreg h f).bind (fun _ _ => writeFields_paired hreg fs)

end Sys2Proof.Machine
end

section
/-! Every command as two runs side by side. -/

namespace Sys2Proof.Machine

/-! How two runs of a command end. -/

/-- The end of two runs of command `i` from `s`: what O47 says of both, and what O46 says of the first. -/
structure EndedAlike (i : Instr) (s t t' : State) : Prop where
  errcode : t.errcode = t'.errcode
  outLen : t.outLen = t'.outLen
  result : t.result = t'.result
  cursors : t.errcode = none → t.brPos = t'.brPos ∧ t.bwPos = t'.bwPos
  output : t.errcode = none → usesSrc i = true → usesDst i = true →
    t.dstBytes t.outLen.toNat = t'.dstBytes t.outLen.toNat
  outside : SameBytes s.OutsideDst s t

/-- The destination bits that a command of two regions has put out when it ends in `t`; none for every other command. -/
def outputBits (i : Instr) (t : State) (p : Nat) : Prop :=
  usesSrc i = true ∧ usesDst i = true ∧ BitsBelow (8 * t.outLen.toNat) p

theorem not_outputBits_of_oneRegion {i : Instr} (h : usesSrc i = false ∨ usesDst i = false) (t : State) (p : Nat) :
    ¬ outputBits i t p := by
  rintro ⟨hs, hd, -⟩
  rcases h with h | h
  · rw [h] at hs
    cases hs
  · rw [h] at hd
    cases hd

theorem dstByte_eq_of_dstBit {t t' : State} {k : Nat} (h : ∀ p, p / 8 = k → t'.dstBit p = t.dstBit p) :
    t.dstByteRead k = t'.dstByteRead k := by
  refine BitVec.eq_of_getLsbD_eq (fun i hi => ?_)
  have hbit := h (8 * k + i) (by omega)
  rw [State.dstBit, State.dstBit, show (8 * k + i) / 8 = k by omega, show (8 * k + i) % 8 = i by omega] at hbit
  exact hbit.symm

/-- Two runs that agree on the destination bits put out agree on its bytes. -/
theorem Twin.dstBytes {s t t' : State} {n : Nat} (h : Twin s (BitsBelow (8 * n)) t t') :
    t.dstBytes n = t'.dstBytes n := by
  obtain ⟨m', hop, hmem⟩ := h
  refine List.map_congr_left (fun k hk => dstByte_eq_of_dstBit (fun p hp => ?_))
  have hk : k < n := List.mem_range.1 hk
  have hbit := hmem.dst p (show p < 8 * n by omega)
  rw [← hop.dstByteAddr] at hbit
  exact hbit

/-- Two runs that end without error. -/
theorem Twin.endedAlike {i : Instr} {s t t' : State} (h : Twin s (outputBits i t) t t') :
    EndedAlike i s t.finished t'.finished := by
  have hout (hs : usesSrc i = true) (hd : usesDst i = true) : t.dstBytes t.outLen.toNat = t'.dstBytes t.outLen.toNat :=
    (h.mono (fun _ hp => ⟨hs, hd, hp⟩)).dstBytes
  obtain ⟨m', hop, hmem⟩ := h
  exact ⟨rfl, rfl, rfl, fun _ => ⟨rfl, rfl⟩, fun _ => hout, fun a ha => hmem.outside a ha⟩

/-- Two runs that end in an error which leaves M as it was (60_exceptions.md R326). -/
theorem failed_endedAlike (i : Instr) (s : State) (m : Memory) (e : CmdError) :
    EndedAlike i s (s.failed e) (State.failed { s with mem := m } e) :=
  ⟨rfl, rfl, rfl, (nomatch ·), (nomatch ·), fun _ _ => rfl⟩

/-- Two answers of which, where both are next states, `R` relates the states. -/
def BothNext (R : State → State → Prop) (r r' : Result) : Prop := ∀ t t', r = .next t → r' = .next t' → R t t'

theorem BothNext.next {R : State → State → Prop} {t t' : State} (h : R t t') : BothNext R (.next t) (.next t') := by
  rintro _ _ ⟨⟩ ⟨⟩
  exact h

theorem conclude_endedAlike {i : Instr} {s : State} {m : Memory} {onError : CmdError → State → State}
    {r r' : Except CmdError State} (h : Paired (fun t t' => Twin s (outputBits i t) t t') r r')
    (herr : ∀ e, r = .error e → EndedAlike i s (onError e s) (onError e { s with mem := m })) :
    BothNext (EndedAlike i s) (s.conclude onError r) (State.conclude { s with mem := m } onError r') := by
  rcases h with ⟨e, rfl, rfl⟩ | ⟨t, t', rfl, rfl, ht⟩
  · exact .next (herr e rfl)
  · exact .next ht.endedAlike

theorem conclude_raise_endedAlike {i : Instr} {s : State} {m : Memory} {r r' : Except CmdError State}
    (h : Paired (fun t t' => Twin s (outputBits i t) t t') r r') :
    BothNext (EndedAlike i s) (s.conclude State.raise r) (State.conclude { s with mem := m } State.raise r') :=
  conclude_endedAlike h (fun e _ => failed_endedAlike i s m e)

/-- The same for a command that does not use both regions, whose output is not compared. -/
theorem conclude_raise_endedAlike_of_oneRegion {i : Instr} (hi : usesSrc i = false ∨ usesDst i = false) {s : State}
    {m : Memory} {r r' : Except CmdError State} (h : Paired (Twin s NoBits) r r') :
    BothNext (EndedAlike i s) (s.conclude State.raise r) (State.conclude { s with mem := m } State.raise r') := by
  exact conclude_raise_endedAlike <| h.mono fun t _ ht =>
    ht.mono fun p hp => absurd hp (not_outputBits_of_oneRegion hi t p)

/-! The commands over the regions but DECOMPRESS: first what they put out. -/

/-- A command that puts out `n` bytes and says so in OUT_LEN. -/
theorem Twin.setOutLen {i : Instr} {s t t' : State} {n : Nat} (h : Twin s (BitsBelow (8 * n)) t t') :
    Twin s (outputBits i { t with outLen := BitVec.ofNat 32 n }) { t with outLen := BitVec.ofNat 32 n }
      { t' with outLen := BitVec.ofNat 32 n } := by
  have hn : (BitVec.ofNat 32 n).toNat ≤ n := Nat.mod_le _ _
  exact (h.update fun t => { t with outLen := BitVec.ofNat 32 n }).mono fun _ ⟨_, _, hp⟩ =>
    Nat.lt_of_lt_of_le hp (Nat.mul_le_mul_left 8 hn)

/-- A command that puts out the records `ws` from the start of the destination region. -/
theorem dstWords_setOutLen_twin {i : Instr} {s t t' : State} (h : Twin s NoBits t t') (hreg : s.dstRegionOk = true)
    {ws : List Word} {n : Nat} (hn : ws.length = n) (hle : 4 * n ≤ s.dstCap.toNat) :
    Twin s (outputBits i { State.dstWords 0 ws t with outLen := BitVec.ofNat 32 (4 * n) })
      { State.dstWords 0 ws t with outLen := BitVec.ofNat 32 (4 * n) }
      { State.dstWords 0 ws t' with outLen := BitVec.ofNat 32 (4 * n) } := by
  subst hn
  have hwords := Twin.dstWords hreg ws 0 h.startOutput (by omega)
  rw [Nat.zero_add] at hwords
  exact hwords.setOutLen

theorem length_packageMerge (freq : List Nat) (limit : Nat) : (packageMerge freq limit).length = freq.length := by
  unfold packageMerge
  dsimp only
  split <;> simp

/-! The two runs of each command, from `s` and from `s` with M replaced by `m`. -/

section
variable {s : State} {m : Memory} (h : Twin s NoBits s { s with mem := m })
include h

/-! The commands of one region (40_bitstream.md R150 to R158; 41_crc32.md R173). -/

theorem brRead_paired (n : Nat) : Paired (Twin s NoBits) (s.brRead n) (State.brRead { s with mem := m } n) :=
  Paired.afterRequire fun _ => (readRange_paired h n .outOfRange).bindValue fun v _ _ ht =>
    .ok (ht.update (State.setReadResult · v))

theorem brReadCoded_paired (n : Nat) :
    Paired (Twin s NoBits) (s.brReadCoded n) (State.brReadCoded { s with mem := m } n) :=
  Paired.afterRequire fun _ => (readRangeCoded_paired h n .outOfRange).bindValue fun v _ _ ht =>
    .ok (ht.update (State.setReadResult · v))

theorem brAlign_paired : Paired (Twin s NoBits) s.brAlign (State.brAlign { s with mem := m }) :=
  Paired.afterRequire fun _ => (alignReader_paired h .outOfRange).bind fun _ _ ht =>
    .ok (ht.update fun t => { t with outLen := 0#32 })

theorem crc32Command_paired : Paired (Twin s NoBits) s.crc32Command (State.crc32Command { s with mem := m }) := by
  unfold State.crc32Command
  rw [srcBytes_twin h]
  exact Paired.afterRequire fun _ => .ok (h.update fun t => { t with result := crc32 s.srcBytes, outLen := 0#32 })

/-- A writer's command: a region check, one write, and a result computed from the registers. -/
theorem checkedWrite_paired (bits : List Bool) {f : State → State}
    (hf : ∀ t t', Twin s NoBits t t' → Twin s NoBits (f t) (f t')) :
    Paired (Twin s NoBits) (do s.checkDst; let t ← s.writeBits bits; return f t)
      (do State.checkDst { s with mem := m }; let t ← State.writeBits { s with mem := m } bits; return f t) :=
  Paired.afterRequire fun hreg =>
    (writeBits_paired (lo := s.bwPos.toNat) hreg h.startWriter bits).bind fun t t' ht =>
      .ok (hf t t' ht.mono_noBits)

theorem bwWrite_paired (n : Nat) : Paired (Twin s NoBits) (s.bwWrite n) (State.bwWrite { s with mem := m } n) :=
  checkedWrite_paired h _ fun _ _ ht => ht.update State.setOutToWriter

theorem bwWriteCoded_paired (n : Nat) :
    Paired (Twin s NoBits) (s.bwWriteCoded n) (State.bwWriteCoded { s with mem := m } n) :=
  checkedWrite_paired h _ fun _ _ ht => ht.update State.setOutToWriter

theorem bwAlign_paired : Paired (Twin s NoBits) s.bwAlign (State.bwAlign { s with mem := m }) :=
  checkedWrite_paired h _ fun _ _ ht => ht.update fun t => { t with outLen := BitVec.ofNat 32 (t.bwPos.toNat / 8) }

/-! The commands of two regions but DECOMPRESS (42_huffman.md R195; 43_lz77.md R220; 44_deflate_encode.md R245). -/

theorem huffBuild_paired (i : Instr) (l : Nat) :
    Paired (fun t t' => Twin s (outputBits i t) t t') (s.huffBuild l) (State.huffBuild { s with mem := m } l) := by
  refine Paired.afterRequire fun hreg => Paired.afterRequire fun _ => Paired.afterRequire fun hsrc =>
    Paired.afterRequire fun hdst => ?_
  rw [decide_eq_true_iff] at hsrc hdst
  dsimp only
  rw [frequencyRecords_twin h hsrc]
  refine Paired.afterRequire fun _ => .ok ?_
  exact dstWords_setOutLen_twin h (State.bothRegionsOk_dst hreg)
    (by simp [codeRecords, length_packageMerge, State.frequencyRecords]) hdst

theorem lz77Tokenize_paired (i : Instr) :
    Paired (fun t t' => Twin s (outputBits i t) t t') s.lz77Tokenize (State.lz77Tokenize { s with mem := m }) := by
  refine Paired.afterRequire fun hreg => Paired.afterRequire fun _ => ?_
  dsimp only
  rw [srcBytes_twin h]
  refine Paired.afterRequire fun hdst => .ok ?_
  rw [decide_eq_true_iff] at hdst
  exact dstWords_setOutLen_twin h (State.bothRegionsOk_dst hreg) (by simp) hdst

theorem compress_paired (i : Instr) :
    Paired (fun t t' => Twin s (outputBits i t) t t') s.compress (State.compress { s with mem := m }) := by
  unfold State.compress
  rw [srcBytes_twin h]
  refine Paired.afterRequire fun hok => ?_
  have hreg : s.dstRegionOk = true := State.bothRegionsOk_dst hok
  have hstart : WriterTwin s 0 { s with bwPos := 0#32 } { s with mem := m, bwPos := 0#32 } :=
    (h.update fun t => { t with bwPos := 0#32 }).startWriter
  refine (writeFields_paired hreg _ hstart).bind fun _ _ hfields =>
    (alignWriter_paired hreg hfields).bind fun t t' ht => .ok ?_
  have hout : Twin s (BitsBelow (8 * (t.bwPos.toNat / 8))) t t' :=
    ht.mono fun p hp => ⟨Nat.zero_le p, Nat.lt_of_lt_of_le hp (Nat.mul_div_le _ 8)⟩
  cases ht
  exact hout.setOutLen

theorem execCompress_endedAlike :
    BothNext (EndedAlike .compress s) (execCompress s) (execCompress { s with mem := m }) := by
  refine conclude_endedAlike (compress_paired h _) fun e he =>
    ⟨rfl, rfl, rfl, (nomatch ·), (nomatch ·), fun a ha => ?_⟩
  by_cases hok : s.bothRegionsOk = true
  · exact State.read_drawnMem_outside e (State.bothRegionsOk_dst hok) ha
  · rw [State.compress, State.checkBoth_eq, if_neg hok] at he
    cases he
    rfl

end

end Sys2Proof.Machine
end

section
/-! DECOMPRESS as two runs side by side (45_deflate_decode.md R275, R285): the decoder reads its own output from the
list it keeps, so the two runs take the same symbols. -/

namespace Sys2Proof.Machine

/-! Fetching a symbol. -/

theorem decodeBits_paired {s : State} {W : Nat → Prop} (v : DecodeView) (eof : CmdError) :
    ∀ (fuel len code : Nat) {t t' : State}, Twin s W t t' →
      Paired (SameValue fun _ => Twin s W) (State.decodeBits v eof fuel len code t)
        (State.decodeBits v eof fuel len code t')
  | 0, _, _, _, _, _ => .error .corruptData
  | fuel + 1, len, code, t, t', h => by
    unfold State.decodeBits
    rcases readRange_paired h 1 eof with ⟨e, hx, hy⟩ | ⟨⟨bit, u⟩, ⟨_, u'⟩, hx, hy, rfl, hu⟩
    · rw [hx, hy]
      exact .error e
    rw [hx, hy]
    dsimp only
    cases (if v.minLen ≤ len + 1 then v.lookup (len + 1) (2 * code + bit) else none) with
    | some sym => exact .value hu
    | none =>
      dsimp only
      split
      · exact .error .corruptData
      · exact decodeBits_paired v eof fuel _ _ hu

theorem decodeSymbol_paired {s t t' : State} {W : Nat → Prop} (h : Twin s W t t') (v : DecodeView) (eof : CmdError) :
    Paired (SameValue fun _ => Twin s W) (t.decodeSymbol v eof) (t'.decodeSymbol v eof) := by
  unfold State.decodeSymbol
  split
  · exact .error .corruptData
  · exact decodeBits_paired v eof _ _ _ h

theorem fetchSymbol_paired {s t t' : State} {W : Nat → Prop} (h : Twin s W t t') (d : Decoder) :
    Paired (SameValue fun _ => Twin s W) (t.fetchSymbol d) (t'.fetchSymbol d) := by
  unfold State.fetchSymbol
  cases d.phase with
  | header =>
    exact (readRange_paired h 1 .truncated).bindValue fun _ _ _ h₁ =>
      (readRange_paired h₁ 2 .truncated).bindValue fun _ _ _ h₂ => .value h₂
  | lengths nLit total ct seq => exact decodeSymbol_paired h ct .truncated
  | data lt dt => exact decodeSymbol_paired h lt .truncated
  | distance lt dt length => exact decodeSymbol_paired h dt .truncated

/-! Putting out bytes. -/

/-- Two runs that have put out `out`. -/
structure OutputTwin (s : State) (out : List Byte) (t t' : State) : Prop where
  fits : out.length ≤ s.dstCap.toNat
  twin : Twin s (BitsBelow (8 * out.length)) t t'

theorem put_paired {s t t' : State} {out : List Byte} (hreg : s.dstRegionOk = true) (h : OutputTwin s out t t')
    (b : Byte) : Paired (SameValue (OutputTwin s)) (t.put out b) (t'.put out b) := by
  obtain ⟨hfits, htwin⟩ := h
  rw [State.put, State.put, htwin.operands.dstCap, htwin.operands'.dstCap]
  split
  · exact .error .outOfRange
  · refine .value ⟨?_, ?_⟩
    · rw [List.length_append, List.length_singleton]
      omega
    · rw [List.length_append, List.length_singleton]
      exact htwin.dstByteWrite_next hreg (by omega) b

theorem copyMatch_succ (dist n : Nat) (out : List Byte) (s : State) :
    State.copyMatch dist (n + 1) out s =
      s.put out (out.getD (out.length - dist) 0#8) >>= fun x => State.copyMatch dist n x.1 x.2 := by
  rw [State.copyMatch]
  cases s.put out (out.getD (out.length - dist) 0#8) <;> rfl

theorem copyMatch_paired {s : State} (hreg : s.dstRegionOk = true) (dist : Nat) :
    ∀ (n : Nat) {out : List Byte} {t t' : State}, OutputTwin s out t t' →
      Paired (SameValue (OutputTwin s)) (State.copyMatch dist n out t) (State.copyMatch dist n out t')
  | 0, _, _, _, h => .value h
  | n + 1, out, t, t', h => by
    rw [copyMatch_succ, copyMatch_succ]
    exact (put_paired hreg h _).bindValue fun _ _ _ => copyMatch_paired hreg dist n

theorem copyStored_succ (n : Nat) (out : List Byte) (s : State) :
    State.copyStored (n + 1) out s =
      s.readRange 8 .truncated >>= fun x =>
        x.2.put out (BitVec.ofNat 8 x.1) >>= fun y => State.copyStored n y.1 y.2 := by
  rw [State.copyStored]
  cases s.readRange 8 .truncated with
  | error e => rfl
  | ok x =>
    show _ = x.2.put out (BitVec.ofNat 8 x.1) >>= _
    dsimp only
    cases x.2.put out (BitVec.ofNat 8 x.1) <;> rfl

theorem copyStored_paired {s : State} (hreg : s.dstRegionOk = true) :
    ∀ (n : Nat) {out : List Byte} {t t' : State}, OutputTwin s out t t' →
      Paired (SameValue (OutputTwin s)) (State.copyStored n out t) (State.copyStored n out t')
  | 0, _, _, _, h => .value h
  | n + 1, out, t, t', h => by
    rw [copyStored_succ, copyStored_succ]
    exact (readRange_paired h.twin 8 .truncated).bindValue fun _ _ _ hread =>
      (put_paired hreg ⟨h.fits, hread⟩ _).bindValue fun _ _ _ => copyStored_paired hreg n

theorem readClLengths_cons (sym : Nat) (syms : List Nat) (s : State) :
    State.readClLengths (sym :: syms) s =
      s.readRange 3 .truncated >>= fun x =>
        State.readClLengths syms x.2 >>= fun y => .ok ((sym, x.1) :: y.1, y.2) := by
  rw [State.readClLengths]
  cases s.readRange 3 .truncated with
  | error e => rfl
  | ok x =>
    show _ = State.readClLengths syms x.2 >>= _
    dsimp only
    cases State.readClLengths syms x.2 <;> rfl

theorem readClLengths_paired {s : State} {W : Nat → Prop} : ∀ (syms : List Nat) {t t' : State}, Twin s W t t' →
    Paired (SameValue fun _ => Twin s W) (State.readClLengths syms t) (State.readClLengths syms t')
  | [], _, _, h => .value h
  | sym :: syms, t, t', h => by
    rw [readClLengths_cons, readClLengths_cons]
    exact (readRange_paired h 3 .truncated).bindValue fun _ _ _ hread =>
      (readClLengths_paired syms hread).bindValue fun _ _ _ hrest => .value hrest

/-! One symbol. -/

/-- Two runs of DECOMPRESS between two symbols, or at their end. -/
inductive StreamTwin (s t t' : State) : Prop
  | running (d : Decoder) (work : t.work = some d) (twin : OutputTwin s d.out t t')
  | ended (work : t.work = none) (work' : t'.work = none) (alike : EndedAlike .decompress s t t')

/-- The two runs go on with the decoder in the same state. -/
theorem OutputTwin.running {s t t' : State} {d : Decoder} (h : OutputTwin s d.out t t') :
    StreamTwin s { t with work := some d } { t' with work := some d } :=
  .running d rfl ⟨h.fits, h.twin.update fun t => { t with work := some d }⟩

/-- The end of a block (45_deflate_decode.md R264, R285). -/
theorem OutputTwin.endBlock {s t t' : State} {out : List Byte} (h : OutputTwin s out t t') (final : Bool) :
    StreamTwin s (t.endBlock out final) (t'.endBlock out final) := by
  cases final with
  | false => exact h.running (d := ⟨out, false, .header⟩)
  | true => exact .ended rfl rfl h.twin.setOutLen.endedAlike

/-- A DECOMPRESS that fails in a symbol (60_exceptions.md R326). -/
theorem Twin.decodeFailed {s t t' : State} {W : Nat → Prop} (h : Twin s W t t') (hreg : s.dstRegionOk = true)
    (e : CmdError) : StreamTwin s (t.raiseDecompress e) (t'.raiseDecompress e) := by
  obtain ⟨m', hop, hmem⟩ := h
  refine .ended rfl rfl ⟨rfl, rfl, rfl, (nomatch ·), (nomatch ·), fun a ha => ?_⟩
  calc (t.drawnMem e).read a
    _ = t.mem.read a := State.read_drawnMem_outside e (hop.dstRegionOk.trans hreg) (hop.outsideDst ha)
    _ = s.mem.read a := hmem.outside a ha

theorem settle_bothNext {s t t' : State} {W : Nat → Prop} {r r' : Except CmdError State} (hreg : s.dstRegionOk = true)
    (h : Twin s W t t') (hr : Paired (StreamTwin s) r r') : BothNext (StreamTwin s) (t.settle r) (t'.settle r') := by
  rcases hr with ⟨e, rfl, rfl⟩ | ⟨u, u', rfl, rfl, hu⟩
  · exact .next (h.decodeFailed hreg e)
  · exact .next hu

section
variable {s t t' : State} (hreg : s.dstRegionOk = true)

theorem clAppend_paired {W : Nat → Prop} (h : Twin s W t t') (sym : Nat) (seq : List Nat) :
    Paired (SameValue fun _ => Twin s W) (t.clAppend sym seq) (t'.clAppend sym seq) := by
  unfold State.clAppend
  split
  · exact .value h
  split
  · split
    · exact .error .corruptData
    · exact (readRange_paired h _ .truncated).bindValue fun _ _ _ hu => .value hu
  split
  · exact (readRange_paired h _ .truncated).bindValue fun _ _ _ hu => .value hu
  split
  · exact (readRange_paired h _ .truncated).bindValue fun _ _ _ hu => .value hu
  · exact .error .corruptData

theorem clContinue_paired {d : Decoder} (h : OutputTwin s d.out t t') (nLit total : Nat) (ct : DecodeView)
    (seq : List Nat) :
    Paired (StreamTwin s) (t.clContinue d nLit total ct seq) (t'.clContinue d nLit total ct seq) := by
  unfold State.clContinue
  split
  · exact .error .corruptData
  split
  · exact .ok (OutputTwin.running (d := { d with phase := _ }) h)
  · exact .ok (OutputTwin.running (d := { d with phase := _ }) h)

theorem dynamicBlock_paired {out : List Byte} (h : OutputTwin s out t t') (final : Bool) :
    Paired (StreamTwin s) (t.dynamicBlock out final) (t'.dynamicBlock out final) := by
  refine (readRange_paired h.twin 5 .truncated).bindValue fun hlit _ _ h₁ =>
    (readRange_paired h₁ 5 .truncated).bindValue fun hdist _ _ h₂ =>
      (readRange_paired h₂ 4 .truncated).bindValue fun hclen _ _ h₃ => ?_
  dsimp only
  split
  · exact .error .corruptData
  · exact (readClLengths_paired _ h₃).bindValue fun _ _ _ hu =>
      .ok (OutputTwin.running (d := ⟨out, final, _⟩) ⟨h.fits, hu⟩)

include hreg

theorem storedBlock_paired {out : List Byte} (h : OutputTwin s out t t') (final : Bool) :
    Paired (StreamTwin s) (t.storedBlock out final) (t'.storedBlock out final) := by
  refine (alignReader_paired h.twin .truncated).bind fun _ _ h₁ =>
    (readRange_paired h₁ 16 .truncated).bindValue fun len _ _ h₂ =>
      (readRange_paired h₂ 16 .truncated).bindValue fun nlen _ _ h₃ => ?_
  dsimp only
  split
  · exact .error .corruptData
  · exact (copyStored_paired hreg len ⟨h.fits, h₃⟩).bindValue fun _ _ _ hu => .ok (hu.endBlock final)

theorem blockSymbol_bothNext {out : List Byte} {old : Bool} (hwork : t.work = some ⟨out, old, .header⟩)
    (h : OutputTwin s out t t') (btype : Nat) (final : Bool) :
    BothNext (StreamTwin s) (t.blockSymbol btype final) (t'.blockSymbol btype final) := by
  have hwork' : t'.work = t.work := h.twin.work
  simp only [State.blockSymbol, hwork', hwork]
  refine settle_bothNext hreg h.twin ?_
  split
  · exact storedBlock_paired hreg h final
  split
  · exact .ok (OutputTwin.running (d := ⟨out, final, _⟩) h)
  split
  · exact dynamicBlock_paired h final
  · exact .error .corruptData

theorem clSymbol_bothNext {out : List Byte} {final : Bool} {nLit total : Nat} {ct : DecodeView} {seq : List Nat}
    (hwork : t.work = some ⟨out, final, .lengths nLit total ct seq⟩) (h : OutputTwin s out t t') (sym : Nat) :
    BothNext (StreamTwin s) (t.clSymbol sym) (t'.clSymbol sym) := by
  have hwork' : t'.work = t.work := h.twin.work
  simp only [State.clSymbol, hwork', hwork]
  exact settle_bothNext hreg h.twin <| (clAppend_paired h.twin sym seq).bindValue fun seq' _ _ hu =>
    clContinue_paired (d := ⟨out, final, .lengths nLit total ct seq⟩) ⟨h.fits, hu⟩ nLit total ct seq'

theorem llSymbol_bothNext {out : List Byte} {final : Bool} {lt dt : DecodeView}
    (hwork : t.work = some ⟨out, final, .data lt dt⟩) (h : OutputTwin s out t t') (sym : Nat) :
    BothNext (StreamTwin s) (t.llSymbol sym) (t'.llSymbol sym) := by
  have hwork' : t'.work = t.work := h.twin.work
  simp only [State.llSymbol, hwork', hwork]
  refine settle_bothNext hreg h.twin ?_
  split
  · exact (put_paired hreg h _).bindValue fun out' _ _ hu => .ok (OutputTwin.running (d := ⟨out', final, _⟩) hu)
  split
  · exact .ok (h.endBlock final)
  split
  · exact (readRange_paired h.twin _ .truncated).bindValue fun _ _ _ hu =>
      .ok (OutputTwin.running (d := ⟨out, final, _⟩) ⟨h.fits, hu⟩)
  · exact .error .corruptData

theorem distSymbol_bothNext {out : List Byte} {final : Bool} {lt dt : DecodeView} {length : Nat}
    (hwork : t.work = some ⟨out, final, .distance lt dt length⟩) (h : OutputTwin s out t t') (g : Nat) :
    BothNext (StreamTwin s) (t.distSymbol g) (t'.distSymbol g) := by
  have hwork' : t'.work = t.work := h.twin.work
  simp only [State.distSymbol, hwork', hwork]
  refine settle_bothNext hreg h.twin ?_
  split
  · exact .error .corruptData
  refine (readRange_paired h.twin _ .truncated).bindValue fun x _ _ hread => ?_
  dsimp only
  split
  · exact .error .corruptData
  · exact (copyMatch_paired hreg _ length ⟨h.fits, hread⟩).bindValue fun out' _ _ hu =>
      .ok (OutputTwin.running (d := ⟨out', final, _⟩) hu)

theorem runSymbol_bothNext {d : Decoder} (hwork : t.work = some d) (h : OutputTwin s d.out t t') (sym : Nat) :
    BothNext (StreamTwin s) (t.runSymbol d.phase sym) (t'.runSymbol d.phase sym) := by
  obtain ⟨out, final, phase⟩ := d
  cases phase with
  | header => exact blockSymbol_bothNext hreg hwork h _ _
  | lengths nLit total ct seq => exact clSymbol_bothNext hreg hwork h sym
  | data lt dt => exact llSymbol_bothNext hreg hwork h sym
  | distance lt dt length => exact distSymbol_bothNext hreg hwork h sym

end

/-! The whole stream. -/

theorem fetchSymbol_work {s t : State} {d : Decoder} {sym : Nat} (hb : s.srcRegionOk = true)
    (h : s.fetchSymbol d = .ok (sym, t)) : t.work = s.work := by
  obtain ⟨hmove, -⟩ := fetchSymbol_move hb h
  rw [hmove.frame]

theorem streamStep_bothNext {s t t' : State} {d : Decoder} (hok : s.bothRegionsOk = true) (hwork : t.work = some d)
    (h : OutputTwin s d.out t t') : BothNext (StreamTwin s) t.streamStep t'.streamStep := by
  have hreg : s.dstRegionOk = true := State.bothRegionsOk_dst hok
  have hsrc : t.srcRegionOk = true := h.twin.operands.srcRegionOk.trans (State.bothRegionsOk_src hok)
  have hwork' : t'.work = t.work := h.twin.work
  simp only [State.streamStep, hwork', hwork]
  rcases fetchSymbol_paired h.twin d with ⟨e, hx, hy⟩ | ⟨⟨sym, u⟩, ⟨_, u'⟩, hx, hy, rfl, hu⟩
  · rw [hx, hy]
    exact .next (h.twin.decodeFailed hreg e)
  · rw [hx, hy]
    exact runSymbol_bothNext hreg ((fetchSymbol_work hsrc hx).trans hwork) ⟨h.fits, hu⟩ sym

theorem runStream_succ_eq_next {fuel : Nat} {s t : State} (h : State.runStream (fuel + 1) s = .next t) :
    ∃ u, s.streamStep = .next u ∧ (if u.work.isNone then .next u else State.runStream fuel u) = Host.Outcome.next t := by
  cases hs : s.streamStep with
  | next u => exact ⟨u, rfl, (runStream_succ fuel hs).symm.trans h⟩
  | fault f => simp [State.runStream, hs] at h
  | refused r => simp [State.runStream, hs] at h

theorem runStream_endedAlike {s : State} (hok : s.bothRegionsOk = true) : ∀ (fuel : Nat) {t t' : State} {d : Decoder},
    t.work = some d → OutputTwin s d.out t t' →
    BothNext (EndedAlike .decompress s) (State.runStream fuel t) (State.runStream fuel t')
  | 0, _, _, _, _, _ => fun _ _ h => nomatch h
  | fuel + 1, t, t', d, hwork, h => by
    intro v v' hv hv'
    obtain ⟨u, hu, hrest⟩ := runStream_succ_eq_next hv
    obtain ⟨u', hu', hrest'⟩ := runStream_succ_eq_next hv'
    cases streamStep_bothNext hok hwork h u u' hu hu' with
    | running d' hwork₁ h₁ =>
      have hwork₂ : u'.work = some d' := h₁.twin.work.trans hwork₁
      rw [hwork₁] at hrest
      rw [hwork₂] at hrest'
      exact runStream_endedAlike hok fuel hwork₁ h₁ v v' hrest hrest'
    | ended hnone hnone' halike =>
      rw [hnone] at hrest
      rw [hnone'] at hrest'
      cases hrest
      cases hrest'
      exact halike

theorem execDecompress_endedAlike {s : State} {m : Memory} (h : Twin s NoBits s { s with mem := m }) :
    BothNext (EndedAlike .decompress s) (execDecompress s) (execDecompress { s with mem := m }) := by
  have hcheck : State.checkBoth { s with mem := m } = s.checkBoth := rfl
  rw [execDecompress, execDecompress, hcheck, State.checkBoth_eq]
  by_cases hok : s.bothRegionsOk = true
  · have hbegin : OutputTwin s [] s.beginDecode (State.beginDecode { s with mem := m }) :=
      ⟨Nat.zero_le _, (h.update State.beginDecode).startOutput⟩
    rw [if_pos hok]
    exact runStream_endedAlike hok s.streamFuel rfl hbegin
  · rw [if_neg hok]
    exact .next ⟨rfl, rfl, rfl, (nomatch ·), (nomatch ·), fun _ _ => rfl⟩

/-! Every command. -/

theorem execSoftReset_endedAlike (s : State) (m : Memory) :
    BothNext (EndedAlike .softReset s) (execSoftReset s) (execSoftReset { s with mem := m }) :=
  .next ⟨rfl, rfl, rfl, fun _ => ⟨rfl, rfl⟩, fun _ => (nomatch ·), fun _ _ => rfl⟩

theorem exec_command_endedAlike {i : Instr} (hi : i.IsCommand) {s : State} {m : Memory}
    (h : Twin s NoBits s { s with mem := m }) : BothNext (EndedAlike i s) (exec i s) (exec i { s with mem := m }) := by
  cases hi with
  | nop =>
    exact conclude_raise_endedAlike_of_oneRegion (.inl rfl) (m := m)
      (.ok (h.update fun t => { t with outLen := 0#32 }))
  | softReset => exact execSoftReset_endedAlike s m
  | bwWrite n => exact conclude_raise_endedAlike_of_oneRegion (.inl rfl) (bwWrite_paired h _)
  | bwWriteCoded n => exact conclude_raise_endedAlike_of_oneRegion (.inl rfl) (bwWriteCoded_paired h _)
  | bwAlign => exact conclude_raise_endedAlike_of_oneRegion (.inl rfl) (bwAlign_paired h)
  | brReadBit => exact conclude_raise_endedAlike_of_oneRegion (.inr rfl) (brRead_paired h _)
  | brRead n => exact conclude_raise_endedAlike_of_oneRegion (.inr rfl) (brRead_paired h _)
  | brReadCoded n => exact conclude_raise_endedAlike_of_oneRegion (.inr rfl) (brReadCoded_paired h _)
  | brAlign => exact conclude_raise_endedAlike_of_oneRegion (.inr rfl) (brAlign_paired h)
  | crc32 => exact conclude_raise_endedAlike_of_oneRegion (.inr rfl) (crc32Command_paired h)
  | huffBuild l => exact conclude_raise_endedAlike (huffBuild_paired h _ _)
  | lz77Tokenize => exact conclude_raise_endedAlike (lz77Tokenize_paired h _)
  | compress => exact execCompress_endedAlike h
  | decompress => exact execDecompress_endedAlike h
  | illegalCommand w => exact conclude_raise_endedAlike_of_oneRegion (.inl rfl) (.error .illegalCommand)

/-- Settles O47: the two runs end alike. -/
theorem commandsReadOnlyTheirSource : Obligations.CommandsReadOnlyTheirSource := by
  intro w s t t' m _ _ hsrc ht ht'
  have halike : EndedAlike (decodeCommand w) s t t' :=
    exec_command_endedAlike (decodeCommand_isCommand w) (.start hsrc) t t' ht ht'
  exact ⟨halike.errcode, halike.outLen, halike.result, halike.cursors, halike.output⟩

/-! The commands that use no destination region leave M as it was. -/

theorem brRead_mem {s t : State} {n : Nat} (h : s.brRead n = .ok t) : t.mem = s.mem := by
  obtain ⟨_, -, h⟩ := except_bind_eq_ok.1 h
  obtain ⟨⟨v, u⟩, hr, h⟩ := except_bind_eq_ok.1 h
  obtain ⟨-, rfl, -⟩ := readRange_frame hr
  cases h
  rfl

theorem readRangeCoded_mem {s t : State} {n v : Nat} {eof : CmdError} (h : s.readRangeCoded n eof = .ok (v, t)) :
    t.mem = s.mem := by
  rcases Nat.lt_or_ge s.srcBits (s.brPos.toNat + n) with hn | hn
  · rw [readRangeCoded_error hn] at h
    cases h
  · rw [readRangeCoded_ok hn] at h
    cases h
    rfl

theorem brReadCoded_mem {s t : State} {n : Nat} (h : s.brReadCoded n = .ok t) : t.mem = s.mem := by
  obtain ⟨_, -, h⟩ := except_bind_eq_ok.1 h
  obtain ⟨⟨v, u⟩, hr, h⟩ := except_bind_eq_ok.1 h
  have hmem : u.mem = s.mem := readRangeCoded_mem hr
  cases h
  exact hmem

theorem alignReader_mem {s t : State} {eof : CmdError} (h : s.alignReader eof = .ok t) : t.mem = s.mem := by
  dsimp only [State.alignReader] at h
  split at h <;> cases h
  rfl

theorem brAlign_mem {s t : State} (h : s.brAlign = .ok t) : t.mem = s.mem := by
  obtain ⟨_, -, h⟩ := except_bind_eq_ok.1 h
  obtain ⟨u, hr, h⟩ := except_bind_eq_ok.1 h
  have hmem : u.mem = s.mem := alignReader_mem hr
  cases h
  exact hmem

theorem crc32Command_mem {s t : State} (h : s.crc32Command = .ok t) : t.mem = s.mem := by
  obtain ⟨_, -, h⟩ := except_bind_eq_ok.1 h
  cases h
  rfl

theorem conclude_raise_mem {s t : State} {r : Except CmdError State} (hok : ∀ u, r = .ok u → u.mem = s.mem)
    (h : s.conclude State.raise r = .next t) : t.mem = s.mem := by
  obtain ⟨_, ht, hcases⟩ := State.conclude_next s State.raise r
  rw [h] at ht
  cases ht
  rcases hcases with ⟨u, hu, rfl⟩ | ⟨e, -, rfl⟩
  · exact hok u hu
  · rfl

theorem exec_command_mem {i : Instr} (hi : i.IsCommand) (hdst : usesDst i = false) {s t : State}
    (h : exec i s = .next t) : t.mem = s.mem := by
  cases hi with
  | bwWrite _ | bwWriteCoded _ | bwAlign | huffBuild _ | lz77Tokenize | compress | decompress => cases hdst
  | nop | softReset | illegalCommand _ =>
    cases h
    rfl
  | brReadBit => exact conclude_raise_mem (fun _ => brRead_mem) h
  | brRead n => exact conclude_raise_mem (fun _ => brRead_mem) h
  | brReadCoded n => exact conclude_raise_mem (fun _ => brReadCoded_mem) h
  | brAlign => exact conclude_raise_mem (fun _ => brAlign_mem) h
  | crc32 => exact conclude_raise_mem (fun _ => crc32Command_mem) h

/-- Settles O46: a run is compared with itself. -/
theorem commandsWriteOnlyTheirDestination : Obligations.CommandsWriteOnlyTheirDestination := by
  intro w s t ht
  have hcommand : (decodeCommand w).IsCommand := decodeCommand_isCommand w
  have halike : EndedAlike (decodeCommand w) s t t :=
    exec_command_endedAlike hcommand (m := s.mem) (.start fun _ _ => rfl) t t ht ht
  exact ⟨halike.outside, fun hdst => exec_command_mem hcommand hdst ht⟩

end Sys2Proof.Machine
end

section
/-! The encoding of the selectors (30_encoding.md): decoding and encoding are inverse on every selector space (O1, O2,
O4), and R93 rejects exactly the words that are no command's (O3). A legal word is split into its fields once, by
`legalCommandWord_encodes`; what the decoder says of it then follows from the round trip of O1. -/

namespace Sys2Proof

/-- Settles O1: the rows of spec/opcode_table.json one by one; the rows without an operand are fixed selectors. -/
theorem decodeEncodeRoundTrip : Obligations.DecodeEncodeRoundTrip := by
  intro i
  cases i with
  | bwWrite n => exact Laws.RoundTrip.bwWrite n
  | bwWriteCoded n => exact Laws.RoundTrip.bwWriteCoded n
  | brRead n => exact Laws.RoundTrip.brRead n
  | brReadCoded n => exact Laws.RoundTrip.brReadCoded n
  | huffBuild l => exact Laws.RoundTrip.huffBuild l
  | illegalCommand w => exact Laws.RoundTrip.illegalCommand w
  | blockStored final => exact Laws.RoundTrip.blockStored final
  | blockFixed final => exact Laws.RoundTrip.blockFixed final
  | blockDynamic final => exact Laws.RoundTrip.blockDynamic final
  | blockReserved final => exact Laws.RoundTrip.blockReserved final
  | llLiteral b => exact Laws.RoundTrip.llLiteral b
  | _ => exact fun _ => rfl

/-! Command words. -/

/-- A word whose reserved bits are 0 is made of its three fields (R90, R116). -/
theorem commandWord_fields {w : Word} (h : reservedClear w = true) :
    commandWord (opField w) (nField w) (lField w) = w := by
  rw [reservedClear_eq, Bool.and_eq_true, beq_iff_eq, beq_iff_eq] at h
  have hw := w.isLt
  apply BitVec.eq_of_toNat_eq
  rw [commandWord, BitVec.toNat_ofNat, opField_eq, nField_toNat, lField_toNat]
  omega

/-- What R93 asks of a legal word, field by field. -/
theorem legalCommandWord_fields {w : Word} (h : legalCommandWord w = true) :
    reservedClear w = true ∧
      (opField w ∈ [0x00, 0x01, 0x12, 0x18, 0x1B, 0x20, 0x40, 0x50, 0x60] ∧ nField w = 0 ∧ lField w = 0 ∨
        opField w ∈ [0x10, 0x19] ∧ (nField w).toNat ≤ 16 ∧ lField w = 0 ∨
        opField w ∈ [0x11, 0x1A] ∧ (nField w).toNat ≤ 15 ∧ lField w = 0 ∨
        opField w = 0x30 ∧ nField w = 0 ∧ 1 ≤ (lField w).toNat) := by
  have hn : nField w = 0 ↔ _ := nField_eq_zero w
  have hl : lField w = 0 ↔ _ := lField_eq_zero w
  rw [hn, hl, nField_toNat, lField_toNat, opField_eq, reservedClear_eq]
  simpa [legalCommandWord, and_assoc, or_assoc] using h

/-- Every legal word is the encoding of a command (R92, R93). -/
theorem legalCommandWord_encodes {w : Word} (h : legalCommandWord w = true) :
    ∃ i : Instr, i.wellFormed = true ∧ i ≠ .illegalCommand w ∧ encode i = .command w := by
  obtain ⟨hreserved, hfields⟩ := legalCommandWord_fields h
  have hw := commandWord_fields hreserved
  generalize opField w = op at hw hfields
  generalize nField w = n at hw hfields
  generalize lField w = l at hw hfields
  subst hw
  simp only [List.mem_cons, List.not_mem_nil, or_false] at hfields
  rcases hfields with ⟨hop, rfl, rfl⟩ | ⟨hop, hn, rfl⟩ | ⟨hop, hn, rfl⟩ | ⟨rfl, rfl, hl⟩
  · rcases hop with rfl | rfl | rfl | rfl | rfl | rfl | rfl | rfl | rfl
    · exact ⟨.nop, rfl, nofun, rfl⟩
    · exact ⟨.softReset, rfl, nofun, rfl⟩
    · exact ⟨.bwAlign, rfl, nofun, rfl⟩
    · exact ⟨.brReadBit, rfl, nofun, rfl⟩
    · exact ⟨.brAlign, rfl, nofun, rfl⟩
    · exact ⟨.crc32, rfl, nofun, rfl⟩
    · exact ⟨.lz77Tokenize, rfl, nofun, rfl⟩
    · exact ⟨.compress, rfl, nofun, rfl⟩
    · exact ⟨.decompress, rfl, nofun, rfl⟩
  · rcases hop with rfl | rfl
    · exact ⟨.bwWrite n, decide_eq_true hn, nofun, rfl⟩
    · exact ⟨.brRead n, decide_eq_true hn, nofun, rfl⟩
  · rcases hop with rfl | rfl
    · exact ⟨.bwWriteCoded n, decide_eq_true hn, nofun, rfl⟩
    · exact ⟨.brReadCoded n, decide_eq_true hn, nofun, rfl⟩
  · exact ⟨.huffBuild l, decide_eq_true hl, nofun, rfl⟩

/-- A legal word decodes to a command, and the command's encoding is the word (R93, R116). -/
theorem decodeCommand_legal {w : Word} (h : legalCommandWord w = true) :
    (decodeCommand w).wellFormed = true ∧ decodeCommand w ≠ .illegalCommand w ∧
      encode (decodeCommand w) = .command w := by
  obtain ⟨i, hwf, hne, hencode⟩ := legalCommandWord_encodes h
  have hdecode : decode (.command w) = .ok i := hencode ▸ decodeEncodeRoundTrip i hwf
  have hi : decodeCommand w = i := Except.ok.inj hdecode
  rw [hi]
  exact ⟨hwf, hne, hencode⟩

/-- Settles O3: an illegal word is `decodeCommand_illegal`, a legal one the encoding of its command. -/
theorem decodeRaisesExactlyOnIllegalWords : Obligations.DecodeRaisesExactlyOnIllegalWords := by
  intro w s
  refine ⟨fun hillegal => ?_, fun hlegal => (decodeCommand_legal hlegal).2⟩
  rw [decodeCommand_illegal hillegal]
  exact ⟨rfl, rfl⟩

/-! The five selector spaces. -/

/-- A selector says what instruction `i` is: `i` is well-formed and encodes to it. -/
def Selector.ReadsAs (x : Selector) (i : Instr) : Prop := i.wellFormed = true ∧ encode i = x

theorem command_readsAs (w : Word) : (Selector.command w).ReadsAs (decodeCommand w) := by
  cases h : legalCommandWord w with
  | true =>
    obtain ⟨hwf, -, hencode⟩ := decodeCommand_legal h
    exact ⟨hwf, hencode⟩
  | false =>
    rw [decodeCommand_illegal h]
    exact ⟨by simp [Instr.wellFormed, h], rfl⟩

theorem blockHeader_readsAs : ∀ h : BitVec 3, (Selector.blockHeader h).ReadsAs (decodeBlockHeader h) := by
  unfold Selector.ReadsAs
  decide

theorem clSymbol_readsAs : ∀ (c : BitVec 5), ∀ i ∈ clInstrs[c.toNat]?, (Selector.clSymbol c).ReadsAs i := by
  unfold Selector.ReadsAs
  decide

theorem distSymbol_readsAs :
    ∀ c : BitVec 5, (Selector.distSymbol c).ReadsAs (distInstrs.getD c.toNat .distReserved31) := by
  unfold Selector.ReadsAs
  decide

/-- The rows of R108 and the two reserved symbols stand at their numbers. -/
theorem lengthInstrs_readsAs :
    ∀ k < 31, ∀ i ∈ lengthInstrs[k]?, (Selector.llSymbol (BitVec.ofNat 9 (257 + k))).ReadsAs i := by
  unfold Selector.ReadsAs
  decide

theorem literal_readsAs {c : BitVec 9} (h : c.toNat ≤ 255) :
    (Selector.llSymbol c).ReadsAs (.llLiteral (c.setWidth 8)) := by
  refine ⟨rfl, congrArg Selector.llSymbol (BitVec.eq_of_toNat_eq ?_)⟩
  rw [BitVec.toNat_setWidth, BitVec.toNat_setWidth]
  omega

theorem llSymbol_readsAs {c : BitVec 9} {i : Instr} (h : decodeLl c = .ok i) : (Selector.llSymbol c).ReadsAs i := by
  unfold decodeLl at h
  split at h
  next hliteral =>
    cases h
    exact literal_readsAs hliteral
  next hge =>
    split at h
    next heob =>
      cases h
      exact ⟨rfl, congrArg Selector.llSymbol (BitVec.eq_of_toNat_eq heob.symm)⟩
    next hne =>
      split at h
      next j hj =>
        cases h
        obtain ⟨hk, -⟩ := List.getElem?_eq_some_iff.1 hj
        have hc : BitVec.ofNat 9 (257 + (c.toNat - 257)) = c := by
          rw [Nat.add_sub_cancel' (by omega), BitVec.ofNat_toNat, BitVec.setWidth_eq]
        exact hc ▸ lengthInstrs_readsAs _ hk i hj
      next => cases h

/-- Settles O2: one fact for each space. -/
theorem encodeDecodeRoundTrip : Obligations.EncodeDecodeRoundTrip := by
  intro x i h
  cases x with
  | command w =>
    cases h
    exact command_readsAs w
  | blockHeader b =>
    cases h
    exact blockHeader_readsAs b
  | clSymbol c =>
    simp only [decode] at h
    split at h
    next j hj =>
      cases h
      exact clSymbol_readsAs c i hj
    next => cases h
  | llSymbol c => exact llSymbol_readsAs h
  | distSymbol c =>
    cases h
    exact distSymbol_readsAs c

/-- Settles O4: each word is decoded by evaluation. -/
theorem sampleSelectorsDecode : Obligations.SampleSelectorsDecode :=
  ⟨rfl, rfl, rfl, rfl, rfl, rfl, rfl, rfl, rfl, rfl, rfl, rfl, rfl, rfl⟩

end Sys2Proof
end

section
/-! The records of R97 (O36), and the symbols of R111 for lengths and distances (O38): the symbol of a value is the
greatest whose base is not above it, and its range reaches to the next base. -/

namespace Sys2Proof.Machine

/-! Token records. -/

theorem literal_record_toNat (b : Byte) : (Token.literal b).record.toNat = b.toNat :=
  BitVec.toNat_setWidth_of_le (by decide)

/-- The fields of a match's record do not reach into each other (R97). -/
theorem copy_record_toNat {l d : Nat} (hl : l ≤ 258) (hd : d ≤ 32768) :
    (Token.copy l d).record.toNat = 2147483648 + (d - 1) * 256 + (l - 3) := by
  rw [Token.record, BitVec.toNat_ofNat]
  omega

/-- Settles O36: each field is read off the record's value. -/
theorem tokenRecordFields : Obligations.TokenRecordFields := by
  refine ⟨literal_record_toNat, fun l d hl hl' hd hd' => ?_⟩
  have hrecord := copy_record_toNat hl' hd'
  refine ⟨?_, ?_, ?_, ?_⟩
  · rw [BitVec.getLsbD, hrecord, Nat.testBit_eq_decide_div_mod_eq, decide_eq_true_iff]
    omega
  all_goals
    rw [BitVec.extractLsb'_toNat, hrecord, Nat.shiftRight_eq_div_pow]
    omega

/-! Length and distance codes. -/

/-- The last of the numbers up to `n` that satisfy `P` is the greatest of them. -/
theorem getLastD_filter_range {P : Nat → Prop} [DecidablePred P] (h0 : P 0) : ∀ {n c : Nat},
    ((List.range (n + 1)).filter (fun d => decide (P d))).getLastD 0 = c →
      c ≤ n ∧ P c ∧ ∀ d, c < d → d ≤ n → ¬ P d
  | 0, c, hc => by
    have hzero : 0 = c := by simpa [h0] using hc
    subst hzero
    exact ⟨Nat.le_refl 0, h0, fun d hlt hle => absurd hlt (Nat.not_lt.2 hle)⟩
  | n + 1, c, hc => by
    rw [List.range_succ, List.filter_append] at hc
    by_cases h : P (n + 1)
    · have hlast : n + 1 = c := by simpa [h] using hc
      subst hlast
      exact ⟨Nat.le_refl _, h, fun d hlt hle => absurd hlt (Nat.not_lt.2 hle)⟩
    · obtain ⟨hle, hPc, hgreatest⟩ := getLastD_filter_range h0 (by simpa [h] using hc)
      refine ⟨Nat.le_succ_of_le hle, hPc, fun d hlt hd => ?_⟩
      rcases Nat.lt_or_eq_of_le hd with hd | rfl
      · exact hgreatest d hlt (Nat.le_of_lt_succ hd)
      · exact h

/-- The symbol R111 picks for `x`: the greatest one up to `n` whose base is not above `x`. -/
def greatestBase (base : Nat → Nat) (n x : Nat) : Nat :=
  ((List.range (n + 1)).filter (fun c => decide (base c ≤ x))).getLastD 0

theorem lenCode_eq {len : Nat} (h : len ≠ 258) : lenCode len = greatestBase lengthBase 27 len := if_neg h

theorem distCode_eq (dist : Nat) : distCode dist = greatestBase distBase 29 dist := rfl

/-- The symbol picked for `x` holds `x`, where the ranges of the symbols leave no gap and the last one reaches
past `x`. -/
theorem greatestBase_holds {base extra : Nat → Nat} {n x c : Nat} (hc : greatestBase base n x = c)
    (hfirst : base 0 ≤ x) (hgap : ∀ c < n, base (c + 1) ≤ base c + 2 ^ extra c)
    (hlast : x < base n + 2 ^ extra n) : c ≤ n ∧ base c ≤ x ∧ x < base c + 2 ^ extra c := by
  obtain ⟨hle, hbase, hgreatest⟩ := getLastD_filter_range (P := fun d => base d ≤ x) hfirst hc
  refine ⟨hle, hbase, ?_⟩
  rcases Nat.lt_or_eq_of_le hle with hlt | rfl
  · exact Nat.lt_of_lt_of_le (Nat.lt_of_not_le (hgreatest (c + 1) (Nat.lt_succ_self c) hlt)) (hgap c hlt)
  · exact hlast

/-- R108's ranges below symbol 285 leave no gap. -/
theorem lengthBase_gap : ∀ c < 27, lengthBase (c + 1) ≤ lengthBase c + 2 ^ lengthExtra c := by decide

/-- R109's ranges leave no gap. -/
theorem distBase_gap : ∀ d < 29, distBase (d + 1) ≤ distBase d + 2 ^ distExtra d := by decide

/-- Settles O38: 258 is symbol 285 by R111's own case, every other value by `greatestBase_holds`. -/
theorem lengthAndDistanceCodesHoldTheirValue : Obligations.LengthAndDistanceCodesHoldTheirValue := by
  constructor
  · intro len hge hle
    by_cases h258 : len = 258
    · subst h258
      decide
    · obtain ⟨hcode, hbase, hrest⟩ := greatestBase_holds (lenCode_eq h258).symm hge lengthBase_gap
        (show len < 227 + 32 by omega)
      exact ⟨by omega, hbase, by omega, by omega⟩
  · intro dist hge hle
    obtain ⟨hcode, hbase, hrest⟩ := greatestBase_holds (distCode_eq dist).symm hge distBase_gap
      (show dist < 24577 + 8192 by omega)
    exact ⟨hcode, hbase, by omega⟩

end Sys2Proof.Machine
end

section
/-! What the stream symbols do in the FSM state that reads them (45_deflate_decode.md R273 to R281): the code-length
symbols (O54, O55), the literal/length symbols (O56, O57) and the distance symbols (O58). Each kind of symbol has one
equation for each branch of its rule; extra bits are read by `readRange_advance`, and a copy by `copyMatch_fits`. -/

namespace Sys2Proof.Machine

/-! What the symbols share. -/

/-- An instruction of the stream runs as the symbol it encodes to. -/
theorem exec_of_encode {i : Instr} {x : Selector} (h : encode i = x) (hstream : ∀ w, x ≠ .command w) (s : State) :
    exec i s = s.runSelector x := by
  subst h
  exact exec_eq_runSelector i s hstream

theorem settle_ok (s t : State) : s.settle (.ok t) = .next t := rfl

theorem settle_error (s : State) (e : CmdError) : s.settle (.error e) = .next (s.decodeFailed e) := rfl

/-- The reader `n` bits on (40_bitstream.md R147). -/
def State.advance (s : State) (n : Nat) : State := { s with brPos := BitVec.ofNat 32 (s.brPos.toNat + n) }

/-- The value of the next `n` source bits (40_bitstream.md R147). -/
def State.nextBits (s : State) (n : Nat) : Nat := natOfLsb (s.srcBitList s.brPos.toNat n)

theorem readRange_advance {s : State} {n : Nat} {eof : CmdError} (h : s.brPos.toNat + n ≤ s.srcBits) :
    s.readRange n eof = .ok (s.nextBits n, s.advance n) := by
  rw [readRange_ok h, State.nextBits, State.advance, BitVec.ofNat_add, BitVec.ofNat_toNat, BitVec.setWidth_eq]

/-! The code-length symbols. -/

/-- The rule of a code-length symbol: what it appends, then where the sequence stands (R273). -/
theorem clSymbol_eq {s : State} {out : List Byte} {final : Bool} {nLit total : Nat} {ct : DecodeView} {seq : List Nat}
    (hwork : s.work = some ⟨out, final, .lengths nLit total ct seq⟩) (sym : Nat) :
    s.clSymbol sym = s.settle (s.clAppend sym seq >>= fun x =>
      x.2.clContinue ⟨out, final, .lengths nLit total ct seq⟩ nLit total ct x.1) := by
  simp only [State.clSymbol, hwork]

theorem clAppend_value (s : State) {sym : Nat} (h : sym ≤ 15) (seq : List Nat) :
    s.clAppend sym seq = .ok (seq ++ [sym], s) := if_pos h

section
variable (s : State) (out : List Byte) (final : Bool) (p : Phase) (nLit : Nat) {total : Nat} (ct : DecodeView)
  {seq : List Nat}

theorem clContinue_overrun (h : total < seq.length) :
    s.clContinue ⟨out, final, p⟩ nLit total ct seq = .error .corruptData := if_pos h

theorem clContinue_complete (h : seq.length = total) :
    s.clContinue ⟨out, final, p⟩ nLit total ct seq =
      .ok (s.decoding out final (.data (decodeView (seq.take nLit)) (decodeView (seq.drop nLit)))) := by
  rw [State.clContinue, if_neg (by omega), if_pos h]
  rfl

theorem clContinue_below (h : seq.length < total) :
    s.clContinue ⟨out, final, p⟩ nLit total ct seq = .ok (s.decoding out final (.lengths nLit total ct seq)) := by
  rw [State.clContinue, if_neg (by omega), if_neg (by omega)]
  rfl

end

/-- Settles O54: the sequence grows by one, and is below its total or at it. -/
theorem clLengthSymbolsAppendOneLength : Obligations.ClLengthSymbolsAppendOneLength := by
  intro i sym s out final nLit total ct seq hencode hsym hwork
  have hexec : exec i s = s.settle
      (s.clContinue ⟨out, final, .lengths nLit total ct seq⟩ nLit total ct (seq ++ [sym.toNat])) := by
    rw [exec_of_encode hencode nofun, State.runSelector, clSymbol_eq hwork, clAppend_value s hsym]
    rfl
  rw [hexec]
  have hlength : (seq ++ [sym.toNat]).length = seq.length + 1 := List.length_append
  refine ⟨fun hbelow => ?_, fun hcomplete => ?_⟩
  · rw [clContinue_below _ _ _ _ _ _ (hlength ▸ hbelow), settle_ok]
  · rw [clContinue_complete _ _ _ _ _ _ (hlength ▸ hcomplete), settle_ok]

/-- What a symbol that repeats appends: as many copies of `v` as `base` and the extra bits say (R273, R274). -/
def State.appendRun (s : State) (width base v : Nat) (seq : List Nat) : Except CmdError (List Nat × State) :=
  s.readRange width .truncated >>= fun x => .ok (seq ++ List.replicate (base + x.1) v, x.2)

theorem clAppend_sixteen_nil (s : State) : s.clAppend 16 [] = .error .corruptData := rfl

theorem clAppend_sixteen (s : State) {seq : List Nat} (h : seq ≠ []) :
    s.clAppend 16 seq = s.appendRun 2 3 (seq.getLastD 0) seq := by
  obtain ⟨v, hv⟩ := Option.ne_none_iff_exists'.1 (mt List.getLast?_eq_none_iff.1 h)
  rw [List.getLastD_eq_getLast?, hv]
  simp only [State.clAppend, hv]
  rfl

theorem clAppend_seventeen (s : State) (seq : List Nat) : s.clAppend 17 seq = s.appendRun 3 3 0 seq := rfl

theorem clAppend_eighteen (s : State) (seq : List Nat) : s.clAppend 18 seq = s.appendRun 7 11 0 seq := rfl

/-- The three rows of R105 that repeat: CL_16 the last length, if there is one, CL_17 and CL_18 the length 0. -/
theorem repeatSymbol_clAppend {i : Instr} {width base : Nat}
    (h : (i, width, base) ∈ [(Instr.cl16, 2, 3), (Instr.cl17, 3, 3), (Instr.cl18, 7, 11)]) :
    ∃ sym, ∀ (s : State) (seq : List Nat), exec i s = s.clSymbol sym ∧
      (i = .cl16 → seq = [] → s.clAppend sym seq = .error .corruptData) ∧
      ((i = .cl16 → seq ≠ []) →
        s.clAppend sym seq = s.appendRun width base (if i = .cl16 then seq.getLastD 0 else 0) seq) := by
  simp only [List.mem_cons, List.not_mem_nil, or_false, Prod.mk.injEq] at h
  rcases h with ⟨rfl, rfl, rfl⟩ | ⟨rfl, rfl, rfl⟩ | ⟨rfl, rfl, rfl⟩
  · exact ⟨16, fun s seq => ⟨rfl, fun _ hseq => hseq ▸ clAppend_sixteen_nil s,
      fun hseq => clAppend_sixteen s (hseq rfl)⟩⟩
  · exact ⟨17, fun s seq => ⟨rfl, nofun, fun _ => clAppend_seventeen s seq⟩⟩
  · exact ⟨18, fun s seq => ⟨rfl, nofun, fun _ => clAppend_eighteen s seq⟩⟩

theorem appendRun_truncated {s : State} {width : Nat} (h : s.srcBits < s.brPos.toNat + width) (base v : Nat)
    (seq : List Nat) : s.appendRun width base v seq = .error .truncated := by
  rw [State.appendRun, readRange_error h]
  rfl

theorem appendRun_ok {s : State} {width : Nat} (h : s.brPos.toNat + width ≤ s.srcBits) (base v : Nat)
    (seq : List Nat) :
    s.appendRun width base v seq = .ok (seq ++ List.replicate (base + s.nextBits width) v, s.advance width) := by
  rw [State.appendRun, readRange_advance h]
  rfl

/-- Settles O55: what the row appends, then where the sequence stands. -/
theorem clRepeatSymbolsAppendRuns : Obligations.ClRepeatSymbolsAppendRuns := by
  intro i width base s out final nLit total ct seq hrow _ hwork p x seq' u
  obtain ⟨sym, hrule⟩ := repeatSymbol_clAppend hrow
  obtain ⟨hexec, hnone, hrun⟩ := hrule s seq
  rw [hexec, clSymbol_eq hwork]
  have hok (hprev : i = .cl16 → seq ≠ []) (hbits : p + width ≤ s.srcBits) : s.clAppend sym seq = .ok (seq', u) :=
    (hrun hprev).trans (appendRun_ok hbits _ _ seq)
  refine ⟨fun hi hseq => ?_, fun hprev hbits => ?_, fun hprev hbits hlength => ?_, fun hprev hbits hlength => ?_,
    fun hprev hbits hlength => ?_⟩
  · rw [hnone hi hseq]
    exact settle_error s _
  · rw [hrun hprev, appendRun_truncated hbits]
    exact settle_error s _
  · rw [hok hprev hbits]
    exact congrArg s.settle (clContinue_overrun u out final _ nLit ct hlength)
  · rw [hok hprev hbits]
    exact congrArg s.settle (clContinue_complete u out final _ nLit ct hlength)
  · rw [hok hprev hbits]
    exact congrArg s.settle (clContinue_below u out final _ nLit ct hlength)

/-! The literal/length symbols. -/

theorem put_full {s : State} {out : List Byte} (h : out.length = s.dstCap.toNat) (b : Byte) :
    s.put out b = .error .outOfRange := if_pos h

theorem put_room {s : State} {out : List Byte} (h : out.length ≠ s.dstCap.toNat) (b : Byte) :
    s.put out b = .ok (out ++ [b], s.dstByteWrite out.length b) := if_neg h

section
variable {s : State} {out : List Byte} {final : Bool} {lt dt : DecodeView}
  (hwork : s.work = some ⟨out, final, .data lt dt⟩)
include hwork

theorem llSymbol_literal (b : Byte) :
    s.llSymbol b.toNat = s.settle (s.put out b >>= fun x => .ok (x.2.decoding x.1 final (.data lt dt))) := by
  have hle : b.toNat ≤ 255 := Nat.le_of_lt_succ b.isLt
  simp only [State.llSymbol, hwork, if_pos hle, BitVec.ofNat_toNat, BitVec.setWidth_eq]
  rfl

theorem llSymbol_endOfBlock : s.llSymbol 256 = .next (s.endBlock out final) := by
  simp only [State.llSymbol, hwork]
  rfl

theorem llSymbol_length {sym c : Nat} (hge : 257 ≤ sym) (hle : sym ≤ 285) (hc : sym - 257 = c) :
    s.llSymbol sym = s.settle (s.readRange (lengthExtra c) .truncated >>= fun x =>
      .ok (x.2.decoding out final (.distance lt dt (lengthBase c + x.1)))) := by
  subst hc
  have hliteral : ¬ sym ≤ 255 := by omega
  have heob : ¬ sym = 256 := by omega
  simp only [State.llSymbol, hwork, if_neg hliteral, if_neg heob, if_pos hle]
  rfl

theorem llSymbol_reserved {sym : Nat} (h : 286 ≤ sym) : s.llSymbol sym = .next (s.decodeFailed .corruptData) := by
  have hliteral : ¬ sym ≤ 255 := by omega
  have heob : ¬ sym = 256 := by omega
  have hlength : ¬ sym ≤ 285 := by omega
  simp only [State.llSymbol, hwork, if_neg hliteral, if_neg heob, if_neg hlength]
  rfl

end

/-- Settles O56: a literal is one put, and the end of the block is that of `endBlock_cases`. -/
theorem literalAndEndOfBlock : Obligations.LiteralAndEndOfBlock := by
  intro s out final lt dt _ hwork
  have hliteral (b : Byte) : exec (.llLiteral b) s = _ := llSymbol_literal hwork b
  have heob : exec .llEob s = _ := llSymbol_endOfBlock hwork
  refine ⟨fun b hroom => ?_, fun b hfull => ?_, ?_, ?_⟩
  · refine ⟨(s.dstByteWrite out.length b).decoding (out ++ [b]) final (.data lt dt), ?_, rfl, ?_, ?_⟩
    · rw [hliteral, put_room hroom]
      rfl
    · exact Memory.read_write_same s.mem (s.dstByteAddr out.length).toNat b
    · exact fun a ha => Memory.read_write_other ha b s.mem
  · rw [hliteral, put_full hfull]
    exact settle_error s _
  · rintro rfl
    exact heob
  · rintro rfl
    exact heob

/-- Settles O57: the branches of R276 above symbol 256. -/
theorem lengthSymbolsStartAMatch : Obligations.LengthSymbolsStartAMatch := by
  intro i sym s out final lt dt hencode _ hwork p c
  rw [exec_of_encode hencode nofun, State.runSelector]
  have hlength (hge : 257 ≤ sym.toNat) (hle : sym.toNat ≤ 285) : s.llSymbol sym.toNat = s.settle _ :=
    llSymbol_length hwork hge hle (c := c) rfl
  clear_value c
  refine ⟨fun hge hle hbits => ?_, fun hge hle hbits => ?_, llSymbol_reserved hwork⟩
  · rw [hlength hge hle, readRange_error hbits]
    exact settle_error s _
  · rw [hlength hge hle, readRange_advance hbits]
    rfl

/-! The distance symbols. -/

/-- `m` is the memory of `s` but for the destination bytes from `k` to the end of `out`, which are those of `out`. -/
structure HoldsOutput (s : State) (k : Nat) (out : List Byte) (m : Memory) : Prop where
  written : ∀ j, k ≤ j → j < out.length → m.read (s.dstByteAddr j).toNat = out.getD j 0#8
  kept : ∀ a, (∀ j, k ≤ j → j < out.length → a ≠ (s.dstByteAddr j).toNat) → m.read a = s.mem.read a

theorem HoldsOutput.refl (s : State) (out : List Byte) : HoldsOutput s out.length out s.mem :=
  ⟨fun _ _ _ => by omega, fun _ _ => rfl⟩

/-- One byte written before the others of the output. -/
theorem HoldsOutput.afterWrite {s : State} {k : Nat} {out : List Byte} {m : Memory} (hreg : s.dstRegionOk = true)
    (hfits : out.length ≤ s.dstCap.toNat) (hk : k < out.length)
    (h : HoldsOutput (s.dstByteWrite k (out.getD k 0#8)) (k + 1) out m) : HoldsOutput s k out m where
  written := by
    intro j hkj hj
    rcases Nat.eq_or_lt_of_le hkj with rfl | hlt
    · rw [h.kept _ fun j' hj' hlen e => by
        have : k = j' := dstByteAddr_inj hreg (by omega) (by omega) e
        omega]
      exact Memory.read_write_same _ _ _
    · exact h.written j hlt hj
  kept := by
    intro a ha
    rw [h.kept a fun j hkj => ha j (by omega)]
    exact Memory.read_write_other (ha k (Nat.le_refl k) hk) _ _

/-- Copying keeps the output there is. -/
theorem prefix_appendCopies (dist : Nat) : ∀ (n : Nat) (out : List Byte), out <+: appendCopies dist n out
  | 0, out => List.prefix_refl out
  | n + 1, out => (List.prefix_append out _).trans (prefix_appendCopies dist n _)

theorem getD_appendCopies_length (dist n : Nat) (out : List Byte) :
    (appendCopies dist (n + 1) out).getD out.length 0#8 = out.getD (out.length - dist) 0#8 := by
  obtain ⟨rest, hrest⟩ := prefix_appendCopies dist n (out ++ [out.getD (out.length - dist) 0#8])
  rw [appendCopies, ← hrest]
  simp

/-- A match that fits: the output is that of the copies, and M holds it (R278, R281). -/
theorem copyMatch_fits (dist : Nat) : ∀ (n : Nat) {s : State} {out : List Byte}, s.dstRegionOk = true →
    out.length + n ≤ s.dstCap.toNat →
    ∃ m, State.copyMatch dist n out s = .ok (appendCopies dist n out, { s with mem := m }) ∧
      HoldsOutput s out.length (appendCopies dist n out) m
  | 0, s, out, _, _ => ⟨s.mem, rfl, .refl s out⟩
  | n + 1, s, out, hreg, hfits => by
    have hlength : (appendCopies dist (n + 1) out).length = out.length + (n + 1) := length_appendCopies dist (n + 1) out
    have hroom : (out ++ [out.getD (out.length - dist) 0#8]).length + n ≤ s.dstCap.toNat := by
      rw [List.length_append, List.length_singleton]
      omega
    obtain ⟨m, hcopy, hm⟩ := copyMatch_fits dist n
      (s := s.dstByteWrite out.length (out.getD (out.length - dist) 0#8)) hreg hroom
    refine ⟨m, ?_, HoldsOutput.afterWrite hreg (by omega) (by omega) ?_⟩
    · rw [copyMatch_succ, put_room (by omega)]
      exact hcopy
    · rw [getD_appendCopies_length]
      rwa [List.length_append, List.length_singleton] at hm

section
variable {s : State} {out : List Byte} {final : Bool} {lt dt : DecodeView} {length : Nat}
  (hwork : s.work = some ⟨out, final, .distance lt dt length⟩)
include hwork

theorem distSymbol_reserved {g : Nat} (h : 30 ≤ g) : s.distSymbol g = .next (s.decodeFailed .corruptData) := by
  simp only [State.distSymbol, hwork, ge_iff_le, if_pos h]
  rfl

theorem distSymbol_truncated {g : Nat} (hg : g ≤ 29) (h : s.srcBits < s.brPos.toNat + distExtra g) :
    s.distSymbol g = .next (s.decodeFailed .truncated) := by
  have hreserved : ¬ 30 ≤ g := by omega
  simp only [State.distSymbol, hwork, ge_iff_le, if_neg hreserved, readRange_error h]
  rfl

/-- The rule of a distance symbol after its extra bits, which give `dist` (R280, R281). -/
theorem distSymbol_eq {g : Nat} (hg : g ≤ 29) (h : s.brPos.toNat + distExtra g ≤ s.srcBits) {dist : Nat}
    (hdist : distBase g + s.nextBits (distExtra g) = dist) :
    s.distSymbol g = s.settle (if dist > out.length then .error .corruptData
      else State.copyMatch dist length out (s.advance (distExtra g)) >>= fun x =>
        .ok (x.2.decoding x.1 final (.data lt dt))) := by
  subst hdist
  have hreserved : ¬ 30 ≤ g := by omega
  simp only [State.distSymbol, hwork, ge_iff_le, if_neg hreserved, readRange_advance h]
  rfl

end

/-- Settles O58: the branches of R278 and R280, and the copy of `copyMatch_fits`. -/
theorem distanceSymbolsCopy : Obligations.DistanceSymbolsCopy := by
  intro i sym s out final lt dt length hencode _ hregions hout hwork p g dist
  rw [exec_of_encode hencode nofun, State.runSelector]
  have heq (hg : g ≤ 29) (hbits : p + distExtra g ≤ s.srcBits) : s.distSymbol g = s.settle _ :=
    distSymbol_eq hwork hg hbits (dist := dist) rfl
  refine ⟨distSymbol_reserved hwork, distSymbol_truncated hwork, fun hg hbits hfar => ?_,
    fun hg hbits hnear hfull => ?_, fun hg hbits hnear hfits => ?_⟩
  · rw [heq hg hbits, if_pos hfar]
    exact settle_error s _
  · rw [heq hg hbits, if_neg (Nat.not_lt.2 hnear),
      copyMatch_outOfRange (s := s.advance (distExtra g)) dist length hout hfull]
    exact settle_error s _
  · obtain ⟨m, hcopy, hm⟩ := copyMatch_fits dist length (s := s.advance (distExtra g))
      (State.bothRegionsOk_dst hregions) hfits
    have hlength := length_appendCopies dist length out
    refine ⟨({ s.advance (distExtra g) with mem := m } : State).decoding (appendCopies dist length out) final
      (.data lt dt), ?_, ⟨rfl, hlength, fun j hj => ?_⟩, fun a ha => ?_⟩
    · rw [heq hg hbits, if_neg (Nat.not_lt.2 hnear), hcopy]
      rfl
    · exact hm.written (out.length + j) (by omega) (by omega)
    · refine hm.kept a fun j hge hlt => ?_
      obtain ⟨k, rfl⟩ := Nat.exists_eq_add_of_le hge
      exact ha k (by omega)

end Sys2Proof.Machine
end

section
/-! The bit-stream commands (40_bitstream.md R150 to R158; O17 to O24). The three writer commands are one rule with
other bits, and the three reads one rule with another order of the bits, so each rule is said once and the commands
cite it. -/

namespace Sys2Proof.Machine

/-! The writer's commands. -/

/-- A writer's command: the check of the destination region, one write of `bits`, and OUT_LEN from the cursor after it
(R150 to R152). -/
def State.writeCommand (s : State) (bits : List Bool) (outLen : Nat → Nat) : Result :=
  s.conclude State.raise (do
    s.checkDst
    let u ← s.writeBits bits
    return { u with outLen := BitVec.ofNat 32 (outLen u.bwPos.toNat) })

/-- The bytes a writer at bit `p` has begun (R150, R151). -/
def bytesBegun (p : Nat) : Nat := (p + 7) / 8

theorem exec_bwWrite (nb : BitVec 5) (s : State) :
    exec (.bwWrite nb) s = s.writeCommand (bitsLsb nb.toNat (s.valueBits nb.toNat)) bytesBegun := rfl

theorem exec_bwWriteCoded (nb : BitVec 5) (s : State) :
    exec (.bwWriteCoded nb) s = s.writeCommand (bitsMsb nb.toNat (s.valueBits nb.toNat)) bytesBegun := rfl

theorem exec_bwAlign (s : State) :
    exec .bwAlign s = s.writeCommand (bitsLsb ((8 - s.bwPos.toNat % 8) % 8) 0) (· / 8) := rfl

theorem writeCommand_illegal {s : State} (hreg : s.dstRegionOk = false) (bits : List Bool) (outLen : Nat → Nat) :
    s.writeCommand bits outLen = .next (s.failed .illegalCommand) := by
  simp only [State.writeCommand, State.checkDst_eq, hreg]
  rfl

section
variable {s : State} (hreg : s.dstRegionOk = true) {bits : List Bool} (outLen : Nat → Nat)
include hreg

theorem writeCommand_outOfRange (h : s.dstBits < s.bwPos.toNat + bits.length) :
    s.writeCommand bits outLen = .next (s.failed .outOfRange) := by
  rcases writeBits_cases s bits with ⟨-, hw⟩ | ⟨hle, -⟩
  · simp only [State.writeCommand, State.checkDst_eq, hreg, hw]
    rfl
  · omega

/-- A write that fits: BW_POS, OUT_LEN and M change, the bits of M as `bits` say and no others. -/
theorem writeCommand_fits (h : s.bwPos.toNat + bits.length ≤ s.dstBits) :
    ∃ t, s.writeCommand bits outLen = .next t ∧
      t = ({ s with
        mem := t.mem
        bwPos := BitVec.ofNat 32 (s.bwPos.toNat + bits.length)
        outLen := BitVec.ofNat 32 (outLen (s.bwPos.toNat + bits.length)) } : State).finished ∧
      (∀ k, k < bits.length → t.dstBit (s.bwPos.toNat + k) = bits.getD k false) ∧
      SameMemBits (s.OutsideBits s.bwPos.toNat bits.length) s t := by
  rcases writeBits_cases s bits with ⟨hlt, -⟩ | ⟨-, hw⟩
  · omega
  have hpos := toNat_bwPos_putBits hreg h
  have hframe := putBits_frame bits s
  obtain ⟨hwritten, hkept⟩ := putBits_bits bits hreg h
  generalize State.putBits bits s = u at *
  refine ⟨({ u with outLen := BitVec.ofNat 32 (outLen u.bwPos.toNat) } : State).finished, ?_, ?_, hwritten, hkept⟩
  · simp only [State.writeCommand, State.checkDst_eq, hreg, hw]
    rfl
  · rw [hpos, hframe, BitVec.ofNat_add, BitVec.ofNat_toNat, BitVec.setWidth_eq]
    rfl

end

/-- A writer's command that ends without error had a legal region and room for its bits. -/
theorem fits_of_writeCommand {s t : State} {bits : List Bool} {outLen : Nat → Nat}
    (h : s.writeCommand bits outLen = .next t) (hok : t.errcode = none) :
    s.dstRegionOk = true ∧ s.bwPos.toNat + bits.length ≤ s.dstBits := by
  cases hreg : s.dstRegionOk with
  | false =>
    rw [writeCommand_illegal hreg] at h
    cases h
    cases hok
  | true =>
    refine ⟨rfl, Nat.le_of_not_lt fun hlt => ?_⟩
    rw [writeCommand_outOfRange hreg _ hlt] at h
    cases h
    cases hok

/-- Bit `k` of VALUE's field is bit `k` of VALUE (10_state.md R28). -/
theorem testBit_valueBits (s : State) {n k : Nat} (hk : k < n) : (s.valueBits n).testBit k = s.value.getLsbD k := by
  rw [State.valueBits, Nat.testBit_mod_two_pow, decide_eq_true hk, Bool.true_and, BitVec.getLsbD]

/-- A writer's command in full: its two errors, and the write of the `n` bits that `bit` names. -/
theorem writeCommand_spec (s : State) {bits : List Bool} {n : Nat} {bit : Nat → Bool} (hlen : bits.length = n)
    (hbit : ∀ k, k < n → bits[k]? = some (bit k)) (outLen : Nat → Nat) :
    (s.dstRegionOk = false → s.writeCommand bits outLen = .next (s.failed .illegalCommand)) ∧
    (s.dstRegionOk = true → s.bwPos.toNat + n > 8 * s.dstCap.toNat →
      s.writeCommand bits outLen = .next (s.failed .outOfRange)) ∧
    (s.dstRegionOk = true → s.bwPos.toNat + n ≤ 8 * s.dstCap.toNat →
      ∃ t, s.writeCommand bits outLen = .next t ∧
        t = ({ s with
          mem := t.mem
          bwPos := BitVec.ofNat 32 (s.bwPos.toNat + n)
          outLen := BitVec.ofNat 32 (outLen (s.bwPos.toNat + n)) } : State).finished ∧
        (∀ k, k < n → t.dstBit (s.bwPos.toNat + k) = bit k) ∧
        SameMemBits (s.OutsideBits s.bwPos.toNat n) s t) := by
  subst hlen
  refine ⟨fun hreg => writeCommand_illegal hreg _ _, fun hreg => writeCommand_outOfRange hreg _,
    fun hreg hfit => ?_⟩
  obtain ⟨t, hexec, hframe, hbits, hkept⟩ := writeCommand_fits hreg outLen hfit
  refine ⟨t, hexec, hframe, fun k hk => ?_, hkept⟩
  rw [hbits k hk, List.getD_eq_getElem?_getD, hbit k hk, Option.getD_some]

/-- Settles O17, by the writer's rule on the bits of VALUE from bit 0 up. -/
theorem bwWriteWritesValueBits : Obligations.BwWriteWritesValueBits := by
  intro nb s _ _ p n
  rw [exec_bwWrite]
  refine writeCommand_spec s (length_bitsLsb n (s.valueBits n)) (fun k hk => ?_) bytesBegun
  rw [getElem?_bitsLsb n _ k hk, testBit_valueBits s hk]

/-- Settles O18, by the writer's rule on the bits of VALUE from bit N-1 down. -/
theorem bwWriteCodedWritesValueBits : Obligations.BwWriteCodedWritesValueBits := by
  intro nb s _ _ p n
  rw [exec_bwWriteCoded]
  refine writeCommand_spec s (length_bitsMsb n (s.valueBits n)) (fun k hk => ?_) bytesBegun
  rw [getElem?_bitsMsb n _ k hk, testBit_valueBits s (by omega)]

/-- Settles O19, by the writer's rule on a pad of zeros. -/
theorem bwAlignPadsWithZeros : Obligations.BwAlignPadsWithZeros := by
  intro s _ p n
  rw [exec_bwAlign]
  refine writeCommand_spec s (length_bitsLsb n 0) (fun k hk => ?_) (· / 8)
  rw [getElem?_bitsLsb n 0 k hk, Nat.zero_testBit]

/-! The reader's commands. -/

/-- A reader's command: the check of the source region, and a read of `n` bits whose value `value` gives (R155 to
R157). -/
def State.readCommand (s : State) (n : Nat) (value : List Bool → Nat) : Result :=
  s.conclude State.raise (do
    s.checkSrc
    let (bits, u) ← s.readBits n .outOfRange
    return u.setReadResult (value bits))

theorem conclude_brRead (s : State) (n : Nat) : s.conclude State.raise (s.brRead n) = s.readCommand n natOfLsb := by
  rw [State.brRead, readRange_eq_bind, State.readCommand]
  cases s.readBits n .outOfRange <;> rfl

theorem exec_brReadBit (s : State) : exec .brReadBit s = s.readCommand 1 natOfLsb := conclude_brRead s 1

theorem exec_brRead (nb : BitVec 5) (s : State) : exec (.brRead nb) s = s.readCommand nb.toNat natOfLsb :=
  conclude_brRead s nb.toNat

theorem exec_brReadCoded (nb : BitVec 5) (s : State) :
    exec (.brReadCoded nb) s = s.readCommand nb.toNat (natOfMsb 0) := by
  show s.conclude State.raise (s.brReadCoded nb.toNat) = _
  rw [State.brReadCoded, readRangeCoded_eq_bind, State.readCommand]
  cases s.readBits nb.toNat .outOfRange <;> rfl

theorem readCommand_illegal {s : State} (hreg : s.srcRegionOk = false) (n : Nat) (value : List Bool → Nat) :
    s.readCommand n value = .next (s.failed .illegalCommand) := by
  simp only [State.readCommand, State.checkSrc_eq, hreg]
  rfl

section
variable {s : State} (hreg : s.srcRegionOk = true) {n : Nat} (value : List Bool → Nat)
include hreg

theorem readCommand_outOfRange (h : s.srcBits < s.brPos.toNat + n) :
    s.readCommand n value = .next (s.failed .outOfRange) := by
  rcases readBits_cases s n .outOfRange with ⟨-, hr⟩ | ⟨hle, -⟩
  · simp only [State.readCommand, State.checkSrc_eq, hreg, hr]
    rfl
  · omega

/-- A read inside the source region: BR_POS, OUT_LEN and RESULT change. -/
theorem readCommand_fits (h : s.brPos.toNat + n ≤ s.srcBits) :
    s.readCommand n value = .next ({ s with
      brPos := BitVec.ofNat 32 (s.brPos.toNat + n)
      outLen := 0#32
      result := BitVec.ofNat 32 (value (s.srcBitList s.brPos.toNat n)) } : State).finished := by
  rcases readBits_cases s n .outOfRange with ⟨hlt, -⟩ | ⟨-, hr⟩
  · omega
  · simp only [State.readCommand, State.checkSrc_eq, hreg, hr]
    rw [BitVec.ofNat_add, BitVec.ofNat_toNat, BitVec.setWidth_eq]
    rfl

end

theorem getD_srcBitList (s : State) (p n k : Nat) :
    (s.srcBitList p n).getD k false = (decide (k < n) && s.srcBit (p + k)) := by
  rw [List.getD_eq_getElem?_getD]
  by_cases hk : k < n
  · rw [getElem?_srcBitList s p n k hk, decide_eq_true hk, Bool.true_and, Option.getD_some]
  · rw [List.getElem?_eq_none (by rw [length_srcBitList]; omega), decide_eq_false hk, Bool.false_and, Option.getD_none]

/-- The word of source bits read LSB-first (R147). -/
theorem getLsbD_readLsb (s : State) (p : Nat) {n : Nat} (hn : n ≤ 32) (k : Nat) :
    (BitVec.ofNat 32 (natOfLsb (s.srcBitList p n))).getLsbD k = (decide (k < n) && s.srcBit (p + k)) := by
  rw [getLsbD_ofNat_natOfLsb (by rwa [length_srcBitList]), getD_srcBitList]

/-- The word of source bits read MSB-first (R148). -/
theorem getLsbD_readMsb (s : State) (p : Nat) {n : Nat} (hn : n ≤ 32) (k : Nat) :
    (BitVec.ofNat 32 (natOfMsb 0 (s.srcBitList p n))).getLsbD k =
      (decide (k < n) && s.srcBit (p + (n - 1 - k))) := by
  rw [natOfMsb_eq, Nat.zero_mul, Nat.zero_add,
    getLsbD_ofNat_natOfLsb (by rwa [List.length_reverse, length_srcBitList])]
  by_cases hk : k < n
  · have hlast : n - 1 - k < n := by omega
    rw [List.getD_eq_getElem?_getD, List.getElem?_reverse (by rwa [length_srcBitList]), length_srcBitList,
      ← List.getD_eq_getElem?_getD, getD_srcBitList, decide_eq_true hk, decide_eq_true hlast]
  · rw [List.getD_eq_getElem?_getD, List.getElem?_eq_none (by rw [List.length_reverse, length_srcBitList]; omega),
      decide_eq_false hk, Bool.false_and, Option.getD_none]

/-- Settles O20, by the reader's rule for one bit. -/
theorem brReadBitReadsOneBit : Obligations.BrReadBitReadsOneBit := by
  intro s p n
  rw [exec_brReadBit]
  refine ⟨fun hreg => readCommand_illegal hreg _ _, fun hreg => readCommand_outOfRange hreg _,
    fun hreg hfit => ⟨_, readCommand_fits hreg _ hfit, rfl, fun k => ?_⟩⟩
  show (BitVec.ofNat 32 (natOfLsb (s.srcBitList p 1))).getLsbD k = _
  rw [getLsbD_readLsb s p (by decide)]
  cases k with
  | zero => rfl
  | succ k => simp

/-- Settles O21, by the reader's rule LSB-first. -/
theorem brReadReadsLsbFirst : Obligations.BrReadReadsLsbFirst := by
  intro nb s hn p n
  rw [exec_brRead]
  exact ⟨fun hreg => readCommand_illegal hreg _ _, fun hreg => readCommand_outOfRange hreg _,
    fun hreg hfit => ⟨_, readCommand_fits hreg _ hfit, rfl, getLsbD_readLsb s p (by omega)⟩⟩

/-- Settles O22, by the reader's rule MSB-first. -/
theorem brReadCodedReadsMsbFirst : Obligations.BrReadCodedReadsMsbFirst := by
  intro nb s hn p n
  rw [exec_brReadCoded]
  exact ⟨fun hreg => readCommand_illegal hreg _ _, fun hreg => readCommand_outOfRange hreg _,
    fun hreg hfit => ⟨_, readCommand_fits hreg _ hfit, rfl, getLsbD_readMsb s p (by omega)⟩⟩

/-- The bit position BR_ALIGN moves to (R149). -/
def State.alignedBrPos (s : State) : Nat := (s.brPos.toNat + 7) / 8 * 8

/-- Everything AlignReader can do (R149). -/
theorem alignReader_cases (s : State) (eof : CmdError) :
    (s.srcBits < s.alignedBrPos ∧ s.alignReader eof = .error eof) ∨
    (s.alignedBrPos ≤ s.srcBits ∧ s.alignReader eof = .ok { s with brPos := BitVec.ofNat 32 s.alignedBrPos }) := by
  rcases Nat.lt_or_ge s.srcBits s.alignedBrPos with h | h
  · exact .inl ⟨h, if_pos h⟩
  · exact .inr ⟨h, if_neg (Nat.not_lt.2 h)⟩

theorem exec_brAlign (s : State) : exec .brAlign s = s.conclude State.raise s.brAlign := rfl

/-- Settles O23, by the outcomes of AlignReader. -/
theorem brAlignSkipsToByteBoundary : Obligations.BrAlignSkipsToByteBoundary := by
  intro s p
  rw [exec_brAlign, State.brAlign, State.checkSrc_eq]
  refine ⟨fun hreg => ?_, fun hreg hfar => ?_, fun hreg hfit => ?_⟩
  · rw [hreg]
    rfl
  · rcases alignReader_cases s .outOfRange with ⟨-, ha⟩ | ⟨hle, -⟩
    · rw [hreg, ha]
      rfl
    · exact absurd hfar (Nat.not_lt.2 hle)
  · rcases alignReader_cases s .outOfRange with ⟨hlt, -⟩ | ⟨-, ha⟩
    · exact absurd hlt (Nat.not_lt.2 hfit)
    · rw [hreg, ha]
      rfl

/-! Reading back what was written. -/

/-- `t` with the reader on the field that the writer of `s` wrote: the source region is the destination region of `s`
and BR_POS its BW_POS. -/
def State.rereading (s t : State) : State := { t with srcAddr := s.dstAddr, srcLen := s.dstCap, brPos := s.bwPos }

/-- A writer's command that ends without error can be read back: the reader of as many bits stays inside the region and
finds the bits written. -/
theorem rereading_reads {s t : State} {bits : List Bool} {outLen : Nat → Nat}
    (h : s.writeCommand bits outLen = .next t) (hok : t.errcode = none) (value : List Bool → Nat) :
    ∃ u, (s.rereading t).readCommand bits.length value = .next u ∧ u.errcode = none ∧
      u.result = BitVec.ofNat 32 (value bits) := by
  obtain ⟨hreg, hfit⟩ := fits_of_writeCommand h hok
  obtain ⟨t', hexec, hframe, hbits, -⟩ := writeCommand_fits hreg outLen hfit
  cases h.symm.trans hexec
  have hdst : t.dstAddr = s.dstAddr := by rw [hframe]; rfl
  have hbit (p : Nat) : (s.rereading t).srcBit p = t.dstBit p := by
    simp only [State.dstBit, State.dstByteRead, State.dstByteAddr, hdst]
    rfl
  have hread : (s.rereading t).srcBitList s.bwPos.toNat bits.length = bits := by
    refine List.ext_getElem? fun k => ?_
    by_cases hk : k < bits.length
    · rw [getElem?_srcBitList _ _ _ k hk, hbit, hbits k hk, List.getD_eq_getElem?_getD, List.getElem?_eq_getElem hk,
        Option.getD_some]
    · rw [List.getElem?_eq_none (by rw [length_srcBitList]; omega), List.getElem?_eq_none (by omega)]
  refine ⟨_, readCommand_fits (s := s.rereading t) hreg value hfit, rfl, ?_⟩
  show BitVec.ofNat 32 (value ((s.rereading t).srcBitList s.bwPos.toNat bits.length)) = _
  rw [hread]

/-- The field of VALUE fits RESULT, and taking its low bits again changes nothing (10_state.md R28). -/
theorem toNat_ofNat_valueBits (s : State) (n : Nat) :
    (BitVec.ofNat 32 (s.valueBits n % 2 ^ n)).toNat = s.value.toNat % 2 ^ n := by
  have hlt : s.value.toNat % 2 ^ n < 2 ^ 32 := Nat.lt_of_le_of_lt (Nat.mod_le _ _) s.value.isLt
  rw [State.valueBits, Nat.mod_mod, BitVec.toNat_ofNat, Nat.mod_eq_of_lt hlt]

/-- Settles O24: the bits read back are the ones written, and each order of reading inverts its order of writing. -/
theorem writtenFieldReadsBack : Obligations.WrittenFieldReadsBack := by
  intro nb s t _
  refine ⟨fun _ hexec hok => ?_, fun _ hexec hok => ?_⟩
  · obtain ⟨u, hread, herr, hres⟩ := rereading_reads (exec_bwWrite nb s ▸ hexec) hok natOfLsb
    rw [length_bitsLsb] at hread
    rw [natOfLsb_bitsLsb] at hres
    exact ⟨u, (exec_brRead nb _).trans hread, herr, hres ▸ toNat_ofNat_valueBits s _⟩
  · obtain ⟨u, hread, herr, hres⟩ := rereading_reads (exec_bwWriteCoded nb s ▸ hexec) hok (natOfMsb 0)
    rw [length_bitsMsb] at hread
    rw [natOfMsb_bitsMsb] at hres
    exact ⟨u, (exec_brReadCoded nb _).trans hread, herr, hres ▸ toNat_ofNat_valueBits s _⟩

end Sys2Proof.Machine
end

section
/-! The CRC-32 engine and its command (41_crc32.md R170 to R173; O25, O26). A turn of R170's loop commutes with xor, so
the eight turns of a byte split into those of the register's low byte, which the table holds, and those of the rest,
which only shift. -/

namespace Sys2Proof.Machine

/-! The checksum. -/

theorem crcShift_xor (c d : Word) : crcShift (c ^^^ d) = crcShift c ^^^ crcShift d := by
  rw [crcShift, BitVec.getLsbD_xor, BitVec.ushiftRight_xor_distrib, crcShift, crcShift]
  generalize c >>> 1 = x, d >>> 1 = y, 0xEDB88320#32 = p
  cases c.getLsbD 0 <;> cases d.getLsbD 0
  · rfl
  · show p ^^^ (x ^^^ y) = x ^^^ (p ^^^ y)
    ac_rfl
  · exact (BitVec.xor_assoc p x y).symm
  · calc x ^^^ y = (p ^^^ p) ^^^ (x ^^^ y) := by rw [BitVec.xor_self, BitVec.zero_xor]
      _ = (p ^^^ x) ^^^ (p ^^^ y) := by ac_rfl

theorem crcShift_of_even {c : Word} (h : c.getLsbD 0 = false) : crcShift c = c >>> 1 := by
  rw [crcShift, h, if_neg Bool.false_ne_true]

theorem repeat_crcShift_xor (n : Nat) (c d : Word) :
    Nat.repeat crcShift n (c ^^^ d) = Nat.repeat crcShift n c ^^^ Nat.repeat crcShift n d := by
  induction n with
  | zero => rfl
  | succ n ih => simp only [Nat.repeat, ih, crcShift_xor]

/-- Turns that meet only zero bits only shift. -/
theorem repeat_crcShift_of_lowZero {c : Word} (n : Nat) (h : ∀ k < n, c.getLsbD k = false) :
    Nat.repeat crcShift n c = c >>> n := by
  induction n with
  | zero => exact (BitVec.ushiftRight_zero c).symm
  | succ n ih =>
    have hbit : (c >>> n).getLsbD 0 = false := (BitVec.getLsbD_ushiftRight ..).trans (h n (Nat.lt_succ_self n))
    rw [Nat.repeat, ih fun k hk => h k (Nat.lt_succ_of_lt hk), crcShift_of_even hbit, BitVec.shiftRight_add]

theorem crcEntry_eq_repeat (i : Byte) : crcEntry i = Nat.repeat crcShift 8 (i.setWidth 32) := rfl

@[simp] theorem getD_crcTable (i : Byte) : crcTable.getD i.toNat 0#32 = crcEntry i := by
  have hlt : i.toNat < 256 := i.isLt
  simp [crcTable, List.getD_eq_getElem?_getD, hlt]

/-- A byte reaches only the low byte of the register; the rest stands above eight zero bits. -/
theorem xor_byte_eq (c : Word) (b : Byte) :
    c ^^^ b.setWidth 32 = (c.setWidth 8 ^^^ b).setWidth 32 ^^^ (c >>> 8 <<< 8) := by
  ext k hk
  by_cases hlow : k < 8
  · simp [hlow, ← BitVec.getLsbD_eq_getElem, hk]
  · have hb : b.getLsbD k = false := BitVec.getLsbD_of_ge b k (Nat.le_of_not_lt hlow)
    simp [hlow, ← BitVec.getLsbD_eq_getElem, hk, hb, Nat.add_sub_cancel' (Nat.le_of_not_lt hlow)]

/-- The table's update of R171 is one xor of the byte and eight turns of R170's loop. -/
theorem crcUpdate_eq_repeat (c : Word) (b : Byte) :
    crcUpdate c b = Nat.repeat crcShift 8 (c ^^^ b.setWidth 32) := by
  have hzero : ∀ k < 8, (c >>> 8 <<< 8).getLsbD k = false := fun k hk => by simp [hk]
  have hshift : c >>> 8 <<< 8 >>> 8 = c >>> 8 := by
    ext k hk
    simpa using BitVec.lt_of_getLsbD
  rw [xor_byte_eq, repeat_crcShift_xor, repeat_crcShift_of_lowZero 8 hzero, hshift, crcUpdate, getD_crcTable,
    crcEntry_eq_repeat]

/-- Settles O26: the two checksums update the register alike with every byte. -/
theorem crcTableDrivenIsBitSerial : Obligations.CrcTableDrivenIsBitSerial := by
  intro bytes
  have hupdate : crcUpdate = fun c b => Nat.repeat crcShift 8 (c ^^^ b.setWidth 32) :=
    funext fun c => funext fun b => crcUpdate_eq_repeat c b
  rw [crc32, hupdate]

theorem crc32_nil : crc32 [] = 0#32 := rfl

/-! The command. -/

theorem exec_crc32 (s : State) : exec .crc32 s = s.conclude State.raise s.crc32Command := rfl

theorem crc32Command_eq (s : State) :
    s.crc32Command =
      if s.srcRegionOk then .ok { s with result := crc32 s.srcBytes, outLen := 0#32 } else .error .illegalCommand := by
  rw [State.crc32Command, State.checkSrc_eq]
  cases s.srcRegionOk <;> rfl

theorem srcBytes_of_srcLen_zero {s : State} (h : s.srcLen = 0#32) : s.srcBytes = [] := by
  rw [State.srcBytes, h]
  rfl

/-- Settles O25: R173's check and its result, and the check value by evaluation. -/
theorem crc32ChecksumsSource : Obligations.Crc32ChecksumsSource := by
  refine ⟨fun s => ⟨fun hbad => ?_, fun hok => ?_, fun hempty => ?_⟩, by decide +kernel⟩
  · rw [exec_crc32, crc32Command_eq, hbad, if_neg Bool.false_ne_true, State.conclude_raise]
  · rw [exec_crc32, crc32Command_eq, if_pos hok, State.conclude_ok]
  · rw [srcBytes_of_srcLen_zero hempty, crc32_nil]

end Sys2Proof.Machine
end

section
/-! Package-merge (42_huffman.md R180 to R185, R192; O28, O29). The first packages of a round are the first pairs of the
last round and the first leaves (`RoundPrefix`), so what they hold is counted by induction on the rounds
(`PrefixCounts`): a symbol occurs at most once in each round, its leaf stands before every pair that holds it, and each
package takes one share from the Kraft sum. -/

namespace Sys2Proof.Machine

/-! The sort (R181): its result rises in the order of the keys, and it keeps the order of packages that rise. -/

/-- The order of R181 written out: weight, then number of symbols, then least symbol. -/
theorem Package.keyLe_iff (p q : Package) :
    p.keyLe q = true ↔ p.weight < q.weight ∨ p.weight = q.weight ∧ (p.syms.length < q.syms.length ∨
      p.syms.length = q.syms.length ∧ p.minSym ≤ q.minSym) := by
  rw [Package.keyLe]
  split
  · split <;> rw [decide_eq_true_iff] <;> omega
  · rw [decide_eq_true_iff]
    omega

theorem Package.keyLe_trans {p q r : Package} (h : p.keyLe q = true) (h' : q.keyLe r = true) : p.keyLe r = true := by
  rw [Package.keyLe_iff] at h h' ⊢
  omega

theorem Package.keyLe_of_not {p q : Package} (h : ¬ p.keyLe q = true) : q.keyLe p = true := by
  rw [Package.keyLe_iff] at h ⊢
  omega

theorem Package.weight_le_of_keyLe {p q : Package} (h : p.keyLe q = true) : p.weight ≤ q.weight := by
  rw [Package.keyLe_iff] at h
  omega

/-- The packages of a list rise in the order of R181. -/
abbrev PackagesRise (l : List Package) : Prop := l.Pairwise (fun p q => p.keyLe q = true)

theorem insertPackage_of_least {p : Package} : ∀ {l : List Package}, (∀ q ∈ l, p.keyLe q = true) →
    insertPackage p l = p :: l
  | [], _ => rfl
  | q :: _, h => if_pos (h q List.mem_cons_self)

/-- A package that is not above the first of packages that rise is not above any of them. -/
theorem keyLe_all {p q : Package} {l : List Package} (hl : PackagesRise (q :: l)) (h : p.keyLe q = true) :
    ∀ r ∈ q :: l, p.keyLe r = true := by
  intro r hr
  rcases List.mem_cons.1 hr with rfl | hr
  · exact h
  · exact Package.keyLe_trans h (List.rel_of_pairwise_cons hl hr)

theorem insertPackage_rise (p : Package) : ∀ {l : List Package}, PackagesRise l → PackagesRise (insertPackage p l)
  | [], _ => List.pairwise_singleton _ p
  | q :: l, hl => by
    by_cases h : p.keyLe q = true
    · rw [insertPackage_of_least (keyLe_all hl h)]
      exact List.pairwise_cons.2 ⟨keyLe_all hl h, hl⟩
    · obtain ⟨hq, hl'⟩ := List.pairwise_cons.1 hl
      rw [insertPackage, if_neg h]
      refine List.pairwise_cons.2 ⟨fun r hr => ?_, insertPackage_rise p hl'⟩
      rcases List.mem_cons.1 ((insertPackage_perm p l).mem_iff.1 hr) with rfl | hr
      · exact Package.keyLe_of_not h
      · exact hq r hr

theorem sortPackages_rise : ∀ l : List Package, PackagesRise (sortPackages l)
  | [] => .nil
  | p :: l => insertPackage_rise p (sortPackages_rise l)

theorem sortPackages_of_rise : ∀ {l : List Package}, PackagesRise l → sortPackages l = l
  | [], _ => rfl
  | p :: l, h => by
    obtain ⟨hp, hl⟩ := List.pairwise_cons.1 h
    rw [sortPackages, sortPackages_of_rise hl, insertPackage_of_least hp]

theorem filter_insertPackage (f : Package → Bool) (p : Package) : ∀ {l : List Package}, PackagesRise l →
    (insertPackage p l).filter f = if f p then insertPackage p (l.filter f) else l.filter f
  | [], _ => by
    rw [insertPackage, List.filter_cons]
    rfl
  | q :: l, hl => by
    by_cases h : p.keyLe q = true
    · have hleast := keyLe_all hl h
      rw [insertPackage_of_least hleast, List.filter_cons,
        insertPackage_of_least (fun r hr => hleast r (List.mem_filter.1 hr).1)]
    · have ih := filter_insertPackage f p (List.pairwise_cons.1 hl).2
      rw [insertPackage, if_neg h, List.filter_cons, List.filter_cons, ih]
      cases f q with
      | false => rfl
      | true =>
        cases f p with
        | false => rfl
        | true => exact (if_neg h).symm

/-- The sort is stable: it sorts the packages of one kind among themselves. -/
theorem filter_sortPackages (f : Package → Bool) : ∀ l : List Package,
    (sortPackages l).filter f = sortPackages (l.filter f)
  | [] => rfl
  | p :: l => by
    rw [sortPackages, filter_insertPackage f p (sortPackages_rise l), filter_sortPackages f l, List.filter_cons]
    cases f p <;> rfl

/-! Packages and pairs of them (R181, R182). -/

/-- A package that stands for at least one symbol and weighs something. -/
structure Package.Proper (p : Package) : Prop where
  weight : 0 < p.weight
  syms : p.syms ≠ []

/-- Two packages made one (R182). -/
def Package.merge (p q : Package) : Package := ⟨p.weight + q.weight, p.syms ++ q.syms⟩

theorem Package.Proper.merge {p q : Package} (hp : p.Proper) : (p.merge q).Proper :=
  ⟨Nat.add_pos_left hp.weight _, List.append_ne_nil_of_left_ne_nil hp.syms _⟩

theorem foldl_min_min (a b : Nat) : ∀ l : List Nat, l.foldl min (min a b) = min a (l.foldl min b)
  | [] => rfl
  | x :: l => by rw [List.foldl_cons, List.foldl_cons, Nat.min_assoc, foldl_min_min a (min b x) l]

theorem Package.minSym_merge {p q : Package} (hp : p.Proper) (hq : q.Proper) :
    (p.merge q).minSym = min p.minSym q.minSym := by
  obtain ⟨w, xs⟩ := p
  obtain ⟨v, ys⟩ := q
  obtain ⟨x, xs, rfl⟩ := List.exists_cons_of_ne_nil hp.syms
  obtain ⟨y, ys, rfl⟩ := List.exists_cons_of_ne_nil hq.syms
  have hys : (y :: ys).foldl min y = ys.foldl min y := congrArg (ys.foldl min ·) (Nat.min_self y)
  show (x :: xs ++ y :: ys).foldl min x = min ((x :: xs).foldl min x) ((y :: ys).foldl min y)
  rw [List.foldl_append, List.foldl_cons, foldl_min_min, hys]

/-- Of packages that rise, a later pair is not below an earlier one. -/
theorem Package.merge_keyLe {a b c d : Package} (ha : a.Proper) (hb : b.Proper) (hc : c.Proper) (hd : d.Proper)
    (hab : a.keyLe b = true) (hbc : b.keyLe c = true) (hbd : b.keyLe d = true) :
    (a.merge b).keyLe (c.merge d) = true := by
  rw [Package.keyLe_iff] at hab hbc hbd ⊢
  rw [minSym_merge ha hb, minSym_merge hc hd]
  simp only [Package.merge, List.length_append]
  omega

theorem pairPackages_cons_cons (p q : Package) (l : List Package) :
    pairPackages (p :: q :: l) = p.merge q :: pairPackages l := rfl

/-- A package of the pairs is two packages made one. -/
theorem mem_pairPackages : ∀ {l : List Package} {r : Package}, r ∈ pairPackages l →
    ∃ p ∈ l, ∃ q ∈ l, r = p.merge q
  | p :: q :: l, r, h => by
    rcases List.mem_cons.1 h with rfl | h
    · exact ⟨p, List.mem_cons_self, q, List.mem_cons_of_mem _ List.mem_cons_self, rfl⟩
    · obtain ⟨p', hp, q', hq, rfl⟩ := mem_pairPackages h
      exact ⟨p', List.mem_cons_of_mem _ (List.mem_cons_of_mem _ hp), q',
        List.mem_cons_of_mem _ (List.mem_cons_of_mem _ hq), rfl⟩

theorem pairPackages_proper {l : List Package} (h : ∀ p ∈ l, p.Proper) : ∀ r ∈ pairPackages l, r.Proper := by
  intro r hr
  obtain ⟨p, hp, q, -, rfl⟩ := mem_pairPackages hr
  exact (h p hp).merge

theorem pairPackages_rise : ∀ {l : List Package}, (∀ p ∈ l, p.Proper) → PackagesRise l → PackagesRise (pairPackages l)
  | [], _, _ => .nil
  | [_], _, _ => .nil
  | a :: b :: l, hproper, hrise => by
    obtain ⟨ha, hrise'⟩ := List.pairwise_cons.1 hrise
    obtain ⟨hb, hl⟩ := List.pairwise_cons.1 hrise'
    have hrest : ∀ p ∈ l, p.Proper := fun p hp => hproper p (List.mem_cons_of_mem _ (List.mem_cons_of_mem _ hp))
    refine List.pairwise_cons.2 ⟨fun r hr => ?_, pairPackages_rise hrest hl⟩
    obtain ⟨c, hc, d, hd, rfl⟩ := mem_pairPackages hr
    exact Package.merge_keyLe (hproper a List.mem_cons_self) (hproper b (List.mem_cons_of_mem _ List.mem_cons_self))
      (hrest c hc) (hrest d hd) (ha b List.mem_cons_self) (hb c hc) (hb d hd)

theorem pairPackages_take : ∀ (b : Nat) (l : List Package), pairPackages (l.take (2 * b)) = (pairPackages l).take b
  | 0, _ => rfl
  | b + 1, [] => rfl
  | b + 1, [p] => rfl
  | b + 1, p :: q :: l => by
    rw [show 2 * (b + 1) = 2 * b + 1 + 1 from rfl, List.take_succ_cons, List.take_succ_cons, pairPackages_cons_cons,
      pairPackages_cons_cons, List.take_succ_cons, pairPackages_take b l]

/-! Rounds (R182). -/

/-- One round: the packages of the last one in pairs, sorted in with the leaves (R182). -/
def packageRound (leaves list : List Package) : List Package := sortPackages (pairPackages list ++ leaves)

/-- The packages after `n` rounds that start with none, so that the first one gives the leaves. -/
def packageLevel (leaves : List Package) : Nat → List Package
  | 0 => []
  | n + 1 => packageRound leaves (packageLevel leaves n)

theorem packageRounds_succ (leaves : List Package) : ∀ (n : Nat) (list : List Package),
    packageRounds leaves (n + 1) list = packageRound leaves (packageRounds leaves n list)
  | 0, _ => rfl
  | n + 1, _ => packageRounds_succ leaves n _

theorem packageRounds_eq_packageLevel {leaves : List Package} (h : PackagesRise leaves) :
    ∀ n : Nat, packageRounds leaves n leaves = packageLevel leaves (n + 1)
  | 0 => (sortPackages_of_rise h).symm
  | n + 1 => (packageRounds_succ leaves n leaves).trans (congrArg _ (packageRounds_eq_packageLevel h n))

/-- The symbols of packages, one after the other. -/
def symbols (l : List Package) : List Nat := l.flatMap Package.syms

theorem symbols_cons (p : Package) (l : List Package) : symbols (p :: l) = p.syms ++ symbols l := List.flatMap_cons

theorem symbols_append (l l' : List Package) : symbols (l ++ l') = symbols l ++ symbols l' := List.flatMap_append

theorem symbols_perm {l l' : List Package} (h : l.Perm l') : (symbols l).Perm (symbols l') := h.flatMap_right _

theorem mem_symbols {l : List Package} {s : Nat} : s ∈ symbols l ↔ ∃ p ∈ l, s ∈ p.syms := List.mem_flatMap

/-- How often a symbol occurs in packages. -/
def occurs (l : List Package) (s : Nat) : Nat := (symbols l).count s

theorem occurs_cons (p : Package) (l : List Package) (s : Nat) : occurs (p :: l) s = p.syms.count s + occurs l s := by
  rw [occurs, symbols_cons, List.count_append, occurs]

theorem occurs_append (l l' : List Package) (s : Nat) : occurs (l ++ l') s = occurs l s + occurs l' s := by
  rw [occurs, symbols_append, List.count_append, occurs, occurs]

theorem occurs_perm {l l' : List Package} (h : l.Perm l') (s : Nat) : occurs l s = occurs l' s :=
  (symbols_perm h).count_eq s

theorem occurs_pos {l : List Package} {s : Nat} : 0 < occurs l s ↔ ∃ p ∈ l, s ∈ p.syms := by
  rw [occurs, List.count_pos_iff, mem_symbols]

theorem occurs_pairPackages (s : Nat) : ∀ (b : Nat) (l : List Package), l.length = 2 * b →
    occurs (pairPackages l) s = occurs l s
  | 0, l, h => by
    rw [List.length_eq_zero_iff.1 h]
    rfl
  | b + 1, p :: q :: l, h => by
    have hlen : l.length = 2 * b := by
      rw [List.length_cons, List.length_cons] at h
      omega
    rw [pairPackages_cons_cons, occurs_cons, occurs_cons, occurs_cons, occurs_pairPackages s b l hlen, Package.merge,
      List.count_append, Nat.add_assoc]

/-- Of an even number of packages each is outweighed by the pair it is in. -/
theorem lighter_than_its_pair : ∀ (b : Nat) {l : List Package}, l.length = 2 * b → (∀ p ∈ l, p.Proper) →
    ∀ q ∈ l, ∃ r ∈ pairPackages l, q.weight < r.weight
  | 0, l, h, _, q, hq => by
    rw [List.length_eq_zero_iff.1 h] at hq
    exact nomatch hq
  | b + 1, p :: p' :: l, h, hproper, q, hq => by
    have hp := (hproper p List.mem_cons_self).weight
    have hp' := (hproper p' (List.mem_cons_of_mem _ List.mem_cons_self)).weight
    rw [pairPackages_cons_cons]
    rcases List.mem_cons.1 hq with rfl | hq
    · exact ⟨_, List.mem_cons_self, Nat.lt_add_of_pos_right hp'⟩
    rcases List.mem_cons.1 hq with rfl | hq
    · exact ⟨_, List.mem_cons_self, Nat.lt_add_of_pos_left hp⟩
    · have hlen : l.length = 2 * b := by
        rw [List.length_cons, List.length_cons] at h
        omega
      obtain ⟨r, hr, hlt⟩ := lighter_than_its_pair b hlen
        (fun p hp => hproper p (List.mem_cons_of_mem _ (List.mem_cons_of_mem _ hp))) q hq
      exact ⟨r, List.mem_cons_of_mem _ hr, hlt⟩

/-- The packages of single symbols that the rounds start from (R180). -/
structure Leaves (leaves : List Package) : Prop where
  rise : PackagesRise leaves
  weight : ∀ p ∈ leaves, 0 < p.weight
  single : ∀ p ∈ leaves, p.syms.length = 1
  nodup : (symbols leaves).Nodup

/-- A package of more symbols than one. -/
def Package.isPair (p : Package) : Bool := p.syms.length != 1

/-- A package of one symbol. -/
def Package.isLeaf (p : Package) : Bool := !p.isPair

theorem isPair_of_mem_pairPackages {l : List Package} (h : ∀ p ∈ l, p.Proper) :
    ∀ r ∈ pairPackages l, r.isPair = true := by
  intro r hr
  obtain ⟨p, hp, q, hq, rfl⟩ := mem_pairPackages hr
  have hplen := List.length_pos_iff.2 (h p hp).syms
  have hqlen := List.length_pos_iff.2 (h q hq).syms
  rw [Package.isPair, Package.merge, bne_iff_ne, List.length_append]
  omega

theorem packageLevel_rise (leaves : List Package) : ∀ n : Nat, PackagesRise (packageLevel leaves n)
  | 0 => .nil
  | _ + 1 => sortPackages_rise _

section
variable {leaves : List Package} (hl : Leaves leaves)
include hl

theorem Leaves.isPair : ∀ p ∈ leaves, p.isPair = false := fun p hp => by
  rw [Package.isPair, hl.single p hp]
  rfl

theorem Leaves.proper : ∀ p ∈ leaves, p.Proper := fun p hp =>
  ⟨hl.weight p hp, List.ne_nil_of_length_pos (by rw [hl.single p hp]; exact Nat.one_pos)⟩

theorem packageLevel_proper : ∀ (n : Nat), ∀ p ∈ packageLevel leaves n, p.Proper
  | 0, _, h => nomatch h
  | n + 1, p, h => by
    rw [packageLevel, packageRound, (sortPackages_perm _).mem_iff, List.mem_append] at h
    rcases h with h | h
    · exact pairPackages_proper (packageLevel_proper n) p h
    · exact hl.proper p h

/-- The pairs of a round stand in it in their order. -/
theorem filter_isPair_packageRound {l : List Package} (h : ∀ p ∈ l, p.Proper) (hrise : PackagesRise l) :
    (packageRound leaves l).filter Package.isPair = pairPackages l := by
  have hleaves : leaves.filter Package.isPair = [] :=
    List.filter_eq_nil_iff.2 fun p hp => by rw [hl.isPair p hp]; exact Bool.false_ne_true
  rw [packageRound, filter_sortPackages, List.filter_append, hleaves, List.append_nil,
    List.filter_eq_self.2 (isPair_of_mem_pairPackages h), sortPackages_of_rise (pairPackages_rise h hrise)]

/-- The leaves of a round stand in it in their order. -/
theorem filter_isLeaf_packageRound {l : List Package} (h : ∀ p ∈ l, p.Proper) :
    (packageRound leaves l).filter Package.isLeaf = leaves := by
  have hpairs : (pairPackages l).filter Package.isLeaf = [] :=
    List.filter_eq_nil_iff.2 fun r hr => by
      rw [Package.isLeaf, isPair_of_mem_pairPackages h r hr]
      exact Bool.false_ne_true
  have hleaves : leaves.filter Package.isLeaf = leaves :=
    List.filter_eq_self.2 fun p hp => by rw [Package.isLeaf, hl.isPair p hp]; rfl
  rw [packageRound, filter_sortPackages, List.filter_append, hpairs, List.nil_append, hleaves,
    sortPackages_of_rise hl.rise]

end

theorem perm_filter_isPair : ∀ t : List Package, t.Perm (t.filter Package.isPair ++ t.filter Package.isLeaf)
  | [] => .nil
  | p :: t => by
    have ih := perm_filter_isPair t
    rw [List.filter_cons, List.filter_cons, Package.isLeaf]
    cases p.isPair with
    | true => exact ih.cons p
    | false => exact (ih.cons p).trans List.perm_middle.symm

/-- The first packages `t` of a round are the first `b` pairs and the first leaves `x`, and with a package of `t` every
lighter leaf is one of `x`. -/
structure RoundPrefix (leaves l t : List Package) (b : Nat) (x : List Package) : Prop where
  even : 2 * b ≤ l.length
  perm : t.Perm (pairPackages (l.take (2 * b)) ++ x)
  first : x <+: leaves
  lighter : ∀ q ∈ leaves, ∀ p ∈ t, q.weight < p.weight → q ∈ x

/-- Of packages that rise, one that is lighter than one of the first is one of the first. -/
theorem mem_of_lighter {l t : List Package} (hrise : PackagesRise l) (ht : t <+: l) {p q : Package} (hq : q ∈ l)
    (hp : p ∈ t) (hlt : q.weight < p.weight) : q ∈ t := by
  obtain ⟨r, rfl⟩ := ht
  obtain ⟨-, -, hrest⟩ := List.pairwise_append.1 hrise
  refine (List.mem_append.1 hq).resolve_right fun hqr => ?_
  exact absurd (Package.weight_le_of_keyLe (hrest p hp q hqr)) (Nat.not_le.2 hlt)

/-- The first packages of a round are of that form. -/
theorem exists_roundPrefix {leaves : List Package} (hl : Leaves leaves) {l t : List Package} (h : ∀ p ∈ l, p.Proper)
    (hrise : PackagesRise l) (ht : t <+: packageRound leaves l) : ∃ b x, RoundPrefix leaves l t b x := by
  have hpairs : t.filter Package.isPair <+: pairPackages l := filter_isPair_packageRound hl h hrise ▸ ht.filter _
  have hb := hpairs.length_le
  rw [length_pairPackages] at hb
  refine ⟨(t.filter Package.isPair).length, t.filter Package.isLeaf, ?_, ?_, ?_, fun q hq p hp hlt => ?_⟩
  · omega
  · rw [pairPackages_take, ← List.prefix_iff_eq_take.1 hpairs]
    exact perm_filter_isPair t
  · exact filter_isLeaf_packageRound hl h ▸ ht.filter _
  · have hmem : q ∈ packageRound leaves l := (sortPackages_perm _).mem_iff.2 (List.mem_append_right _ hq)
    refine List.mem_filter.2 ⟨mem_of_lighter (sortPackages_rise _) ht hmem hp hlt, ?_⟩
    rw [Package.isLeaf, hl.isPair q hq]
    rfl

/-! Sums over symbols. -/

/-- The sum of a term over a list. -/
def sumOver (l : List Nat) (f : Nat → Nat) : Nat := (l.map f).sum

theorem sumOver_cons (s : Nat) (l : List Nat) (f : Nat → Nat) : sumOver (s :: l) f = f s + sumOver l f := by
  rw [sumOver, List.map_cons, List.sum_cons, sumOver]

theorem sumOver_append (l l' : List Nat) (f : Nat → Nat) : sumOver (l ++ l') f = sumOver l f + sumOver l' f := by
  rw [sumOver, List.map_append, List.sum_append, sumOver, sumOver]

theorem sumOver_perm {l l' : List Nat} (h : l.Perm l') (f : Nat → Nat) : sumOver l f = sumOver l' f := (h.map f).sum_nat

/-- Two terms each of which gains as much as another loses. -/
theorem sumOver_add_congr {f g f' g' : Nat → Nat} : ∀ {l : List Nat}, (∀ s ∈ l, f s + g s = f' s + g' s) →
    sumOver l f + sumOver l g = sumOver l f' + sumOver l g'
  | [], _ => rfl
  | s :: l, h => by
    have hs := h s List.mem_cons_self
    have ih := sumOver_add_congr fun s hs => h s (List.mem_cons_of_mem _ hs)
    rw [sumOver_cons, sumOver_cons, sumOver_cons, sumOver_cons]
    omega

theorem sumOver_const (c : Nat) : ∀ l : List Nat, sumOver l (fun _ => c) = l.length * c
  | [] => (Nat.zero_mul c).symm
  | s :: l => by rw [sumOver_cons, sumOver_const c l, List.length_cons, Nat.succ_mul, Nat.add_comm]

theorem sumOver_congr {f g : Nat → Nat} {l : List Nat} (h : ∀ s ∈ l, f s = g s) : sumOver l f = sumOver l g := by
  rw [sumOver, List.map_congr_left h, sumOver]

/-- Among two terms or more that are not 0, each is less than their sum. -/
theorem lt_sumOver {f : Nat → Nat} {l : List Nat} (hpos : ∀ s ∈ l, 0 < f s) (htwo : 2 ≤ l.length) {s : Nat}
    (hs : s ∈ l) : f s < sumOver l f := by
  have hperm := List.perm_cons_erase hs
  have hlen := hperm.length_eq
  rw [List.length_cons] at hlen
  obtain ⟨s', l', hl'⟩ := List.exists_cons_of_length_pos (l := l.erase s) (by omega)
  have hs' := hpos s' (hperm.mem_iff.2 (List.mem_cons_of_mem _ (hl' ▸ List.mem_cons_self)))
  rw [sumOver_perm hperm, hl', sumOver_cons, sumOver_cons]
  omega

/-! What the first packages of a level hold (R185). -/

theorem length_symbols : ∀ {l : List Package}, (∀ p ∈ l, p.syms.length = 1) → (symbols l).length = l.length
  | [], _ => rfl
  | p :: l, h => by
    rw [symbols_cons, List.length_append, h p List.mem_cons_self,
      length_symbols fun q hq => h q (List.mem_cons_of_mem _ hq), List.length_cons, Nat.add_comm]

section
variable {leaves : List Package} (hl : Leaves leaves)
include hl

theorem Leaves.length_symbols : (symbols leaves).length = leaves.length := Machine.length_symbols hl.single

theorem occurs_le_one {x : List Package} (hx : x <+: leaves) (s : Nat) : occurs x s ≤ 1 := by
  have hnodup := hl.nodup
  obtain ⟨y, rfl⟩ := hx
  rw [symbols_append] at hnodup
  exact List.nodup_iff_count.1 (List.nodup_append.1 hnodup).1 s

/-- The first leaves hold one symbol each. -/
theorem sumOver_occurs {x : List Package} (hx : x <+: leaves) (c : Nat) :
    sumOver (symbols leaves) (fun s => occurs x s * c) = x.length * c := by
  have hone := occurs_le_one hl hx
  have hsingle : ∀ p ∈ x, p.syms.length = 1 := fun p hp => hl.single p (hx.subset hp)
  obtain ⟨y, rfl⟩ := hx
  have hnodup := hl.nodup
  rw [symbols_append] at hnodup ⊢
  obtain ⟨-, -, hdisjoint⟩ := List.nodup_append.1 hnodup
  have hin : sumOver (symbols x) (fun s => occurs x s * c) = sumOver (symbols x) (fun _ => c) :=
    sumOver_congr fun s hs => by
      rw [Nat.le_antisymm (hone s) (List.count_pos_iff.2 hs), Nat.one_mul]
  have hout : sumOver (symbols y) (fun s => occurs x s * c) = sumOver (symbols y) (fun _ => 0) :=
    sumOver_congr fun s hs => by
      rw [occurs, List.count_eq_zero.2 fun hsx => hdisjoint s hsx s hs rfl, Nat.zero_mul]
  rw [sumOver_append, hin, hout, sumOver_const, sumOver_const, Machine.length_symbols hsingle, Nat.mul_zero,
    Nat.add_zero]

end

/-- The first packages `t` of level `n`: no symbol occurs more than `n` times; one that occurs has its leaf among them;
and each package takes as much from the Kraft sum as a leaf of the last level. -/
structure PrefixCounts (leaves : List Package) (n : Nat) (t : List Package) : Prop where
  le : ∀ s, occurs t s ≤ n
  leaf : ∀ s, 0 < occurs t s → ∃ q ∈ leaves, q ∈ t ∧ q.syms = [s]
  kraft : 2 * sumOver (symbols leaves) (fun s => 2 ^ (n - occurs t s)) + t.length * 2 ^ n =
    2 * (leaves.length * 2 ^ n)

section
variable {leaves l t x : List Package} {b n : Nat} (h : RoundPrefix leaves l t b x)
include h

theorem RoundPrefix.length_take : (l.take (2 * b)).length = 2 * b := List.length_take_of_le h.even

theorem RoundPrefix.length : t.length = b + x.length := by
  rw [h.perm.length_eq, List.length_append, length_pairPackages, h.length_take, Nat.mul_div_cancel_left b Nat.two_pos]

theorem RoundPrefix.occurs_eq (s : Nat) : occurs t s = occurs (l.take (2 * b)) s + occurs x s := by
  rw [occurs_perm h.perm, occurs_append, occurs_pairPackages s b _ h.length_take]

/-- The leaf of a symbol that a pair holds is lighter than the pair, so it stands before it. -/
theorem RoundPrefix.leaf_of_pairs (hproper : ∀ p ∈ l, p.Proper) {q : Package} (hq : q ∈ leaves)
    (hpair : q ∈ l.take (2 * b)) : q ∈ x := by
  obtain ⟨r, hr, hlt⟩ := lighter_than_its_pair b h.length_take (fun p hp => hproper p (List.mem_of_mem_take hp)) q hpair
  exact h.lighter q hq r (h.perm.mem_iff.2 (List.mem_append_left _ hr)) hlt

end

/-- How the term of one symbol changes in a round, when it occurs `o` times in the pairs and `e` times as a leaf. -/
theorem pow_sub_occurs {n o e : Nat} (he : e ≤ 1) (hoe : 0 < o → 0 < e) :
    2 ^ (n + 1 - (o + e)) + e * 2 ^ n = 2 ^ (n - o) + 2 ^ n := by
  rcases Nat.le_one_iff_eq_zero_or_eq_one.1 he with rfl | rfl
  · obtain rfl : o = 0 := by omega
    rw [Nat.add_zero, Nat.sub_zero, Nat.sub_zero, Nat.pow_succ]
    omega
  · rw [Nat.add_sub_add_right, Nat.one_mul]

section
variable {leaves l t x : List Package} {b n : Nat} (h : RoundPrefix leaves l t b x) (hproper : ∀ p ∈ l, p.Proper)
  (hc : PrefixCounts leaves n (l.take (2 * b)))
include h hproper hc

/-- A symbol of the first pairs of a round has its leaf beside them. -/
theorem RoundPrefix.occurs_leaf_of_pairs (s : Nat) (hs : 0 < occurs (l.take (2 * b)) s) : 0 < occurs x s := by
  obtain ⟨q, hq, hqt, hsyms⟩ := hc.leaf s hs
  exact occurs_pos.2 ⟨q, h.leaf_of_pairs hproper hq hqt, hsyms ▸ List.mem_singleton.2 rfl⟩

variable (hl : Leaves leaves)
include hl

/-- A symbol of the first packages of a round has its leaf among them. -/
theorem RoundPrefix.leaf_next (s : Nat) (hs : 0 < occurs t s) : ∃ q ∈ leaves, q ∈ t ∧ q.syms = [s] := by
  have hx : 0 < occurs x s := by
    have := h.occurs_leaf_of_pairs hproper hc s
    rw [h.occurs_eq] at hs
    omega
  obtain ⟨p, hp, hsp⟩ := occurs_pos.1 hx
  have hpl : p ∈ leaves := h.first.subset hp
  obtain ⟨s', hs'⟩ := List.length_eq_one_iff.1 (hl.single p hpl)
  rw [hs', List.mem_singleton] at hsp
  exact ⟨p, hpl, h.perm.mem_iff.2 (List.mem_append_right _ hp), hsp ▸ hs'⟩

/-- The shares of the Kraft sum after one more round. -/
theorem RoundPrefix.kraft_next :
    2 * sumOver (symbols leaves) (fun s => 2 ^ (n + 1 - occurs t s)) + t.length * 2 ^ (n + 1) =
      2 * (leaves.length * 2 ^ (n + 1)) := by
  have hsum : sumOver (symbols leaves) (fun s => 2 ^ (n + 1 - occurs t s)) + x.length * 2 ^ n =
      sumOver (symbols leaves) (fun s => 2 ^ (n - occurs (l.take (2 * b)) s)) + leaves.length * 2 ^ n := by
    rw [← sumOver_occurs hl h.first, ← hl.length_symbols, ← sumOver_const]
    refine sumOver_add_congr fun s _ => ?_
    rw [h.occurs_eq]
    exact pow_sub_occurs (occurs_le_one hl h.first s) (h.occurs_leaf_of_pairs hproper hc s)
  have hkraft := hc.kraft
  rw [h.length_take, Nat.mul_assoc] at hkraft
  rw [h.length, Nat.pow_succ, ← Nat.mul_assoc, ← Nat.mul_assoc leaves.length, Nat.add_mul]
  omega

end

section
variable {leaves : List Package} (hl : Leaves leaves)
include hl

/-- What the first packages of a level hold, by induction on the rounds. -/
theorem prefixCounts_packageLevel : ∀ (n : Nat) {t : List Package}, t <+: packageLevel leaves n →
    PrefixCounts leaves n t
  | 0, t, ht => by
    cases List.prefix_nil.1 ht
    refine ⟨fun _ => Nat.le_refl 0, fun _ h => absurd h (Nat.lt_irrefl 0), ?_⟩
    show 2 * sumOver (symbols leaves) (fun _ => 1) + 0 = 2 * (leaves.length * 1)
    rw [sumOver_const, hl.length_symbols, Nat.add_zero]
  | n + 1, t, ht => by
    have hproper := packageLevel_proper hl n
    obtain ⟨b, x, h⟩ := exists_roundPrefix hl hproper (packageLevel_rise leaves n) ht
    have hc := prefixCounts_packageLevel n (List.take_prefix (2 * b) (packageLevel leaves n))
    refine ⟨fun s => ?_, h.leaf_next hproper hc hl, h.kraft_next hproper hc hl⟩
    rw [h.occurs_eq]
    exact Nat.add_le_add (hc.le s) (occurs_le_one hl h.first s)

end

/-! The packages that are selected (R183). -/

/-- A level is as long as the leaves allow: twice their number, but for what the rounds have not yet doubled. -/
theorem le_length_packageLevel (leaves : List Package) : ∀ (n k : Nat), leaves.length ≤ k * 2 ^ n →
    2 * leaves.length ≤ (packageLevel leaves n).length + 2 * k
  | 0, k, h => by
    rw [Nat.pow_zero, Nat.mul_one] at h
    exact Nat.le_trans (Nat.mul_le_mul_left 2 h) (Nat.le_add_left _ _)
  | n + 1, k, h => by
    rw [Nat.pow_succ, Nat.mul_comm (2 ^ n), ← Nat.mul_assoc, Nat.mul_comm k] at h
    have ih := le_length_packageLevel leaves n (2 * k) h
    rw [packageLevel, packageRound, length_sortPackages, List.length_append, length_pairPackages]
    omega

/-- The packages selected from the level of the limit (R183). -/
def selectedPackages (leaves : List Package) (limit : Nat) : List Package :=
  (packageLevel leaves limit).take (2 * leaves.length - 2)

section
variable {leaves : List Package} (hl : Leaves leaves)
include hl

theorem prefixCounts_selectedPackages (limit : Nat) : PrefixCounts leaves limit (selectedPackages leaves limit) :=
  prefixCounts_packageLevel hl limit (List.take_prefix _ _)

/-- The Kraft sum of the selected packages, where there are as many as wanted (R185). -/
theorem kraft_selectedPackages {limit : Nat} (htwo : 2 ≤ leaves.length)
    (hlen : 2 * leaves.length ≤ (packageLevel leaves limit).length + 2) :
    sumOver (symbols leaves) (fun s => 2 ^ (limit - occurs (selectedPackages leaves limit) s)) = 2 ^ limit := by
  have hkraft := (prefixCounts_selectedPackages hl limit).kraft
  have hcount : (selectedPackages leaves limit).length + 2 = 2 * leaves.length := by
    rw [selectedPackages, List.length_take_of_le (by omega)]
    omega
  have hshares : (selectedPackages leaves limit).length * 2 ^ limit + 2 * 2 ^ limit =
      2 * (leaves.length * 2 ^ limit) := by
    rw [← Nat.add_mul, hcount, Nat.mul_assoc]
  omega

/-- Every leaf's symbol is selected: either all packages are, or a symbol left out would fill the Kraft sum alone. -/
theorem occurs_selectedPackages_pos {limit s : Nat} (hlimit : 1 ≤ limit) (htwo : 2 ≤ leaves.length)
    (hs : s ∈ symbols leaves) : 0 < occurs (selectedPackages leaves limit) s := by
  rcases Nat.lt_or_ge (2 * leaves.length - 2) (packageLevel leaves limit).length with hlt | hge
  · have hkraft := kraft_selectedPackages hl (limit := limit) htwo (by omega)
    have hterm := lt_sumOver (f := fun s => 2 ^ (limit - occurs (selectedPackages leaves limit) s))
      (fun _ _ => Nat.two_pow_pos _) (by rwa [hl.length_symbols]) hs
    rw [hkraft] at hterm
    have := (Nat.pow_lt_pow_iff_right (Nat.lt_succ_self 1)).1 hterm
    omega
  · rw [selectedPackages, List.take_of_length_le hge]
    obtain ⟨p, hp, hsp⟩ := mem_symbols.1 hs
    obtain ⟨n, rfl⟩ := Nat.exists_eq_add_of_le' hlimit
    exact occurs_pos.2 ⟨p, (sortPackages_perm _).mem_iff.2 (List.mem_append_right _ hp), hsp⟩

end

/-! The leaves of a frequency list (R180). -/

theorem getD_of_lt {α : Type} {l : List α} {k : Nat} (h : k < l.length) (d : α) : l.getD k d = l[k] := by
  rw [List.getD_eq_getElem?_getD, List.getElem?_eq_getElem h, Option.getD_some]

theorem getD_of_ge {α : Type} {l : List α} {k : Nat} (h : l.length ≤ k) (d : α) : l.getD k d = d := by
  rw [List.getD_eq_getElem?_getD, List.getElem?_eq_none h, Option.getD_none]

theorem lt_length_of_getD_pos {l : List Nat} {k : Nat} (h : 0 < l.getD k 0) : k < l.length := by
  refine Nat.lt_of_not_le fun hk => ?_
  rw [getD_of_ge hk] at h
  exact Nat.lt_irrefl 0 h

/-- The symbols that occur, in ascending order (R180). -/
def usedIndices (freq : List Nat) : List Nat := (List.range freq.length).filter (fun i => decide (0 < freq.getD i 0))

theorem mem_usedIndices {freq : List Nat} {i : Nat} : i ∈ usedIndices freq ↔ 0 < freq.getD i 0 := by
  rw [usedIndices, List.mem_filter, List.mem_range, decide_eq_true_iff]
  exact ⟨And.right, fun h => ⟨lt_length_of_getD_pos h, h⟩⟩

theorem nodup_usedIndices (freq : List Nat) : (usedIndices freq).Nodup :=
  List.nodup_range.sublist List.filter_sublist

theorem usedIndices_cons (f : Nat) (fs : List Nat) :
    usedIndices (f :: fs) = (if 0 < f then [0] else []) ++ (usedIndices fs).map (· + 1) := by
  rw [usedIndices, List.length_cons, List.range_succ_eq_map, List.filter_cons, List.filter_map]
  rw [List.getD_cons_zero]
  by_cases hf : 0 < f
  · rw [if_pos hf, decide_eq_true hf]
    rfl
  · rw [if_neg hf, decide_eq_false hf]
    rfl

/-- The leaves written down at once (R180). -/
theorem leafPackages_eq_map : ∀ (s : Nat) (freq : List Nat),
    leafPackages s freq = (usedIndices freq).map (fun i => ⟨freq.getD i 0, [s + i]⟩)
  | _, [] => rfl
  | s, f :: fs => by
    have htail : leafPackages (s + 1) fs =
        ((usedIndices fs).map (· + 1)).map (fun i => ⟨(f :: fs).getD i 0, [s + i]⟩) := by
      rw [leafPackages_eq_map (s + 1) fs, List.map_map]
      refine List.map_congr_left fun i _ => ?_
      show (⟨_, [s + 1 + i]⟩ : Package) = ⟨_, [s + (i + 1)]⟩
      rw [List.getD_cons_succ, Nat.add_assoc, Nat.add_comm 1]
    rw [leafPackages, htail, usedIndices_cons, List.map_append]
    by_cases hf : 0 < f
    · rw [if_pos hf, if_pos hf]
      rfl
    · rw [if_neg hf, if_neg hf]
      rfl

theorem length_usedIndices (freq : List Nat) : (usedIndices freq).length = usedSymbols freq := by
  rw [← length_leafPackages 0 freq, leafPackages_eq_map, List.length_map]

/-- The leaves in the order of their keys, which package-merge starts from. -/
def sortedLeaves (freq : List Nat) : List Package := sortPackages (leafPackages 0 freq)

theorem length_sortedLeaves (freq : List Nat) : (sortedLeaves freq).length = usedSymbols freq := by
  rw [sortedLeaves, length_sortPackages, length_leafPackages]

theorem symbols_map_single (f : Nat → Nat) : ∀ l : List Nat, symbols (l.map fun i => ⟨f i, [0 + i]⟩) = l
  | [] => rfl
  | i :: l => by
    rw [List.map_cons, symbols_cons, symbols_map_single f l, Nat.zero_add]
    rfl

theorem symbols_sortedLeaves_perm (freq : List Nat) : (symbols (sortedLeaves freq)).Perm (usedIndices freq) := by
  have h := symbols_perm (sortPackages_perm (leafPackages 0 freq))
  rwa [leafPackages_eq_map, symbols_map_single, ← leafPackages_eq_map] at h

theorem mem_sortedLeaves {freq : List Nat} {p : Package} (hp : p ∈ sortedLeaves freq) :
    ∃ i, 0 < freq.getD i 0 ∧ p = ⟨freq.getD i 0, [0 + i]⟩ := by
  rw [sortedLeaves, (sortPackages_perm _).mem_iff, leafPackages_eq_map] at hp
  obtain ⟨i, hi, rfl⟩ := List.mem_map.1 hp
  exact ⟨i, mem_usedIndices.1 hi, rfl⟩

theorem sortedLeaves_leaves (freq : List Nat) : Leaves (sortedLeaves freq) where
  rise := sortPackages_rise _
  weight p hp := by
    obtain ⟨i, hi, rfl⟩ := mem_sortedLeaves hp
    exact hi
  single p hp := by
    obtain ⟨i, -, rfl⟩ := mem_sortedLeaves hp
    rfl
  nodup := (symbols_sortedLeaves_perm freq).nodup_iff.2 (nodup_usedIndices freq)

theorem mem_symbols_sortedLeaves {freq : List Nat} {s : Nat} :
    s ∈ symbols (sortedLeaves freq) ↔ 0 < freq.getD s 0 := by
  rw [(symbols_sortedLeaves_perm freq).mem_iff, mem_usedIndices]

/-! The code lengths (R182 to R184). -/

theorem packageMerge_of_none {freq : List Nat} (h : usedIndices freq = []) (limit : Nat) :
    packageMerge freq limit = (List.range freq.length).map (fun _ => 0) := by
  rw [packageMerge, leafPackages_eq_map, h]
  show freq.map (fun _ => 0) = _
  rw [List.map_const', List.map_const', List.length_range]

theorem packageMerge_of_one {freq : List Nat} {k : Nat} (h : usedIndices freq = [k]) (limit : Nat) :
    packageMerge freq limit = (List.range freq.length).map (fun s => if s = k then 1 else 0) := by
  rw [packageMerge, leafPackages_eq_map, h]
  show (List.range freq.length).map (fun s => if [0 + k].contains s = true then 1 else 0) = _
  refine List.map_congr_left fun s _ => ?_
  simp only [List.contains_iff_mem, List.mem_singleton, Nat.zero_add]

theorem packageMerge_of_many {freq : List Nat} {limit : Nat} (htwo : 2 ≤ usedSymbols freq) (hlimit : 1 ≤ limit) :
    packageMerge freq limit =
      (List.range freq.length).map (occurs (selectedPackages (sortedLeaves freq) limit)) := by
  obtain ⟨n, rfl⟩ := Nat.exists_eq_add_of_le' hlimit
  rw [packageMerge, selectedPackages, ← packageRounds_eq_packageLevel (sortedLeaves_leaves freq).rise]
  have hlength := length_sortedLeaves freq
  rw [sortedLeaves] at hlength ⊢
  split
  next h =>
    rw [h, List.length_nil] at hlength
    omega
  next h =>
    rw [h, List.length_singleton] at hlength
    omega
  next => rfl

theorem occurs_selectedPackages_pos_iff {freq : List Nat} {limit : Nat} (htwo : 2 ≤ usedSymbols freq)
    (hlimit : 1 ≤ limit) (s : Nat) :
    0 < occurs (selectedPackages (sortedLeaves freq) limit) s ↔ 0 < freq.getD s 0 := by
  have hleaves := sortedLeaves_leaves freq
  rw [← mem_symbols_sortedLeaves]
  refine ⟨fun h => ?_, occurs_selectedPackages_pos hleaves hlimit (by rwa [length_sortedLeaves])⟩
  obtain ⟨q, hq, -, hsyms⟩ := (prefixCounts_selectedPackages hleaves limit).leaf s h
  exact mem_symbols.2 ⟨q, hq, hsyms ▸ List.mem_singleton.2 rfl⟩

/-- Package-merge gives each symbol a length of its own, within the limit, and not 0 exactly where it is used. -/
theorem exists_packageMerge_eq_map (freq : List Nat) {limit : Nat} (hlimit : 1 ≤ limit) :
    ∃ f : Nat → Nat, packageMerge freq limit = (List.range freq.length).map f ∧
      ∀ s, f s ≤ limit ∧ (0 < f s ↔ 0 < freq.getD s 0) := by
  have hlength := length_usedIndices freq
  match h : usedIndices freq with
  | [] =>
    refine ⟨_, packageMerge_of_none h limit, fun s => ⟨Nat.zero_le limit, ?_⟩⟩
    rw [← mem_usedIndices, h]
    exact ⟨fun hs => absurd hs (Nat.lt_irrefl 0), fun hs => nomatch hs⟩
  | [k] =>
    refine ⟨_, packageMerge_of_one h limit, fun s => ?_⟩
    rw [← mem_usedIndices, h, List.mem_singleton]
    by_cases hs : s = k
    · rw [if_pos hs]
      exact ⟨hlimit, fun _ => hs, fun _ => Nat.one_pos⟩
    · rw [if_neg hs]
      exact ⟨Nat.zero_le limit, fun hpos => absurd hpos (Nat.lt_irrefl 0), fun e => absurd e hs⟩
  | _ :: _ :: _ =>
    have htwo : 2 ≤ usedSymbols freq := by
      rw [← hlength, h, List.length_cons, List.length_cons]
      omega
    exact ⟨_, packageMerge_of_many htwo hlimit, fun s =>
      ⟨(prefixCounts_selectedPackages (sortedLeaves_leaves freq) limit).le s,
        occurs_selectedPackages_pos_iff htwo hlimit s⟩⟩

theorem getD_map_range (f : Nat → Nat) (n k : Nat) :
    ((List.range n).map f).getD k 0 = if k < n then f k else 0 := by
  have hlength : ((List.range n).map f).length = n := by rw [List.length_map, List.length_range]
  split
  next h => rw [getD_of_lt (by rwa [hlength]), List.getElem_map, List.getElem_range]
  next h => exact getD_of_ge (by omega) 0

/-- Settles O28: the lengths count how often a symbol is selected, at most once in each round, and none is left out. -/
theorem packageMergeLengthsInRange : Obligations.PackageMergeLengthsInRange := by
  refine fun freq limit hlimit => ⟨length_packageMerge freq limit, fun k => ?_⟩
  obtain ⟨f, hf, hrange⟩ := exists_packageMerge_eq_map freq hlimit
  rw [hf, getD_map_range]
  split
  next => exact hrange k
  next hk =>
    rw [getD_of_ge (Nat.le_of_not_lt hk)]
    exact ⟨Nat.zero_le limit, Iff.rfl⟩

/-- The Kraft sum of the lengths `f` of the symbols below `n`. -/
theorem kraft_map_range (m n : Nat) (f : Nat → Nat) :
    kraft m ((List.range n).map f) =
      sumOver ((List.range n).filter (fun s => decide (0 < f s))) (fun s => 2 ^ (m - f s)) := by
  rw [kraft, List.filter_map, List.map_map]
  rfl

/-- Settles O29: with at most 2^L leaves there are as many packages as R183 selects, and their shares of the Kraft sum
add up. -/
theorem packageMergeKraftSumIsOne : Obligations.PackageMergeKraftSumIsOne := by
  intro freq limit htwo hle
  have hlimit : 1 ≤ limit := Nat.one_le_iff_ne_zero.2 fun h => by
    rw [h, Nat.pow_zero] at hle
    omega
  have hlength := length_sortedLeaves freq
  have hused : (List.range freq.length).filter
      (fun s => decide (0 < occurs (selectedPackages (sortedLeaves freq) limit) s)) = usedIndices freq :=
    List.filter_congr fun s _ => decide_eq_decide.2 (occurs_selectedPackages_pos_iff htwo hlimit s)
  rw [packageMerge_of_many htwo hlimit, kraft_map_range, hused, ← sumOver_perm (symbols_sortedLeaves_perm freq)]
  refine kraft_selectedPackages (sortedLeaves_leaves freq) (hlength ▸ htwo) ?_
  exact le_length_packageLevel _ limit 1 (by rwa [Nat.one_mul, hlength])

end Sys2Proof.Machine
end

section
/-! Canonical codes and the decode view (42_huffman.md R183, R184, R186 to R189; O30, O31, O32). The passes of R186 give
each symbol the code `canonCode`, which is written down without them; that the codes fit and none continues another is
then arithmetic, and DecodeSymbol on the view finds exactly the code that stands on the stream. -/

namespace Sys2Proof.Machine

/-! The codes of R186: the codes of each length are counted up from the first of that length. -/

/-- The code that R186 gives first at a length. -/
def firstCode (lens : List Nat) : Nat → Nat
  | 0 => 0
  | 1 => 0
  | l + 2 => 2 * (firstCode lens (l + 1) + lens.count (l + 1))

theorem firstCode_succ (lens : List Nat) {l : Nat} (h : 0 < l) :
    firstCode lens (l + 1) = 2 * (firstCode lens l + lens.count l) := by
  obtain ⟨l, rfl⟩ := Nat.exists_eq_add_of_lt h
  simp only [firstCode, Nat.zero_add]

/-- The code of symbol `k` (R186): as many after the first of its length as symbols of that length come before it. -/
def canonCode (lens : List Nat) (k : Nat) : Nat :=
  firstCode lens (lens.getD k 0) + (lens.take k).count (lens.getD k 0)

/-- A pass counts the code up once for each symbol of its length. -/
theorem assignLength_code (len : Nat) : ∀ (code : Nat) {lens codes : List Nat}, codes.length = lens.length →
    (assignLength len code lens codes).1 = code + lens.count len
  | _, [], [], _ => rfl
  | code, l :: lens, c :: codes, h => by
    have ih (code : Nat) := assignLength_code len code (lens := lens) (codes := codes) (Nat.succ.inj h)
    rw [assignLength, List.count_cons]
    split
    next hl =>
      rw [ih, if_pos (beq_iff_eq.2 hl)]
      omega
    next hl => rw [ih, if_neg (mt beq_iff_eq.1 hl), Nat.add_zero]

/-- A pass gives the symbols of its length their codes and leaves every other entry alone. -/
theorem getD_assignLength {len : Nat} (hlen : 0 < len) : ∀ (code : Nat) {lens codes : List Nat} (k : Nat),
    codes.length = lens.length → (assignLength len code lens codes).2.getD k 0 =
      if lens.getD k 0 = len then code + (lens.take k).count len else codes.getD k 0
  | _, [], [], k, _ => by
    rw [List.getD_nil, if_neg (Nat.ne_of_lt hlen)]
    rfl
  | code, l :: lens, c :: codes, 0, h => by
    rw [assignLength, List.getD_cons_zero, List.getD_cons_zero, List.take_zero, List.count_nil, Nat.add_zero]
    split
    next hl => rfl
    next hl => rfl
  | code, l :: lens, c :: codes, k + 1, h => by
    have ih (code : Nat) := getD_assignLength hlen code (lens := lens) (codes := codes) k (Nat.succ.inj h)
    rw [assignLength, List.take_succ_cons, List.count_cons]
    split
    next hl =>
      simp only [List.getD_cons_succ, ih, hl, beq_self_eq_true, if_true]
      split <;> omega
    next hl => simp only [List.getD_cons_succ, ih, beq_eq_false_iff_ne.2 hl, Bool.false_eq_true, if_false, Nat.add_zero]

/-- The passes over the lengths from `len` on give the symbols of those lengths their codes. -/
theorem getD_assignLengths (lens : List Nat) : ∀ (count : Nat) {len : Nat} {codes : List Nat} (k : Nat), 0 < len →
    codes.length = lens.length → (assignLengths lens count len (firstCode lens len) codes).getD k 0 =
      if len ≤ lens.getD k 0 ∧ lens.getD k 0 < len + count then canonCode lens k else codes.getD k 0
  | 0, len, codes, k, _, _ => by
    rw [assignLengths, if_neg (by omega)]
  | count + 1, len, codes, k, hlen, hcodes => by
    rw [assignLengths, assignLength_code len _ hcodes, ← firstCode_succ lens hlen,
      getD_assignLengths lens count k (Nat.succ_pos len) (by rwa [length_assignLength]),
      getD_assignLength hlen _ k hcodes]
    by_cases heq : lens.getD k 0 = len
    · rw [if_neg (by omega), if_pos heq, if_pos (by omega), canonCode, heq]
    · rw [if_neg heq]
      split
      next hin => rw [if_pos (by omega)]
      next hin => rw [if_neg (by omega)]

theorem getD_le_maxLength (lens : List Nat) (k : Nat) : lens.getD k 0 ≤ maxLength lens := by
  rcases Nat.lt_or_ge k lens.length with h | h
  · rw [getD_of_lt h]
    exact le_maxLength (List.getElem_mem h)
  · rw [getD_of_ge h]
    exact Nat.zero_le _

/-- Every symbol with a length has its code (R186). -/
theorem getD_canon {lens : List Nat} {k : Nat} (h : 0 < lens.getD k 0) : (canon lens).getD k 0 = canonCode lens k := by
  have hmax := getD_le_maxLength lens k
  exact (getD_assignLengths lens (maxLength lens) (len := 1) (codes := lens.map fun _ => 0) k
    Nat.one_pos (List.length_map _)).trans (if_pos (by omega))

/-! The codes of one length follow each other, and those of the next length start past the double of the last. -/

theorem count_take_lt_count {lens : List Nat} {k : Nat} (h : k < lens.length) :
    (lens.take k).count (lens.getD k 0) < lens.count (lens.getD k 0) := by
  rw [getD_of_lt h]
  calc (lens.take k).count lens[k]
    _ < (lens.take k).count lens[k] + (lens.drop k).count lens[k] := by
      rw [List.drop_eq_getElem_cons h, List.count_cons_self]
      omega
    _ = lens.count lens[k] := by rw [← List.count_append, List.take_append_drop]

theorem count_take_lt_count_take {lens : List Nat} {j k : Nat} (hjk : j < k) (hk : k < lens.length) :
    (lens.take j).count (lens.getD j 0) < (lens.take k).count (lens.getD j 0) := by
  have h := count_take_lt_count (lens := lens.take k) (k := j) (by rw [List.length_take]; omega)
  rwa [List.take_take, Nat.min_eq_left (Nat.le_of_lt hjk), List.getD_eq_getElem?_getD, List.getElem?_take_of_lt hjk,
    ← List.getD_eq_getElem?_getD] at h

theorem canonCode_lt {lens : List Nat} {k : Nat} (h : 0 < lens.getD k 0) :
    canonCode lens k < firstCode lens (lens.getD k 0) + lens.count (lens.getD k 0) :=
  Nat.add_lt_add_left (count_take_lt_count (lt_length_of_getD_pos h)) _

/-- Two symbols of one length have two codes. -/
theorem canonCode_ne {lens : List Nat} {j k : Nat} (hne : j ≠ k) (h : 0 < lens.getD j 0)
    (hlen : lens.getD j 0 = lens.getD k 0) : canonCode lens j ≠ canonCode lens k := by
  have hj := lt_length_of_getD_pos h
  have hk := lt_length_of_getD_pos (hlen ▸ h)
  rw [canonCode, canonCode, hlen]
  rcases Nat.lt_or_gt_of_ne hne with hlt | hlt
  · have := count_take_lt_count_take hlt hk
    rw [hlen] at this
    omega
  · have := count_take_lt_count_take hlt hj
    omega

/-- `d` lengths on, every code is past the codes that continue the code of symbol `j`. -/
theorem canonCode_succ_mul_le_firstCode {lens : List Nat} {j : Nat} (h : 0 < lens.getD j 0) : ∀ d : Nat,
    (canonCode lens j + 1) * 2 ^ (d + 1) ≤ firstCode lens (lens.getD j 0 + (d + 1))
  | 0 => by
    have := canonCode_lt h
    rw [firstCode_succ lens h]
    omega
  | d + 1 => by
    have ih := canonCode_succ_mul_le_firstCode h d
    rw [← Nat.add_assoc, firstCode_succ lens (by omega), Nat.pow_succ, ← Nat.mul_assoc]
    omega

/-- No code is the start of a code that is not shorter (R187). -/
theorem canonCode_div_ne {lens : List Nat} {j k : Nat} (hne : j ≠ k) (h : 0 < lens.getD j 0)
    (hle : lens.getD j 0 ≤ lens.getD k 0) :
    canonCode lens k / 2 ^ (lens.getD k 0 - lens.getD j 0) ≠ canonCode lens j := by
  obtain ⟨d, hd⟩ := Nat.exists_eq_add_of_le hle
  rw [hd, Nat.add_sub_cancel_left]
  cases d with
  | zero =>
    rw [Nat.pow_zero, Nat.div_one]
    exact (canonCode_ne hne h hd.symm).symm
  | succ d =>
    have hnext : (canonCode lens j + 1) * 2 ^ (d + 1) ≤ canonCode lens k :=
      Nat.le_trans (canonCode_succ_mul_le_firstCode h d) (hd ▸ Nat.le_add_right _ _)
    have := (Nat.le_div_iff_mul_le (Nat.two_pow_pos (d + 1))).2 hnext
    omega

/-! The Kraft sum bounds the codes (R185, R187). -/

/-- A length adds its share of the codes of length `m`. -/
theorem kraft_cons_of_pos (m : Nat) {l : Nat} (lens : List Nat) (h : 0 < l) :
    kraft m (l :: lens) = 2 ^ (m - l) + kraft m lens := by
  rw [kraft, List.filter_cons, if_pos (decide_eq_true h), List.map_cons, List.sum_cons, kraft]

theorem kraft_cons_zero (m : Nat) (lens : List Nat) : kraft m (0 :: lens) = kraft m lens := rfl

theorem kraft_le_kraft_cons (m l : Nat) (lens : List Nat) : kraft m lens ≤ kraft m (l :: lens) := by
  cases l with
  | zero => exact Nat.le_of_eq (kraft_cons_zero m lens).symm
  | succ l =>
    rw [kraft_cons_of_pos m lens (Nat.succ_pos l)]
    exact Nat.le_add_left _ _

theorem kraft_cons_le_kraft_cons (m l : Nat) {lens lens' : List Nat} (h : kraft m lens ≤ kraft m lens') :
    kraft m (l :: lens) ≤ kraft m (l :: lens') := by
  cases l with
  | zero => rwa [kraft_cons_zero, kraft_cons_zero]
  | succ l =>
    rw [kraft_cons_of_pos m lens (Nat.succ_pos l), kraft_cons_of_pos m lens' (Nat.succ_pos l)]
    exact Nat.add_le_add_left h _

theorem kraft_le_of_sublist {m : Nat} {lens lens' : List Nat} (h : lens.Sublist lens') :
    kraft m lens ≤ kraft m lens' := by
  induction h with
  | slnil => exact Nat.le_refl _
  | cons l _ ih => exact Nat.le_trans ih (kraft_le_kraft_cons m l _)
  | cons_cons l _ ih => exact kraft_cons_le_kraft_cons m l ih

theorem kraft_filter_le_succ (m l : Nat) : ∀ lens : List Nat,
    kraft m (lens.filter (· ≤ l + 1)) = kraft m (lens.filter (· ≤ l)) + lens.count (l + 1) * 2 ^ (m - (l + 1))
  | [] => (Nat.zero_add _).symm.trans (congrArg _ (Nat.zero_mul _).symm)
  | x :: lens => by
    have ih := kraft_filter_le_succ m l lens
    rw [List.filter_cons, List.filter_cons]
    rcases Nat.lt_trichotomy x (l + 1) with hlt | rfl | hgt
    · rw [if_pos (decide_eq_true (Nat.le_of_lt hlt)), if_pos (decide_eq_true (Nat.le_of_lt_succ hlt)),
        List.count_cons_of_ne (Nat.ne_of_lt hlt)]
      cases x with
      | zero => exact ih
      | succ x =>
        rw [kraft_cons_of_pos m _ (Nat.succ_pos x), kraft_cons_of_pos m _ (Nat.succ_pos x), ih, Nat.add_assoc]
    · rw [if_pos (decide_eq_true (Nat.le_refl _)), if_neg (mt of_decide_eq_true (Nat.not_succ_le_self l)),
        kraft_cons_of_pos m _ (Nat.succ_pos l), List.count_cons_self, ih, Nat.add_mul, Nat.one_mul,
        Nat.add_comm, Nat.add_assoc]
    · rw [if_neg (mt of_decide_eq_true (Nat.not_le.2 hgt)),
        if_neg (mt of_decide_eq_true (Nat.not_le.2 (Nat.lt_of_succ_lt hgt))),
        List.count_cons_of_ne (Nat.ne_of_gt hgt), ih]

/-- The codes up to a length, in units of the length `m`, fill what their symbols take from the Kraft sum. -/
theorem firstCode_mul_eq_kraft {m : Nat} (lens : List Nat) : ∀ {l : Nat}, l < m →
    firstCode lens (l + 1) * 2 ^ (m - (l + 1)) = kraft m (lens.filter (· ≤ l))
  | 0, _ => by
    have hzero : (lens.filter (· ≤ 0)).filter (fun l => decide (l > 0)) = [] :=
      List.filter_eq_nil_iff.2 fun l hl hpos =>
        absurd (of_decide_eq_true hpos) (Nat.not_lt.2 (of_decide_eq_true (List.mem_filter.1 hl).2))
    rw [kraft, hzero, firstCode, Nat.zero_mul]
    rfl
  | l + 1, hlt => by
    rw [firstCode_succ lens (Nat.succ_pos l), kraft_filter_le_succ, ← firstCode_mul_eq_kraft lens (by omega),
      ← Nat.add_mul, show m - (l + 1) = m - (l + 1 + 1) + 1 by omega, Nat.pow_succ, Nat.mul_comm 2, Nat.mul_assoc,
      Nat.mul_comm 2]

/-- A code fits its length (R187). -/
theorem canonCode_lt_two_pow {lens : List Nat} {m k : Nat} (hm : ∀ l ∈ lens, l ≤ m) (hkraft : kraft m lens ≤ 2 ^ m)
    (h : 0 < lens.getD k 0) : canonCode lens k < 2 ^ lens.getD k 0 := by
  have hk := lt_length_of_getD_pos h
  have hle : lens.getD k 0 ≤ m := by
    rw [getD_of_lt hk]
    exact hm _ (List.getElem_mem hk)
  have hcode := canonCode_lt h
  obtain ⟨l, hl⟩ := Nat.exists_eq_add_of_le' h
  rw [hl] at hcode hle ⊢
  refine Nat.lt_of_lt_of_le hcode (Nat.le_of_mul_le_mul_right ?_ (Nat.two_pow_pos (m - (l + 1))))
  calc (firstCode lens (l + 1) + lens.count (l + 1)) * 2 ^ (m - (l + 1))
    _ = kraft m (lens.filter (· ≤ l + 1)) := by rw [Nat.add_mul, firstCode_mul_eq_kraft lens hle, kraft_filter_le_succ]
    _ ≤ kraft m lens := kraft_le_of_sublist List.filter_sublist
    _ ≤ 2 ^ (l + 1) * 2 ^ (m - (l + 1)) := by rwa [← Nat.pow_add, Nat.add_sub_cancel' hle]

/-- Settles O30: the Kraft sum bounds the codes, and a length starts past every code that continues a shorter one. -/
theorem canonicalCodesPrefixFree : Obligations.CanonicalCodesPrefixFree := by
  refine fun lens m hm hkraft => ⟨fun k hk => ?_, fun j k hne hj hle => ?_⟩
  · rw [getD_canon hk]
    exact canonCode_lt_two_pow hm hkraft hk
  · rw [getD_canon hj, getD_canon (Nat.lt_of_lt_of_le hj hle)]
    exact canonCode_div_ne hne hj hle

/-! The decode view (R188). -/

/-- The entries are the codes of the symbols that have one. -/
theorem mem_viewEntries {e : CodeEntry} : ∀ {s : Nat} {lens codes : List Nat}, codes.length = lens.length →
    (e ∈ viewEntries s lens codes ↔ ∃ k, 0 < lens.getD k 0 ∧ e = ⟨lens.getD k 0, codes.getD k 0, s + k⟩)
  | s, [], [], _ => iff_of_false (fun h => nomatch h) fun ⟨_, hpos, _⟩ => absurd hpos (Nat.lt_irrefl 0)
  | s, l :: lens, c :: codes, h => by
    have ih := mem_viewEntries (e := e) (s := s + 1) (lens := lens) (codes := codes) (Nat.succ.inj h)
    have htail : (∃ k, 0 < lens.getD k 0 ∧ e = ⟨lens.getD k 0, codes.getD k 0, s + 1 + k⟩) ↔
        ∃ k, 0 < (l :: lens).getD (k + 1) 0 ∧
          e = ⟨(l :: lens).getD (k + 1) 0, (c :: codes).getD (k + 1) 0, s + (k + 1)⟩ := by
      simp only [List.getD_cons_succ, Nat.add_assoc, Nat.add_comm 1]
    rw [← Nat.or_exists_add_one, ← htail, ← ih, viewEntries, List.getD_cons_zero, List.getD_cons_zero, Nat.add_zero s]
    split
    next hl => rw [List.mem_cons, and_iff_right hl]
    next hl => rw [or_iff_right fun h => hl h.1]

theorem mem_decodeView_entries {lens : List Nat} {e : CodeEntry} :
    e ∈ (decodeView lens).entries ↔ ∃ k, 0 < lens.getD k 0 ∧ e = ⟨lens.getD k 0, canonCode lens k, k⟩ := by
  rw [decodeView, mem_viewEntries (length_canon lens)]
  refine exists_congr fun k => and_congr_right fun hk => ?_
  rw [getD_canon hk, Nat.zero_add]

/-- A lookup answers with a symbol of that code. -/
theorem canonCode_of_lookup {lens : List Nat} {n c j : Nat} (h : (decodeView lens).lookup n c = some j) :
    0 < lens.getD j 0 ∧ lens.getD j 0 = n ∧ canonCode lens j = c := by
  obtain ⟨e, he, rfl⟩ := Option.map_eq_some_iff.1 h
  obtain ⟨j, hj, rfl⟩ := mem_decodeView_entries.1 (List.mem_of_find?_eq_some he)
  have hmatch := List.find?_some he
  simp only [Bool.and_eq_true, beq_iff_eq] at hmatch
  exact ⟨hj, hmatch⟩

/-- Looking up the code of a symbol gives the symbol. -/
theorem lookup_canonCode {lens : List Nat} {k : Nat} (h : 0 < lens.getD k 0) :
    (decodeView lens).lookup (lens.getD k 0) (canonCode lens k) = some k := by
  cases hj : (decodeView lens).lookup (lens.getD k 0) (canonCode lens k) with
  | none =>
    have := List.find?_eq_none.1 (Option.map_eq_none_iff.1 hj) _ (mem_decodeView_entries.2 ⟨k, h, rfl⟩)
    simp only [beq_self_eq_true, Bool.and_self, not_true_eq_false] at this
  | some j =>
    obtain ⟨hpos, hlen, hcode⟩ := canonCode_of_lookup hj
    exact congrArg some (Decidable.byContradiction fun hne => canonCode_ne hne hpos hlen hcode)

/-- The first bits of a code are the code of no symbol. -/
theorem lookup_start_of_canonCode {lens : List Nat} {k n : Nat} (hn : n < lens.getD k 0) :
    (decodeView lens).lookup n (canonCode lens k / 2 ^ (lens.getD k 0 - n)) = none := by
  cases hj : (decodeView lens).lookup n (canonCode lens k / 2 ^ (lens.getD k 0 - n)) with
  | none => rfl
  | some j =>
    obtain ⟨hpos, rfl, hcode⟩ := canonCode_of_lookup hj
    exact absurd hcode.symm (canonCode_div_ne (fun e => by subst e; omega) hpos (Nat.le_of_lt hn))

theorem foldl_min_le : ∀ (ls : List Nat) (a : Nat), ls.foldl min a ≤ a ∧ ∀ l ∈ ls, ls.foldl min a ≤ l
  | [], a => ⟨Nat.le_refl a, fun _ h => nomatch h⟩
  | x :: xs, a => by
    obtain ⟨hacc, hmem⟩ := foldl_min_le xs (min a x)
    refine ⟨Nat.le_trans hacc (Nat.min_le_left a x), fun l hl => ?_⟩
    rcases List.mem_cons.1 hl with rfl | hl
    · exact Nat.le_trans hacc (Nat.min_le_right a l)
    · exact hmem l hl

theorem minLength_le {lens : List Nat} {l : Nat} (hl : l ∈ lens) (hpos : 0 < l) : minLength lens ≤ l := by
  have hmem : l ∈ lens.filter (fun l => decide (l > 0)) := List.mem_filter.2 ⟨hl, decide_eq_true hpos⟩
  unfold minLength
  split
  next h =>
    rw [h] at hmem
    cases hmem
  next x xs h =>
    rw [h] at hmem
    obtain ⟨hacc, hrest⟩ := foldl_min_le xs x
    rcases List.mem_cons.1 hmem with rfl | hmem
    · exact hacc
    · exact hrest l hmem

/-! DecodeSymbol (R189). -/

@[simp] theorem State.advance_zero (s : State) : s.advance 0 = s := by
  rw [State.advance, Nat.add_zero, BitVec.ofNat_toNat, BitVec.setWidth_eq]

theorem State.toNat_brPos_advance {s : State} (hreg : s.srcRegionOk = true) {n : Nat}
    (h : s.brPos.toNat + n ≤ s.srcBits) : (s.advance n).brPos.toNat = s.brPos.toNat + n := by
  have hbits : s.srcBits < 4294967296 := bits_lt_of_regionFits hreg
  exact Nat.mod_eq_of_lt (Nat.lt_of_le_of_lt h hbits)

/-- One more bit of a code read from `s` on. -/
theorem readRange_next {s : State} (hreg : s.srcRegionOk = true) {len : Nat} (h : s.brPos.toNat + (len + 1) ≤ s.srcBits)
    (eof : CmdError) : ∃ bit, (s.advance len).readRange 1 eof = .ok (bit, s.advance (len + 1)) ∧
      2 * natOfMsb 0 (s.srcBitList s.brPos.toNat len) + bit = natOfMsb 0 (s.srcBitList s.brPos.toNat (len + 1)) := by
  have hpos := s.toNat_brPos_advance hreg (n := len) (by omega)
  have hbit : (s.advance len).nextBits 1 = (s.srcBit (s.brPos.toNat + len)).toNat := by
    rw [State.nextBits, hpos]
    rfl
  have hadvance : (s.advance len).advance 1 = s.advance (len + 1) := by
    rw [State.advance, hpos]
    rfl
  refine ⟨_, ?_, (natOfMsb_srcBitList_succ s _ _).symm⟩
  rw [readRange_advance (by rw [hpos]; exact h), hbit, hadvance]

section
variable {v : DecodeView} {s : State} (hreg : s.srcRegionOk = true)
include hreg

theorem decodeBits_hit (eof : CmdError) (fuel : Nat) {len sym : Nat} (h : s.brPos.toNat + (len + 1) ≤ s.srcBits)
    (hmin : v.minLen ≤ len + 1)
    (hsym : v.lookup (len + 1) (natOfMsb 0 (s.srcBitList s.brPos.toNat (len + 1))) = some sym) :
    State.decodeBits v eof (fuel + 1) len (natOfMsb 0 (s.srcBitList s.brPos.toNat len)) (s.advance len) =
      .ok (sym, s.advance (len + 1)) := by
  obtain ⟨bit, hread, hcode⟩ := readRange_next hreg h eof
  simp only [State.decodeBits, hread, hcode, if_pos hmin, hsym]

theorem decodeBits_miss (eof : CmdError) (fuel : Nat) {len : Nat} (h : s.brPos.toNat + (len + 1) ≤ s.srcBits)
    (hmax : len + 1 < v.maxLen)
    (hnone : v.lookup (len + 1) (natOfMsb 0 (s.srcBitList s.brPos.toNat (len + 1))) = none) :
    State.decodeBits v eof (fuel + 1) len (natOfMsb 0 (s.srcBitList s.brPos.toNat len)) (s.advance len) =
      State.decodeBits v eof fuel (len + 1) (natOfMsb 0 (s.srcBitList s.brPos.toNat (len + 1)))
        (s.advance (len + 1)) := by
  obtain ⟨bit, hread, hcode⟩ := readRange_next hreg h eof
  simp only [State.decodeBits, hread, hcode, hnone, ite_self, if_neg (Nat.not_le.2 hmax)]

variable {l sym : Nat} (hmin : v.minLen ≤ l) (hmax : l ≤ v.maxLen) (hfit : s.brPos.toNat + l ≤ s.srcBits)
  (hnone : ∀ n < l, v.lookup n (natOfMsb 0 (s.srcBitList s.brPos.toNat n)) = none)
  (hsym : v.lookup l (natOfMsb 0 (s.srcBitList s.brPos.toNat l)) = some sym)
include hmin hmax hfit hnone hsym

/-- The loop of R189 where the first `l` bits are the code of a symbol and no fewer are, with `d + 1` bits to come. -/
theorem decodeBits_match (eof : CmdError) : ∀ {d fuel len : Nat}, len + (d + 1) = l → d + 1 ≤ fuel →
    State.decodeBits v eof fuel len (natOfMsb 0 (s.srcBitList s.brPos.toNat len)) (s.advance len) =
      .ok (sym, s.advance l)
  | _, 0, _, _, hfuel => absurd hfuel (Nat.not_succ_le_zero _)
  | 0, fuel + 1, len, hl, _ => by
    subst hl
    exact decodeBits_hit hreg eof fuel hfit hmin hsym
  | d + 1, fuel + 1, len, hl, hfuel => by
    rw [decodeBits_miss hreg eof fuel (by omega) (by omega) (hnone _ (by omega))]
    exact decodeBits_match eof (by omega) (Nat.le_of_succ_le_succ hfuel)

/-- DecodeSymbol where the next `l` bits are the code of a symbol and no fewer are (R189). -/
theorem decodeSymbol_match (eof : CmdError) (hl : 0 < l) : s.decodeSymbol v eof = .ok (sym, s.advance l) := by
  rw [State.decodeSymbol, if_neg (by omega)]
  obtain ⟨d, hd⟩ := Nat.exists_eq_add_of_le' hl
  have h := decodeBits_match hreg hmin hmax hfit hnone hsym eof (d := d) (fuel := v.maxLen) (len := 0) (by omega)
    (by omega)
  rwa [State.advance_zero] at h

end

/-- The first `n` bits of a code that stands on the stream, MSB-first. -/
theorem natOfMsb_start_of_code {s : State} {p l c n : Nat} (hbits : s.srcBitList p l = bitsMsb l c) (hc : c < 2 ^ l)
    (hn : n ≤ l) : natOfMsb 0 (s.srcBitList p n) = c / 2 ^ (l - n) := by
  have hvalue : natOfMsb 0 (s.srcBitList p (n + (l - n))) = c := by
    rw [Nat.add_sub_cancel' hn, hbits, natOfMsb_bitsMsb, Nat.mod_eq_of_lt hc]
  rw [srcBitList_append, natOfMsb_append, natOfMsb_eq] at hvalue
  have hlt := natOfLsb_lt (s.srcBitList (p + n) (l - n)).reverse
  rw [List.length_reverse] at hlt
  rw [length_srcBitList] at hlt hvalue
  rw [← hvalue, Nat.mul_comm, Nat.mul_add_div (Nat.two_pow_pos _), Nat.div_eq_of_lt hlt, Nat.add_zero]

/-- Settles O31: the loop finds no code in the first bits of the code of `k`, and `k` at its last. -/
theorem decodeSymbolReadsItsCode : Obligations.DecodeSymbolReadsItsCode := by
  intro lens m k s eof hm hkraft hk hreg hfit hbits
  rw [getD_canon hk] at hbits
  have hcode (n : Nat) (hn : n ≤ lens.getD k 0) :
      natOfMsb 0 (s.srcBitList s.brPos.toNat n) = canonCode lens k / 2 ^ (lens.getD k 0 - n) :=
    natOfMsb_start_of_code hbits (canonCode_lt_two_pow hm hkraft hk) hn
  have hmem : lens.getD k 0 ∈ lens := by
    rw [getD_of_lt (lt_length_of_getD_pos hk)]
    exact List.getElem_mem _
  refine decodeSymbol_match hreg (minLength_le hmem hk) (le_maxLength hmem) hfit (fun n hn => ?_) ?_ eof hk
  · rw [hcode n (Nat.le_of_lt hn)]
    exact lookup_start_of_canonCode hn
  · rw [hcode _ (Nat.le_refl _), Nat.sub_self, Nat.pow_zero, Nat.div_one]
    exact lookup_canonCode hk

/-! One used symbol, and none (R183, R184). -/

theorem usedIndices_eq_singleton {freq : List Nat} {k : Nat} (hk : 0 < freq.getD k 0)
    (hothers : ∀ j, j ≠ k → freq.getD j 0 = 0) : usedIndices freq = [k] := by
  refine List.perm_singleton.1
    ((List.perm_ext_iff_of_nodup (nodup_usedIndices freq) (List.pairwise_singleton _ k)).2 ?_)
  intro j
  rw [mem_usedIndices, List.mem_singleton]
  refine ⟨fun hj => ?_, fun hj => hj ▸ hk⟩
  exact Decidable.byContradiction fun hne => absurd (hothers j hne) (Nat.ne_of_gt hj)

theorem usedIndices_eq_nil {freq : List Nat} (h : ∀ f ∈ freq, f = 0) : usedIndices freq = [] := by
  refine List.eq_nil_iff_forall_not_mem.2 fun j hj => ?_
  have hpos := mem_usedIndices.1 hj
  rw [getD_of_lt (lt_length_of_getD_pos hpos), h _ (List.getElem_mem _)] at hpos
  exact Nat.lt_irrefl 0 hpos

theorem maxLength_of_zeros {lens : List Nat} (h : ∀ l ∈ lens, l = 0) : maxLength lens = 0 := by
  rw [List.eq_replicate_of_mem h, maxLength]
  induction lens.length with
  | zero => rfl
  | succ n ih => exact ih

/-- The first symbol of length 1 has the code 0. -/
theorem canonCode_of_first {lens : List Nat} {k : Nat} (hk : lens.getD k 0 = 1) (hbefore : ∀ j < k, lens.getD j 0 ≠ 1) :
    canonCode lens k = 0 := by
  have hcount : (lens.take k).count 1 = 0 := List.count_eq_zero.2 fun hmem => by
    obtain ⟨j, hj, hval⟩ := List.mem_take_iff_getElem.1 hmem
    refine hbefore j (by omega) ?_
    rw [getD_of_lt (by omega), hval]
  rw [canonCode, hk, hcount, firstCode]

/-- Settles O32: the one symbol is the first of length 1, and a table of zeros has no largest length. -/
theorem singleAndEmptyTables : Obligations.SingleAndEmptyTables := by
  refine ⟨fun freq limit k hk hothers => ?_, fun freq limit s eof hzero => ?_⟩
  · have hlens (j : Nat) : (packageMerge freq limit).getD j 0 = if j = k then 1 else 0 := by
      have hlt := lt_length_of_getD_pos hk
      rw [packageMerge_of_one (usedIndices_eq_singleton hk hothers), getD_map_range]
      split
      next => rfl
      next hj => rw [if_neg (by omega)]
    have hone : (packageMerge freq limit).getD k 0 = 1 := (hlens k).trans (if_pos rfl)
    refine ⟨hlens, ?_⟩
    rw [getD_canon (hone ▸ Nat.one_pos), canonCode_of_first hone]
    intro j hj
    rw [hlens, if_neg (Nat.ne_of_lt hj)]
    exact Nat.zero_ne_one
  · have hlens : ∀ l ∈ packageMerge freq limit, l = 0 := by
      rw [packageMerge_of_none (usedIndices_eq_nil hzero)]
      intro l hl
      obtain ⟨_, _, hzero⟩ := List.mem_map.1 hl
      exact hzero.symm
    exact ⟨hlens, if_pos (maxLength_of_zeros hlens)⟩

end Sys2Proof.Machine
end

section
/-! HUFF_BUILD (42_huffman.md R195; O27): its checks in order, and the records it writes. -/

namespace Sys2Proof.Machine

/-! The records of the destination region (20_memory.md R63). -/

theorem dstByteAddr_dstByteWrite (s : State) (i j : Nat) (b : Byte) :
    (s.dstByteWrite i b).dstByteAddr j = s.dstByteAddr j := rfl

theorem dstWord_mem (s : State) (k : Nat) (w : Word) :
    (s.dstWord k w).mem =
      (((s.mem.write (s.dstByteAddr (4 * k)).toNat (w.extractLsb' 0 8)).write (s.dstByteAddr (4 * k + 1)).toNat
        (w.extractLsb' 8 8)).write (s.dstByteAddr (4 * k + 2)).toNat (w.extractLsb' 16 8)).write
          (s.dstByteAddr (4 * k + 3)).toNat (w.extractLsb' 24 8) := by
  simp only [State.dstWord, State.dstByteWrite_mem, dstByteAddr_dstByteWrite]

theorem dstByteAddr_dstWord (s : State) (k : Nat) (w : Word) (i : Nat) :
    (s.dstWord k w).dstByteAddr i = s.dstByteAddr i := by
  simp only [State.dstWord, dstByteAddr_dstByteWrite]

theorem dstRegionOk_dstWord (s : State) (k : Nat) (w : Word) : (s.dstWord k w).dstRegionOk = s.dstRegionOk := by
  simp only [State.dstRegionOk, State.dstWord, State.dstByteWrite_dstAddr, State.dstByteWrite_dstCap]

theorem dstCap_dstWord (s : State) (k : Nat) (w : Word) : (s.dstWord k w).dstCap = s.dstCap := by
  simp only [State.dstWord, State.dstByteWrite_dstCap]

theorem dstByteRead_dstWord (s : State) (k : Nat) (w : Word) (i : Nat) :
    (s.dstWord k w).dstByteRead i = (s.dstWord k w).mem.read (s.dstByteAddr i).toNat := by
  rw [State.dstByteRead, State.readMem, dstByteAddr_dstWord]

theorem dstWordAt_dstWord {s : State} (hreg : s.dstRegionOk = true) {k : Nat} (h : 4 * k + 4 ≤ s.dstCap.toNat)
    (w : Word) : (s.dstWord k w).dstWordAt k = w.toNat := by
  have haddr (i j : Nat) (hi : i < 4 * k + 4) (hj : j < 4 * k + 4) :
      (s.dstByteAddr i).toNat = (s.dstByteAddr j).toNat ↔ i = j :=
    ⟨dstByteAddr_inj hreg (by omega) (by omega), fun e => e ▸ rfl⟩
  have hread (i j : Nat) (hi : i < 4 * k + 4) (hj : j < 4 * k + 4) (m : Memory) (b : Byte) :
      (m.write (s.dstByteAddr i).toNat b).read (s.dstByteAddr j).toNat =
        if j = i then b else m.read (s.dstByteAddr j).toNat := by
    rw [Memory.read_write]
    exact ite_congr (propext (haddr j i hj hi)) (fun _ => rfl) fun _ => rfl
  have hw := w.isLt
  rw [State.dstWordAt, dstByteRead_dstWord, dstByteRead_dstWord, dstByteRead_dstWord, dstByteRead_dstWord, dstWord_mem]
  simp (disch := omega) only [hread, if_true, if_neg, BitVec.extractLsb'_toNat, Nat.shiftRight_eq_div_pow]
  omega

/-- A record leaves every byte but its four as it was. -/
theorem read_dstWord_other (s : State) (k : Nat) (w : Word) {a : Nat}
    (ha : ∀ j, 4 * k ≤ j → j < 4 * k + 4 → a ≠ (s.dstByteAddr j).toNat) :
    (s.dstWord k w).mem.read a = s.mem.read a := by
  rw [dstWord_mem, Memory.read_write_other (ha _ (by omega) (by omega)),
    Memory.read_write_other (ha _ (by omega) (by omega)), Memory.read_write_other (ha _ (by omega) (by omega)),
    Memory.read_write_other (ha _ (by omega) (by omega))]

/-- Records leave every byte but theirs as it was. -/
theorem read_dstWords_other {a : Nat} : ∀ (ws : List Word) (k : Nat) (s : State),
    (∀ j, 4 * k ≤ j → j < 4 * (k + ws.length) → a ≠ (s.dstByteAddr j).toNat) →
    (State.dstWords k ws s).mem.read a = s.mem.read a
  | [], _, _, _ => rfl
  | w :: ws, k, s, ha => by
    rw [List.length_cons] at ha
    rw [State.dstWords, read_dstWords_other ws (k + 1) (s.dstWord k w) fun j hj hlt => ?_,
      read_dstWord_other s k w fun j hj hlt => ha j hj (by omega)]
    rw [dstByteAddr_dstWord]
    exact ha j (by omega) (by omega)

theorem dstAddr_dstWords (ws : List Word) (k : Nat) (s : State) : (State.dstWords k ws s).dstAddr = s.dstAddr := by
  rw [State.dstWords_frame]

theorem dstByteRead_dstWords (ws : List Word) (k : Nat) (s : State) (i : Nat) :
    (State.dstWords k ws s).dstByteRead i = (State.dstWords k ws s).mem.read (s.dstByteAddr i).toNat := by
  simp only [State.dstByteRead, State.readMem, State.dstByteAddr, dstAddr_dstWords]

/-- Records after record `i` leave it as it was. -/
theorem dstWordAt_dstWords_later {s : State} (hreg : s.dstRegionOk = true) (ws : List Word) {i k : Nat} (hik : i < k)
    (h : 4 * (k + ws.length) ≤ s.dstCap.toNat) : (State.dstWords k ws s).dstWordAt i = s.dstWordAt i := by
  have hbyte (b : Nat) (hb : b < 4 * k) : (State.dstWords k ws s).dstByteRead b = s.dstByteRead b := by
    rw [dstByteRead_dstWords]
    exact read_dstWords_other ws k s fun j hj hlt e => by
      have := dstByteAddr_inj hreg (i := b) (j := j) (by omega) (by omega) e
      omega
  rw [State.dstWordAt, State.dstWordAt, hbyte _ (by omega), hbyte _ (by omega), hbyte _ (by omega), hbyte _ (by omega)]

/-- Records that fit the region can be read there. -/
theorem dstWordAt_dstWords (ws : List Word) {s : State} (hreg : s.dstRegionOk = true) {k : Nat}
    (h : 4 * (k + ws.length) ≤ s.dstCap.toNat) (i : Nat) (hi : i < ws.length) :
    (State.dstWords k ws s).dstWordAt (k + i) = ws[i].toNat := by
  induction ws generalizing s k i with
  | nil => exact absurd hi (Nat.not_lt_zero i)
  | cons w ws ih =>
    rw [List.length_cons] at h hi
    have hreg' : (s.dstWord k w).dstRegionOk = true := by rwa [dstRegionOk_dstWord]
    have hfits : 4 * (k + 1 + ws.length) ≤ (s.dstWord k w).dstCap.toNat := by
      rw [dstCap_dstWord]
      omega
    rw [State.dstWords]
    cases i with
    | zero =>
      rw [Nat.add_zero k, dstWordAt_dstWords_later hreg' ws (Nat.lt_add_one k) hfits]
      exact dstWordAt_dstWord hreg (by omega) w
    | succ i =>
      rw [← Nat.add_assoc, Nat.add_right_comm]
      exact ih hreg' hfits i (Nat.lt_of_succ_lt_succ hi)

/-! The command. -/

theorem exec_huffBuild (l : BitVec 4) (s : State) :
    exec (.huffBuild l) s = s.conclude State.raise (s.huffBuild l.toNat) := rfl

theorem require_bind_of_true {β : Type} {ok : Bool} {e : CmdError} (h : ok = true) (f : Unit → Except CmdError β) :
    require ok e >>= f = f () := by
  rw [h]
  rfl

theorem require_bind_of_false {β : Type} {ok : Bool} {e : CmdError} (h : ok = false) (f : Unit → Except CmdError β) :
    require ok e >>= f = .error e := by
  rw [h]
  rfl

/-- The state with the code records of the lengths `lens` written, and OUT_LEN their size (R195). -/
def State.writeCodeRecords (s : State) (lens : List Nat) : State :=
  { State.dstWords 0 (codeRecords lens (canon lens)) s with outLen := BitVec.ofNat 32 (4 * s.nsym.toNat) }

theorem huffBuild_badRegion {s : State} (h : s.bothRegionsOk = false) (l : Nat) :
    s.huffBuild l = .error .illegalCommand :=
  require_bind_of_false h _

/-- HUFF_BUILD's check of NSYM (R195). -/
theorem nsymCheck_eq (n : Nat) :
    (decide (1 ≤ n) && decide (n ≤ Config.nsymMax)) = decide (1 ≤ n ∧ n ≤ 288) :=
  (Bool.decide_and _ _).symm

section
variable {s : State} (hreg : s.bothRegionsOk = true)
include hreg

theorem huffBuild_badNsym (h : s.nsym.toNat < 1 ∨ s.nsym.toNat > 288) (l : Nat) :
    s.huffBuild l = .error .illegalCommand := by
  have hcheck : decide (1 ≤ s.nsym.toNat ∧ s.nsym.toNat ≤ 288) = false := decide_eq_false (by omega)
  exact (require_bind_of_true hreg _).trans (require_bind_of_false ((nsymCheck_eq _).trans hcheck) _)

variable (hmin : 1 ≤ s.nsym.toNat) (hmax : s.nsym.toNat ≤ 288)
include hmin hmax

theorem huffBuild_tooSmall (h : s.srcLen.toNat < 4 * s.nsym.toNat ∨ s.dstCap.toNat < 4 * s.nsym.toNat) (l : Nat) :
    s.huffBuild l = .error .outOfRange := by
  refine (require_bind_of_true hreg _).trans ?_
  refine (require_bind_of_true ((nsymCheck_eq _).trans (decide_eq_true ⟨hmin, hmax⟩)) _).trans ?_
  rcases Nat.lt_or_ge s.srcLen.toNat (4 * s.nsym.toNat) with hsrc | hsrc
  · exact require_bind_of_false (decide_eq_false (Nat.not_le.2 hsrc)) _
  · have hdst : s.dstCap.toNat < 4 * s.nsym.toNat := h.resolve_left (Nat.not_lt.2 hsrc)
    exact (require_bind_of_true (decide_eq_true hsrc) _).trans
      (require_bind_of_false (decide_eq_false (Nat.not_le.2 hdst)) _)

variable (hsrc : 4 * s.nsym.toNat ≤ s.srcLen.toNat) (hdst : 4 * s.nsym.toNat ≤ s.dstCap.toNat)
include hsrc hdst

/-- With the regions and NSYM in order, the check on the used symbols decides (R195). -/
theorem huffBuild_eq_require (l : Nat) :
    s.huffBuild l = require (decide (usedSymbols s.frequencyRecords ≤ 2 ^ l)) .illegalCommand >>= fun _ =>
      .ok (s.writeCodeRecords (packageMerge s.frequencyRecords l)) :=
  (require_bind_of_true hreg _).trans <|
    (require_bind_of_true ((nsymCheck_eq _).trans (decide_eq_true ⟨hmin, hmax⟩)) _).trans <|
      (require_bind_of_true (decide_eq_true hsrc) _).trans (require_bind_of_true (decide_eq_true hdst) _)

theorem huffBuild_tooMany {l : Nat} (h : 2 ^ l < usedSymbols s.frequencyRecords) :
    s.huffBuild l = .error .illegalCommand := by
  rw [huffBuild_eq_require hreg hmin hmax hsrc hdst, require_bind_of_false (decide_eq_false (Nat.not_le.2 h))]

theorem huffBuild_ok {l : Nat} (h : usedSymbols s.frequencyRecords ≤ 2 ^ l) :
    s.huffBuild l = .ok (s.writeCodeRecords (packageMerge s.frequencyRecords l)) := by
  rw [huffBuild_eq_require hreg hmin hmax hsrc hdst, require_bind_of_true (decide_eq_true h)]

end

@[simp] theorem length_codeRecords (lens : List Nat) : (codeRecords lens (canon lens)).length = lens.length := by
  rw [codeRecords, List.length_zipWith, length_canon, Nat.min_self]

theorem getElem_codeRecords (lens : List Nat) (k : Nat) (hk : k < (codeRecords lens (canon lens)).length) :
    (codeRecords lens (canon lens))[k] = BitVec.ofNat 32 ((canon lens).getD k 0 ||| lens.getD k 0 <<< 16) := by
  rw [length_codeRecords] at hk
  rw [getD_of_lt hk, getD_of_lt (by rwa [length_canon])]
  exact List.getElem_zipWith

/-- What the records of a whole alphabet change: OUT_LEN, and the first 4 * NSYM bytes of the destination. -/
theorem writeCodeRecords_spec {s : State} (hreg : s.dstRegionOk = true) {lens : List Nat}
    (hlength : lens.length = s.nsym.toNat) (hdst : 4 * s.nsym.toNat ≤ s.dstCap.toNat) :
    s.writeCodeRecords lens =
        { s with mem := (s.writeCodeRecords lens).mem, outLen := BitVec.ofNat 32 (4 * s.nsym.toNat) } ∧
      (∀ k < s.nsym.toNat, (s.writeCodeRecords lens).dstWordAt k =
        (BitVec.ofNat 32 ((canon lens).getD k 0 ||| lens.getD k 0 <<< 16)).toNat) ∧
      SameBytes (s.OutsideFirst (4 * s.nsym.toNat)) s (s.writeCodeRecords lens) := by
  have hwords : (codeRecords lens (canon lens)).length = s.nsym.toNat := (length_codeRecords lens).trans hlength
  refine ⟨?_, fun k hk => ?_, fun a ha => ?_⟩
  · rw [State.writeCodeRecords, State.dstWords_frame]
  · have hrecord := dstWordAt_dstWords (codeRecords lens (canon lens)) hreg (k := 0) (by rwa [hwords, Nat.zero_add]) k
      (by rwa [hwords])
    rw [Nat.zero_add, getElem_codeRecords] at hrecord
    exact hrecord
  · exact read_dstWords_other (codeRecords lens (canon lens)) 0 s fun j _ hj =>
      ha j (by rwa [hwords, Nat.zero_add] at hj)

/-- Settles O27: the checks of R195 in their order, then one record for each symbol. -/
theorem huffBuildWritesCodeRecords : Obligations.HuffBuildWritesCodeRecords := by
  refine ⟨fun l s _ _ => ?_, by decide +kernel⟩
  simp only [exec_huffBuild]
  refine ⟨fun hbad => ?_, fun hreg hn => ?_, fun hreg hmin hmax hsmall => ?_,
    fun hreg hmin hmax hsrc hdst => ⟨fun hmany => ?_, fun hfew => ?_⟩⟩
  · rw [huffBuild_badRegion hbad, State.conclude_raise]
  · rw [huffBuild_badNsym hreg hn, State.conclude_raise]
  · rw [huffBuild_tooSmall hreg hmin hmax hsmall, State.conclude_raise]
  · rw [huffBuild_tooMany hreg hmin hmax hsrc hdst hmany, State.conclude_raise]
  · rw [huffBuild_ok hreg hmin hmax hsrc hdst hfew, State.conclude_ok]
    have hlength : (packageMerge s.frequencyRecords l.toNat).length = s.nsym.toNat := by
      rw [length_packageMerge, State.frequencyRecords, List.length_map, List.length_range]
    obtain ⟨hframe, hrecords, hkept⟩ := writeCodeRecords_spec (State.bothRegionsOk_dst hreg) hlength hdst
    exact ⟨_, rfl, congrArg State.finished hframe, hrecords, hkept⟩

end Sys2Proof.Machine
end

section
/-! A step inside a Run of DECOMPRESS (45_deflate_decode.md R264, R275; O7): the symbol fetched, or the error of its
fetch. -/

namespace Sys2Proof.Machine

theorem step_eq_streamStep {s : State} {d : Decoder} (hwork : s.work = some d) : step s = s.streamStep := by
  rw [step, agentStep, hwork]

theorem toNat_ofNat_of_lt {w n : Nat} (h : n < 2 ^ w) : (BitVec.ofNat w n).toNat = n := Nat.mod_eq_of_lt h

/-- The number the FSM fetched and the selector it stands for run alike. -/
theorem runSymbol_eq_runSelector {p : Phase} {n : Nat} {x : Selector} (h : p.selector n = some x) (t : State) :
    t.runSymbol p n = t.runSelector x := by
  cases p with
  | header =>
    obtain ⟨hn, ⟨⟩⟩ := Option.ite_none_right_eq_some.1 h
    rw [State.runSymbol, State.runSelector, toNat_ofNat_of_lt (by omega)]
  | lengths nLit total ct seq =>
    obtain ⟨hn, ⟨⟩⟩ := Option.ite_none_right_eq_some.1 h
    rw [State.runSymbol, State.runSelector, toNat_ofNat_of_lt (by omega)]
  | data lt dt =>
    obtain ⟨hn, ⟨⟩⟩ := Option.ite_none_right_eq_some.1 h
    rw [State.runSymbol, State.runSelector, toNat_ofNat_of_lt (by omega)]
  | distance lt dt length =>
    obtain ⟨hn, ⟨⟩⟩ := Option.ite_none_right_eq_some.1 h
    rw [State.runSymbol, State.runSelector, toNat_ofNat_of_lt (by omega)]

theorem selector_ne_command {p : Phase} {n : Nat} {x : Selector} (h : p.selector n = some x) (w : Word) :
    x ≠ .command w := by
  rintro rfl
  cases p with
  | header => exact nomatch (Option.ite_none_right_eq_some.1 h).2
  | lengths nLit total ct seq => exact nomatch (Option.ite_none_right_eq_some.1 h).2
  | data lt dt => exact nomatch (Option.ite_none_right_eq_some.1 h).2
  | distance lt dt length => exact nomatch (Option.ite_none_right_eq_some.1 h).2

section
variable {s : State} {d : Decoder} (hwork : s.work = some d)
include hwork

theorem step_of_fetch {n : Nat} {t : State} (h : s.fetchSymbol d = .ok (n, t)) : step s = t.runSymbol d.phase n := by
  simp only [step_eq_streamStep hwork, State.streamStep, hwork, h]

theorem step_of_fetch_error {e : CmdError} (h : s.fetchSymbol d = .error e) : step s = .next (s.decodeFailed e) := by
  simp only [step_eq_streamStep hwork, State.streamStep, hwork, h, State.raiseDecompress_eq]

end

/-- A header needs three bits (R261, R264). -/
theorem fetchSymbol_header_truncated {s : State} {d : Decoder} (hreg : s.srcRegionOk = true)
    (hphase : d.phase = .header) (h : s.srcBits < s.brPos.toNat + 3) : s.fetchSymbol d = .error .truncated := by
  simp only [State.fetchSymbol, hphase]
  rcases Nat.lt_or_ge s.srcBits (s.brPos.toNat + 1) with hone | hone
  · rw [readRange_error hone]
    rfl
  · have htwo : (s.advance 1).srcBits < (s.advance 1).brPos.toNat + 2 := by
      rw [State.toNat_brPos_advance hreg hone]
      exact h
    rw [readRange_advance hone]
    show (s.advance 1).readRange 2 .truncated >>= _ = _
    rw [readRange_error htwo]
    rfl

theorem fetchSymbol_of_view {d : Decoder} {v : DecodeView} (h : d.phase.view = some v) (s : State) :
    s.fetchSymbol d = s.decodeSymbol v .truncated := by
  unfold State.fetchSymbol
  cases hp : d.phase <;> rw [hp] at h <;> cases h <;> rfl

/-- Settles O7: the step is the fetch and the run of its number, which is the run of the selector; where no code
matches, the fetch fails as `decodeSymbol_noMatch` says. -/
theorem stepRunsFetchedSymbol : Obligations.StepRunsFetchedSymbol := by
  intro s d hwork
  refine ⟨fun n t x i hfetch hsel hdecode => ?_, fun e he => step_of_fetch_error hwork he,
    fun hreg hphase hshort => step_of_fetch_error hwork (fetchSymbol_header_truncated hreg hphase hshort),
    fun v hreg hview hnone => ⟨fun hmax hshort => ?_, fun hlong => ?_⟩⟩
  · obtain ⟨-, hencode⟩ := encodeDecodeRoundTrip x i hdecode
    rw [step_of_fetch hwork hfetch, runSymbol_eq_runSelector hsel, exec_of_encode hencode (selector_ne_command hsel)]
  · refine step_of_fetch_error hwork ?_
    rw [fetchSymbol_of_view hview, decodeSymbol_noMatch .truncated hreg hmax hnone, if_pos hshort]
  · refine step_of_fetch_error hwork ?_
    rw [fetchSymbol_of_view hview]
    by_cases hmax : v.maxLen = 0
    · rw [State.decodeSymbol, if_pos hmax]
    · rw [decodeSymbol_noMatch .truncated hreg hmax hnone, if_neg (by have := hlong.resolve_left hmax; omega)]

end Sys2Proof.Machine
end

section
/-! The match finder (43_lz77.md R211 to R216; O33, O34): the best match at a position is the match of some candidate, so
what a token stands for is what stands in the input. -/

namespace Sys2Proof.Machine

/-! The token at a position. -/

/-- A match of length `l` at distance `d` may stand at position `i` of `data`: its length and distance are in range,
and its bytes are those the distance before (R216). -/
structure LegalMatch (data : List Byte) (i l d : Nat) : Prop where
  minLength : 3 ≤ l
  maxLength : l ≤ 258
  minDistance : 1 ≤ d
  maxDistance : d ≤ 32768
  startsInside : d ≤ i
  endsInside : i + l ≤ data.length
  sameBytes : ∀ j, j < l → data[i + j]? = data[i + j - d]?

theorem tokensCover_copy {data : List Byte} {i l d : Nat} {rest : List Token} :
    TokensCover data i (.copy l d :: rest) ↔ LegalMatch data i l d ∧ TokensCover data (i + l) rest :=
  ⟨fun ⟨h3, h258, h1, hmax, hd, hl, heq, hrest⟩ => ⟨⟨h3, h258, h1, hmax, hd, hl, heq⟩, hrest⟩,
    fun ⟨⟨h3, h258, h1, hmax, hd, hl, heq⟩, hrest⟩ => ⟨h3, h258, h1, hmax, hd, hl, heq, hrest⟩⟩

/-- The match of a candidate is legal as soon as it is long enough (R211, R212). -/
theorem legalMatch_of_candidate {data : List Byte} {ix : Index} {t : Triple} {i p : Nat} (hp : p ∈ candidates ix t i)
    (hmin : 3 ≤ matchLen data p i) : LegalMatch data i (matchLen data p i) (i - p) := by
  obtain ⟨hlt, hwindow⟩ := candidates_bounds hp
  obtain ⟨hmax, hinside⟩ := matchLen_le data p i
  refine ⟨hmin, hmax, by omega, hwindow, by omega, by omega, fun j hj => ?_⟩
  rw [show i + j - (i - p) = p + j by omega, matchLen_eq data p i j hj]

/-- The search keeps what holds of the best match at its start and of every candidate's match (R213). -/
theorem examine_induction {P : Nat × Nat → Prop} {ps : Params} {data : List Byte} {i : Nat} :
    ∀ (cands : List Nat) (k : Nat) {best : Nat × Nat}, P best → (∀ p ∈ cands, P (matchLen data p i, i - p)) →
      P (examine ps data i cands k best)
  | [], _, _, hbest, _ => hbest
  | p :: rest, k, best, hbest, hcands => by
    obtain ⟨hp, hrest⟩ := List.forall_mem_cons.1 hcands
    have hbest' : P (if matchLen data p i > best.1 then (matchLen data p i, i - p) else best) :=
      iteInduction (fun _ => hp) fun _ => hbest
    exact iteInduction (fun _ => hbest') fun _ =>
      iteInduction (fun _ => hbest') fun _ => examine_induction rest (k + 1) hbest' hrest

/-- A best match that is long enough is legal (R213). -/
theorem findMatch_legalMatch (ps : Params) (data : List Byte) (ix : Index) (t : Triple) (i : Nat)
    (hmin : 3 ≤ (findMatch ps data ix t i).1) :
    LegalMatch data i (findMatch ps data ix t i).1 (findMatch ps data ix t i).2 :=
  examine_induction (P := fun m => 3 ≤ m.1 → LegalMatch data i m.1 m.2) (candidates ix t i) 0
    (fun h => absurd h (by decide)) (fun _ hp => legalMatch_of_candidate hp) hmin

/-- The token at a position is the literal there or a legal match (R215). -/
theorem tokenAt_cases (ps : Params) (data : List Byte) (ix : Index) (i : Nat) (b : Byte) :
    tokenAt ps data ix i b = .literal b ∨ ∃ l d, tokenAt ps data ix i b = .copy l d ∧ LegalMatch data i l d := by
  unfold tokenAt
  split
  · exact .inl rfl
  next t _ =>
    split
    · exact .inl rfl
    · dsimp only
      split
      · exact .inl rfl
      next h =>
        exact .inr ⟨_, _, rfl, findMatch_legalMatch ps data ix t i (Nat.le_of_not_lt fun hshort => h (.inl hshort))⟩

/-! The tokens of an input. -/

theorem tokenizeFrom_of_length_le (ps : Params) {data : List Byte} (ix : Index) (fuel : Nat) {i : Nat}
    (h : data.length ≤ i) : tokenizeFrom ps data ix fuel i = [] := by
  cases fuel with
  | zero => rfl
  | succ fuel => rw [tokenizeFrom, List.drop_eq_nil_of_le h]

theorem tokenizeFrom_of_lt (ps : Params) {data : List Byte} (ix : Index) (fuel : Nat) {i : Nat} (h : i < data.length) :
    tokenizeFrom ps data ix (fuel + 1) i = tokenAt ps data ix i data[i] ::
      tokenizeFrom ps data ix fuel (i + (tokenAt ps data ix i data[i]).span) := by
  rw [tokenizeFrom, List.drop_eq_getElem_cons h]

/-- Enough tokens from a position on cover the rest of the input. -/
theorem tokensCover_tokenizeFrom (ps : Params) (data : List Byte) (ix : Index) : ∀ (fuel i : Nat), i ≤ data.length →
    data.length ≤ i + fuel → TokensCover data i (tokenizeFrom ps data ix fuel i)
  | 0, _, hi, hfuel => Nat.le_antisymm hi hfuel
  | fuel + 1, i, hi, hfuel => by
    rcases Nat.eq_or_lt_of_le hi with hend | hlt
    · rw [tokenizeFrom_of_length_le ps ix _ (Nat.le_of_eq hend.symm)]
      exact hend
    · rw [tokenizeFrom_of_lt ps ix fuel hlt]
      rcases tokenAt_cases ps data ix i data[i] with htoken | ⟨l, d, htoken, hmatch⟩
      · rw [htoken]
        exact ⟨List.getElem?_eq_getElem hlt,
          tokensCover_tokenizeFrom ps data ix fuel (i + 1) hlt (by omega)⟩
      · rw [htoken]
        have hmin := hmatch.minLength
        exact tokensCover_copy.2
          ⟨hmatch, tokensCover_tokenizeFrom ps data ix fuel (i + l) hmatch.endsInside (by omega)⟩

theorem tokensCover_tokenize (ps : Params) (data : List Byte) : TokensCover data 0 (tokenize ps data) :=
  tokensCover_tokenizeFrom ps data _ data.length 0 (Nat.zero_le _) (Nat.le_add_left _ _)

/-! The parameters the tokens depend on. -/

section
variable {ps qs : Params} (hmaxChain : ps.lzMaxChain = qs.lzMaxChain) (hgoodLen : ps.lzGoodLen = qs.lzGoodLen)
  (hgoodChain : ps.lzGoodChain = qs.lzGoodChain)
include hmaxChain hgoodLen hgoodChain

theorem examine_congr (data : List Byte) (i : Nat) : ∀ (cands : List Nat) (k : Nat) (best : Nat × Nat),
    examine ps data i cands k best = examine qs data i cands k best
  | [], _, _ => rfl
  | _ :: rest, k, _ => by
    simp only [examine, hmaxChain, hgoodLen, hgoodChain, examine_congr data i rest (k + 1)]

theorem findMatch_congr : findMatch ps = findMatch qs := by
  funext data ix t i
  exact examine_congr hmaxChain hgoodLen hgoodChain data i (candidates ix t i) 0 (0, 0)

theorem tokenAt_congr : tokenAt ps = tokenAt qs := by
  unfold tokenAt
  rw [findMatch_congr hmaxChain hgoodLen hgoodChain]

theorem tokenizeFrom_congr (data : List Byte) (ix : Index) : ∀ fuel i : Nat,
    tokenizeFrom ps data ix fuel i = tokenizeFrom qs data ix fuel i
  | 0, _ => rfl
  | fuel + 1, i => by
    simp only [tokenizeFrom, tokenAt_congr hmaxChain hgoodLen hgoodChain, tokenizeFrom_congr data ix fuel]

end

/-- Settles O33: the tokens from any position on cover what is left, by induction on their number, and the search reads
no parameter but the three. -/
theorem tokensCoverTheirInput : Obligations.TokensCoverTheirInput :=
  ⟨tokensCover_tokenize, fun _ _ data hmaxChain hgoodLen hgoodChain =>
    tokenizeFrom_congr hmaxChain hgoodLen hgoodChain data _ data.length 0⟩

/-! Expanding tokens. -/

/-- One copied byte is the next byte of the input. -/
theorem take_append_copied {data : List Byte} {i d : Nat} (hd : 1 ≤ d) (hi : i < data.length)
    (hinside : d ≤ i) (hsame : data[i]? = data[i - d]?) :
    data.take i ++ [(data.take i).getD ((data.take i).length - d) 0#8] = data.take (i + 1) := by
  have hbyte : (data.take i).getD ((data.take i).length - d) 0#8 = data[i] := by
    rw [List.length_take_of_le (Nat.le_of_lt hi), List.getD_eq_getElem?_getD, List.getElem?_take_of_lt (by omega),
      ← hsame, List.getElem?_eq_getElem hi, Option.getD_some]
  rw [hbyte, List.take_append_getElem hi]

/-- Copying from a distance back goes on with the input, as long as its bytes are those the distance before (R281). -/
theorem appendCopies_take {data : List Byte} {d : Nat} (hd : 1 ≤ d) : ∀ (l i : Nat), d ≤ i → i + l ≤ data.length →
    (∀ j, j < l → data[i + j]? = data[i + j - d]?) → appendCopies d l (data.take i) = data.take (i + l)
  | 0, _, _, _, _ => rfl
  | l + 1, i, hinside, hend, hsame => by
    rw [appendCopies, take_append_copied hd (by omega) hinside (hsame 0 (Nat.zero_lt_succ l)),
      appendCopies_take hd l (i + 1) (by omega) (by omega) fun j hj => ?_, Nat.add_right_comm, Nat.add_assoc]
    have := hsame (j + 1) (by omega)
    rwa [show i + (j + 1) = i + 1 + j by omega] at this

/-- Tokens that cover the input from a position on expand to the input. -/
theorem expandTokens_of_tokensCover {data : List Byte} : ∀ (toks : List Token) (i : Nat), TokensCover data i toks →
    expandTokens (data.take i) toks = data
  | [], _, hend => List.take_of_length_le (Nat.le_of_eq hend.symm)
  | .literal b :: rest, i, ⟨hbyte, hrest⟩ => by
    obtain ⟨hi, rfl⟩ := List.getElem?_eq_some_iff.1 hbyte
    rw [expandTokens, List.take_append_getElem hi]
    exact expandTokens_of_tokensCover rest (i + 1) hrest
  | .copy l d :: rest, i, hcover => by
    obtain ⟨hmatch, hrest⟩ := tokensCover_copy.1 hcover
    rw [expandTokens, appendCopies_take hmatch.minDistance l i hmatch.startsInside hmatch.endsInside hmatch.sameBytes]
    exact expandTokens_of_tokensCover rest (i + l) hrest

/-- Settles O34: the tokens cover the input (O33), and tokens that do so expand to it. -/
theorem expandingTokensRestoresInput : Obligations.ExpandingTokensRestoresInput :=
  fun ps data => expandTokens_of_tokensCover (tokenize ps data) 0 (tokensCover_tokenize ps data)

end Sys2Proof.Machine
end

section
/-! LZ77_TOKENIZE (43_lz77.md R220; O35): its checks in order, and the records it writes. -/

namespace Sys2Proof.Machine

/-- The state with the records `ws` written from the start of the destination, and OUT_LEN their size. -/
def State.putRecords (s : State) (ws : List Word) : State :=
  { State.dstWords 0 ws s with outLen := BitVec.ofNat 32 (4 * ws.length) }

/-- What records that fit change: OUT_LEN, and the bytes they take at the start of the destination. -/
theorem putRecords_spec {s : State} (hreg : s.dstRegionOk = true) {ws : List Word}
    (hfits : 4 * ws.length ≤ s.dstCap.toNat) :
    s.putRecords ws = { s with mem := (s.putRecords ws).mem, outLen := BitVec.ofNat 32 (4 * ws.length) } ∧
      (∀ k w, ws[k]? = some w → (s.putRecords ws).dstWordAt k = w.toNat) ∧
      SameBytes (s.OutsideFirst (4 * ws.length)) s (s.putRecords ws) := by
  refine ⟨?_, fun k w hk => ?_, fun a ha => ?_⟩
  · rw [State.putRecords, State.dstWords_frame]
  · obtain ⟨hlt, rfl⟩ := List.getElem?_eq_some_iff.1 hk
    have hrecord := dstWordAt_dstWords ws hreg (k := 0) (by rwa [Nat.zero_add]) k hlt
    rwa [Nat.zero_add] at hrecord
  · exact read_dstWords_other ws 0 s fun j _ hj => ha j (by rwa [Nat.zero_add] at hj)

/-- The records of the tokens of the source region (R220, R97). -/
def State.tokenRecords (s : State) : List Word := (tokenize s.params s.srcBytes).map Token.record

@[simp] theorem State.length_tokenRecords (s : State) :
    s.tokenRecords.length = (tokenize s.params s.srcBytes).length :=
  List.length_map _

theorem exec_lz77Tokenize (s : State) : exec .lz77Tokenize s = s.conclude State.raise s.lz77Tokenize := rfl

theorem lz77Tokenize_badRegion {s : State} (h : s.bothRegionsOk = false) : s.lz77Tokenize = .error .illegalCommand :=
  require_bind_of_false h _

section
variable {s : State} (hreg : s.bothRegionsOk = true)
include hreg

theorem lz77Tokenize_tooLong (h : 131072 < s.srcLen.toNat) : s.lz77Tokenize = .error .illegalCommand :=
  (require_bind_of_true hreg _).trans (require_bind_of_false (decide_eq_false (Nat.not_le.2 h)) _)

variable (hlen : s.srcLen.toNat ≤ 131072)
include hlen

/-- With the regions and SRC_LEN in order, the check on the destination's size decides (R220). -/
theorem lz77Tokenize_eq_require :
    s.lz77Tokenize = require (decide (4 * (tokenize s.params s.srcBytes).length ≤ s.dstCap.toNat)) .outOfRange >>=
      fun _ => .ok (s.putRecords s.tokenRecords) := by
  rw [State.putRecords, State.length_tokenRecords]
  exact (require_bind_of_true hreg _).trans (require_bind_of_true (decide_eq_true hlen) _)

theorem lz77Tokenize_tooSmall (h : s.dstCap.toNat < 4 * (tokenize s.params s.srcBytes).length) :
    s.lz77Tokenize = .error .outOfRange := by
  rw [lz77Tokenize_eq_require hreg hlen, require_bind_of_false (decide_eq_false (Nat.not_le.2 h))]

theorem lz77Tokenize_ok (h : 4 * (tokenize s.params s.srcBytes).length ≤ s.dstCap.toNat) :
    s.lz77Tokenize = .ok (s.putRecords s.tokenRecords) := by
  rw [lz77Tokenize_eq_require hreg hlen, require_bind_of_true (decide_eq_true h)]

end

/-- Settles O35: the checks of R220 in their order, then one record for each token. -/
theorem lz77TokenizeWritesRecords : Obligations.Lz77TokenizeWritesRecords := by
  intro s _
  simp only [exec_lz77Tokenize]
  refine ⟨fun hbad => ?_, fun hreg hlong => ?_, fun hreg hlen hsmall => ?_, fun hreg hlen hfits => ?_⟩
  · rw [lz77Tokenize_badRegion hbad, State.conclude_raise]
  · rw [lz77Tokenize_tooLong hreg hlong, State.conclude_raise]
  · rw [lz77Tokenize_tooSmall hreg hlen hsmall, State.conclude_raise]
  · rw [lz77Tokenize_ok hreg hlen hfits, State.conclude_ok, ← State.length_tokenRecords]
    obtain ⟨hframe, hrecords, hkept⟩ :=
      putRecords_spec (State.bothRegionsOk_dst hreg) (ws := s.tokenRecords) (by rwa [State.length_tokenRecords])
    refine ⟨_, rfl, congrArg State.finished hframe, fun k tok htok => hrecords k tok.record ?_, hkept⟩
    rw [State.tokenRecords, List.getElem?_map, htok, Option.map_some]

end Sys2Proof.Machine
end

section
/-! The run-length code of a length sequence (44_deflate_encode.md R238, 30_encoding.md R105; O37): a sequence is the
concatenation of its runs, and the pairs of a run stand for the run, whatever the sequence before it. -/

namespace Sys2Proof.Machine

/-! What a pair stands for (R105). -/

/-- The lengths a pair appends to a sequence whose last length is `last` (R105). -/
def ClItem.lengths (i : ClItem) (last : Nat) : List Nat :=
  if i.sym = 16 then List.replicate (3 + i.extra) last
  else if i.sym = 17 then List.replicate (3 + i.extra) 0
  else if i.sym = 18 then List.replicate (11 + i.extra) 0
  else [i.sym]

/-- A symbol of the code-length alphabet whose extra value fits its extra bits (R105). -/
structure ClItem.Legal (i : ClItem) : Prop where
  sym : i.sym ≤ 18
  extra : i.extra < 2 ^ clExtraBits i.sym

theorem expandItems_cons (seq : List Nat) (i : ClItem) (rest : List ClItem) :
    expandItems seq (i :: rest) = expandItems (seq ++ i.lengths (seq.getLastD 0)) rest := by
  rw [expandItems, ClItem.lengths]
  split
  · rfl
  split
  · rfl
  split
  · rfl
  · rfl

theorem expandItems_append : ∀ (xs ys : List ClItem) (seq : List Nat),
    expandItems seq (xs ++ ys) = expandItems (expandItems seq xs) ys
  | [], _, _ => rfl
  | i :: xs, ys, seq => by
    rw [List.cons_append, expandItems_cons, expandItems_cons, expandItems_append xs ys]

theorem ClItem.lengths_value {v : Nat} (h : v ≤ 15) (last : Nat) : (ClItem.mk v 0).lengths last = [v] := by
  rw [ClItem.lengths, if_neg (by show ¬ v = 16; omega), if_neg (by show ¬ v = 17; omega),
    if_neg (by show ¬ v = 18; omega)]

theorem legal_value {v : Nat} (h : v ≤ 15) : (ClItem.mk v 0).Legal :=
  ⟨Nat.le_trans h (by decide), Nat.two_pow_pos _⟩

/-- Single lengths stand for themselves. -/
theorem expandItems_replicate_value {v : Nat} (h : v ≤ 15) : ∀ (r : Nat) (seq : List Nat),
    expandItems seq (List.replicate r ⟨v, 0⟩) = seq ++ List.replicate r v
  | 0, seq => (List.append_nil seq).symm
  | r + 1, seq => by
    rw [List.replicate_succ, expandItems_cons, ClItem.lengths_value h, expandItems_replicate_value h r,
      List.append_assoc]
    rfl

/-! The pairs of one run (R238). -/

/-- The pairs of a run of zeros. -/
theorem rleZeros_spec : ∀ {fuel r : Nat}, r < fuel →
    (∀ seq, expandItems seq (rleZeros fuel r) = seq ++ List.replicate r 0) ∧ ∀ i ∈ rleZeros fuel r, i.Legal
  | fuel + 1, r, h => by
    unfold rleZeros
    split
    next hlong =>
      obtain ⟨hexpand, hlegal⟩ := rleZeros_spec (fuel := fuel) (r := r - min r 138) (by omega)
      refine ⟨fun seq => ?_, List.forall_mem_cons.2 ⟨⟨Nat.le_refl 18, ?_⟩, hlegal⟩⟩
      · have hrun : (ClItem.mk 18 (min r 138 - 11)).lengths (seq.getLastD 0) = List.replicate (min r 138) 0 :=
          congrArg (List.replicate · 0) (show 11 + (min r 138 - 11) = min r 138 by omega)
        rw [expandItems_cons, hrun, hexpand, List.append_assoc, List.replicate_append_replicate,
          Nat.add_sub_cancel' (Nat.min_le_left r 138)]
      · show min r 138 - 11 < 128
        omega
    next hshort =>
      split
      next hmiddle =>
        refine ⟨fun seq => ?_, List.forall_mem_singleton.2 ⟨Nat.le_succ 17, ?_⟩⟩
        · exact congrArg (seq ++ List.replicate · 0) (show 3 + (r - 3) = r by omega)
        · show r - 3 < 8
          omega
      next =>
        refine ⟨expandItems_replicate_value (by decide) r, fun i hi => ?_⟩
        rw [List.eq_of_mem_replicate hi]
        exact legal_value (by decide)

theorem getLastD_append_replicate (seq : List Nat) (v : Nat) {n : Nat} (h : 0 < n) :
    (seq ++ List.replicate n v).getLastD 0 = v := by
  obtain ⟨n, rfl⟩ := Nat.exists_eq_add_of_le' h
  rw [List.replicate_succ', ← List.append_assoc, List.getLastD_concat]

/-- The pairs of the further lengths of a run of `v`, after a sequence that ends in `v`. -/
theorem rleRepeats_spec {v : Nat} (hv : v ≤ 15) : ∀ {fuel r : Nat}, r < fuel →
    (∀ seq, seq.getLastD 0 = v → expandItems seq (rleRepeats v fuel r) = seq ++ List.replicate r v) ∧
      ∀ i ∈ rleRepeats v fuel r, i.Legal
  | fuel + 1, r, h => by
    unfold rleRepeats
    split
    next hlong =>
      obtain ⟨hexpand, hlegal⟩ := rleRepeats_spec hv (fuel := fuel) (r := r - min r 6) (by omega)
      refine ⟨fun seq hlast => ?_, List.forall_mem_cons.2 ⟨⟨(by decide : 16 ≤ 18), ?_⟩, hlegal⟩⟩
      · have hrun : (ClItem.mk 16 (min r 6 - 3)).lengths (seq.getLastD 0) = List.replicate (min r 6) v := by
          rw [hlast]
          exact congrArg (List.replicate · v) (show 3 + (min r 6 - 3) = min r 6 by omega)
        rw [expandItems_cons, hrun, hexpand _ (getLastD_append_replicate seq v (by omega)), List.append_assoc,
          List.replicate_append_replicate, Nat.add_sub_cancel' (Nat.min_le_left r 6)]
      · show min r 6 - 3 < 4
        omega
    next =>
      refine ⟨fun seq _ => expandItems_replicate_value hv r seq, fun i hi => ?_⟩
      rw [List.eq_of_mem_replicate hi]
      exact legal_value hv

/-- The pairs of a run. -/
theorem rleRun_spec {v r : Nat} (hv : v ≤ 15) (hr : 0 < r) :
    (∀ seq, expandItems seq (rleRun (v, r)) = seq ++ List.replicate r v) ∧ ∀ i ∈ rleRun (v, r), i.Legal := by
  unfold rleRun
  split
  next hzero =>
    obtain rfl : v = 0 := hzero
    exact rleZeros_spec (Nat.lt_succ_self r)
  next =>
    obtain ⟨hexpand, hlegal⟩ := rleRepeats_spec hv (show r - 1 < r by omega)
    refine ⟨fun seq => ?_, List.forall_mem_cons.2 ⟨legal_value hv, hlegal⟩⟩
    have hlast : (seq ++ [v]).getLastD 0 = v := getLastD_append_replicate seq v Nat.one_pos
    rw [expandItems_cons, ClItem.lengths_value hv, hexpand _ hlast, List.append_assoc, List.singleton_append,
      ← List.replicate_succ, Nat.sub_add_cancel hr]

/-! The runs of a sequence (R238). -/

/-- The lengths of a run. -/
def runLengths (run : Nat × Nat) : List Nat := List.replicate run.2 run.1

/-- The runs of a sequence are its lengths in order, and none is empty. -/
theorem lengthRuns_spec : ∀ seq : List Nat,
    (lengthRuns seq).flatMap runLengths = seq ∧ ∀ run ∈ lengthRuns seq, run.1 ∈ seq ∧ 0 < run.2
  | [] => ⟨rfl, fun _ h => nomatch h⟩
  | l :: lens => by
    obtain ⟨hflat, hruns⟩ := lengthRuns_spec lens
    unfold lengthRuns
    split
    next v r rest heq =>
      rw [heq] at hflat hruns
      obtain ⟨⟨hv, hr⟩, hrest⟩ := List.forall_mem_cons.1 hruns
      have hrest' : ∀ run ∈ rest, run.1 ∈ l :: lens ∧ 0 < run.2 := fun run hrun =>
        (hrest run hrun).imp_left (List.mem_cons_of_mem l)
      split
      next hlv =>
        subst hlv
        refine ⟨?_, List.forall_mem_cons.2 ⟨⟨List.mem_cons_self, Nat.succ_pos r⟩, hrest'⟩⟩
        exact congrArg (l :: ·) hflat
      next =>
        refine ⟨congrArg (l :: ·) hflat, List.forall_mem_cons.2 ⟨⟨List.mem_cons_self, Nat.one_pos⟩,
          List.forall_mem_cons.2 ⟨⟨List.mem_cons_of_mem l hv, hr⟩, hrest'⟩⟩⟩
    next heq =>
      rw [heq] at hflat
      subst hflat
      exact ⟨rfl, List.forall_mem_singleton.2 ⟨List.mem_singleton_self l, Nat.one_pos⟩⟩

theorem expandItems_flatMap_rleRun : ∀ (runs : List (Nat × Nat)) (seq : List Nat),
    (∀ run ∈ runs, run.1 ≤ 15 ∧ 0 < run.2) →
    expandItems seq (runs.flatMap rleRun) = seq ++ runs.flatMap runLengths
  | [], seq, _ => (List.append_nil seq).symm
  | (v, r) :: runs, seq, h => by
    obtain ⟨⟨hv, hr⟩, hruns⟩ := List.forall_mem_cons.1 h
    obtain ⟨hexpand, -⟩ := rleRun_spec hv hr
    rw [List.flatMap_cons, List.flatMap_cons, expandItems_append, hexpand, expandItems_flatMap_rleRun runs _ hruns,
      List.append_assoc]
    rfl

section
variable {seq : List Nat} (h : ∀ l ∈ seq, l ≤ 15)
include h

theorem lengthRuns_le : ∀ run ∈ lengthRuns seq, run.1 ≤ 15 ∧ 0 < run.2 := by
  obtain ⟨-, hruns⟩ := lengthRuns_spec seq
  exact fun run hrun => (hruns run hrun).imp_left (h run.1)

theorem expandItems_rle : expandItems [] (rle seq) = seq := by
  obtain ⟨hflat, -⟩ := lengthRuns_spec seq
  rw [rle, expandItems_flatMap_rleRun _ [] (lengthRuns_le h), hflat]
  rfl

theorem rle_legal : ∀ i ∈ rle seq, i.Legal := by
  intro i hi
  obtain ⟨⟨v, r⟩, hrun, hi⟩ := List.mem_flatMap.1 hi
  obtain ⟨hv, hr⟩ := lengthRuns_le h _ hrun
  obtain ⟨-, hlegal⟩ := rleRun_spec hv hr
  exact hlegal i hi

end

/-- Settles O37: the sequence is its runs, and the pairs of each run stand for it. -/
theorem runLengthCodeExpandsBack : Obligations.RunLengthCodeExpandsBack :=
  fun _ h => ⟨expandItems_rle h, fun i hi => ⟨(rle_legal h i hi).sym, (rle_legal h i hi).extra⟩⟩

end Sys2Proof.Machine
end

section
/-! The fields the encoder writes (44_deflate_encode.md R233 to R242; O39): every symbol it writes was counted in the
frequencies of its table, so it has a code. -/

namespace Sys2Proof.Machine

/-! The bits of a field. -/

/-- The field's symbol, if it has one, has a code (42_huffman.md R190). -/
def Field.Coded : Field → Prop
  | .range _ _ => True
  | .symbol t s => 0 < t.lens.getD s 0

/-- The bits of a field whose symbol has a code (40_bitstream.md R143, R144). -/
def Field.stream : Field → List Bool
  | .range v n => bitsLsb n v
  | .symbol t s => bitsMsb (t.lens.getD s 0) (t.codes.getD s 0)

/-- The bits of fields whose symbols have codes. -/
def fieldStream (fs : List Field) : List Bool := fs.flatMap Field.stream

theorem fieldStream_cons (f : Field) (fs : List Field) : fieldStream (f :: fs) = f.stream ++ fieldStream fs :=
  List.flatMap_cons

theorem fieldStream_append (fs gs : List Field) : fieldStream (fs ++ gs) = fieldStream fs ++ fieldStream gs :=
  List.flatMap_append

@[simp] theorem encodeView_lens (lens : List Nat) : (encodeView lens).lens = lens := rfl

theorem coded_encodeView {lens : List Nat} {s : Nat} (h : 0 < lens.getD s 0) :
    (Field.symbol (encodeView lens) s).Coded := h

theorem Field.bits_of_coded {f : Field} (h : f.Coded) : f.bits = .ok f.stream := by
  cases f with
  | range v n => rfl
  | symbol t s =>
    simp only [Field.bits, EncodeView.bitCode, if_neg (Nat.ne_of_gt h)]
    rfl

theorem fieldBits_of_coded : ∀ {fs : List Field}, (∀ f ∈ fs, f.Coded) → fieldBits fs = .ok (fieldStream fs)
  | [], _ => rfl
  | f :: fs, h => by
    obtain ⟨hf, hfs⟩ := List.forall_mem_cons.1 h
    rw [fieldBits, f.bits_of_coded hf, fieldBits_of_coded hfs]
    rfl

/-! The code lengths of a table (R234, R239). -/

/-- Code lengths of an alphabet of `n` symbols that a table can be built from: each within the limit, and together at
most the Kraft sum 1 (42_huffman.md R187, R192). -/
structure CodeLengths (limit n : Nat) (lens : List Nat) : Prop where
  length : lens.length = n
  le : ∀ l ∈ lens, l ≤ limit
  kraft : kraft limit lens ≤ 2 ^ limit

theorem CodeLengths.getD_le {limit n : Nat} {lens : List Nat} (h : CodeLengths limit n lens) (k : Nat) :
    lens.getD k 0 ≤ limit := by
  rcases Nat.lt_or_ge k lens.length with hk | hk
  · rw [getD_of_lt hk]
    exact h.le _ (List.getElem_mem hk)
  · rw [getD_of_ge hk]
    exact Nat.zero_le _

/-- With no symbol or one the Kraft sum is at most 1, with more it is 1 (42_huffman.md R183 to R185). -/
theorem kraft_packageMerge_le {freq : List Nat} {limit : Nat} (hlimit : 1 ≤ limit) (hsize : freq.length ≤ 2 ^ limit) :
    kraft limit (packageMerge freq limit) ≤ 2 ^ limit := by
  have hlength := length_usedIndices freq
  have hused : usedSymbols freq ≤ 2 ^ limit := Nat.le_trans (List.length_filter_le _ _) hsize
  obtain ⟨f, hf, hrange⟩ := exists_packageMerge_eq_map freq hlimit
  have hindices : (List.range freq.length).filter (fun s => decide (0 < f s)) = usedIndices freq :=
    List.filter_congr fun s _ => decide_eq_decide.2 (hrange s).2
  match h : usedIndices freq with
  | [] =>
    rw [hf, kraft_map_range, hindices, h]
    exact Nat.zero_le _
  | [k] =>
    rw [hf, kraft_map_range, hindices, h]
    exact Nat.pow_le_pow_right (by decide) (Nat.sub_le _ _)
  | _ :: _ :: _ =>
    refine Nat.le_of_eq (packageMergeKraftSumIsOne freq limit ?_ hused)
    rw [← hlength, h, List.length_cons, List.length_cons]
    omega

theorem packageMerge_codeLengths {freq : List Nat} {limit : Nat} (hlimit : 1 ≤ limit)
    (hsize : freq.length ≤ 2 ^ limit) : CodeLengths limit freq.length (packageMerge freq limit) where
  length := length_packageMerge freq limit
  le := by
    obtain ⟨f, hf, hrange⟩ := exists_packageMerge_eq_map freq hlimit
    rw [hf]
    intro l hl
    obtain ⟨s, -, rfl⟩ := List.mem_map.1 hl
    exact (hrange s).1
  kraft := kraft_packageMerge_le hlimit hsize

@[simp] theorem length_frequencies (n : Nat) (syms : List Nat) : (frequencies n syms).length = n := by
  rw [frequencies, List.length_map, List.length_range]

/-- A symbol that was counted has a code. -/
theorem packageMerge_frequencies_pos {n limit s : Nat} {syms : List Nat} (hlimit : 1 ≤ limit) (hs : s < n)
    (hmem : s ∈ syms) : 0 < (packageMerge (frequencies n syms) limit).getD s 0 := by
  obtain ⟨-, hrange⟩ := packageMergeLengthsInRange (frequencies n syms) limit hlimit
  refine (hrange s).2.2 ?_
  rw [frequencies, getD_map_range, if_pos hs]
  exact List.count_pos_iff.2 hmem

/-! The tables of a block (R233 to R239). -/

/-- The literal/length code lengths of a block (R234). -/
def llLengths (toks : List Token) : List Nat := packageMerge (llFrequencies toks) Config.maxCodeLen

/-- The distance code lengths of a block (R234). -/
def distLengths (toks : List Token) : List Nat := packageMerge (distFrequencies toks) Config.maxCodeLen

/-- The literal/length code lengths that are sent (R235). -/
def sentLl (toks : List Token) : List Nat := (llLengths toks).take (usedLength (llLengths toks) - 257 + 257)

/-- The distance code lengths that are sent (R235). -/
def sentDist (toks : List Token) : List Nat := (distLengths toks).take (usedLength (distLengths toks) - 1 + 1)

/-- The pairs of the code-length sequence (R236, R238). -/
def blockItems (toks : List Token) : List ClItem := rle (sentLl toks ++ sentDist toks)

/-- The code-length code lengths of a block (R239). -/
def clCodeLengths (toks : List Token) : List Nat :=
  packageMerge (frequencies 19 ((blockItems toks).map ClItem.sym)) Config.maxClCodeLen

theorem blockTables_eq (toks : List Token) :
    blockTables toks =
      { ll := encodeView (llLengths toks)
        dist := encodeView (distLengths toks)
        cl := encodeView (clCodeLengths toks)
        hlit := usedLength (llLengths toks) - 257
        hdist := usedLength (distLengths toks) - 1
        clSent := max 4 (usedLength (clOrder.map fun s => (clCodeLengths toks).getD s 0))
        items := blockItems toks } := rfl

section
variable (toks : List Token)

@[simp] theorem blockTables_ll : (blockTables toks).ll = encodeView (llLengths toks) := rfl
@[simp] theorem blockTables_dist : (blockTables toks).dist = encodeView (distLengths toks) := rfl
@[simp] theorem blockTables_cl : (blockTables toks).cl = encodeView (clCodeLengths toks) := rfl

theorem llLengths_codeLengths : CodeLengths 15 286 (llLengths toks) := by
  have h := packageMerge_codeLengths (freq := llFrequencies toks) (limit := 15) (by decide)
    (by rw [llFrequencies, length_frequencies]; decide)
  rwa [llFrequencies, length_frequencies] at h

theorem distLengths_codeLengths : CodeLengths 15 30 (distLengths toks) := by
  have h := packageMerge_codeLengths (freq := distFrequencies toks) (limit := 15) (by decide)
    (by rw [distFrequencies, length_frequencies]; decide)
  rwa [distFrequencies, length_frequencies] at h

theorem clCodeLengths_codeLengths : CodeLengths 7 19 (clCodeLengths toks) := by
  have h := packageMerge_codeLengths (freq := frequencies 19 ((blockItems toks).map ClItem.sym)) (limit := 7)
    (by decide) (by rw [length_frequencies]; decide)
  rwa [length_frequencies] at h

/-- Every length that is sent is a code-length symbol of its own. -/
theorem sentLengths_le : ∀ l ∈ sentLl toks ++ sentDist toks, l ≤ 15 := by
  intro l hl
  rcases List.mem_append.1 hl with hl | hl
  · exact (llLengths_codeLengths toks).le l (List.mem_of_mem_take hl)
  · exact (distLengths_codeLengths toks).le l (List.mem_of_mem_take hl)

theorem blockItems_legal : ∀ i ∈ blockItems toks, i.Legal := rle_legal (sentLengths_le toks)

/-- The end of the block was counted (R233). -/
theorem llLengths_endOfBlock_pos : 0 < (llLengths toks).getD 256 0 :=
  packageMerge_frequencies_pos (by decide) (by decide) (List.mem_append_right _ (List.mem_singleton_self 256))

end

/-! The symbols of the tokens. -/

/-- The length and the distance of a match are in range (43_lz77.md R216). -/
def Token.InRange : Token → Prop
  | .literal _ => True
  | .copy l d => 3 ≤ l ∧ l ≤ 258 ∧ 1 ≤ d ∧ d ≤ 32768

theorem inRange_of_tokensCover {data : List Byte} : ∀ {toks : List Token} {i : Nat}, TokensCover data i toks →
    ∀ tok ∈ toks, tok.InRange
  | [], _, _ => fun _ h => nomatch h
  | .literal b :: rest, i, ⟨_, hrest⟩ => List.forall_mem_cons.2 ⟨trivial, inRange_of_tokensCover hrest⟩
  | .copy l d :: rest, i, h => by
    obtain ⟨hmatch, hrest⟩ := tokensCover_copy.1 h
    exact List.forall_mem_cons.2
      ⟨⟨hmatch.minLength, hmatch.maxLength, hmatch.minDistance, hmatch.maxDistance⟩, inRange_of_tokensCover hrest⟩

theorem tokenize_inRange (ps : Params) (data : List Byte) : ∀ tok ∈ tokenize ps data, tok.InRange :=
  inRange_of_tokensCover (tokensCover_tokenize ps data)

theorem llSymbol_lt {tok : Token} (h : tok.InRange) : tok.llSymbol < 286 := by
  cases tok with
  | literal b => exact Nat.lt_of_lt_of_le b.isLt (by decide)
  | copy l d =>
    obtain ⟨hmin, hmax, -⟩ := h
    obtain ⟨hcode, -⟩ := lengthAndDistanceCodesHoldTheirValue.1 l hmin hmax
    show 257 + lenCode l < 286
    omega

section
variable {toks : List Token} {tok : Token} (hmem : tok ∈ toks) (hrange : tok.InRange)
include hmem hrange

/-- A token's literal/length symbol was counted (R233). -/
theorem llLengths_llSymbol_pos : 0 < (llLengths toks).getD tok.llSymbol 0 :=
  packageMerge_frequencies_pos (by decide) (llSymbol_lt hrange)
    (List.mem_append_left _ (List.mem_map_of_mem hmem))

end

/-- A match's distance symbol was counted (R233). -/
theorem distLengths_distCode_pos {toks : List Token} {l d : Nat} (hmem : .copy l d ∈ toks)
    (hrange : (Token.copy l d).InRange) : 0 < (distLengths toks).getD (distCode d) 0 := by
  obtain ⟨-, -, hmin, hmax⟩ := hrange
  obtain ⟨hcode, -⟩ := lengthAndDistanceCodesHoldTheirValue.2 d hmin hmax
  exact packageMerge_frequencies_pos (by decide) (by omega)
    (List.mem_flatMap.2 ⟨_, hmem, List.mem_singleton_self _⟩)

/-- A pair's symbol was counted (R238). -/
theorem clCodeLengths_sym_pos {toks : List Token} {i : ClItem} (hmem : i ∈ blockItems toks) :
    0 < (clCodeLengths toks).getD i.sym 0 := by
  have hsym := (blockItems_legal toks i hmem).sym
  exact packageMerge_frequencies_pos (by decide) (by omega) (List.mem_map_of_mem hmem)

/-! The fields of a block (R240). -/

theorem tokenFields_coded {toks : List Token} {tok : Token} (hmem : tok ∈ toks) (hrange : tok.InRange) :
    ∀ f ∈ tokenFields (blockTables toks) tok, f.Coded := by
  have hll := llLengths_llSymbol_pos hmem hrange
  cases tok with
  | literal b => exact List.forall_mem_singleton.2 (coded_encodeView hll)
  | copy l d =>
    have hdist := distLengths_distCode_pos hmem hrange
    simp only [tokenFields, List.forall_mem_cons]
    exact ⟨coded_encodeView hll, trivial, coded_encodeView hdist, trivial, fun _ h => nomatch h⟩

theorem itemFields_coded {toks : List Token} {i : ClItem} (hmem : i ∈ blockItems toks) :
    ∀ f ∈ itemFields (blockTables toks) i, f.Coded := by
  simp only [itemFields, List.forall_mem_cons, blockTables_cl]
  exact ⟨coded_encodeView (clCodeLengths_sym_pos hmem), trivial, fun _ h => nomatch h⟩

theorem headerFields_coded (final : Bool) (t : BlockTables) : ∀ f ∈ headerFields final t, f.Coded := by
  simp only [headerFields, List.forall_mem_cons]
  exact ⟨trivial, trivial, trivial, trivial, trivial, fun _ h => nomatch h⟩

theorem clLengthFields_coded (t : BlockTables) : ∀ f ∈ clLengthFields t, f.Coded := by
  intro f hf
  obtain ⟨s, -, rfl⟩ := List.mem_map.1 hf
  trivial

/-- The fields of a block as those of the states of the bit-packing machine in turn (R241). -/
theorem blockFields_eq (ps : Params) (block : List Byte) (final : Bool) :
    blockFields ps block final =
      headerFields final (blockTables (tokenize ps block)) ++ clLengthFields (blockTables (tokenize ps block)) ++
        (blockItems (tokenize ps block)).flatMap (itemFields (blockTables (tokenize ps block))) ++
        (tokenize ps block).flatMap (tokenFields (blockTables (tokenize ps block))) ++
        eobFields (blockTables (tokenize ps block)) := rfl

theorem blockFields_coded (ps : Params) (block : List Byte) (final : Bool) :
    ∀ f ∈ blockFields ps block final, f.Coded := by
  simp only [blockFields_eq, List.forall_mem_append, List.mem_flatMap]
  refine ⟨⟨⟨⟨headerFields_coded final _, clLengthFields_coded _⟩, ?_⟩, ?_⟩, ?_⟩
  · rintro f ⟨i, hi, hf⟩
    exact itemFields_coded hi f hf
  · rintro f ⟨tok, htok, hf⟩
    exact tokenFields_coded htok (tokenize_inRange ps block tok htok) f hf
  · exact List.forall_mem_singleton.2 (coded_encodeView (llLengths_endOfBlock_pos _))

/-- Settles O39: every field of every block has its code. -/
theorem encoderNeverMissesACode : Obligations.EncoderNeverMissesACode := by
  refine fun ps data => ⟨_, fieldBits_of_coded fun f hf => ?_⟩
  obtain ⟨j, -, hf⟩ := List.mem_flatMap.1 hf
  exact blockFields_coded ps _ _ f hf

end Sys2Proof.Machine
end

section
/-! The COMPRESS command (44_deflate_encode.md R245, R246; O40, O42): one write of the stream and its pad from
destination bit 0, where the stream fits. -/

namespace Sys2Proof.Machine

/-! The stream and its pad. -/

/-- The bits of the whole stream before its pad (R230, R245). -/
def streamBits (ps : Params) (data : List Byte) : List Bool := fieldStream (streamFields ps data)

theorem streamFields_coded (ps : Params) (data : List Byte) : ∀ f ∈ streamFields ps data, f.Coded := by
  intro f hf
  obtain ⟨j, -, hf⟩ := List.mem_flatMap.1 hf
  exact blockFields_coded ps _ _ f hf

theorem compressedBits_eq (s : State) : s.compressedBits = .ok (streamBits s.params s.srcBytes) :=
  fieldBits_of_coded (streamFields_coded s.params s.srcBytes)

/-! Reading a list made of two. -/

theorem getD_append_left {α : Type} {l : List α} {k : Nat} (h : k < l.length) (l' : List α) (d : α) :
    (l ++ l').getD k d = l.getD k d := by
  rw [List.getD_eq_getElem?_getD, List.getElem?_append_left h, ← List.getD_eq_getElem?_getD]

theorem getD_append_right {α : Type} {l : List α} {k : Nat} (h : l.length ≤ k) (l' : List α) (d : α) :
    (l ++ l').getD k d = l'.getD (k - l.length) d := by
  rw [List.getD_eq_getElem?_getD, List.getElem?_append_right h, ← List.getD_eq_getElem?_getD]

/-! The stream and its pad. -/

/-- A stream with zeros up to the next byte boundary (40_bitstream.md R145). -/
def padded (bits : List Bool) : List Bool := bits ++ bitsLsb ((8 - bits.length % 8) % 8) 0

@[simp] theorem length_padded (bits : List Bool) : (padded bits).length = 8 * bytesBegun bits.length := by
  rw [padded, List.length_append, length_bitsLsb, bytesBegun]
  omega

theorem getD_bitsLsb_zero (n k : Nat) : (bitsLsb n 0).getD k false = false := by
  rcases Nat.lt_or_ge k n with hk | hk
  · rw [List.getD_eq_getElem?_getD, getElem?_bitsLsb n 0 k hk, Nat.zero_testBit, Option.getD_some]
  · exact getD_of_ge (by rwa [length_bitsLsb]) false

/-- Past the stream there are zeros only. -/
theorem getD_padded (bits : List Bool) (p : Nat) : (padded bits).getD p false = bits.getD p false := by
  rcases Nat.lt_or_ge p bits.length with hp | hp
  · rw [padded, getD_append_left hp]
  · rw [padded, getD_append_right hp, getD_bitsLsb_zero, getD_of_ge hp]

/-! The command. -/

theorem exec_compress (s : State) : exec .compress s = s.conclude State.raiseCompress s.compress := rfl

theorem compress_badRegion {s : State} (h : s.bothRegionsOk = false) : s.compress = .error .illegalCommand :=
  require_bind_of_false h _

/-- The state with a stream and its pad written from destination bit 0 (R245). -/
def State.compressed (s : State) (bits : List Bool) : State :=
  { State.putBits (padded bits) { s with bwPos := 0#32 } with outLen := BitVec.ofNat 32 (bytesBegun bits.length) }

/-- AlignWriter inside the destination region: it ends at a byte boundary, so its pad fits (40_bitstream.md R145). -/
theorem alignWriter_ok {u : State} (hreg : u.dstRegionOk = true) {p : Nat} (hp : u.bwPos.toNat = p)
    (h : p ≤ u.dstBits) :
    u.alignWriter = .ok (State.putBits (bitsLsb ((8 - p % 8) % 8) 0) u) ∧
      (State.putBits (bitsLsb ((8 - p % 8) % 8) 0) u).bwPos.toNat / 8 = bytesBegun p := by
  subst hp
  have hfit : u.bwPos.toNat + (bitsLsb ((8 - u.bwPos.toNat % 8) % 8) 0).length ≤ u.dstBits := by
    rw [length_bitsLsb]
    rw [State.dstBits] at h ⊢
    omega
  constructor
  · rcases writeBits_cases u (bitsLsb ((8 - u.bwPos.toNat % 8) % 8) 0) with ⟨hlt, -⟩ | ⟨-, hw⟩
    · omega
    · exact hw
  · rw [toNat_bwPos_putBits hreg hfit, length_bitsLsb, bytesBegun]
    omega

section
variable {s : State} {bits : List Bool} (hreg : s.bothRegionsOk = true) (hbits : s.compressedBits = .ok bits)
include hreg

/-- With legal regions, COMPRESS writes its fields and then the pad. -/
theorem compress_eq : s.compress =
    State.writeFields { s with bwPos := 0#32 } (streamFields s.params s.srcBytes) >>= fun u =>
      u.alignWriter >>= fun v => .ok { v with outLen := BitVec.ofNat 32 (v.bwPos.toNat / 8) } :=
  require_bind_of_true hreg _

include hbits

theorem compress_outOfRange (h : s.dstBits < bits.length) : s.compress = .error .outOfRange := by
  rw [compress_eq hreg, writeFields_outOfRange (s := { s with bwPos := 0#32 }) _ (State.bothRegionsOk_dst hreg)
    hbits (Nat.zero_le _) (by rwa [← Nat.zero_add bits.length] at h)]
  rfl

/-- A stream that fits is written, and its pad after it. -/
theorem compress_ok (h : bits.length ≤ s.dstBits) : s.compress = .ok (s.compressed bits) := by
  have hdst : State.dstRegionOk { s with bwPos := 0#32 } = true := State.bothRegionsOk_dst hreg
  have hfit : (0#32).toNat + bits.length ≤ s.dstBits := by rwa [BitVec.toNat_zero, Nat.zero_add]
  have hpos := (toNat_bwPos_putBits hdst hfit).trans (Nat.zero_add _)
  have hframe := putBits_frame bits { s with bwPos := 0#32 }
  rw [compress_eq hreg, writeFields_ok (s := { s with bwPos := 0#32 }) _ hdst hbits hfit, State.compressed, padded,
    putBits_append]
  generalize State.putBits bits { s with bwPos := 0#32 } = u at *
  obtain ⟨halign, hbytes⟩ := alignWriter_ok (u := u) (by rw [hframe]; exact hdst) hpos (by rw [hframe]; exact h)
  show u.alignWriter >>= _ = _
  rw [halign, ← hbytes]
  rfl

end

/-- What a stream that fits changes: BW_POS, OUT_LEN, and the bytes it takes at the start of the destination. -/
theorem compressed_spec {s : State} (hreg : s.dstRegionOk = true) {bits : List Bool} (h : bits.length ≤ s.dstBits) :
    s.compressed bits = { s with
      mem := (s.compressed bits).mem
      bwPos := BitVec.ofNat 32 (8 * bytesBegun bits.length)
      outLen := BitVec.ofNat 32 (bytesBegun bits.length) } ∧
    (∀ p, p < 8 * bytesBegun bits.length → (s.compressed bits).dstBit p = bits.getD p false) ∧
    SameBytes (s.OutsideFirst (bytesBegun bits.length)) s (s.compressed bits) := by
  have hfit : (0#32).toNat + (padded bits).length ≤ State.dstBits { s with bwPos := 0#32 } := by
    rw [length_padded, BitVec.toNat_zero, Nat.zero_add, bytesBegun]
    show _ ≤ 8 * s.dstCap.toNat
    rw [State.dstBits] at h
    omega
  obtain ⟨hwritten, hkept⟩ := putBits_bits (padded bits) (s := { s with bwPos := 0#32 }) hreg hfit
  rw [length_padded] at hwritten hkept
  refine ⟨?_, fun p hp => ?_, fun a ha => BitVec.eq_of_getLsbD_eq fun i hi => hkept a i hi fun k hk hbit => ?_⟩
  · rw [State.compressed, putBits_frame, length_padded, BitVec.zero_add]
  · have hbit := hwritten p hp
    rw [BitVec.toNat_zero, Nat.zero_add, getD_padded] at hbit
    exact hbit
  · rw [BitVec.toNat_zero, Nat.zero_add] at hbit
    exact ha (k / 8) (by omega) hbit.1

/-- COMPRESS that ends without error had legal regions and room for its stream, which it wrote. -/
theorem eq_compressed_of_exec {s t : State} {bits : List Bool} (hbits : s.compressedBits = .ok bits)
    (h : exec .compress s = .next t) (hok : t.errcode = none) :
    s.bothRegionsOk = true ∧ bits.length ≤ s.dstBits ∧ t = (s.compressed bits).finished := by
  rw [exec_compress] at h
  cases hreg : s.bothRegionsOk with
  | false =>
    rw [compress_badRegion hreg] at h
    cases h
    cases hok
  | true =>
    rcases Nat.lt_or_ge s.dstBits bits.length with hlt | hle
    · rw [compress_outOfRange hreg hbits hlt] at h
      cases h
      cases hok
    · rw [compress_ok hreg hbits hle] at h
      cases h
      exact ⟨rfl, hle, rfl⟩

/-- Settles O40: the checks, then one write of the stream and its pad. -/
theorem compressWritesTheStream : Obligations.CompressWritesTheStream := by
  intro s bits _
  rw [exec_compress]
  refine ⟨fun hbad => ?_, fun hreg hbits hlong => ?_, fun hreg hbits hfit => ?_⟩
  · rw [compress_badRegion hbad]
    exact ⟨_, rfl, rfl, rfl⟩
  · rw [compress_outOfRange hreg hbits hlong]
    exact ⟨_, rfl, rfl, rfl⟩
  · rw [compress_ok hreg hbits hfit]
    obtain ⟨hframe, hwritten, hkept⟩ := compressed_spec (State.bothRegionsOk_dst hreg) hfit
    exact ⟨_, rfl, congrArg State.finished hframe, hwritten, hkept⟩

/-! The output depends on the source bytes and the parameters alone (R246). -/

theorem blockFields_congr {ps qs : Params} (hmaxChain : ps.lzMaxChain = qs.lzMaxChain)
    (hgoodLen : ps.lzGoodLen = qs.lzGoodLen) (hgoodChain : ps.lzGoodChain = qs.lzGoodChain) :
    blockFields ps = blockFields qs := by
  funext block final
  rw [blockFields_eq, blockFields_eq, tokensCoverTheirInput.2 ps qs block hmaxChain hgoodLen hgoodChain]

section
variable {s t : State} {bits : List Bool} (hbits : s.compressedBits = .ok bits) (h : exec .compress s = .next t)
  (hok : t.errcode = none)
include hbits h hok

/-- OUT_LEN is the number of bytes of the stream, which fits the register. -/
theorem toNat_outLen_of_compress : t.outLen.toNat = bytesBegun bits.length := by
  obtain ⟨hreg, hfit, rfl⟩ := eq_compressed_of_exec hbits h hok
  have hlimit : 8 * s.dstCap.toNat < 4294967296 := bits_lt_of_regionFits (State.bothRegionsOk_dst hreg)
  refine toNat_ofNat_of_lt ?_
  rw [State.dstBits] at hfit
  rw [bytesBegun]
  omega

theorem dstBit_of_compress {p : Nat} (hp : p < 8 * t.outLen.toNat) : t.dstBit p = bits.getD p false := by
  rw [toNat_outLen_of_compress hbits h hok] at hp
  obtain ⟨hreg, hfit, rfl⟩ := eq_compressed_of_exec hbits h hok
  obtain ⟨-, hwritten, -⟩ := compressed_spec (State.bothRegionsOk_dst hreg) hfit
  exact hwritten p hp

end

/-- Settles O42: both outputs are the bits of one stream. -/
theorem compressDependsOnSourceAlone : Obligations.CompressDependsOnSourceAlone := by
  intro s s' t t' _ _ hsrc hmaxChain hgoodLen hgoodChain h h' hok hok'
  have hbits := compressedBits_eq s
  have hbits' : s'.compressedBits = .ok (streamBits s.params s.srcBytes) := by
    rw [compressedBits_eq, hsrc, streamBits, streamBits, streamFields, streamFields,
      blockFields_congr hmaxChain hgoodLen hgoodChain]
  generalize streamBits s.params s.srcBytes = bits at hbits hbits'
  have hlen : t.outLen = t'.outLen := by
    refine BitVec.eq_of_toNat_eq ?_
    rw [toNat_outLen_of_compress hbits h hok, toNat_outLen_of_compress hbits' h' hok']
  refine ⟨hlen, ?_⟩
  rw [← hlen]
  refine List.map_congr_left fun k hk => dstByte_eq_of_dstBit fun p hp => ?_
  have hk : k < t.outLen.toNat := List.mem_range.1 hk
  rw [dstBit_of_compress hbits h hok (by omega), dstBit_of_compress hbits' h' hok' (by rw [← hlen]; omega)]

end Sys2Proof.Machine
end

section
/-! How long the stream is (44_deflate_encode.md R247; O41): the bits of a block state by state, a token by the bytes it
covers and a pair by the length it adds to the sequence. -/

namespace Sys2Proof.Machine

/-! The bits of the fields. -/

@[simp] theorem length_stream_range (v n : Nat) : (Field.range v n).stream.length = n := length_bitsLsb n v

@[simp] theorem length_stream_symbol (lens : List Nat) (s : Nat) :
    (Field.symbol (encodeView lens) s).stream.length = lens.getD s 0 := length_bitsMsb _ _

@[simp] theorem fieldStream_nil : fieldStream [] = [] := rfl

/-- The fields of a list of parts, each with its own bound. -/
theorem length_fieldStream_flatMap_le {α : Type} {g : α → List Field} {c : α → Nat} : ∀ {xs : List α},
    (∀ x ∈ xs, (fieldStream (g x)).length ≤ c x) → (fieldStream (xs.flatMap g)).length ≤ (xs.map c).sum
  | [], _ => Nat.le_refl 0
  | x :: xs, h => by
    obtain ⟨hx, hxs⟩ := List.forall_mem_cons.1 h
    rw [List.flatMap_cons, fieldStream_append, List.length_append, List.map_cons, List.sum_cons]
    exact Nat.add_le_add hx (length_fieldStream_flatMap_le hxs)

/-! How far a length list is used (R235, R239). -/

theorem usedLength_le_length : ∀ lens : List Nat, usedLength lens ≤ lens.length
  | [] => Nat.le_refl 0
  | l :: lens => by
    have ih := usedLength_le_length lens
    rw [usedLength, List.length_cons]
    split
    next => split <;> omega
    next n h => omega

/-- Past the used part every length is 0. -/
theorem getD_of_usedLength_le : ∀ {lens : List Nat} {k : Nat}, usedLength lens ≤ k → lens.getD k 0 = 0
  | [], _, _ => rfl
  | l :: lens, k, h => by
    have ih (j : Nat) := getD_of_usedLength_le (lens := lens) (k := j)
    rw [usedLength] at h
    cases k with
    | zero =>
      rw [List.getD_cons_zero]
      split at h
      · split at h
        · omega
        · omega
      · omega
    | succ k =>
      rw [List.getD_cons_succ]
      refine ih k ?_
      split at h <;> omega

theorem lt_usedLength_of_pos {lens : List Nat} {k : Nat} (h : 0 < lens.getD k 0) : k < usedLength lens :=
  Nat.lt_of_not_le fun hle => Nat.ne_of_gt h (getD_of_usedLength_le hle)

/-! The pairs of the sequence (R238). -/

/-- Every pair adds at least one length. -/
theorem ClItem.lengths_pos (i : ClItem) (last : Nat) : 1 ≤ (i.lengths last).length := by
  unfold ClItem.lengths
  split
  · rw [List.length_replicate]
    omega
  split
  · rw [List.length_replicate]
    omega
  split
  · rw [List.length_replicate]
    omega
  · exact Nat.le_refl 1

theorem add_length_le_length_expandItems : ∀ (items : List ClItem) (seq : List Nat),
    seq.length + items.length ≤ (expandItems seq items).length
  | [], _ => Nat.le_refl _
  | i :: items, seq => by
    have hi := i.lengths_pos (seq.getLastD 0)
    have ih := add_length_le_length_expandItems items (seq ++ i.lengths (seq.getLastD 0))
    rw [List.length_append] at ih
    rw [expandItems_cons, List.length_cons]
    omega

section
variable (toks : List Token)

/-- There are at most as many pairs as lengths (R247). -/
theorem length_blockItems_le : (blockItems toks).length ≤ 316 := by
  have hexpand := add_length_le_length_expandItems (blockItems toks) []
  have hll : (sentLl toks).length ≤ 286 := by
    rw [← (llLengths_codeLengths toks).length]
    exact List.length_take_le' _ _
  have hdist : (sentDist toks).length ≤ 30 := by
    rw [← (distLengths_codeLengths toks).length]
    exact List.length_take_le' _ _
  rw [blockItems, expandItems_rle (sentLengths_le toks), List.length_append] at hexpand
  rw [blockItems]
  simp only [List.length_nil] at hexpand
  omega

theorem length_stream_header (final : Bool) :
    (fieldStream (headerFields final (blockTables toks))).length = 17 := by
  simp only [headerFields, fieldStream_cons, fieldStream_nil, List.length_append, length_stream_range, List.length_nil]

/-- At most the 19 code-length code lengths are sent (R239). -/
theorem clSent_le : (blockTables toks).clSent ≤ 19 := by
  have h := usedLength_le_length (clOrder.map fun s => (clCodeLengths toks).getD s 0)
  rw [List.length_map] at h
  exact Nat.max_le.2 ⟨by decide, h⟩

theorem length_stream_clLengths : (fieldStream (clLengthFields (blockTables toks))).length ≤ 57 := by
  have hsent := clSent_le toks
  generalize blockTables toks = t at hsent ⊢
  have h := length_fieldStream_flatMap_le (g := fun s => [Field.range (t.cl.lens.getD s 0) 3]) (c := fun _ => 3)
    (xs := clOrder.take t.clSent) fun s _ => Nat.le_of_eq (by
      rw [fieldStream_cons, fieldStream_nil, List.append_nil, length_stream_range])
  rw [List.map_const', List.sum_replicate_nat] at h
  have hlen := List.length_take_le t.clSent clOrder
  rw [clLengthFields, List.map_eq_flatMap]
  omega

theorem length_stream_item {i : ClItem} (hi : i.Legal) :
    (fieldStream (itemFields (blockTables toks) i)).length ≤ 14 := by
  have hextra : ∀ s ≤ 18, clExtraBits s ≤ 7 := by decide
  have hcode := (clCodeLengths_codeLengths toks).getD_le i.sym
  have hbits := hextra i.sym hi.sym
  simp only [itemFields, blockTables_cl, fieldStream_cons, fieldStream_nil, List.length_append, length_stream_symbol,
    length_stream_range, List.length_nil]
  omega

theorem length_stream_items :
    (fieldStream ((blockItems toks).flatMap (itemFields (blockTables toks)))).length ≤ 4424 := by
  have h := length_fieldStream_flatMap_le (g := itemFields (blockTables toks)) (c := fun _ => 14) fun i hi =>
    length_stream_item toks (blockItems_legal toks i hi)
  rw [List.map_const', List.sum_replicate_nat] at h
  have hlen := length_blockItems_le toks
  omega

/-- A literal takes at most one code, a match two codes and the extra bits of R108 and R109. -/
theorem length_stream_token {tok : Token} (h : tok.InRange) :
    (fieldStream (tokenFields (blockTables toks) tok)).length ≤ 16 * tok.span := by
  have hll (s : Nat) := (llLengths_codeLengths toks).getD_le s
  cases tok with
  | literal b =>
    have hcode := hll b.toNat
    simp only [tokenFields, blockTables_ll, fieldStream_cons, fieldStream_nil, List.length_append,
      length_stream_symbol, List.length_nil, Token.span]
    omega
  | copy l d =>
    obtain ⟨hmin, hmax, hdmin, hdmax⟩ := h
    have hlenExtra : ∀ c ≤ 28, lengthExtra c ≤ 5 := by decide
    have hdistExtra : ∀ g ≤ 29, distExtra g ≤ 13 := by decide
    have hl := hlenExtra (lenCode l) (lengthAndDistanceCodesHoldTheirValue.1 l hmin hmax).1
    have hd := hdistExtra (distCode d) (lengthAndDistanceCodesHoldTheirValue.2 d hdmin hdmax).1
    have hcode := hll (257 + lenCode l)
    have hdist := (distLengths_codeLengths toks).getD_le (distCode d)
    simp only [tokenFields, blockTables_ll, blockTables_dist, fieldStream_cons, fieldStream_nil, List.length_append,
      length_stream_symbol, length_stream_range, List.length_nil, Token.span]
    omega

end

/-! The tokens of a block, and the block. -/

theorem sum_span_of_tokensCover {data : List Byte} : ∀ {toks : List Token} {i : Nat}, TokensCover data i toks →
    i + (toks.map Token.span).sum = data.length
  | [], _, h => h
  | .literal b :: rest, i, ⟨_, hrest⟩ => by
    rw [List.map_cons, List.sum_cons, ← Nat.add_assoc]
    exact sum_span_of_tokensCover hrest
  | .copy l d :: rest, i, h => by
    obtain ⟨-, hrest⟩ := tokensCover_copy.1 h
    rw [List.map_cons, List.sum_cons, ← Nat.add_assoc]
    exact sum_span_of_tokensCover hrest

theorem sum_map_mul_left {α : Type} (n : Nat) (f : α → Nat) :
    ∀ l : List α, (l.map fun x => n * f x).sum = n * (l.map f).sum
  | [] => rfl
  | x :: l => by
    rw [List.map_cons, List.map_cons, List.sum_cons, List.sum_cons, sum_map_mul_left n f l, Nat.mul_add]

theorem length_stream_tokens (ps : Params) (block : List Byte) (toks : List Token) :
    (fieldStream ((tokenize ps block).flatMap (tokenFields (blockTables toks)))).length ≤ 16 * block.length := by
  have h := length_fieldStream_flatMap_le (g := tokenFields (blockTables toks)) (c := fun tok => 16 * tok.span) fun tok htok =>
    length_stream_token toks (tokenize_inRange ps block tok htok)
  rw [sum_map_mul_left] at h
  have hspan := sum_span_of_tokensCover (tokensCover_tokenize ps block)
  omega

/-- The bound of R247 on one block. -/
theorem length_stream_block_le (ps : Params) (block : List Byte) (final : Bool) :
    (fieldStream (blockFields ps block final)).length ≤ 4513 + 16 * block.length := by
  have hheader := length_stream_header (tokenize ps block) final
  have hcl := length_stream_clLengths (tokenize ps block)
  have hitems := length_stream_items (tokenize ps block)
  have htoks := length_stream_tokens ps block (tokenize ps block)
  have heob : (fieldStream (eobFields (blockTables (tokenize ps block)))).length ≤ 15 := by
    rw [eobFields, fieldStream_cons, fieldStream_nil, List.append_nil, blockTables_ll, length_stream_symbol]
    exact (llLengths_codeLengths _).getD_le 256
  simp only [blockFields_eq, fieldStream_append, List.length_append]
  omega

/-! The blocks of an input (R230). -/

/-- The first blocks are the start of the input. -/
theorem take_append_blockAt (data : List Byte) (k : Nat) :
    data.take (k * Config.blockMax) ++ blockAt data k = data.take ((k + 1) * Config.blockMax) := by
  rw [blockAt, Nat.add_mul, Nat.one_mul, List.take_add]

theorem length_le_blockCount_mul (n : Nat) : n ≤ blockCount n * Config.blockMax := by
  show n ≤ max 1 ((n + 131072 - 1) / 131072) * 131072
  omega

/-- The bound of R247 on the first blocks. -/
theorem length_stream_blocks_le (ps : Params) (data : List Byte) (final : Nat → Bool) : ∀ k : Nat,
    (fieldStream ((List.range k).flatMap fun j => blockFields ps (blockAt data j) (final j))).length ≤
      4513 * k + 16 * (data.take (k * Config.blockMax)).length
  | 0 => Nat.zero_le _
  | k + 1 => by
    have ih := length_stream_blocks_le ps data final k
    have hblock := length_stream_block_le ps (blockAt data k) (final k)
    rw [← take_append_blockAt, List.range_succ, List.flatMap_append, List.flatMap_singleton, fieldStream_append,
      List.length_append, List.length_append]
    omega

/-- The bound of R247 on the stream. -/
theorem length_streamBits_le (ps : Params) (data : List Byte) :
    (streamBits ps data).length ≤ 4513 * blockCount data.length + 16 * data.length := by
  have h := length_stream_blocks_le ps data (fun j => j + 1 == blockCount data.length) (blockCount data.length)
  rwa [List.take_of_length_le (length_le_blockCount_mul data.length)] at h

@[simp] theorem length_srcBytes (s : State) : s.srcBytes.length = s.srcLen.toNat := by
  rw [State.srcBytes, List.length_map, List.length_range]

/-- Settles O41: the bound on the stream is within the destination region, so COMPRESS writes it. -/
theorem compressFitsItsBound : Obligations.CompressFitsItsBound := by
  refine ⟨fun ps block final => ⟨_, fieldBits_of_coded (blockFields_coded ps block final),
    length_stream_block_le ps block final⟩, fun s hreg hcap => ?_⟩
  have hbits := compressedBits_eq s
  have hbound := length_streamBits_le s.params s.srcBytes
  rw [length_srcBytes] at hbound
  generalize streamBits s.params s.srcBytes = bits at hbits hbound
  have hfit : bits.length ≤ s.dstBits := by
    rw [State.dstBits]
    omega
  have hexec : exec .compress s = .next (s.compressed bits).finished := by
    rw [exec_compress, compress_ok hreg hbits hfit, State.conclude_ok]
  obtain ⟨hframe, -⟩ := compressed_spec (State.bothRegionsOk_dst hreg) hfit
  have hlimit : 8 * s.dstCap.toNat < 4294967296 := bits_lt_of_regionFits (State.bothRegionsOk_dst hreg)
  refine ⟨_, hexec, rfl, ?_⟩
  rw [toNat_outLen_of_compress hbits hexec rfl, hframe]
  refine toNat_ofNat_of_lt ?_
  rw [State.dstBits] at hfit
  rw [bytesBegun]
  omega

end Sys2Proof.Machine
end

section
/-! The tables of a block as the decoder rebuilds them (44_deflate_encode.md R235 to R239, 45_deflate_decode.md R270,
R272, R274): the lengths that are not sent are 0, so the codes are those of the encoder. -/

namespace Sys2Proof.Machine

/-! Length lists cut after their used part. -/

theorem getD_take (lens : List Nat) (n k : Nat) : (lens.take n).getD k 0 = if k < n then lens.getD k 0 else 0 := by
  rw [List.getD_eq_getElem?_getD, List.getElem?_take, List.getD_eq_getElem?_getD]
  split
  · rfl
  · rfl

section
variable {lens : List Nat} {n : Nat} (hn : usedLength lens ≤ n)
include hn

theorem getD_take_used (k : Nat) : (lens.take n).getD k 0 = lens.getD k 0 := by
  rw [getD_take]
  split
  next => rfl
  next hk => exact (getD_of_usedLength_le (by omega)).symm

theorem count_take_used {l : Nat} (hl : 0 < l) : (lens.take n).count l = lens.count l := by
  have hzero : (lens.drop n).count l = 0 := List.count_eq_zero.2 fun hmem => by
    obtain ⟨k, hk, rfl⟩ := List.getElem_of_mem hmem
    rw [List.getElem_drop, ← getD_of_lt (by rw [List.length_drop] at hk; omega) 0,
      getD_of_usedLength_le (by omega)] at hl
    exact Nat.lt_irrefl 0 hl
  rw [← List.take_append_drop n lens, List.count_append, hzero, List.take_append_drop, Nat.add_zero]

theorem firstCode_take_used : ∀ l : Nat, firstCode (lens.take n) l = firstCode lens l
  | 0 => rfl
  | 1 => rfl
  | l + 2 => by rw [firstCode, firstCode, firstCode_take_used (l + 1), count_take_used hn (Nat.succ_pos l)]

/-- Lengths of 0 at the end change no code. -/
theorem getD_canon_take_used {k : Nat} (hk : 0 < lens.getD k 0) :
    (canon (lens.take n)).getD k 0 = (canon lens).getD k 0 := by
  have hlt := lt_usedLength_of_pos hk
  rw [getD_canon (by rwa [getD_take_used hn]), getD_canon hk, canonCode, canonCode, getD_take_used hn,
    firstCode_take_used hn, List.take_take, Nat.min_eq_left (by omega)]

end

/-! What a view decodes. -/

/-- The view reads the codes of `lens`: where the code of a symbol stands next, DecodeSymbol gives the symbol and moves
past the code (42_huffman.md R189). -/
def Decodes (v : DecodeView) (lens : List Nat) : Prop :=
  ∀ (s : State) (k : Nat) (eof : CmdError), s.srcRegionOk = true → 0 < lens.getD k 0 →
    s.brPos.toNat + lens.getD k 0 ≤ s.srcBits →
    s.srcBitList s.brPos.toNat (lens.getD k 0) = bitsMsb (lens.getD k 0) ((canon lens).getD k 0) →
    s.decodeSymbol v eof = .ok (k, s.advance (lens.getD k 0))

/-- The lengths sent, with none used after them, give a view of the codes of all. -/
theorem decodes_take {limit size n : Nat} {lens : List Nat} (h : CodeLengths limit size lens)
    (hn : usedLength lens ≤ n) : Decodes (decodeView (lens.take n)) lens := by
  intro s k eof hreg hk hfit hbits
  have hdecode := decodeSymbolReadsItsCode (lens.take n) limit k s eof
    (fun l hl => h.le l (List.mem_of_mem_take hl))
    (Nat.le_trans (kraft_le_of_sublist (List.take_sublist n lens)) h.kraft)
  rw [getD_take_used hn, getD_canon_take_used hn hk] at hdecode
  exact hdecode hk hreg hfit hbits

theorem decodes_all {limit size : Nat} {lens : List Nat} (h : CodeLengths limit size lens) :
    Decodes (decodeView lens) lens := by
  have hdecodes := decodes_take h (usedLength_le_length lens)
  rwa [List.take_length] at hdecodes

/-! The code-length code lengths (R270). -/

theorem lookup_map_pair (f : Nat → Nat) (k : Nat) : ∀ syms : List Nat,
    (syms.map fun s => (s, f s)).lookup k = if k ∈ syms then some (f k) else none
  | [] => rfl
  | s :: syms => by
    rw [List.map_cons, List.lookup_cons, lookup_map_pair f k syms]
    by_cases hks : k = s
    · subst hks
      rw [beq_self_eq_true, if_pos List.mem_cons_self]
    · simp only [beq_eq_false_iff_ne.2 hks, List.mem_cons, hks, false_or]

/-- The lengths sent in CL_ORDER, up to the last that is used, are all of them (R239, R270). -/
theorem clLengths_sent {cl : List Nat} (hlength : cl.length = 19) {n : Nat}
    (hn : usedLength (clOrder.map fun s => cl.getD s 0) ≤ n) :
    clLengths ((clOrder.take n).map fun s => (s, cl.getD s 0)) = cl := by
  have hentry : ∀ k < 19, (((clOrder.take n).map fun s => (s, cl.getD s 0)).lookup k).getD 0 = cl.getD k 0 := by
    intro k hk
    rw [lookup_map_pair]
    split
    next => rfl
    next hnot =>
      have hall : ∀ k < 19, k ∈ clOrder := by decide
      obtain ⟨j, hj, rfl⟩ := List.getElem_of_mem (hall k hk)
      have hjn : n ≤ j := Nat.le_of_not_lt fun hlt =>
        hnot (List.mem_take_iff_getElem.2 ⟨j, by omega, rfl⟩)
      have hzero := getD_of_usedLength_le (k := j) (Nat.le_trans hn hjn)
      rw [getD_of_lt (by rwa [List.length_map]), List.getElem_map] at hzero
      exact hzero.symm
  refine List.ext_getElem (by rw [clLengths, List.length_map, List.length_range, hlength]) fun k hk hk' => ?_
  rw [hlength] at hk'
  simp only [clLengths, List.getElem_map, List.getElem_range, hentry k hk']
  exact getD_of_lt _ _

/-! The tables of a block. -/

section
variable (toks : List Token)

theorem decodes_sentLl : Decodes (decodeView (sentLl toks)) (llLengths toks) :=
  decodes_take (llLengths_codeLengths toks) (by omega)

theorem decodes_sentDist : Decodes (decodeView (sentDist toks)) (distLengths toks) :=
  decodes_take (distLengths_codeLengths toks) (by omega)

theorem decodes_clCodeLengths : Decodes (decodeView (clCodeLengths toks)) (clCodeLengths toks) :=
  decodes_all (clCodeLengths_codeLengths toks)

theorem hlit_add : (blockTables toks).hlit + 257 = usedLength (llLengths toks) := by
  have hused := lt_usedLength_of_pos (llLengths_endOfBlock_pos toks)
  rw [blockTables_eq]
  show usedLength (llLengths toks) - 257 + 257 = _
  omega

theorem hlit_le : (blockTables toks).hlit ≤ 29 := by
  have hused := usedLength_le_length (llLengths toks)
  rw [(llLengths_codeLengths toks).length] at hused
  have hadd := hlit_add toks
  omega

theorem hdist_le : (blockTables toks).hdist ≤ 29 := by
  have hused := usedLength_le_length (distLengths toks)
  rw [(distLengths_codeLengths toks).length] at hused
  show usedLength (distLengths toks) - 1 ≤ 29
  omega

theorem length_sentLl : (sentLl toks).length = (blockTables toks).hlit + 257 := by
  have hle := hlit_le toks
  refine List.length_take_of_le ?_
  rw [(llLengths_codeLengths toks).length]
  exact Nat.add_le_add_right hle 257

theorem length_sentDist : (sentDist toks).length = (blockTables toks).hdist + 1 := by
  have hle := hdist_le toks
  refine List.length_take_of_le ?_
  rw [(distLengths_codeLengths toks).length]
  exact Nat.add_le_add_right hle 1

theorem four_le_clSent : 4 ≤ (blockTables toks).clSent := Nat.le_max_left _ _

/-- The decoder's code-length code lengths are the encoder's. -/
theorem clLengths_clSent :
    clLengths ((clOrder.take (blockTables toks).clSent).map fun s => (s, (clCodeLengths toks).getD s 0)) =
      clCodeLengths toks :=
  clLengths_sent (clCodeLengths_codeLengths toks).length (Nat.le_max_right _ _)

end

end Sys2Proof.Machine
end

section
/-! DECOMPRESS on a stream that the encoder wrote (45_deflate_decode.md R264 to R281). A running decoder is its FSM state
and a position on the stream (`State.decoderAt`); `Reaches` says that it gets from one to another, in no more symbols
than bits, and each state of the encoder's bit-packing machine (44_deflate_encode.md R241) is a lemma about it. -/

namespace Sys2Proof.Machine

/-! A running decoder. -/

/-- The state of a DECOMPRESS that started in `u`: the decoder is `d`, M is `m` and the reader is at bit `p`. -/
def State.decoderAt (u : State) (d : Decoder) (m : Memory) (p : Nat) : State :=
  { u with brPos := BitVec.ofNat 32 p, mem := m, work := some d }

/-- `bits` stand in the source region from bit `p` on. -/
structure State.StreamAt (u : State) (p : Nat) (bits : List Bool) : Prop where
  fits : p + bits.length ≤ u.srcBits
  bits : u.srcBitList p bits.length = bits

/-- `m` is M after a decoder that started in `u` has put out `out`. -/
structure Wrote (u : State) (out : List Byte) (m : Memory) : Prop where
  fits : out.length ≤ u.dstCap.toNat
  holds : HoldsOutput u 0 out m

theorem State.StreamAt.append {u : State} {p : Nat} {xs ys : List Bool} (h : u.StreamAt p (xs ++ ys)) :
    u.StreamAt p xs ∧ u.StreamAt (p + xs.length) ys := by
  obtain ⟨hfits, hbits⟩ := h
  rw [List.length_append] at hfits hbits
  rw [srcBitList_append] at hbits
  obtain ⟨hxs, hys⟩ := List.append_inj hbits (length_srcBitList u p xs.length)
  exact ⟨⟨by omega, hxs⟩, ⟨by omega, hys⟩⟩

theorem State.StreamAt.range {u : State} {p v n : Nat} {fs : List Field}
    (h : u.StreamAt p (fieldStream (.range v n :: fs))) :
    u.StreamAt p (Field.range v n).stream ∧ u.StreamAt (p + n) (fieldStream fs) := by
  have happend := (fieldStream_cons _ fs ▸ h).append
  rwa [length_stream_range] at happend

theorem State.StreamAt.symbol {u : State} {p k : Nat} {lens : List Nat} {fs : List Field}
    (h : u.StreamAt p (fieldStream (.symbol (encodeView lens) k :: fs))) :
    u.StreamAt p (Field.symbol (encodeView lens) k).stream ∧ u.StreamAt (p + lens.getD k 0) (fieldStream fs) := by
  have happend := (fieldStream_cons _ fs ▸ h).append
  rwa [length_stream_symbol] at happend

/-- More output after the output there was. -/
theorem Wrote.append {u : State} {d : Decoder} {p : Nat} {out out' : List Byte} {m m' : Memory}
    (hreg : u.dstRegionOk = true) (h : Wrote u out m) (h' : HoldsOutput (u.decoderAt d m p) out.length out' m')
    (hprefix : out <+: out') (hfits : out'.length ≤ u.dstCap.toNat) : Wrote u out' m' where
  fits := hfits
  holds := by
    have hlength := hprefix.length_le
    refine ⟨fun j _ hj => ?_, fun a ha => ?_⟩
    · rcases Nat.lt_or_ge j out.length with hlt | hge
      · have hkept : m'.read (u.dstByteAddr j).toNat = m.read (u.dstByteAddr j).toNat :=
          h'.kept _ fun j' hge' hj' heq => by
            have := dstByteAddr_inj hreg (by omega) (by omega) heq
            omega
        rw [hkept, h.holds.written j (Nat.zero_le j) hlt]
        obtain ⟨rest, rfl⟩ := hprefix
        exact (getD_append_left hlt rest 0#8).symm
      · exact h'.written j hge hj
    · have hkept : m'.read a = m.read a := h'.kept a fun j _ hj => ha j (Nat.zero_le j) hj
      rw [hkept]
      exact h.holds.kept a fun j hge hj => ha j hge (by omega)

section
variable {u : State} (hok : u.bothRegionsOk = true) {out : List Byte} {m : Memory} (h : Wrote u out m) (d : Decoder)
include hok

theorem toNat_brPos_decoderAt (d : Decoder) (m : Memory) {p : Nat} (hp : p ≤ u.srcBits) :
    (u.decoderAt d m p).brPos.toNat = p := by
  have hlimit : u.srcBits < 4294967296 := bits_lt_of_regionFits (State.bothRegionsOk_src hok)
  exact toNat_ofNat_of_lt (by omega)

theorem advance_decoderAt (d : Decoder) (m : Memory) {p : Nat} (hp : p ≤ u.srcBits) (n : Nat) :
    (u.decoderAt d m p).advance n = u.decoderAt d m (p + n) := by
  rw [State.advance, toNat_brPos_decoderAt hok d m hp]
  rfl

include h

/-- The output is written outside the source region (20_memory.md R66). -/
theorem srcBitList_decoderAt (p : Nat) : ∀ n q : Nat, q + n ≤ u.srcBits →
    (u.decoderAt d m p).srcBitList q n = u.srcBitList q n
  | 0, _, _ => rfl
  | n + 1, q, hq => by
    have hbyte : m.read (u.srcByteAddr (q / 8)).toNat = u.mem.read (u.srcByteAddr (q / 8)).toNat := by
      have hfits := h.fits
      refine h.holds.kept _ fun j _ hj => srcByteAddr_ne_dstByteAddr hok ?_ (by omega)
      rw [State.srcBits] at hq
      omega
    have hbit : (u.decoderAt d m p).srcBit q = u.srcBit q := congrArg (fun b => b.getLsbD (q % 8)) hbyte
    rw [State.srcBitList, State.srcBitList, hbit, srcBitList_decoderAt p n (q + 1) (by omega)]

/-- A field that stands next is what the reader finds (40_bitstream.md R143, R147). -/
theorem nextBits_decoderAt {p v n : Nat} (hbits : u.StreamAt p (Field.range v n).stream) (hv : v < 2 ^ n) :
    (u.decoderAt d m p).brPos.toNat + n ≤ u.srcBits ∧ (u.decoderAt d m p).nextBits n = v := by
  obtain ⟨hfits, hread⟩ := hbits
  rw [length_stream_range] at hfits hread
  rw [State.nextBits, toNat_brPos_decoderAt hok d m (by omega), srcBitList_decoderAt hok h d p n p hfits, hread]
  exact ⟨hfits, (natOfLsb_bitsLsb n v).trans (Nat.mod_eq_of_lt hv)⟩

theorem readRange_decoderAt {p v n : Nat} (hbits : u.StreamAt p (Field.range v n).stream) (hv : v < 2 ^ n)
    (eof : CmdError) : (u.decoderAt d m p).readRange n eof = .ok (v, u.decoderAt d m (p + n)) := by
  obtain ⟨hfits, hvalue⟩ := nextBits_decoderAt hok h d hbits hv
  rw [readRange_advance hfits, hvalue, advance_decoderAt hok d m (Nat.le_trans (Nat.le_add_right p _) hbits.fits)]

/-- Reading back a symbol (42_huffman.md R189). -/
theorem decodeSymbol_decoderAt {p k : Nat} {v : DecodeView} {lens : List Nat} (hv : Decodes v lens)
    (hk : 0 < lens.getD k 0) (hbits : u.StreamAt p (Field.symbol (encodeView lens) k).stream) (eof : CmdError) :
    (u.decoderAt d m p).decodeSymbol v eof = .ok (k, u.decoderAt d m (p + lens.getD k 0)) := by
  obtain ⟨hfits, hread⟩ := hbits
  rw [length_stream_symbol] at hfits hread
  have hpos := toNat_brPos_decoderAt hok d m (p := p) (by omega)
  rw [hv (u.decoderAt d m p) k eof (State.bothRegionsOk_src hok) hk (by rw [hpos]; exact hfits) ?_,
    advance_decoderAt hok d m (by omega)]
  rw [hpos, srcBitList_decoderAt hok h d p _ p hfits]
  exact hread

end

/-! Steps of the FSM. -/

/-- A DECOMPRESS that started in `u` gets from decoder `d` at bit `p` to `d'` at `p'`, in at most as many symbols as
bits. -/
def Reaches (u : State) (d : Decoder) (p : Nat) (d' : Decoder) (p' : Nat) : Prop :=
  ∀ m, Wrote u d.out m → ∃ m' k, Wrote u d'.out m' ∧ p + k ≤ p' ∧
    ∀ fuel, State.runStream (fuel + k) (u.decoderAt d m p) = State.runStream fuel (u.decoderAt d' m' p')

theorem Reaches.refl (u : State) (d : Decoder) (p : Nat) : Reaches u d p d p :=
  fun m hm => ⟨m, 0, hm, Nat.le_refl p, fun _ => rfl⟩

theorem Reaches.trans {u : State} {d d' d'' : Decoder} {p p' p'' : Nat} (h : Reaches u d p d' p')
    (h' : Reaches u d' p' d'' p'') : Reaches u d p d'' p'' := by
  intro m hm
  obtain ⟨m', k, hm', hk, hrun⟩ := h m hm
  obtain ⟨m'', k', hm'', hk', hrun'⟩ := h' m' hm'
  refine ⟨m'', k' + k, hm'', by omega, fun fuel => ?_⟩
  rw [← Nat.add_assoc, hrun, hrun']

/-- One step of the FSM from a running decoder: the symbol fetched, then run (R275). -/
theorem streamStep_decoderAt {u : State} {d : Decoder} {m : Memory} {p q n : Nat}
    (hfetch : (u.decoderAt d m p).fetchSymbol d = .ok (n, u.decoderAt d m q)) :
    (u.decoderAt d m p).streamStep = (u.decoderAt d m q).runSymbol d.phase n := by
  have hwork : (u.decoderAt d m p).work = some d := rfl
  simp only [State.streamStep, hwork, hfetch]

/-- One symbol, which moves the reader on. -/
theorem reaches_step {u : State} {d d' : Decoder} {p q p' n : Nat} (hlt : p < p')
    (hfetch : ∀ m, Wrote u d.out m → (u.decoderAt d m p).fetchSymbol d = .ok (n, u.decoderAt d m q))
    (hrun : ∀ m, Wrote u d.out m →
      ∃ m', Wrote u d'.out m' ∧ (u.decoderAt d m q).runSymbol d.phase n = .next (u.decoderAt d' m' p')) :
    Reaches u d p d' p' := by
  intro m hm
  obtain ⟨m', hm', hnext⟩ := hrun m hm
  refine ⟨m', 1, hm', hlt, fun fuel => ?_⟩
  rw [runStream_succ fuel ((streamStep_decoderAt (hfetch m hm)).trans hnext)]
  rfl

end Sys2Proof.Machine
end

section
/-! The decoder on each state of the bit-packing machine (44_deflate_encode.md R241): HEADER and CL_LENGTHS, LENGTH_SEQ,
TOKENS and EOB. -/

namespace Sys2Proof.Machine

/-! The parts of a block that need no running decoder. -/

/-- The fields of code-length code lengths (R240). -/
def clFields (cl : List Nat) (syms : List Nat) : List Field := syms.map fun s => .range (cl.getD s 0) 3

/-- The counts and code-length lengths of a block fit their fields (R235, R239). -/
structure HeaderFits (t : BlockTables) : Prop where
  hlit : t.hlit ≤ 29
  hdist : t.hdist ≤ 29
  clSent : 4 ≤ t.clSent ∧ t.clSent ≤ 19
  cl : ∀ s, t.cl.lens.getD s 0 ≤ 7

/-- The decoder state after the header of a block with tables `t` (R270). -/
def afterHeader (out : List Byte) (final : Bool) (t : BlockTables) : Decoder :=
  ⟨out, final, .lengths (t.hlit + 257) (t.hlit + 257 + t.hdist + 1)
    (decodeView (clLengths ((clOrder.take t.clSent).map fun s => (s, t.cl.lens.getD s 0)))) []⟩

/-- BTYPE 2 at a header (R264, R270). -/
theorem blockSymbol_dynamic {s : State} {out : List Byte} {old final : Bool}
    (hwork : s.work = some ⟨out, old, .header⟩) :
    s.blockSymbol 2 final = s.settle (s.dynamicBlock out final) := by
  simp only [State.blockSymbol, hwork]
  rfl

/-- One byte put out (R263). -/
theorem holdsOutput_put {s : State} (hreg : s.dstRegionOk = true) {out : List Byte} (b : Byte)
    (hroom : out.length < s.dstCap.toNat) :
    HoldsOutput s out.length (out ++ [b]) (s.dstByteWrite out.length b).mem := by
  have hlength : (out ++ [b]).length = out.length + 1 := List.length_append
  have hb : (out ++ [b]).getD out.length 0#8 = b := by
    rw [getD_append_right (Nat.le_refl _), Nat.sub_self]
    rfl
  refine HoldsOutput.afterWrite hreg (by omega) (by omega) ?_
  rw [hb, ← hlength]
  exact .refl _ _

/-- A copy that stays within the end of the output does not see what stands before it. -/
theorem appendCopies_append (pre : List Byte) {d : Nat} (hd : 1 ≤ d) : ∀ (n : Nat) {out : List Byte}, d ≤ out.length →
    appendCopies d n (pre ++ out) = pre ++ appendCopies d n out
  | 0, _, _ => rfl
  | n + 1, out, h => by
    have hbyte : (pre ++ out).getD ((pre ++ out).length - d) 0#8 = out.getD (out.length - d) 0#8 := by
      rw [List.length_append, getD_append_right (by omega)]
      congr 1
      omega
    rw [appendCopies, appendCopies, hbyte, List.append_assoc,
      appendCopies_append pre hd n (by rw [List.length_append]; omega)]

section
variable {u : State} (hok : u.bothRegionsOk = true) {out : List Byte} {final : Bool} {p : Nat}
include hok

/-! HEADER and CL_LENGTHS (45_deflate_decode.md R264, R270, R272). -/

theorem readClLengths_decoderAt {m : Memory} (h : Wrote u out m) (d : Decoder) {cl : List Nat}
    (hcl : ∀ s, cl.getD s 0 ≤ 7) : ∀ {syms : List Nat} {p : Nat}, u.StreamAt p (fieldStream (clFields cl syms)) →
    State.readClLengths syms (u.decoderAt d m p) =
      .ok (syms.map fun s => (s, cl.getD s 0), u.decoderAt d m (p + (fieldStream (clFields cl syms)).length))
  | [], _, _ => rfl
  | s :: syms, p, hbits => by
    obtain ⟨hfield, hrest⟩ := State.StreamAt.range hbits
    rw [readClLengths_cons, readRange_decoderAt hok h d hfield (Nat.lt_succ_of_le (hcl s))]
    show State.readClLengths syms (u.decoderAt d m (p + 3)) >>= _ = _
    rw [readClLengths_decoderAt h d hcl hrest]
    simp only [clFields, List.map_cons, fieldStream_cons, List.length_append, length_stream_range, ← Nat.add_assoc]
    rfl

theorem reaches_header {t : BlockTables} (ht : HeaderFits t) (old : Bool)
    (hbits : u.StreamAt p (fieldStream (headerFields final t ++ clLengthFields t))) :
    Reaches u ⟨out, old, .header⟩ p (afterHeader out final t)
      (p + (fieldStream (headerFields final t ++ clLengthFields t)).length) := by
  obtain ⟨hlit, hdist, ⟨hcl4, hcl19⟩, hcl⟩ := ht
  have hfields : headerFields final t ++ clLengthFields t = .range final.toNat 1 :: .range 2 2 :: .range t.hlit 5 ::
      .range t.hdist 5 :: .range (t.clSent - 4) 4 :: clFields t.cl.lens (clOrder.take t.clSent) := rfl
  rw [hfields] at hbits ⊢
  obtain ⟨hfinal, hbits⟩ := hbits.range
  obtain ⟨htype, hbits⟩ := hbits.range
  obtain ⟨hnlit, hbits⟩ := hbits.range
  obtain ⟨hndist, hbits⟩ := hbits.range
  obtain ⟨hsent, hlens⟩ := hbits.range
  simp only [fieldStream_cons, List.length_append, length_stream_range, ← Nat.add_assoc]
  refine reaches_step (q := p + 1 + 2) (n := final.toNat + 2 * 2) (by omega) (fun m hm => ?_) fun m hm => ⟨m, hm, ?_⟩
  · simp only [State.fetchSymbol, readRange_decoderAt hok hm _ hfinal final.toNat_lt,
      readRange_decoderAt hok hm _ htype (by decide : 2 < 2 ^ 2), bind, Except.bind]
    rfl
  · have hselector : (u.decoderAt ⟨out, old, .header⟩ m (p + 1 + 2)).runSymbol .header (final.toNat + 2 * 2) =
        (u.decoderAt ⟨out, old, .header⟩ m (p + 1 + 2)).blockSymbol 2 final := by
      cases final <;> rfl
    have hlen : t.clSent - 4 + 4 = t.clSent := Nat.sub_add_cancel hcl4
    have hreserved : ¬ t.hlit + 257 > 286 := by omega
    rw [hselector, blockSymbol_dynamic rfl]
    simp only [State.dynamicBlock, readRange_decoderAt hok hm _ hnlit (by omega : t.hlit < 2 ^ 5),
      readRange_decoderAt hok hm _ hndist (by omega : t.hdist < 2 ^ 5),
      readRange_decoderAt hok hm _ hsent (by omega : t.clSent - 4 < 2 ^ 4), bind, Except.bind, if_neg hreserved, hlen,
      readClLengths_decoderAt hok hm _ hcl hlens]
    rfl

/-! LENGTH_SEQ (45_deflate_decode.md R273, R274). -/

/-- What a pair's symbol appends, its extra bits standing next (R273). -/
theorem clAppend_decoderAt {m : Memory} (hm : Wrote u out m) (d : Decoder) {i : ClItem} (hi : i.Legal) {seq : List Nat}
    (hprev : i.sym = 16 → seq ≠ []) (hbits : u.StreamAt p (Field.range i.extra (clExtraBits i.sym)).stream) :
    (u.decoderAt d m p).clAppend i.sym seq =
      .ok (seq ++ i.lengths (seq.getLastD 0), u.decoderAt d m (p + clExtraBits i.sym)) := by
  obtain ⟨sym, extra⟩ := i
  obtain ⟨hsym, hextra⟩ := hi
  have hread := readRange_decoderAt hok hm d hbits hextra .truncated
  simp only at hsym hextra hprev hread ⊢
  rcases (by omega : sym ≤ 15 ∨ sym = 16 ∨ sym = 17 ∨ sym = 18) with hvalue | rfl | rfl | rfl
  · have hwidth : clExtraBits sym = 0 := by
      rw [clExtraBits, if_neg (by omega), if_neg (by omega), if_neg (by omega)]
    obtain rfl : extra = 0 := by
      rw [hwidth] at hextra
      omega
    rw [clAppend_value _ hvalue, ClItem.lengths_value hvalue, hwidth, Nat.add_zero]
  · rw [clAppend_sixteen _ (hprev rfl), State.appendRun]
    exact congrArg (· >>= _) hread
  · rw [clAppend_seventeen, State.appendRun]
    exact congrArg (· >>= _) hread
  · rw [clAppend_eighteen, State.appendRun]
    exact congrArg (· >>= _) hread

section
variable {t : BlockTables} {cl : List Nat} (hcl : t.cl = encodeView cl) {ct : DecodeView} (hct : Decodes ct cl)
  {nLit total : Nat}
include hcl hct

/-- One pair, after which the sequence stands as `d'` says. -/
theorem reaches_item {i : ClItem} (hi : i.Legal) (hcode : 0 < cl.getD i.sym 0) {seq : List Nat}
    (hprev : i.sym = 16 → seq ≠ []) (hbits : u.StreamAt p (fieldStream (itemFields t i))) {d' : Decoder}
    (hout : d'.out = out)
    (hcontinue : ∀ m q, (u.decoderAt ⟨out, final, .lengths nLit total ct seq⟩ m q).clContinue
      ⟨out, final, .lengths nLit total ct seq⟩ nLit total ct (seq ++ i.lengths (seq.getLastD 0)) =
        .ok (u.decoderAt d' m q)) :
    Reaches u ⟨out, final, .lengths nLit total ct seq⟩ p d' (p + (fieldStream (itemFields t i)).length) := by
  rw [itemFields, hcl] at hbits ⊢
  obtain ⟨hsym, hbits⟩ := hbits.symbol
  obtain ⟨hextra, -⟩ := hbits.range
  simp only [fieldStream_cons, fieldStream_nil, List.length_append, length_stream_symbol, length_stream_range,
    List.length_nil, Nat.add_zero, ← Nat.add_assoc]
  refine reaches_step (q := p + cl.getD i.sym 0) (n := i.sym) (by omega)
    (fun m hm => decodeSymbol_decoderAt hok hm _ hct hcode hsym .truncated) fun m hm => ⟨m, hout ▸ hm, ?_⟩
  refine (clSymbol_eq (s := u.decoderAt _ m _) rfl i.sym).trans ?_
  rw [clAppend_decoderAt hok hm _ hi hprev hextra]
  exact congrArg (State.settle _) (hcontinue m _)

/-- The pairs up to the end of the sequence, after which the views are built (R270). -/
theorem reaches_items : ∀ {items : List ClItem} {seq : List Nat} {p : Nat}, items ≠ [] → (∀ i ∈ items, i.Legal) →
    (∀ i ∈ items, 0 < cl.getD i.sym 0) → (∀ i ∈ items.head?, i.sym = 16 → seq ≠ []) →
    u.StreamAt p (fieldStream (items.flatMap (itemFields t))) → (expandItems seq items).length = total →
    Reaches u ⟨out, final, .lengths nLit total ct seq⟩ p
      ⟨out, final, .data (decodeView ((expandItems seq items).take nLit))
        (decodeView ((expandItems seq items).drop nLit))⟩
      (p + (fieldStream (items.flatMap (itemFields t))).length)
  | [], _, _, hne, _, _, _, _, _ => absurd rfl hne
  | i :: items, seq, p, _, hlegal, hcodes, hprev, hbits, htotal => by
    obtain ⟨hi, hlegal⟩ := List.forall_mem_cons.1 hlegal
    obtain ⟨hcode, hcodes⟩ := List.forall_mem_cons.1 hcodes
    rw [List.flatMap_cons, fieldStream_append] at hbits ⊢
    obtain ⟨hitem, hbits⟩ := hbits.append
    have hstep {d' : Decoder} := reaches_item hok hcl hct (out := out) (final := final) (nLit := nLit) (total := total) hi hcode
      (hprev i rfl) hitem (d' := d')
    rw [expandItems_cons] at htotal ⊢
    cases items with
    | nil =>
      rw [List.flatMap_nil, fieldStream_nil, List.append_nil]
      exact hstep rfl fun m q => clContinue_complete _ _ _ _ _ _ htotal
    | cons j items =>
      have hlength := add_length_le_length_expandItems (j :: items) (seq ++ i.lengths (seq.getLastD 0))
      rw [htotal, List.length_cons] at hlength
      have hnonempty : seq ++ i.lengths (seq.getLastD 0) ≠ [] := fun hnil => by
        have hpos := i.lengths_pos (seq.getLastD 0)
        rw [(List.append_eq_nil_iff.1 hnil).2] at hpos
        exact Nat.not_succ_le_zero 0 hpos
      rw [List.length_append, ← Nat.add_assoc]
      exact (hstep rfl fun m q => clContinue_below _ _ _ _ _ _ (by omega)).trans
        (reaches_items (List.cons_ne_nil j items) hlegal hcodes (fun _ _ _ => hnonempty) hbits htotal)

end

/-! TOKENS and EOB (45_deflate_decode.md R264, R276, R278, R281). -/

section
variable {t : BlockTables} {ll dl : List Nat} (hll : t.ll = encodeView ll) (hdl : t.dist = encodeView dl)
  {lt dt : DecodeView} (hlt : Decodes lt ll) (hdt : Decodes dt dl)
include hll hlt

theorem reaches_literal {b : Byte} (hcode : 0 < ll.getD b.toNat 0) (hroom : out.length < u.dstCap.toNat)
    (hbits : u.StreamAt p (fieldStream (tokenFields t (.literal b)))) :
    Reaches u ⟨out, final, .data lt dt⟩ p ⟨out ++ [b], final, .data lt dt⟩
      (p + (fieldStream (tokenFields t (.literal b))).length) := by
  have hreg := State.bothRegionsOk_dst hok
  rw [tokenFields, hll] at hbits ⊢
  obtain ⟨hsym, -⟩ := hbits.symbol
  rw [fieldStream_cons, fieldStream_nil, List.append_nil, length_stream_symbol]
  refine reaches_step (q := p + ll.getD b.toNat 0) (n := b.toNat) (by omega)
    (fun m hm => decodeSymbol_decoderAt hok hm _ hlt hcode hsym .truncated)
    fun m hm => ⟨m.write (u.dstByteAddr out.length).toNat b, ?_, ?_⟩
  · refine hm.append hreg (holdsOutput_put (s := u.decoderAt ⟨out, final, .data lt dt⟩ m p) hreg b hroom)
      (List.prefix_append out [b]) ?_
    rw [List.length_append, List.length_singleton]
    exact hroom
  · refine (llSymbol_literal (s := u.decoderAt _ m _) rfl b).trans ?_
    rw [put_room (s := u.decoderAt _ m _) (Nat.ne_of_lt hroom)]
    rfl

/-- The step at the end of a block. -/
theorem streamStep_endOfBlock {m : Memory} (hm : Wrote u out m) (hcode : 0 < ll.getD 256 0)
    (hbits : u.StreamAt p (fieldStream (eobFields t))) :
    (u.decoderAt ⟨out, final, .data lt dt⟩ m p).streamStep =
      .next ((u.decoderAt ⟨out, final, .data lt dt⟩ m (p + (fieldStream (eobFields t)).length)).endBlock out final) := by
  rw [eobFields, hll] at hbits ⊢
  obtain ⟨hsym, -⟩ := hbits.symbol
  have hfetch : (u.decoderAt ⟨out, final, .data lt dt⟩ m p).fetchSymbol ⟨out, final, .data lt dt⟩ =
      .ok (256, u.decoderAt ⟨out, final, .data lt dt⟩ m (p + ll.getD 256 0)) :=
    decodeSymbol_decoderAt hok hm _ hlt hcode hsym .truncated
  rw [fieldStream_cons, fieldStream_nil, List.append_nil, length_stream_symbol, streamStep_decoderAt hfetch]
  exact llSymbol_endOfBlock (s := u.decoderAt ⟨out, final, .data lt dt⟩ m _) rfl

/-- The end of a block that is not the last (R264). -/
theorem reaches_endOfBlock (hcode : 0 < ll.getD 256 0) (hbits : u.StreamAt p (fieldStream (eobFields t))) :
    Reaches u ⟨out, false, .data lt dt⟩ p ⟨out, false, .header⟩ (p + (fieldStream (eobFields t)).length) := by
  intro m hm
  refine ⟨m, 1, hm, ?_, fun fuel => ?_⟩
  · rw [eobFields, hll, fieldStream_cons, fieldStream_nil, List.append_nil, length_stream_symbol]
    exact Nat.add_le_add_left hcode p
  · rw [runStream_succ fuel (streamStep_endOfBlock hok hll hlt hm hcode hbits)]
    rfl

/-- DECOMPRESS from its start, where the decoder gets to the end of the last block (R264, R285). -/
theorem runStream_of_reaches (hcode : 0 < ll.getD 256 0) (hbits : u.StreamAt p (fieldStream (eobFields t)))
    (h : Reaches u ⟨[], false, .header⟩ 0 ⟨out, true, .data lt dt⟩ p) :
    ∃ v, State.runStream u.streamFuel u.beginDecode = .next v ∧ v.errcode = none ∧
      v.outLen = BitVec.ofNat 32 out.length ∧ v.dstBytes out.length = out := by
  obtain ⟨m, k, hm, hk, hrun⟩ := h u.mem ⟨Nat.zero_le _, .refl u []⟩
  have hfits := hbits.fits
  have hfuel : u.streamFuel = u.srcBits - k + 1 + k := by
    rw [State.streamFuel]
    omega
  have hexec : State.runStream u.streamFuel u.beginDecode = .next ((u.decoderAt ⟨out, true, .data lt dt⟩ m
      (p + (fieldStream (eobFields t)).length)).endBlock out true) := by
    rw [hfuel]
    exact (hrun _).trans (runStream_succ _ (streamStep_endOfBlock hok hll hlt hm hcode hbits))
  refine ⟨_, hexec, rfl, rfl, List.ext_getElem ?_ fun j hj hj' => ?_⟩
  · rw [State.dstBytes, List.length_map, List.length_range]
  · simp only [State.dstBytes, List.getElem_map, List.getElem_range]
    exact (hm.holds.written j (Nat.zero_le j) hj').trans (getD_of_lt hj' _)

omit hll

/-- The length symbol of a match and its extra bits (R276, R278). -/
theorem reaches_lengthSymbol {l c : Nat} (hc : c ≤ 28) (hbase : lengthBase c ≤ l)
    (hextra : l - lengthBase c < 2 ^ lengthExtra c) (hcode : 0 < ll.getD (257 + c) 0)
    (hsym : u.StreamAt p (Field.symbol (encodeView ll) (257 + c)).stream)
    (hrest : u.StreamAt (p + ll.getD (257 + c) 0) (Field.range (l - lengthBase c) (lengthExtra c)).stream) :
    Reaches u ⟨out, final, .data lt dt⟩ p ⟨out, final, .distance lt dt l⟩
      (p + ll.getD (257 + c) 0 + lengthExtra c) := by
  refine reaches_step (q := p + ll.getD (257 + c) 0) (n := 257 + c) (by omega)
    (fun m hm => decodeSymbol_decoderAt hok hm _ hlt hcode hsym .truncated) fun m hm => ⟨m, hm, ?_⟩
  refine (llSymbol_length (s := u.decoderAt _ m _) rfl (by omega) (by omega)
    (show 257 + c - 257 = c by omega)).trans ?_
  rw [readRange_decoderAt hok hm _ hrest hextra]
  show Host.Outcome.next _ = _
  rw [Nat.add_sub_cancel' hbase]
  rfl

omit hlt
include hdt

/-- The distance symbol of a match, its extra bits and the copy (R280, R281). -/
theorem reaches_distanceSymbol {l d g : Nat} (hg : g ≤ 29) (hbase : distBase g ≤ d)
    (hextra : d - distBase g < 2 ^ distExtra g) (hcode : 0 < dl.getD g 0) (hnear : d ≤ out.length)
    (hroom : out.length + l ≤ u.dstCap.toNat) (hsym : u.StreamAt p (Field.symbol (encodeView dl) g).stream)
    (hrest : u.StreamAt (p + dl.getD g 0) (Field.range (d - distBase g) (distExtra g)).stream) :
    Reaches u ⟨out, final, .distance lt dt l⟩ p ⟨appendCopies d l out, final, .data lt dt⟩
      (p + dl.getD g 0 + distExtra g) := by
  have hreg := State.bothRegionsOk_dst hok
  refine reaches_step (q := p + dl.getD g 0) (n := g) (by omega)
    (fun m hm => decodeSymbol_decoderAt hok hm _ hdt hcode hsym .truncated) fun m hm => ?_
  obtain ⟨hfits, hnext⟩ := nextBits_decoderAt hok hm ⟨out, final, .distance lt dt l⟩ hrest hextra
  obtain ⟨m', hcopy, hm'⟩ := copyMatch_fits d l
    (s := u.decoderAt ⟨out, final, .distance lt dt l⟩ m (p + dl.getD g 0 + distExtra g)) (out := out) hreg hroom
  refine ⟨m', hm.append hreg hm' (prefix_appendCopies d l out) (by rw [length_appendCopies]; exact hroom), ?_⟩
  refine (distSymbol_eq (s := u.decoderAt _ m _) rfl hg hfits (by rw [hnext, Nat.add_sub_cancel' hbase])).trans ?_
  rw [if_neg (Nat.not_lt.2 hnear), advance_decoderAt hok _ m (Nat.le_trans (Nat.le_add_right _ _) hrest.fits), hcopy]
  rfl

include hll hdl hlt

/-- A match: the length symbol, then the distance symbol. -/
theorem reaches_copy {l d : Nat} (hrange : (Token.copy l d).InRange) (hlcode : 0 < ll.getD (257 + lenCode l) 0)
    (hdcode : 0 < dl.getD (distCode d) 0) (hnear : d ≤ out.length) (hroom : out.length + l ≤ u.dstCap.toNat)
    (hbits : u.StreamAt p (fieldStream (tokenFields t (.copy l d)))) :
    Reaches u ⟨out, final, .data lt dt⟩ p ⟨appendCopies d l out, final, .data lt dt⟩
      (p + (fieldStream (tokenFields t (.copy l d))).length) := by
  obtain ⟨hlmin, hlmax, hdmin, hdmax⟩ := hrange
  obtain ⟨hlc, hlbase, hlextra, -⟩ := lengthAndDistanceCodesHoldTheirValue.1 l hlmin hlmax
  obtain ⟨hdc, hdbase, hdextra⟩ := lengthAndDistanceCodesHoldTheirValue.2 d hdmin hdmax
  rw [tokenFields, hll, hdl] at hbits ⊢
  obtain ⟨hlsym, hbits⟩ := hbits.symbol
  obtain ⟨hlrest, hbits⟩ := hbits.range
  obtain ⟨hdsym, hbits⟩ := hbits.symbol
  obtain ⟨hdrest, -⟩ := hbits.range
  simp only [fieldStream_cons, fieldStream_nil, List.length_append, length_stream_symbol, length_stream_range,
    List.length_nil, Nat.add_zero, ← Nat.add_assoc]
  exact (reaches_lengthSymbol hok hlt hlc hlbase hlextra hlcode hlsym hlrest).trans
    (reaches_distanceSymbol hok hdt hdc hdbase hdextra hdcode hnear hroom hdsym hdrest)

/-- Tokens that cover a block from a position on, after the output `pre` of the blocks before it. -/
theorem reaches_tokens {pre data : List Byte} (hroom : (pre ++ data).length ≤ u.dstCap.toNat) :
    ∀ {toks : List Token} {i p : Nat}, TokensCover data i toks → (∀ tok ∈ toks, 0 < ll.getD tok.llSymbol 0) →
      (∀ l d, .copy l d ∈ toks → 0 < dl.getD (distCode d) 0) →
      u.StreamAt p (fieldStream (toks.flatMap (tokenFields t))) →
      Reaches u ⟨pre ++ data.take i, final, .data lt dt⟩ p ⟨pre ++ data, final, .data lt dt⟩
        (p + (fieldStream (toks.flatMap (tokenFields t))).length)
  | [], i, p, hend, _, _, _ => by
    rw [List.take_of_length_le (Nat.le_of_eq hend.symm)]
    exact .refl _ _ _
  | tok :: toks, i, p, hcover, hllcodes, hdcodes, hbits => by
    obtain ⟨hllcode, hllrest⟩ := List.forall_mem_cons.1 hllcodes
    have hdrest := fun l d hmem => hdcodes l d (List.mem_cons_of_mem tok hmem)
    rw [List.flatMap_cons, fieldStream_append] at hbits ⊢
    obtain ⟨htok, hbits⟩ := hbits.append
    rw [List.length_append, ← Nat.add_assoc]
    rw [List.length_append] at hroom
    cases tok with
    | literal b =>
      obtain ⟨hbyte, hcover⟩ := hcover
      obtain ⟨hi, rfl⟩ := List.getElem?_eq_some_iff.1 hbyte
      have hfree : (pre ++ data.take i).length < u.dstCap.toNat := by
        rw [List.length_append, List.length_take_of_le (Nat.le_of_lt hi)]
        omega
      refine (reaches_literal hok hll hlt hllcode hfree htok).trans ?_
      rw [List.append_assoc, List.take_append_getElem hi]
      exact reaches_tokens (by rwa [List.length_append]) hcover hllrest hdrest hbits
    | copy l d =>
      obtain ⟨hmatch, hcover⟩ := tokensCover_copy.1 hcover
      have hinside := hmatch.startsInside
      have hend := hmatch.endsInside
      have hlength : (data.take i).length = i := List.length_take_of_le (by omega)
      have hnear : d ≤ (pre ++ data.take i).length := by
        rw [List.length_append]
        omega
      have hfits : (pre ++ data.take i).length + l ≤ u.dstCap.toNat := by
        rw [List.length_append]
        omega
      refine (reaches_copy hok hll hdl hlt hdt
        ⟨hmatch.minLength, hmatch.maxLength, hmatch.minDistance, hmatch.maxDistance⟩ hllcode
        (hdcodes l d List.mem_cons_self) hnear hfits htok).trans ?_
      rw [appendCopies_append pre hmatch.minDistance l (by omega),
        appendCopies_take hmatch.minDistance l i hinside hend hmatch.sameBytes]
      exact reaches_tokens (by rwa [List.length_append]) hcover hllrest hdrest hbits

end

end

end Sys2Proof.Machine
end

section
/-! DECOMPRESS gives back what COMPRESS took (44_deflate_encode.md R248; O60): block by block, the decoder's output is the
input so far, and the end of the last block ends the command. -/

namespace Sys2Proof.Machine

/-! The pairs of a block's sequence (R236, R238). -/

/-- A run does not begin with a repeat (R238). -/
theorem rleRun_eq_cons {v r : Nat} (hv : v ≤ 15) (hr : 0 < r) : ∃ i rest, rleRun (v, r) = i :: rest ∧ i.sym ≠ 16 := by
  unfold rleRun
  split
  next =>
    rw [rleZeros]
    split
    next => exact ⟨_, _, rfl, (by decide : 18 ≠ 16)⟩
    next =>
      split
      next => exact ⟨_, _, rfl, (by decide : 17 ≠ 16)⟩
      next =>
        obtain ⟨r, rfl⟩ := Nat.exists_eq_add_of_le' hr
        exact ⟨_, _, rfl, by decide⟩
  next => exact ⟨_, _, rfl, by show v ≠ 16; omega⟩

theorem sym_ne_sixteen_of_head_rle {seq : List Nat} (h : ∀ l ∈ seq, l ≤ 15) : ∀ i ∈ (rle seq).head?, i.sym ≠ 16 := by
  have hruns := lengthRuns_le h
  rw [rle]
  cases hlist : lengthRuns seq with
  | nil => exact fun _ hi => nomatch hi
  | cons run runs =>
    rw [hlist] at hruns
    obtain ⟨⟨hv, hr⟩, -⟩ := List.forall_mem_cons.1 hruns
    obtain ⟨i, rest, hrun, hi⟩ := rleRun_eq_cons hv hr
    rw [List.flatMap_cons, show run = (run.1, run.2) from rfl, hrun]
    rintro _ ⟨⟩
    exact hi

section
variable (toks : List Token)

theorem expandItems_blockItems : expandItems [] (blockItems toks) = sentLl toks ++ sentDist toks :=
  expandItems_rle (sentLengths_le toks)

theorem blockItems_ne_nil : blockItems toks ≠ [] := fun hnil => by
  have hexpand := expandItems_blockItems toks
  have hlength := length_sentDist toks
  rw [hnil] at hexpand
  rw [(List.append_eq_nil_iff.1 hexpand.symm).2] at hlength
  exact absurd hlength (Nat.succ_ne_zero _).symm

theorem headerFits : HeaderFits (blockTables toks) where
  hlit := hlit_le toks
  hdist := hdist_le toks
  clSent := ⟨four_le_clSent toks, clSent_le toks⟩
  cl s := by
    rw [blockTables_cl, encodeView_lens]
    exact (clCodeLengths_codeLengths toks).getD_le s

/-- After the header the decoder awaits the sequence of the block (R270). -/
theorem afterHeader_blockTables (out : List Byte) (final : Bool) :
    afterHeader out final (blockTables toks) =
      ⟨out, final, .lengths (sentLl toks).length (sentLl toks ++ sentDist toks).length
        (decodeView (clCodeLengths toks)) []⟩ := by
  have hcl : (blockTables toks).cl.lens = clCodeLengths toks := by rw [blockTables_cl, encodeView_lens]
  rw [afterHeader, hcl, clLengths_clSent, List.length_append, length_sentLl, length_sentDist, Nat.add_assoc (_ + 257) _ 1]

end

/-! A block. -/

/-- The fields of a block before its end (R240). -/
def bodyFields (ps : Params) (block : List Byte) (final : Bool) : List Field :=
  headerFields final (blockTables (tokenize ps block)) ++ clLengthFields (blockTables (tokenize ps block)) ++
    (blockItems (tokenize ps block)).flatMap (itemFields (blockTables (tokenize ps block))) ++
    (tokenize ps block).flatMap (tokenFields (blockTables (tokenize ps block)))

theorem blockFields_eq_body (ps : Params) (block : List Byte) (final : Bool) :
    blockFields ps block final = bodyFields ps block final ++ eobFields (blockTables (tokenize ps block)) :=
  blockFields_eq ps block final

section
variable {u : State} (hok : u.bothRegionsOk = true)
include hok

section
variable {final : Bool} {p : Nat} (toks : List Token)

theorem reaches_blockHeader (pre : List Byte)
    (hbits : u.StreamAt p (fieldStream (headerFields final (blockTables toks) ++ clLengthFields (blockTables toks)))) :
    Reaches u ⟨pre, false, .header⟩ p
      ⟨pre, final, .lengths (sentLl toks).length (sentLl toks ++ sentDist toks).length
        (decodeView (clCodeLengths toks)) []⟩
      (p + (fieldStream (headerFields final (blockTables toks) ++ clLengthFields (blockTables toks))).length) := by
  rw [← afterHeader_blockTables]
  exact reaches_header hok (headerFits toks) false hbits

theorem reaches_blockItems (pre : List Byte)
    (hbits : u.StreamAt p (fieldStream ((blockItems toks).flatMap (itemFields (blockTables toks))))) :
    Reaches u ⟨pre, final, .lengths (sentLl toks).length (sentLl toks ++ sentDist toks).length
        (decodeView (clCodeLengths toks)) []⟩ p
      ⟨pre, final, .data (decodeView (sentLl toks)) (decodeView (sentDist toks))⟩
      (p + (fieldStream ((blockItems toks).flatMap (itemFields (blockTables toks)))).length) := by
  have h := reaches_items hok (blockTables_cl toks) (decodes_clCodeLengths toks) (out := pre) (final := final)
    (nLit := (sentLl toks).length) (total := (sentLl toks ++ sentDist toks).length) (seq := [])
    (blockItems_ne_nil toks) (blockItems_legal toks) (fun i hi => clCodeLengths_sym_pos hi)
    (fun i hi hsixteen => absurd hsixteen (sym_ne_sixteen_of_head_rle (sentLengths_le toks) i hi)) hbits
    (by rw [expandItems_blockItems])
  rwa [expandItems_blockItems, List.take_left, List.drop_left] at h

end

/-- The decoder on a block: it puts out the block, and the end of the block comes next. -/
theorem reaches_blockBody (ps : Params) {pre block : List Byte} {final : Bool} {p : Nat}
    (hroom : (pre ++ block).length ≤ u.dstCap.toNat) (hbits : u.StreamAt p (fieldStream (bodyFields ps block final))) :
    Reaches u ⟨pre, false, .header⟩ p
      ⟨pre ++ block, final, .data (decodeView (sentLl (tokenize ps block)))
        (decodeView (sentDist (tokenize ps block)))⟩
      (p + (fieldStream (bodyFields ps block final)).length) := by
  have hcover := tokensCover_tokenize ps block
  have hrange := tokenize_inRange ps block
  unfold bodyFields at hbits ⊢
  generalize tokenize ps block = toks at *
  rw [fieldStream_append, fieldStream_append] at hbits ⊢
  obtain ⟨hbits, htoks⟩ := hbits.append
  obtain ⟨hheader, hitems⟩ := hbits.append
  rw [List.length_append, ← Nat.add_assoc] at htoks ⊢
  rw [List.length_append, ← Nat.add_assoc]
  have htokens := reaches_tokens hok (blockTables_ll toks) (blockTables_dist toks) (decodes_sentLl toks)
    (decodes_sentDist toks) (final := final) hroom hcover
    (fun tok htok => llLengths_llSymbol_pos htok (hrange tok htok))
    (fun l d hmem => distLengths_distCode_pos hmem (hrange _ hmem)) htoks
  rw [List.take_zero, List.append_nil] at htokens
  exact ((reaches_blockHeader hok toks pre hheader).trans (reaches_blockItems hok toks pre hitems)).trans htokens

/-- A block that is not the last. -/
theorem reaches_block (ps : Params) {pre block : List Byte} {p : Nat}
    (hroom : (pre ++ block).length ≤ u.dstCap.toNat) (hbits : u.StreamAt p (fieldStream (blockFields ps block false))) :
    Reaches u ⟨pre, false, .header⟩ p ⟨pre ++ block, false, .header⟩
      (p + (fieldStream (blockFields ps block false)).length) := by
  rw [blockFields_eq_body, fieldStream_append] at hbits ⊢
  obtain ⟨hbody, heob⟩ := hbits.append
  rw [List.length_append, ← Nat.add_assoc]
  exact (reaches_blockBody hok ps hroom hbody).trans
    (reaches_endOfBlock hok (blockTables_ll _) (decodes_sentLl _) (llLengths_endOfBlock_pos _) heob)

/-! The stream. -/

/-- The fields of block `j` of an input (R230). -/
def fieldsOfBlock (ps : Params) (data : List Byte) (j : Nat) : List Field :=
  blockFields ps (blockAt data j) (j + 1 == blockCount data.length)

/-- The blocks before the last. -/
theorem reaches_blocks (ps : Params) {data : List Byte} (hroom : data.length ≤ u.dstCap.toNat) : ∀ k : Nat,
    k < blockCount data.length → u.StreamAt 0 (fieldStream ((List.range k).flatMap (fieldsOfBlock ps data))) →
    Reaches u ⟨[], false, .header⟩ 0 ⟨data.take (k * Config.blockMax), false, .header⟩
      (fieldStream ((List.range k).flatMap (fieldsOfBlock ps data))).length
  | 0, _, _ => by
    rw [Nat.zero_mul, List.take_zero]
    exact .refl _ _ _
  | k + 1, hk, hbits => by
    have hlast : fieldsOfBlock ps data k = blockFields ps (blockAt data k) false :=
      congrArg (blockFields ps (blockAt data k)) (beq_eq_false_iff_ne.2 (Nat.ne_of_lt hk))
    have hfits : (data.take (k * Config.blockMax) ++ blockAt data k).length ≤ u.dstCap.toNat := by
      rw [take_append_blockAt]
      exact Nat.le_trans (List.length_take_le' _ _) hroom
    rw [List.range_succ, List.flatMap_append, List.flatMap_singleton, hlast, fieldStream_append] at hbits ⊢
    obtain ⟨hfirst, hblock⟩ := hbits.append
    rw [Nat.zero_add] at hblock
    have hstep := reaches_block hok ps hfits hblock
    rw [take_append_blockAt] at hstep
    rw [List.length_append]
    exact (reaches_blocks ps hroom k (Nat.lt_of_succ_lt hk) hfirst).trans hstep

/-- DECOMPRESS on a stream of the encoder gives back its input. -/
theorem runStream_streamBits (ps : Params) {data : List Byte} (hroom : data.length ≤ u.dstCap.toNat)
    (hbits : u.StreamAt 0 (streamBits ps data)) :
    ∃ v, State.runStream u.streamFuel u.beginDecode = .next v ∧ v.errcode = none ∧
      v.outLen = BitVec.ofNat 32 data.length ∧ v.dstBytes data.length = data := by
  obtain ⟨k, hk⟩ := Nat.exists_eq_add_of_le' (show 1 ≤ blockCount data.length from Nat.le_max_left _ _)
  have hlast : fieldsOfBlock ps data k = blockFields ps (blockAt data k) true :=
    congrArg (blockFields ps (blockAt data k)) (beq_iff_eq.2 hk.symm)
  have hall : data.take (k * Config.blockMax) ++ blockAt data k = data := by
    rw [take_append_blockAt, ← hk]
    exact List.take_of_length_le (length_le_blockCount_mul data.length)
  have hfields : streamFields ps data = (List.range (k + 1)).flatMap (fieldsOfBlock ps data) := by
    rw [← hk]
    rfl
  rw [streamBits, hfields, List.range_succ, List.flatMap_append, List.flatMap_singleton, hlast, fieldStream_append,
    blockFields_eq_body, fieldStream_append] at hbits
  obtain ⟨hfirst, hbits⟩ := hbits.append
  obtain ⟨hbody, heob⟩ := hbits.append
  rw [Nat.zero_add] at hbody heob
  have hblock := reaches_blockBody hok ps (pre := data.take (k * Config.blockMax)) (by rwa [hall]) hbody
  rw [hall] at hblock
  exact runStream_of_reaches hok (blockTables_ll _) (decodes_sentLl _) (llLengths_endOfBlock_pos _) heob
    ((reaches_blocks hok ps hroom k (by omega) hfirst).trans hblock)

end

theorem exec_decompress {u : State} (hok : u.bothRegionsOk = true) :
    exec .decompress u = State.runStream u.streamFuel u.beginDecode := by
  show execDecompress u = _
  rw [execDecompress, State.checkBoth_eq, if_pos hok]

/-- The output of COMPRESS as a source region holds its stream. -/
theorem streamAt_of_compress {s t u : State} {bits : List Bool} (hbits : s.compressedBits = .ok bits)
    (h : exec .compress s = .next t) (herr : t.errcode = none) (hmem : u.mem = t.mem) (haddr : u.srcAddr = s.dstAddr)
    (hlen : u.srcLen = t.outLen) : u.StreamAt 0 bits := by
  have hbytes := toNat_outLen_of_compress hbits h herr
  have hdst : t.dstAddr = s.dstAddr := by
    obtain ⟨hreg, hfit, ht⟩ := eq_compressed_of_exec hbits h herr
    obtain ⟨hframe, -⟩ := compressed_spec (State.bothRegionsOk_dst hreg) hfit
    rw [ht, hframe]
    rfl
  have hfits : 0 + bits.length ≤ u.srcBits := by
    rw [State.srcBits, hlen, hbytes, bytesBegun]
    omega
  refine ⟨hfits, List.ext_getElem (length_srcBitList _ _ _) fun p hp hp' => ?_⟩
  have hbit : u.srcBit p = t.dstBit p := by
    rw [State.srcBit, State.srcByte, State.readMem, State.srcByteAddr, hmem, haddr, ← hdst]
    rfl
  rw [← getD_of_lt hp false, getD_srcBitList, decide_eq_true hp', Bool.true_and, Nat.zero_add, hbit,
    dstBit_of_compress hbits h herr (by rw [State.srcBits, hlen] at hfits; omega), getD_of_lt hp']

/-- Settles O60: the source region holds the stream of the input, and the decoder follows the encoder through it. -/
theorem roundTripRestoresInput : Obligations.RoundTripRestoresInput := by
  intro s t u _ h herr hmem haddr hlen hok hroom
  have hstream := streamAt_of_compress (compressedBits_eq s) h herr hmem haddr hlen
  have hlength := length_srcBytes s
  obtain ⟨v, hrun, hv, hout, hbytes⟩ :=
    runStream_streamBits hok s.params (data := s.srcBytes) (by rwa [hlength]) hstream
  rw [hlength] at hout hbytes
  refine ⟨v, (exec_decompress hok).trans hrun, hv, ?_, hbytes⟩
  rw [hout, BitVec.ofNat_toNat, BitVec.setWidth_eq]

end Sys2Proof.Machine
end

section
/-! The Run of DECOMPRESS ends, and it is its stream symbols one step each (45_deflate_decode.md R264, R275, R285;
70_reset_and_hazards.md R366; O44). No part of a symbol moves the reader back (`PastBit`), and fetching it moves the
reader on, so the symbols are fewer than the source bits and one more. -/

namespace Sys2Proof.Machine

/-! What a rule gives when it succeeds. -/

/-- Every success of `x` satisfies `P`. -/
def Gives {α : Type} (P : α → Prop) (x : Except CmdError α) : Prop := ∀ a, x = .ok a → P a

theorem Gives.error {α : Type} {P : α → Prop} (e : CmdError) : Gives P (.error e) := fun _ h => nomatch h

theorem Gives.ok {α : Type} {P : α → Prop} {a : α} (h : P a) : Gives P (.ok a) := by
  rintro _ ⟨⟩
  exact h

theorem Gives.bind {α β : Type} {P : α → Prop} {Q : β → Prop} {x : Except CmdError α}
    {f : α → Except CmdError β} (h : Gives P x) (hf : ∀ a, P a → Gives Q (f a)) : Gives Q (x >>= f) := by
  intro b hb
  obtain ⟨a, ha, hfa⟩ := except_bind_eq_ok.1 hb
  exact hf a (h a ha) b hfa

/-! The reader does not go back. -/

/-- The reader of `t` has read up to bit `p`, at least, of a legal source region of `n` bits. -/
structure PastBit (n p : Nat) (t : State) : Prop where
  region : t.srcRegionOk = true
  bits : t.srcBits = n
  pos : p ≤ t.brPos.toNat

/-- `PastBit` of the state that a rule with a value answers. -/
def AnswerPastBit {α : Type} (n p : Nat) (x : α × State) : Prop := PastBit n p x.2

section
variable {n p : Nat} {t : State} (h : PastBit n p t)
include h

theorem PastBit.move {u : State} (hmove : ReaderMove t u) : PastBit n p u where
  region := by rw [hmove.frame]; exact h.region
  bits := by rw [hmove.frame]; exact h.bits
  pos := Nat.le_trans h.pos hmove.mono

theorem PastBit.dstByteWrite (i : Nat) (b : Byte) : PastBit n p (t.dstByteWrite i b) := ⟨h.region, h.bits, h.pos⟩

theorem PastBit.setWork (d : Option Decoder) : PastBit n p { t with work := d } := ⟨h.region, h.bits, h.pos⟩

theorem PastBit.endBlock (out : List Byte) (final : Bool) : PastBit n p (t.endBlock out final) := by
  rcases endBlock_cases t out final with ⟨-, e⟩ | ⟨-, e⟩ <;> rw [e] <;> exact ⟨h.region, h.bits, h.pos⟩

theorem readRange_past (k : Nat) (eof : CmdError) : Gives (AnswerPastBit n p) (t.readRange k eof) := by
  rintro ⟨v, u⟩ hread
  exact h.move (readRange_move h.region hread).1

/-- AlignReader ends at or after the bit it starts at (40_bitstream.md R149). -/
theorem alignReader_past (eof : CmdError) : Gives (PastBit n p) (t.alignReader eof) := by
  have hlimit : t.srcBits < 4294967296 := bits_lt_of_regionFits h.region
  rcases alignReader_cases t eof with ⟨-, e⟩ | ⟨hle, e⟩ <;> rw [e]
  · exact .error eof
  · refine .ok ⟨h.region, h.bits, ?_⟩
    have hpos := h.pos
    rw [toNat_ofNat_of_lt (by omega), State.alignedBrPos]
    omega

theorem put_past (out : List Byte) (b : Byte) : Gives (AnswerPastBit n p) (t.put out b) := by
  rcases put_cases t out b with ⟨-, e⟩ | ⟨-, e⟩ <;> rw [e]
  · exact .error .outOfRange
  · exact .ok (h.dstByteWrite _ b)

omit h

theorem copyMatch_past (dist : Nat) : ∀ (k : Nat) {out : List Byte} {t : State}, PastBit n p t →
    Gives (AnswerPastBit n p) (State.copyMatch dist k out t)
  | 0, _, _, h => .ok h
  | k + 1, out, t, h => by
    rw [copyMatch_succ]
    exact (put_past h _ _).bind fun _ hput => copyMatch_past dist k hput

theorem copyStored_past : ∀ (k : Nat) {out : List Byte} {t : State}, PastBit n p t →
    Gives (AnswerPastBit n p) (State.copyStored k out t)
  | 0, _, _, h => .ok h
  | k + 1, out, t, h => by
    rw [copyStored_succ]
    exact (readRange_past h 8 .truncated).bind fun _ hread =>
      (put_past hread _ _).bind fun _ hput => copyStored_past k hput

theorem readClLengths_past : ∀ (syms : List Nat) {t : State}, PastBit n p t →
    Gives (AnswerPastBit n p) (State.readClLengths syms t)
  | [], _, h => .ok h
  | sym :: syms, t, h => by
    rw [readClLengths_cons]
    exact (readRange_past h 3 .truncated).bind fun _ hread =>
      (readClLengths_past syms hread).bind fun _ hrest => .ok hrest

include h

theorem storedBlock_past (out : List Byte) (final : Bool) : Gives (PastBit n p) (t.storedBlock out final) := by
  refine (alignReader_past h .truncated).bind fun _ h₁ => (readRange_past h₁ 16 .truncated).bind fun len h₂ =>
    (readRange_past h₂ 16 .truncated).bind fun nlen h₃ => ?_
  dsimp only
  split
  · exact .error .corruptData
  · exact (copyStored_past len.1 h₃).bind fun _ hcopy => .ok (PastBit.endBlock hcopy _ final)

theorem dynamicBlock_past (out : List Byte) (final : Bool) : Gives (PastBit n p) (t.dynamicBlock out final) := by
  refine (readRange_past h 5 .truncated).bind fun hlit h₁ => (readRange_past h₁ 5 .truncated).bind fun hdist h₂ =>
    (readRange_past h₂ 4 .truncated).bind fun hclen h₃ => ?_
  dsimp only
  split
  · exact .error .corruptData
  · exact (readClLengths_past _ h₃).bind fun _ hlens => .ok (PastBit.setWork hlens _)

theorem clAppend_past (sym : Nat) (seq : List Nat) : Gives (AnswerPastBit n p) (t.clAppend sym seq) := by
  unfold State.clAppend
  split
  · exact .ok h
  split
  · split
    · exact .error .corruptData
    · exact (readRange_past h _ .truncated).bind fun _ hread => .ok hread
  split
  · exact (readRange_past h _ .truncated).bind fun _ hread => .ok hread
  split
  · exact (readRange_past h _ .truncated).bind fun _ hread => .ok hread
  · exact .error .corruptData

theorem clContinue_past (d : Decoder) (nLit total : Nat) (ct : DecodeView) (seq : List Nat) :
    Gives (PastBit n p) (t.clContinue d nLit total ct seq) := by
  unfold State.clContinue
  split
  · exact .error .corruptData
  split
  · exact .ok (h.setWork _)
  · exact .ok (h.setWork _)

end

/-! One symbol. -/

/-- The command has ended in `t`, or goes on with its reader past bit `p`. -/
def EndedOrPastBit (n p : Nat) (t : State) : Prop := t.work = none ∨ PastBit n p t

section
variable {n p : Nat} {t : State}

/-- A symbol whose rule does not move the reader back ends the command or goes on (R275). -/
theorem settle_goesOn {r : Except CmdError State} (hr : Gives (PastBit n p) r) :
    ∃ u, t.settle r = .next u ∧ EndedOrPastBit n p u := by
  rcases settle_next t r with ⟨u, hu, e⟩ | ⟨err, -, e⟩
  · exact ⟨u, e, .inr (hr u hu)⟩
  · exact ⟨_, e, .inl rfl⟩

variable (h : PastBit n p t)
include h

theorem blockSymbol_goesOn {out : List Byte} {old : Bool} (hwork : t.work = some ⟨out, old, .header⟩) (btype : Nat)
    (final : Bool) : ∃ u, t.blockSymbol btype final = .next u ∧ EndedOrPastBit n p u := by
  simp only [State.blockSymbol, hwork]
  refine settle_goesOn ?_
  split
  · exact storedBlock_past h out final
  split
  · exact .ok (h.setWork _)
  split
  · exact dynamicBlock_past h out final
  · exact .error .corruptData

theorem clSymbol_goesOn {out : List Byte} {final : Bool} {nLit total : Nat} {ct : DecodeView} {seq : List Nat}
    (hwork : t.work = some ⟨out, final, .lengths nLit total ct seq⟩) (sym : Nat) :
    ∃ u, t.clSymbol sym = .next u ∧ EndedOrPastBit n p u := by
  rw [clSymbol_eq hwork]
  exact settle_goesOn ((clAppend_past h sym seq).bind fun _ happend => clContinue_past happend _ nLit total ct _)

theorem llSymbol_goesOn {out : List Byte} {final : Bool} {lt dt : DecodeView}
    (hwork : t.work = some ⟨out, final, .data lt dt⟩) (sym : Nat) :
    ∃ u, t.llSymbol sym = .next u ∧ EndedOrPastBit n p u := by
  simp only [State.llSymbol, hwork]
  refine settle_goesOn ?_
  split
  · exact (put_past h _ _).bind fun _ hput => .ok (PastBit.setWork hput _)
  split
  · exact .ok (h.endBlock out final)
  split
  · exact (readRange_past h _ .truncated).bind fun _ hread => .ok (PastBit.setWork hread _)
  · exact .error .corruptData

theorem distSymbol_goesOn {out : List Byte} {final : Bool} {lt dt : DecodeView} {length : Nat}
    (hwork : t.work = some ⟨out, final, .distance lt dt length⟩) (g : Nat) :
    ∃ u, t.distSymbol g = .next u ∧ EndedOrPastBit n p u := by
  simp only [State.distSymbol, hwork]
  refine settle_goesOn ?_
  split
  · exact .error .corruptData
  · refine (readRange_past h _ .truncated).bind fun _ hread => ?_
    split
    · exact .error .corruptData
    · exact (copyMatch_past _ _ hread).bind fun _ hcopy => .ok (PastBit.setWork hcopy _)

/-- A number run in the FSM state that fetched it is never refused (R275). -/
theorem runSymbol_goesOn {d : Decoder} (hwork : t.work = some d) (sym : Nat) :
    ∃ u, t.runSymbol d.phase sym = .next u ∧ EndedOrPastBit n p u := by
  obtain ⟨out, final, phase⟩ := d
  cases phase with
  | header => exact blockSymbol_goesOn h hwork _ _
  | lengths nLit total ct seq => exact clSymbol_goesOn h hwork sym
  | data lt dt => exact llSymbol_goesOn h hwork sym
  | distance lt dt length => exact distSymbol_goesOn h hwork sym

end

/-- Every step of the FSM is a next state: the command has ended, or a source bit has been read (R261, R275). -/
theorem streamStep_goesOn {s : State} {d : Decoder} (hwork : s.work = some d) (hreg : s.srcRegionOk = true) :
    ∃ t, s.streamStep = .next t ∧
      (t.work = none ∨ s.brPos.toNat < s.srcBits ∧ PastBit s.srcBits (s.brPos.toNat + 1) t) := by
  simp only [State.streamStep, hwork]
  cases hfetch : s.fetchSymbol d with
  | error e => exact ⟨_, rfl, .inl rfl⟩
  | ok x =>
    obtain ⟨sym, u⟩ := x
    obtain ⟨hmove, hlt⟩ := fetchSymbol_move hreg hfetch
    have hpast : PastBit s.srcBits (s.brPos.toNat + 1) u := by
      refine ⟨?_, ?_, hlt⟩ <;> rw [hmove.frame]
      · exact hreg
      · rfl
    obtain ⟨t, ht, hend⟩ := runSymbol_goesOn hpast ((fetchSymbol_work hreg hfetch).trans hwork) sym
    exact ⟨t, ht, hend.imp_right fun h => ⟨Nat.lt_of_lt_of_le hlt hmove.bound, h⟩⟩

/-! The whole Run. -/

theorem run_succ_of_step (M : Host.Core) (k : Nat) {s t : M.State} (h : M.step s = .next t) :
    M.run (k + 1) s = M.run k t := by
  simp only [Host.Core.run, h]

/-- With more symbols allowed than there are source bits left, the stream ends, and the machine's steps from the same
state give its end (70_reset_and_hazards.md R366). -/
theorem runStream_is_its_steps : ∀ (fuel : Nat) {s : State} {d : Decoder}, s.work = some d →
    s.srcRegionOk = true → s.srcBits - s.brPos.toNat < fuel →
    ∃ k t, State.runStream fuel s = .next t ∧ Host.Core.run core k s = .next t
  | 0, _, _, _, _, hfuel => absurd hfuel (Nat.not_lt_zero _)
  | fuel + 1, s, d, hwork, hreg, hfuel => by
    obtain ⟨t, ht, hend⟩ := streamStep_goesOn hwork hreg
    have hstep : core.step s = .next t := (step_eq_streamStep hwork).trans ht
    rw [runStream_succ fuel ht]
    cases hd : t.work with
    | none => exact ⟨1, t, rfl, run_succ_of_step core 0 hstep⟩
    | some d' =>
      obtain ⟨hlt, hregion, hbits, hpos⟩ := hend.resolve_left (by rw [hd]; exact nofun)
      obtain ⟨k, v, hv, hrun⟩ := runStream_is_its_steps fuel hd hregion (by omega)
      exact ⟨k + 1, v, hv, (run_succ_of_step core k hstep).trans hrun⟩

/-- Settles O44: the loop and the steps end in the same state, and a region that fails its check raises
IllegalCommand. -/
theorem decompressIsItsSymbolSteps : Obligations.DecompressIsItsSymbolSteps := by
  intro s
  refine ⟨fun hok => ?_, fun hbad => ?_⟩
  · obtain ⟨k, t, ht, hrun⟩ := runStream_is_its_steps s.streamFuel (s := s.beginDecode) rfl
      (State.bothRegionsOk_src hok) (Nat.lt_succ_of_le (Nat.sub_le _ _))
    exact ⟨k, by rw [exec_decompress hok, ht]; exact hrun⟩
  · refine ⟨s.decodeFailed .illegalCommand, ?_, rfl, rfl⟩
    show execDecompress s = _
    rw [execDecompress, State.checkBoth_eq, hbad]
    rfl

end Sys2Proof.Machine
end

section
/-! Block headers (45_deflate_decode.md R264 to R272): a fixed and a reserved block (O51), and the header of a dynamic
block (O52), whose fields stand one after the other from the bit the reader is at. -/

namespace Sys2Proof.Machine

/-! The four block types (R264). -/

section
variable {s : State} {out : List Byte} {old : Bool} (hwork : s.work = some ⟨out, old, .header⟩) (final : Bool)
include hwork

theorem exec_blockStored : exec (.blockStored final) s = s.settle (s.storedBlock out final) := by
  show s.blockSymbol 0 final = _
  simp only [State.blockSymbol, hwork]
  rfl

theorem exec_blockFixed : exec (.blockFixed final) s = .next (s.fixedBlock out final) := by
  show s.blockSymbol 1 final = _
  simp only [State.blockSymbol, hwork]
  rfl

theorem exec_blockDynamic : exec (.blockDynamic final) s = s.settle (s.dynamicBlock out final) :=
  blockSymbol_dynamic hwork

theorem exec_blockReserved : exec (.blockReserved final) s = .next (s.decodeFailed .corruptData) := by
  show s.blockSymbol 3 final = _
  simp only [State.blockSymbol, hwork]
  rfl

end

/-- Settles O51: neither header reads the stream. -/
theorem fixedAndReservedBlockHeaders : Obligations.FixedAndReservedBlockHeaders :=
  fun _ _ _ final hwork => ⟨exec_blockFixed hwork final, exec_blockReserved hwork final⟩

/-! Fields that stand one after the other. -/

/-- The value of the `n` source bits that stand `i` bits after the reader (40_bitstream.md R147). -/
def State.fieldAt (s : State) (i n : Nat) : Nat := natOfLsb (s.srcBitList (s.brPos.toNat + i) n)

section
variable {s : State} (hreg : s.srcRegionOk = true)
include hreg

theorem advance_advance {i : Nat} (h : s.brPos.toNat + i ≤ s.srcBits) (n : Nat) :
    (s.advance i).advance n = s.advance (i + n) := by
  rw [State.advance, s.toNat_brPos_advance hreg h, Nat.add_assoc]
  rfl

theorem readRange_field {i n : Nat} (h : s.brPos.toNat + (i + n) ≤ s.srcBits) (eof : CmdError) :
    (s.advance i).readRange n eof = .ok (s.fieldAt i n, s.advance (i + n)) := by
  have hpos : (s.advance i).brPos.toNat = s.brPos.toNat + i := s.toNat_brPos_advance hreg (by omega)
  have hfits : (s.advance i).brPos.toNat + n ≤ (s.advance i).srcBits := by
    rw [hpos, Nat.add_assoc]
    exact h
  have hvalue : (s.advance i).nextBits n = s.fieldAt i n := by
    rw [State.nextBits, hpos]
    exact congrArg natOfLsb (srcBitList_congr (t := s.advance i) (s := s) rfl rfl _ n)
  rw [readRange_advance hfits, hvalue, advance_advance hreg (by omega)]

theorem readRange_field_short {i n : Nat} (hi : s.brPos.toNat + i ≤ s.srcBits)
    (h : s.srcBits < s.brPos.toNat + (i + n)) (eof : CmdError) : (s.advance i).readRange n eof = .error eof := by
  refine readRange_error ?_
  rw [s.toNat_brPos_advance hreg hi, Nat.add_assoc]
  exact h

/-! The code-length code lengths (R270). -/

theorem readClLengths_short : ∀ (syms : List Nat) {i : Nat}, s.brPos.toNat + i ≤ s.srcBits →
    s.srcBits < s.brPos.toNat + (i + 3 * syms.length) →
    State.readClLengths syms (s.advance i) = .error .truncated
  | [], _, hi, h => absurd h (Nat.not_lt.2 hi)
  | sym :: syms, i, hi, h => by
    rw [readClLengths_cons]
    rcases Nat.lt_or_ge s.srcBits (s.brPos.toNat + (i + 3)) with hshort | hread
    · rw [readRange_field_short hreg hi hshort]
      rfl
    · rw [readRange_field hreg hread]
      show State.readClLengths syms (s.advance (i + 3)) >>= _ = _
      rw [List.length_cons] at h
      rw [readClLengths_short syms hread (by omega)]
      rfl

/-- The lengths of the symbols `syms` stand one after the other; `f` says which field is whose. -/
theorem readClLengths_fields (f : Nat → Nat) : ∀ (syms : List Nat) {i : Nat},
    (∀ j (hj : j < syms.length), f syms[j] = s.fieldAt (i + 3 * j) 3) →
    s.brPos.toNat + (i + 3 * syms.length) ≤ s.srcBits →
    State.readClLengths syms (s.advance i) =
      .ok (syms.map fun sym => (sym, f sym), s.advance (i + 3 * syms.length))
  | [], _, _, _ => rfl
  | sym :: syms, i, hf, h => by
    rw [List.length_cons] at h
    have hfirst : f sym = s.fieldAt i 3 := hf 0 (Nat.zero_lt_succ _)
    have hrest : ∀ j (hj : j < syms.length), f syms[j] = s.fieldAt (i + 3 + 3 * j) 3 := fun j hj => by
      rw [show i + 3 + 3 * j = i + 3 * (j + 1) by omega]
      exact hf (j + 1) (Nat.succ_lt_succ hj)
    rw [readClLengths_cons, readRange_field hreg (by omega), ← hfirst]
    show State.readClLengths syms (s.advance (i + 3)) >>= _ = _
    rw [readClLengths_fields f syms hrest (by omega), List.length_cons,
      show i + 3 + 3 * syms.length = i + 3 * (syms.length + 1) by omega]
    rfl

end

/-- The length of a symbol of the code-length alphabet, as a dynamic header that starts at the reader sends it. -/
def State.sentClLength (s : State) (sym : Nat) : Nat := s.fieldAt (14 + 3 * clOrder.idxOf sym) 3

theorem idxOf_clOrder {j : Nat} (hj : j < clOrder.length) : clOrder.idxOf clOrder[j] = j :=
  (by decide : clOrder.Nodup).idxOf_getElem j hj

/-- A symbol of CL_ORDER is among the first `n` exactly when it stands before place `n`. -/
theorem getElem_mem_take_clOrder {j n : Nat} (hj : j < clOrder.length) : clOrder[j] ∈ clOrder.take n ↔ j < n := by
  rw [List.mem_take_iff_getElem]
  constructor
  · rintro ⟨i, hi, heq⟩
    have hij : i = j := by rw [← idxOf_clOrder (j := i) (by omega), heq, idxOf_clOrder hj]
    omega
  · exact fun h => ⟨j, by omega, rfl⟩

/-- The lengths of the first `n` symbols of CL_ORDER, put in the order of the symbols, 0 for the rest (R270). -/
theorem getD_clLengths_take (f : Nat → Nat) (n : Nat) {j : Nat} (hj : j < 19) :
    (clLengths ((clOrder.take n).map fun sym => (sym, f sym))).getD (clOrder.getD j 0) 0 =
      if j < n then f (clOrder.getD j 0) else 0 := by
  have hsym : clOrder.getD j 0 = clOrder[j]'hj := getD_of_lt hj 0
  have hlt : clOrder[j]'hj < 19 := (by decide : ∀ sym ∈ clOrder, sym < 19) _ (List.getElem_mem hj)
  rw [hsym, clLengths, getD_map_range, if_pos hlt, lookup_map_pair]
  simp only [getElem_mem_take_clOrder hj]
  split <;> rfl

/-! The header of a dynamic block (R270, R272). -/

section
variable {s : State} (hreg : s.srcRegionOk = true) (out : List Byte) (final : Bool)
include hreg

/-- The three counts need 14 bits (R261). -/
theorem dynamicBlock_short (h : s.srcBits < s.brPos.toNat + 14) :
    s.dynamicBlock out final = .error .truncated := by
  rw [State.dynamicBlock]
  rcases Nat.lt_or_ge s.srcBits (s.brPos.toNat + 5) with h5 | h5
  · rw [readRange_error h5]
    rfl
  rw [readRange_advance h5]
  show (s.advance 5).readRange 5 .truncated >>= _ = _
  rcases Nat.lt_or_ge s.srcBits (s.brPos.toNat + 10) with h10 | h10
  · rw [readRange_field_short hreg h5 h10]
    rfl
  rw [readRange_field hreg h10]
  show (s.advance 10).readRange 4 .truncated >>= _ = _
  rw [readRange_field_short hreg h10 h]
  rfl

/-- What follows the three counts. -/
theorem dynamicBlock_eq (h : s.brPos.toNat + 14 ≤ s.srcBits) :
    s.dynamicBlock out final =
      if s.fieldAt 0 5 + 257 > 286 then .error .corruptData
      else State.readClLengths (clOrder.take (s.fieldAt 10 4 + 4)) (s.advance 14) >>= fun x =>
        .ok (x.2.decoding out final (.lengths (s.fieldAt 0 5 + 257) (s.fieldAt 0 5 + 257 + s.fieldAt 5 5 + 1)
          (decodeView (clLengths x.1)) [])) := by
  have hlit := readRange_field hreg (s := s) (i := 0) (n := 5) (by omega) .truncated
  have hdist := readRange_field hreg (s := s) (i := 5) (n := 5) (by omega) .truncated
  have hcl := readRange_field hreg (s := s) (i := 10) (n := 4) (by omega) .truncated
  rw [State.advance_zero] at hlit
  rw [State.dynamicBlock, hlit]
  show (s.advance 5).readRange 5 .truncated >>= _ = _
  rw [hdist]
  show (s.advance 10).readRange 4 .truncated >>= _ = _
  rw [hcl]
  rfl

end

/-- Settles O52: the counts, then as many lengths as HCLEN says, each of which is the field at its place. -/
theorem dynamicBlockHeader : Obligations.DynamicBlockHeader := by
  intro s out old final hwork hreg p field hlit hdist sent
  have hsent : sent ≤ 19 := by
    have hlt := natOfLsb_lt (s.srcBitList (p + 10) 4)
    rw [length_srcBitList] at hlt
    exact Nat.succ_le_succ (Nat.succ_le_succ (Nat.succ_le_succ (Nat.succ_le_of_lt hlt)))
  have hlength : (clOrder.take sent).length = sent := List.length_take_of_le hsent
  have heq (h : p + 14 ≤ s.srcBits) : s.dynamicBlock out final = if 286 < hlit + 257 then .error .corruptData
      else State.readClLengths (clOrder.take sent) (s.advance 14) >>= fun x => .ok (x.2.decoding out final _) :=
    dynamicBlock_eq hreg out final h
  rw [exec_blockDynamic hwork final]
  refine ⟨fun hshort => ?_, fun hcounts hbig => ?_, fun hcounts hlegal hshort => ?_, fun hlegal hfits => ?_⟩
  · rw [dynamicBlock_short hreg out final hshort]
    exact settle_error s _
  · rw [heq hcounts, if_pos hbig]
    exact settle_error s _
  · rw [heq hcounts, if_neg (Nat.not_lt.2 hlegal),
      readClLengths_short hreg _ hcounts (by rw [hlength]; omega)]
    exact settle_error s _
  · have hread := readClLengths_fields hreg s.sentClLength (clOrder.take sent) (i := 14)
      (fun j hj => by rw [List.getElem_take, State.sentClLength, idxOf_clOrder])
      (by rw [hlength, ← Nat.add_assoc]; exact hfits)
    rw [hlength] at hread
    refine ⟨clLengths ((clOrder.take sent).map fun sym => (sym, s.sentClLength sym)), ?_, fun j hj => ?_, ?_⟩
    · rw [clLengths, List.length_map, List.length_range]
    · rw [getD_clLengths_take s.sentClLength sent hj, State.sentClLength, getD_of_lt (l := clOrder) hj,
        idxOf_clOrder hj]
      rfl
    · rw [heq (by omega), if_neg (Nat.not_lt.2 hlegal), hread, Nat.add_assoc p 14]
      rfl

end Sys2Proof.Machine
end

section
/-! Stored blocks (45_deflate_decode.md R264 to R266): the header and the copy of the bytes (O53), and a DECOMPRESS of
one final stored block (O43). After AlignReader the reader stands at a byte (`State.atByte`), and the bytes it copies
stay as they were, since the output lies outside the source region. -/

namespace Sys2Proof.Machine

/-! Whole bytes of the source region. -/

theorem natOfLsb_append : ∀ xs ys : List Bool, natOfLsb (xs ++ ys) = natOfLsb xs + 2 ^ xs.length * natOfLsb ys
  | [], ys => by simp [natOfLsb]
  | x :: xs, ys => by
    rw [List.cons_append, natOfLsb, natOfLsb, natOfLsb_append xs ys, List.length_cons, Nat.pow_succ]
    ring

/-- The first bits of a byte are its low ones (R147). -/
theorem natOfLsb_srcBitList_byte (s : State) (k : Nat) {n : Nat} (hn : n ≤ 8) :
    natOfLsb (s.srcBitList (8 * k) n) = (s.srcByte k).toNat % 2 ^ n := by
  refine Nat.eq_of_testBit_eq fun i => ?_
  rw [testBit_natOfLsb, getD_srcBitList, Nat.testBit_mod_two_pow]
  by_cases hi : i < n
  · have hdiv : (8 * k + i) / 8 = k := by omega
    have hmod : (8 * k + i) % 8 = i := by omega
    rw [State.srcBit, hdiv, hmod]
    rfl
  · rw [decide_eq_false hi, Bool.false_and, Bool.false_and]

theorem natOfLsb_srcBitList_eight (s : State) (k : Nat) : natOfLsb (s.srcBitList (8 * k) 8) = (s.srcByte k).toNat := by
  rw [natOfLsb_srcBitList_byte s k (Nat.le_refl 8)]
  exact Nat.mod_eq_of_lt (s.srcByte k).isLt

/-- The 16-bit number at byte `k`, little-endian (R266). -/
def State.srcHalf (s : State) (k : Nat) : Nat := (s.srcByte k).toNat + 256 * (s.srcByte (k + 1)).toNat

theorem natOfLsb_srcBitList_sixteen (s : State) (k : Nat) : natOfLsb (s.srcBitList (8 * k) 16) = s.srcHalf k := by
  rw [srcBitList_append s (8 * k) 8 8, natOfLsb_append, length_srcBitList, natOfLsb_srcBitList_eight,
    show 8 * k + 8 = 8 * (k + 1) by omega, natOfLsb_srcBitList_eight]
  rfl

/-- `n` bytes of the source region, from byte `k` on. -/
def State.srcSlice (s : State) (k n : Nat) : List Byte := (List.range n).map fun j => s.srcByte (k + j)

@[simp] theorem length_srcSlice (s : State) (k n : Nat) : (s.srcSlice k n).length = n := by
  rw [State.srcSlice, List.length_map, List.length_range]

theorem getD_srcSlice (s : State) (k : Nat) {n j : Nat} (hj : j < n) :
    (s.srcSlice k n).getD j 0#8 = s.srcByte (k + j) := by
  rw [getD_of_lt (by rwa [length_srcSlice])]
  simp only [State.srcSlice, List.getElem_map, List.getElem_range]

theorem srcSlice_succ (s : State) (k n : Nat) : s.srcSlice k (n + 1) = s.srcByte k :: s.srcSlice (k + 1) n := by
  rw [State.srcSlice, List.range_succ_eq_map, List.map_cons, List.map_map, Nat.add_zero]
  refine congrArg (s.srcByte k :: ·) (List.map_congr_left fun j _ => ?_)
  exact congrArg s.srcByte (Nat.add_right_comm k j 1)

/-- The reader at byte `k` (R149). -/
def State.atByte (s : State) (k : Nat) : State := { s with brPos := BitVec.ofNat 32 (8 * k) }

section
variable {s : State} (hreg : s.srcRegionOk = true)
include hreg

theorem toNat_brPos_atByte {k : Nat} (hk : k ≤ s.srcLen.toNat) : (s.atByte k).brPos.toNat = 8 * k := by
  have hlimit : 8 * s.srcLen.toNat < 4294967296 := bits_lt_of_regionFits hreg
  exact toNat_ofNat_of_lt (by omega)

/-- A read of `n` whole bytes. -/
theorem readRange_atByte {k n : Nat} (h : k + n ≤ s.srcLen.toNat) (eof : CmdError) :
    (s.atByte k).readRange (8 * n) eof = .ok (natOfLsb (s.srcBitList (8 * k) (8 * n)), s.atByte (k + n)) := by
  have hpos := toNat_brPos_atByte hreg (k := k) (by omega)
  have hfits : (s.atByte k).brPos.toNat + 8 * n ≤ (s.atByte k).srcBits := by
    rw [hpos, ← Nat.mul_add]
    exact Nat.mul_le_mul_left 8 h
  rw [readRange_advance hfits, State.nextBits, State.advance, hpos, ← Nat.mul_add,
    srcBitList_congr (t := s.atByte k) (s := s) rfl rfl]
  rfl

theorem readRange_atByte_short {k n : Nat} (hk : k ≤ s.srcLen.toNat) (h : s.srcLen.toNat < k + n) (eof : CmdError) :
    (s.atByte k).readRange (8 * n) eof = .error eof := by
  refine readRange_error ?_
  rw [toNat_brPos_atByte hreg hk, ← Nat.mul_add]
  exact Nat.mul_lt_mul_of_pos_left h (by decide)

theorem readByte_atByte {k : Nat} (h : k < s.srcLen.toNat) (eof : CmdError) :
    (s.atByte k).readRange 8 eof = .ok ((s.srcByte k).toNat, s.atByte (k + 1)) := by
  rw [← natOfLsb_srcBitList_eight]
  exact readRange_atByte hreg (n := 1) h eof

theorem readHalf_atByte {k : Nat} (h : k + 2 ≤ s.srcLen.toNat) (eof : CmdError) :
    (s.atByte k).readRange 16 eof = .ok (s.srcHalf k, s.atByte (k + 2)) := by
  rw [← natOfLsb_srcBitList_sixteen]
  exact readRange_atByte hreg (n := 2) h eof

end

/-! The copy of the bytes (R266). -/

section
variable {s : State} (hok : s.bothRegionsOk = true)
include hok

/-- A byte put out changes no source byte (20_memory.md R66). -/
theorem srcByte_dstByteWrite {i j : Nat} (hi : i < s.dstCap.toNat) (hj : j < s.srcLen.toNat) (b : Byte) :
    (s.dstByteWrite i b).srcByte j = s.srcByte j :=
  Memory.read_write_other (srcByteAddr_ne_dstByteAddr hok hj hi) b s.mem

theorem srcSlice_dstByteWrite {i k n : Nat} (hi : i < s.dstCap.toNat) (h : k + n ≤ s.srcLen.toNat) (b : Byte) :
    (s.dstByteWrite i b).srcSlice k n = s.srcSlice k n := by
  refine List.map_congr_left fun j hj => srcByte_dstByteWrite hok hi ?_ b
  have hjn := List.mem_range.1 hj
  omega

/-- One byte of the copy, where the source has one and the destination has room. -/
theorem copyStored_step {k : Nat} {out : List Byte} (n : Nat) (hk : k < s.srcLen.toNat)
    (hroom : out.length ≠ s.dstCap.toNat) :
    State.copyStored (n + 1) out (s.atByte k) =
      State.copyStored n (out ++ [s.srcByte k]) ((s.dstByteWrite out.length (s.srcByte k)).atByte (k + 1)) := by
  rw [copyStored_succ, readByte_atByte (State.bothRegionsOk_src hok) hk]
  show (s.atByte (k + 1)).put out (BitVec.ofNat 8 (s.srcByte k).toNat) >>= _ = _
  rw [put_room (s := s.atByte (k + 1)) hroom, BitVec.ofNat_toNat, BitVec.setWidth_eq]
  rfl

theorem copyStored_full {k : Nat} {out : List Byte} (n : Nat) (hk : k < s.srcLen.toNat)
    (hfull : out.length = s.dstCap.toNat) : State.copyStored (n + 1) out (s.atByte k) = .error .outOfRange := by
  rw [copyStored_succ, readByte_atByte (State.bothRegionsOk_src hok) hk]
  show (s.atByte (k + 1)).put out (BitVec.ofNat 8 (s.srcByte k).toNat) >>= _ = _
  rw [put_full (s := s.atByte (k + 1)) hfull]
  rfl

end

/-- With bytes enough and room for them: the output grows by them, and M holds it. -/
theorem copyStored_fits : ∀ (n : Nat) {s : State} {k : Nat} {out : List Byte}, s.bothRegionsOk = true →
    k + n ≤ s.srcLen.toNat → out.length + n ≤ s.dstCap.toNat →
    ∃ m, State.copyStored n out (s.atByte k) =
        .ok (out ++ s.srcSlice k n, State.atByte { s with mem := m } (k + n)) ∧
      HoldsOutput s out.length (out ++ s.srcSlice k n) m
  | 0, s, k, out, _, _, _ => by
    refine ⟨s.mem, ?_, ?_⟩ <;> rw [show s.srcSlice k 0 = [] from rfl, List.append_nil]
    · rfl
    · exact .refl s out
  | n + 1, s, k, out, hok, hsrc, hroom => by
    have hlength : (out ++ s.srcSlice k (n + 1)).length = out.length + (n + 1) := by
      rw [List.length_append, length_srcSlice]
    have hlength₁ : (out ++ [s.srcByte k]).length = out.length + 1 := List.length_append
    have hbyte : (out ++ s.srcSlice k (n + 1)).getD out.length 0#8 = s.srcByte k := by
      rw [srcSlice_succ, getD_append_right (Nat.le_refl _), Nat.sub_self]
      rfl
    obtain ⟨m, hcopy, hm⟩ := copyStored_fits n (s := s.dstByteWrite out.length (s.srcByte k)) (k := k + 1)
      (out := out ++ [s.srcByte k]) hok (by rw [State.dstByteWrite_srcLen]; omega)
      (by rw [hlength₁, State.dstByteWrite_dstCap]; omega)
    rw [srcSlice_dstByteWrite hok (by omega) (by omega), List.append_assoc, List.singleton_append, ← srcSlice_succ]
      at hcopy hm
    refine ⟨m, ?_, HoldsOutput.afterWrite (State.bothRegionsOk_dst hok) (by omega) (by omega) ?_⟩
    · rw [copyStored_step hok n (by omega) (by omega), hcopy, Nat.add_right_comm k 1 n]
      rfl
    · rw [hbyte, ← hlength₁]
      exact hm

/-- Too few bytes, and room for those there are (R261). -/
theorem copyStored_truncated : ∀ (n : Nat) {s : State} {k : Nat} {out : List Byte}, s.bothRegionsOk = true →
    k ≤ s.srcLen.toNat → s.srcLen.toNat < k + n → out.length + (s.srcLen.toNat - k) ≤ s.dstCap.toNat →
    State.copyStored n out (s.atByte k) = .error .truncated
  | 0, _, _, _, _, hk, h, _ => absurd h (Nat.not_lt.2 hk)
  | n + 1, s, k, out, hok, hk, h, hroom => by
    rcases Nat.eq_or_lt_of_le hk with hend | hmore
    · have hread : (s.atByte k).readRange 8 .truncated = .error .truncated :=
        readRange_atByte_short (State.bothRegionsOk_src hok) (n := 1) hk (by omega) .truncated
      rw [copyStored_succ, hread]
      rfl
    · rw [copyStored_step hok n hmore (by omega)]
      refine copyStored_truncated n (s := s.dstByteWrite out.length (s.srcByte k)) hok hmore ?_ ?_
      · rw [State.dstByteWrite_srcLen]
        omega
      · rw [List.length_append, List.length_singleton, State.dstByteWrite_srcLen, State.dstByteWrite_dstCap]
        omega

/-- Too little room for the bytes there are (R263). -/
theorem copyStored_outOfRange : ∀ (n : Nat) {s : State} {k : Nat} {out : List Byte}, s.bothRegionsOk = true →
    out.length ≤ s.dstCap.toNat → s.dstCap.toNat < out.length + n →
    s.dstCap.toNat < out.length + (s.srcLen.toNat - k) →
    State.copyStored n out (s.atByte k) = .error .outOfRange
  | 0, _, _, _, _, hout, h, _ => absurd h (Nat.not_lt.2 hout)
  | n + 1, s, k, out, hok, hout, h, hleft => by
    rcases Nat.eq_or_lt_of_le hout with hfull | hmore
    · exact copyStored_full hok n (by omega) hfull
    · rw [copyStored_step hok n (by omega) (Nat.ne_of_lt hmore)]
      refine copyStored_outOfRange n (s := s.dstByteWrite out.length (s.srcByte k)) hok ?_ ?_ ?_ <;>
        rw [List.length_append, List.length_singleton, State.dstByteWrite_dstCap]
      · exact hmore
      · omega
      · rw [State.dstByteWrite_srcLen]
        omega

/-! The block (R266). -/

section
variable {s : State} (hreg : s.srcRegionOk = true) (hpos : s.brPos.toNat ≤ s.srcBits) {q : Nat}
  (hq : (s.brPos.toNat + 7) / 8 = q) (out : List Byte) (final : Bool)
include hpos hq

theorem alignReader_atByte (eof : CmdError) : s.alignReader eof = .ok (s.atByte q) := by
  have halign : s.alignedBrPos = 8 * q := by rw [State.alignedBrPos, hq, Nat.mul_comm]
  rcases alignReader_cases s eof with ⟨hlt, -⟩ | ⟨-, e⟩
  · rw [halign, State.srcBits] at hlt
    rw [State.srcBits] at hpos
    omega
  · rw [e, halign]
    rfl

include hreg

/-- LEN and NLEN need four bytes (R261). -/
theorem storedBlock_short (h : s.srcLen.toNat < q + 4) : s.storedBlock out final = .error .truncated := by
  rw [State.storedBlock, alignReader_atByte hpos hq]
  show (s.atByte q).readRange 16 .truncated >>= _ = _
  have hqle : q ≤ s.srcLen.toNat := by
    rw [State.srcBits] at hpos
    omega
  rcases Nat.lt_or_ge s.srcLen.toNat (q + 2) with hlen | hlen
  · have hread : (s.atByte q).readRange 16 .truncated = .error .truncated :=
      readRange_atByte_short hreg (n := 2) hqle hlen .truncated
    rw [hread]
    rfl
  · have hread : (s.atByte (q + 2)).readRange 16 .truncated = .error .truncated :=
      readRange_atByte_short hreg (n := 2) hlen h .truncated
    rw [readHalf_atByte hreg hlen]
    show (s.atByte (q + 2)).readRange 16 .truncated >>= _ = _
    rw [hread]
    rfl

/-- The block after AlignReader, LEN and NLEN. -/
theorem storedBlock_eq (h : q + 4 ≤ s.srcLen.toNat) :
    s.storedBlock out final =
      if s.srcHalf q + s.srcHalf (q + 2) ≠ 65535 then .error .corruptData
      else State.copyStored (s.srcHalf q) out (s.atByte (q + 4)) >>= fun x => .ok (x.2.endBlock x.1 final) := by
  rw [State.storedBlock, alignReader_atByte hpos hq]
  show (s.atByte q).readRange 16 .truncated >>= _ = _
  rw [readHalf_atByte hreg (by omega)]
  show (s.atByte (q + 2)).readRange 16 .truncated >>= _ = _
  rw [readHalf_atByte hreg h]
  rfl

end

/-- A stored block whose bytes are there and have room. -/
theorem storedBlock_fits {s : State} (hok : s.bothRegionsOk = true) (hpos : s.brPos.toNat ≤ s.srcBits) {q n : Nat}
    (hq : (s.brPos.toNat + 7) / 8 = q) {out : List Byte} (final : Bool) (hlen : s.srcHalf q = n)
    (hnlen : s.srcHalf q + s.srcHalf (q + 2) = 65535) (hsrc : q + 4 + n ≤ s.srcLen.toNat)
    (hroom : out.length + n ≤ s.dstCap.toNat) :
    ∃ m, s.storedBlock out final =
        .ok ((State.atByte { s with mem := m } (q + 4 + n)).endBlock (out ++ s.srcSlice (q + 4) n) final) ∧
      HoldsOutput s out.length (out ++ s.srcSlice (q + 4) n) m := by
  obtain ⟨m, hcopy, hm⟩ := copyStored_fits n hok hsrc hroom
  refine ⟨m, ?_, hm⟩
  rw [storedBlock_eq (State.bothRegionsOk_src hok) hpos hq out final (by omega), if_neg (not_not_intro hnlen), hlen,
    hcopy]
  rfl

/-- Settles O53: the checks of R266 in their order, then the three ends of the copy. -/
theorem storedBlockHeader : Obligations.StoredBlockHeader := by
  intro s out old final hwork _ hok hpos q len nlen data
  have hreg := State.bothRegionsOk_src hok
  rw [exec_blockStored hwork final]
  have heq (h : q + 4 ≤ s.srcLen.toNat) : s.storedBlock out final = if len + nlen ≠ 65535 then .error .corruptData
      else State.copyStored len out (s.atByte (q + 4)) >>= _ := storedBlock_eq hreg hpos rfl out final h
  refine ⟨fun hshort => ?_, fun hheader hbad => ?_, fun hheader hshort hlen hroom => ?_,
    fun hheader hlen hout hfull hleft => ?_, fun hsrc hlen hroom => ?_⟩
  · rw [storedBlock_short hreg hpos rfl out final hshort]
    exact settle_error s _
  · rw [heq hheader, if_pos hbad]
    exact settle_error s _
  · rw [heq hheader, if_neg (not_not_intro hlen), copyStored_truncated len hok hheader hshort hroom]
    exact settle_error s _
  · rw [heq hheader, if_neg (not_not_intro hlen), copyStored_outOfRange len hok hout hfull hleft]
    exact settle_error s _
  · obtain ⟨m, hblock, hm⟩ := storedBlock_fits hok hpos (q := q) rfl (n := len) final rfl hlen hsrc hroom
    have hlength : (out ++ data).length = out.length + len := by
      rw [List.length_append]
      exact congrArg _ (length_srcSlice s (q + 4) len)
    refine ⟨_, m, by rw [hblock, settle_ok], ?_, fun j hj => ?_, fun a ha => ?_⟩
    · rw [← hlength]
      cases final <;> rfl
    · rw [hm.written (out.length + j) (by omega) (by rw [List.length_append, length_srcSlice]; omega),
        getD_append_right (by omega), Nat.add_sub_cancel_left, getD_srcSlice s _ hj]
    · refine hm.kept a fun j hge hlt => ?_
      rw [List.length_append, length_srcSlice] at hlt
      obtain ⟨i, rfl⟩ := Nat.exists_eq_add_of_le hge
      exact ha i (by omega)

/-! A DECOMPRESS of one final stored block (R264, R285). -/

/-- A header is the next three bits (30_encoding.md R101). -/
theorem fetchSymbol_header {s : State} {d : Decoder} (hreg : s.srcRegionOk = true) (hphase : d.phase = .header)
    (h : s.brPos.toNat + 3 ≤ s.srcBits) : s.fetchSymbol d = .ok (s.nextBits 3, s.advance 3) := by
  simp only [State.fetchSymbol, hphase]
  rw [readRange_advance (by omega)]
  show (s.advance 1).readRange 2 .truncated >>= _ = _
  rw [readRange_field hreg h]
  have hbits : s.nextBits 3 = s.nextBits 1 + 2 * s.fieldAt 1 2 := by
    rw [State.nextBits, srcBitList_append s _ 1 2, natOfLsb_append, length_srcBitList]
    rfl
  rw [hbits]
  rfl

theorem getD_srcBytes {s : State} {j : Nat} (hj : j < s.srcLen.toNat) : s.srcBytes.getD j 0#8 = s.srcByte j := by
  have hall : s.srcBytes = s.srcSlice 0 s.srcLen.toNat := by simp only [State.srcBytes, State.srcSlice, Nat.zero_add]
  rw [hall, getD_srcSlice s 0 hj, Nat.zero_add]

/-- The bytes of a stored block that stands at the start of the source region, after its header (R266). -/
structure StartsWithStored (s : State) (header : Byte) (data : List Byte) : Prop where
  fits : 5 + data.length ≤ s.srcLen.toNat
  headerByte : s.srcByte 0 = header
  len : s.srcHalf 1 = data.length
  nlen : s.srcHalf 3 = 65535 - data.length
  bytes : s.srcSlice 5 data.length = data

theorem toNat_ofNat_half {n : Nat} (h : n ≤ 65535) :
    (BitVec.ofNat 8 (n % 256)).toNat + 256 * (BitVec.ofNat 8 (n / 256)).toNat = n := by
  rw [toNat_ofNat_of_lt (by omega), toNat_ofNat_of_lt (by omega)]
  omega

theorem startsWithStored_of_srcBytes {s : State} {header : Byte} {data rest : List Byte} (hdata : data.length ≤ 65535)
    (h : s.srcBytes =
      header :: BitVec.ofNat 8 (data.length % 256) :: BitVec.ofNat 8 (data.length / 256) ::
        BitVec.ofNat 8 ((65535 - data.length) % 256) :: BitVec.ofNat 8 ((65535 - data.length) / 256) ::
        (data ++ rest)) :
    StartsWithStored s header data := by
  have hfits : 5 + data.length ≤ s.srcLen.toNat := by
    rw [← length_srcBytes, h]
    simp only [List.length_cons, List.length_append]
    omega
  have hbyte (j : Nat) (hj : j < 5 + data.length) : s.srcByte j = List.getD _ j 0#8 :=
    h ▸ (getD_srcBytes (by omega)).symm
  refine ⟨hfits, hbyte 0 (by omega), ?_, ?_, List.ext_getElem (length_srcSlice _ _ _) fun j hj hj' => ?_⟩
  · rw [State.srcHalf, hbyte 1 (by omega), hbyte 2 (by omega)]
    exact toNat_ofNat_half hdata
  · rw [State.srcHalf, hbyte 3 (by omega), hbyte 4 (by omega)]
    exact toNat_ofNat_half (Nat.sub_le _ _)
  · simp only [State.srcSlice, List.getElem_map, List.getElem_range]
    rw [hbyte (5 + j) (by omega), Nat.add_comm 5 j]
    exact (getD_append_left hj' rest 0#8).trans (getD_of_lt hj' _)

/-- A Run whose first symbol ends it. -/
theorem exec_decompress_of_step {s t : State} (hok : s.bothRegionsOk = true)
    (hstep : s.beginDecode.streamStep = .next t) (hwork : t.work = none) : exec .decompress s = .next t := by
  rw [exec_decompress hok, State.streamFuel, runStream_succ _ hstep, hwork]
  rfl

/-- A stream that begins with a final stored block is read by the one step that runs its header (R264). -/
theorem streamStep_startsWithStored {s : State} {header : Byte} {data : List Byte} (hok : s.bothRegionsOk = true)
    (hheader : header.toNat % 8 = 1) (h : StartsWithStored s header data) :
    s.beginDecode.streamStep =
      (s.beginDecode.advance 3).settle ((s.beginDecode.advance 3).storedBlock [] true) := by
  have hvalue : s.beginDecode.nextBits 3 = 1 := by
    rw [← hheader, ← h.headerByte]
    exact natOfLsb_srcBitList_byte s.beginDecode 0 (by decide : 3 ≤ 8)
  have hfetch : s.beginDecode.fetchSymbol ⟨[], false, .header⟩ = .ok (1, s.beginDecode.advance 3) := by
    rw [← hvalue]
    refine fetchSymbol_header (State.bothRegionsOk_src hok) rfl ?_
    have hfits := h.fits
    show 0 + 3 ≤ 8 * s.srcLen.toNat
    omega
  have hwork : s.beginDecode.work = some ⟨[], false, .header⟩ := rfl
  simp only [State.streamStep, hwork, hfetch]
  exact exec_blockStored (s := s.beginDecode.advance 3) hwork true

/-- Settles O43: the header is fetched, and the one block it begins ends the Run. -/
theorem decompressCopiesAStoredBlock : Obligations.DecompressCopiesAStoredBlock := by
  intro s header data rest _ hok hheader hdata hroom hbytes
  have hstart := startsWithStored_of_srcBytes hdata hbytes
  have hfits := hstart.fits
  have hpos : (s.beginDecode.advance 3).brPos.toNat = 3 := rfl
  have hbit : (s.beginDecode.advance 3).brPos.toNat ≤ 8 * s.srcLen.toNat := by omega
  have hlengths : s.srcHalf 1 + s.srcHalf 3 = 65535 := by
    rw [hstart.len, hstart.nlen]
    omega
  obtain ⟨m, hblock, hm⟩ := storedBlock_fits (s := s.beginDecode.advance 3) hok hbit (q := 1) (out := [])
    (by rw [hpos]) true hstart.len hlengths hfits (by rw [List.length_nil, Nat.zero_add]; exact hroom)
  have hslice : (s.beginDecode.advance 3).srcSlice (1 + 4) data.length = data := hstart.bytes
  have hend : 8 * (1 + 4 + data.length) = 40 + 8 * data.length := by omega
  rw [hslice, List.nil_append] at hblock hm
  rw [State.atByte, hend] at hblock
  have hstep := streamStep_startsWithStored hok hheader hstart
  rw [hblock, settle_ok] at hstep
  refine ⟨_, exec_decompress_of_step hok hstep rfl, rfl, List.ext_getElem ?_ fun j _ hj => ?_, fun a ha => ?_⟩
  · rw [State.dstBytes, List.length_map, List.length_range]
  · simp only [State.dstBytes, List.getElem_map, List.getElem_range]
    exact (hm.written j (Nat.zero_le j) hj).trans (getD_of_lt hj _)
  · exact hm.kept a fun j _ hj => ha j hj

end Sys2Proof.Machine
end

section
/-! Control (46_control.md R300 to R306): what the host reaches while a word is latched (O8), the acceptance of a
command (O5), whose turn a step is (O6), the commands NOP and SOFT_RESET (O15, O16), and the registers a command
keeps (O48). -/

namespace Sys2Proof.Machine

/-! The host's steps. -/

theorem hostStep_readReg_register (s : State) {k : Nat} {r : Reg} (h : Reg.all[k]? = some r) :
    hostStep (.readReg (s.params.regBase + 4 * k) 4) s = .next { s with busData := s.readReg r } := by
  rw [hostStep, decodeAccess_register s h]

theorem writeReg_busy {s : State} (h : s.busy = true) (r : Reg) (v : Word) : s.writeReg r v = s := if_pos h

theorem hostStep_writeReg_busy {s : State} (hbusy : s.busy = true) {k : Nat} {r : Reg} (h : Reg.all[k]? = some r)
    (v : Word) : hostStep (.writeReg (s.params.regBase + 4 * k) 4 v) s = .next s := by
  rw [hostStep_writeReg_register s h, writeReg_busy hbusy]

theorem hostStep_writeReg_cmd_idle {s : State} (hidle : s.busy = false) (v : Word) :
    hostStep (.writeReg (s.params.regBase + 8) 4 v) s = .next (s.accept v) := by
  rw [hostStep_writeReg_register s (k := 2) rfl, writeReg_idle hidle, State.writeIdleReg]

/-- The bytes a latched word protects are those of the regions its command uses (70_reset_and_hazards.md R360). -/
theorem inHazard_iff {s : State} {w : Word} (h : s.pending = some w) (a : Word) :
    s.inHazard a = true ↔
      (usesSrc (decodeCommand w) = true ∧ inRegion s.srcAddr s.srcLen a.toNat = true) ∨
        (usesDst (decodeCommand w) = true ∧ inRegion s.dstAddr s.dstCap a.toNat = true) := by
  simp only [State.inHazard, h, Bool.or_eq_true, Bool.and_eq_true]

theorem hostStep_readMem_hazard {s : State} {a : Word} (h : s.inHazard a = true) :
    hostStep (.readMem a) s = .fault .hazard := if_pos h

theorem hostStep_writeMem_hazard {s : State} {a : Word} (h : s.inHazard a = true) (b : Byte) :
    hostStep (.writeMem a b) s = .fault .hazard := if_pos h

/-- Settles O8: a latched word is BUSY, which drops the write; the read rule has no premise on BUSY; and the byte is in
the hazard set of the word. -/
theorem busyHostStepsAreDropped : Obligations.BusyHostStepsAreDropped := by
  intro s w hw
  have hbusy : s.busy = true := s.busy_iff.2 ⟨w, hw⟩
  refine ⟨fun k r v hk => ⟨hostStep_writeReg_busy hbusy hk v, hostStep_readReg_register s hk⟩,
    fun a b hregion => ?_⟩
  have hhazard : s.inHazard a = true := (inHazard_iff hw a).2 hregion
  exact ⟨hostStep_readMem_hazard hhazard, hostStep_writeMem_hazard hhazard b⟩

/-- Settles O5: CMD is register 2 of the map, and an idle write to it accepts the word. -/
theorem cmdWriteIsAccepted : Obligations.CmdWriteIsAccepted := by
  intro s v
  refine ⟨fun hidle => ⟨hostStep_writeReg_cmd_idle hidle v, s.accept_busy v, ?_⟩,
    fun hbusy => hostStep_writeReg_busy hbusy (k := 2) rfl v, hostStep_readReg_register s (k := 2) rfl, s.busy_iff⟩
  show ((s.accept v).done && s.irqEn) = false
  rw [State.accept_done, Bool.false_and]

/-! Whose turn a step is. -/

theorem engineTurn_pending {s : State} (hwork : s.work = none) {w : Word} (hw : s.pending = some w) :
    engineTurn s = exec (decodeCommand w) s := by
  simp only [engineTurn, hwork, hw]

theorem engineTurn_idle {s : State} (hwork : s.work = none) (hidle : s.pending = none) : engineTurn s = .next s := by
  simp only [engineTurn, hwork, hidle]

theorem step_no_event {s : State} (hwork : s.work = none) (h : s.inputs = []) : step s = engineTurn s := by
  simp only [step, agentStep, hwork, h]

theorem step_engine_event {s : State} (hwork : s.work = none) {rest : List Event} (h : s.inputs = .engine :: rest) :
    step s = engineTurn { s with inputs := rest } := by
  simp only [step, agentStep, hwork, h]

theorem step_host_event {s : State} (hwork : s.work = none) {op : HostOp} {rest : List Event}
    (h : s.inputs = .host op :: rest) : step s = hostStep op { s with inputs := rest } := by
  simp only [step, agentStep, hwork, h]

/-- Settles O6: the list of events says whose turn it is, and the latch what the engine does in its turn. -/
theorem stepRunsAcceptedCommand : Obligations.StepRunsAcceptedCommand := by
  intro s hwork
  refine ⟨fun w hw hin => ?_, fun w rest hw hin => ?_, fun op rest hin => step_host_event hwork hin,
    fun hidle hin => ?_, fun rest hidle hin => ?_⟩
  · exact (step_no_event hwork hin).trans (engineTurn_pending hwork hw)
  · exact (step_engine_event hwork hin).trans (engineTurn_pending (s := { s with inputs := rest }) hwork hw)
  · exact (step_no_event hwork hin).trans (engineTurn_idle hwork hidle)
  · exact (step_engine_event hwork hin).trans (engineTurn_idle (s := { s with inputs := rest }) hwork hidle)

/-! The commands. -/

/-- Settles O15: the rule of NOP never fails, so its Run completes. -/
theorem nopClearsError : Obligations.NopClearsError := fun s =>
  State.conclude_ok s { s with outLen := 0#32 } State.raise

theorem exec_softReset (s : State) : exec .softReset s = .next s.resetRegisters.finished :=
  State.conclude_ok s s.resetRegisters State.raise

/-- Every register but STATUS reads after a SOFT_RESET as it does after reset (46_control.md R306). -/
theorem readReg_resetRegisters_finished (s : State) {r : Reg} (h : r ≠ .status) :
    s.resetRegisters.finished.readReg r = State.reset.readReg r := by
  cases r with
  | status => exact absurd rfl h
  | _ => rfl

/-- After a SOFT_RESET both regions are empty, so both cursors are at their ends, and DONE is 1 (46_control.md R306). -/
theorem statusWord_resetRegisters_finished (s : State) : s.resetRegisters.finished.statusWord = 0x1A#32 := by
  have hbr : s.resetRegisters.finished.brEnd = true := (brEnd_iff _).2 (Nat.le_refl 0)
  have hbw : s.resetRegisters.finished.bwEnd = true := (bwEnd_iff _).2 (Nat.le_refl 0)
  rw [statusWord_eq, hbr, hbw]
  rfl

/-- Settles O16: the command completes with the registers reset, and STATUS follows from them. -/
theorem softResetClearsRegisters : Obligations.SoftResetClearsRegisters := fun s =>
  ⟨_, exec_softReset s, rfl, fun _ hstatus _ => readReg_resetRegisters_finished s hstatus,
    statusWord_resetRegisters_finished s, rfl, rfl⟩

/-- Settles O48: a Run of any other command makes a move that keeps the operands. -/
theorem operandRegistersPreserved : Obligations.OperandRegistersPreserved := by
  intro w s t hne h
  obtain ⟨hmove, -⟩ := exec_command_runMove (decodeCommand_isCommand w) hne h
  exact hmove.operands

end Sys2Proof.Machine
end

section
/-! How a Run ends (46_control.md R301; 60_exceptions.md R325 to R327; 70_reset_and_hazards.md R365, R366; O14, O45).
The Run of DECOMPRESS moves BR_POS, writes destination bytes and sets the working state until it completes or fails, so
a property that those three moves keep holds of the state it ends from. -/

namespace Sys2Proof.Machine

/-- DECOMPRESS is its loop over the symbols, where its regions pass their check (45_deflate_decode.md R285). -/
theorem execDecompress_eq (s : State) :
    execDecompress s =
      if s.bothRegionsOk then State.runStream s.streamFuel s.beginDecode
      else .next (s.decodeFailed .illegalCommand) := by
  rw [execDecompress, State.checkBoth_eq]
  cases s.bothRegionsOk <;> rfl

/-! What the moves of DECOMPRESS keep. -/

/-- A property that the moves of a running DECOMPRESS keep (45_deflate_decode.md R260, R275). -/
structure KeptByDecoder (P : State → Prop) : Prop where
  brPos : ∀ {t : State} (p : Word), P t → P { t with brPos := p }
  dstByte : ∀ {t : State} (i : Nat) (b : Byte), P t → P (t.dstByteWrite i b)
  work : ∀ {t : State} (d : Option Decoder), P t → P { t with work := d }

/-- `P` of the state that a rule with a value answers. -/
def AnswerState {α : Type} (P : State → Prop) (x : α × State) : Prop := P x.2

/-- A DECOMPRESS that has ended from a state with `P`: it completed, or it failed (R285; 60_exceptions.md R326). -/
inductive DecodeEnd (P : State → Prop) : State → Prop
  | completed (t : State) (n : Word) (h : P t) : DecodeEnd P ({ t with outLen := n } : State).finished
  | failed (t : State) (e : CmdError) (h : P t) : DecodeEnd P (t.decodeFailed e)

theorem DecodeEnd.work {P : State → Prop} {t : State} (h : DecodeEnd P t) : t.work = none := by
  cases h <;> rfl

/-- A DECOMPRESS after one symbol: it runs on with `P`, or it has ended from a state with `P`. -/
inductive DecodeStep (P : State → Prop) (t : State) : Prop
  | running (d : Decoder) (work : t.work = some d) (h : P t)
  | ended (h : DecodeEnd P t)

section
variable {P : State → Prop} (hP : KeptByDecoder P)
include hP

theorem readRange_keeps {t : State} (h : P t) (n : Nat) (eof : CmdError) :
    Gives (AnswerState P) (t.readRange n eof) := by
  rintro ⟨v, u⟩ hread
  obtain ⟨-, rfl, -⟩ := readRange_frame hread
  exact hP.brPos _ h

theorem alignReader_keeps {t : State} (h : P t) (eof : CmdError) : Gives P (t.alignReader eof) := by
  rcases alignReader_cases t eof with ⟨-, e⟩ | ⟨-, e⟩ <;> rw [e]
  · exact .error eof
  · exact .ok (hP.brPos _ h)

theorem fetchSymbol_keeps {t : State} (hreg : t.srcRegionOk = true) (h : P t) (d : Decoder) :
    Gives (AnswerState P) (t.fetchSymbol d) := by
  rintro ⟨sym, u⟩ hfetch
  obtain ⟨hmove, -⟩ := fetchSymbol_move hreg hfetch
  show P u
  rw [hmove.frame]
  exact hP.brPos _ h

theorem put_keeps {t : State} (h : P t) (out : List Byte) (b : Byte) : Gives (AnswerState P) (t.put out b) := by
  rcases put_cases t out b with ⟨-, e⟩ | ⟨-, e⟩ <;> rw [e]
  · exact .error .outOfRange
  · exact .ok (hP.dstByte _ b h)

theorem copyMatch_keeps (dist : Nat) : ∀ (k : Nat) {out : List Byte} {t : State}, P t →
    Gives (AnswerState P) (State.copyMatch dist k out t)
  | 0, _, _, h => .ok h
  | k + 1, out, t, h => by
    rw [copyMatch_succ]
    exact (put_keeps hP h _ _).bind fun _ hput => copyMatch_keeps dist k hput

theorem copyStored_keeps : ∀ (k : Nat) {out : List Byte} {t : State}, P t →
    Gives (AnswerState P) (State.copyStored k out t)
  | 0, _, _, h => .ok h
  | k + 1, out, t, h => by
    rw [copyStored_succ]
    exact (readRange_keeps hP h 8 .truncated).bind fun _ hread =>
      (put_keeps hP hread _ _).bind fun _ hput => copyStored_keeps k hput

theorem readClLengths_keeps : ∀ (syms : List Nat) {t : State}, P t →
    Gives (AnswerState P) (State.readClLengths syms t)
  | [], _, h => .ok h
  | sym :: syms, t, h => by
    rw [readClLengths_cons]
    exact (readRange_keeps hP h 3 .truncated).bind fun _ hread =>
      (readClLengths_keeps syms hread).bind fun _ hrest => .ok hrest

theorem clAppend_keeps {t : State} (h : P t) (sym : Nat) (seq : List Nat) :
    Gives (AnswerState P) (t.clAppend sym seq) := by
  unfold State.clAppend
  split
  · exact .ok h
  split
  · split
    · exact .error .corruptData
    · exact (readRange_keeps hP h _ .truncated).bind fun _ hread => .ok hread
  split
  · exact (readRange_keeps hP h _ .truncated).bind fun _ hread => .ok hread
  split
  · exact (readRange_keeps hP h _ .truncated).bind fun _ hread => .ok hread
  · exact .error .corruptData

/-! One symbol. -/

theorem DecodeStep.setWork {t : State} (h : P t) (d : Decoder) : DecodeStep P { t with work := some d } :=
  .running d rfl (hP.work _ h)

/-- The end of a block starts the next one or completes the command (45_deflate_decode.md R264, R285). -/
theorem DecodeStep.endBlock {t : State} (h : P t) (out : List Byte) (final : Bool) :
    DecodeStep P (t.endBlock out final) := by
  cases final with
  | false => exact .setWork hP h _
  | true => exact .ended (.completed t _ h)

theorem storedBlock_decodeStep {t : State} (h : P t) (out : List Byte) (final : Bool) :
    Gives (DecodeStep P) (t.storedBlock out final) := by
  refine (alignReader_keeps hP h .truncated).bind fun _ h₁ => (readRange_keeps hP h₁ 16 .truncated).bind
    fun len h₂ => (readRange_keeps hP h₂ 16 .truncated).bind fun nlen h₃ => ?_
  dsimp only
  split
  · exact .error .corruptData
  · exact (copyStored_keeps hP len.1 h₃).bind fun _ hcopy => .ok (.endBlock hP hcopy _ final)

theorem dynamicBlock_decodeStep {t : State} (h : P t) (out : List Byte) (final : Bool) :
    Gives (DecodeStep P) (t.dynamicBlock out final) := by
  refine (readRange_keeps hP h 5 .truncated).bind fun hlit h₁ => (readRange_keeps hP h₁ 5 .truncated).bind
    fun hdist h₂ => (readRange_keeps hP h₂ 4 .truncated).bind fun hclen h₃ => ?_
  dsimp only
  split
  · exact .error .corruptData
  · exact (readClLengths_keeps hP _ h₃).bind fun _ hlens => .ok (.setWork hP hlens _)

theorem clContinue_decodeStep {t : State} (h : P t) (d : Decoder) (nLit total : Nat) (ct : DecodeView)
    (seq : List Nat) : Gives (DecodeStep P) (t.clContinue d nLit total ct seq) := by
  unfold State.clContinue
  split
  · exact .error .corruptData
  split
  · exact .ok (.setWork hP h _)
  · exact .ok (.setWork hP h _)

omit hP in
/-- A symbol whose rule fails ends the command in the state the symbol started in (R275). -/
theorem settle_decodeStep {t u : State} (h : P t) {r : Except CmdError State} (hr : Gives (DecodeStep P) r)
    (hu : t.settle r = .next u) : DecodeStep P u := by
  rcases settle_next t r with ⟨v, hv, e⟩ | ⟨err, -, e⟩ <;> rw [hu] at e <;> cases e
  · exact hr _ hv
  · exact .ended (.failed t err h)

theorem blockSymbol_decodeStep {t u : State} (h : P t) {btype : Nat} {final : Bool}
    (hu : t.blockSymbol btype final = .next u) : DecodeStep P u := by
  unfold State.blockSymbol at hu
  split at hu
  next out _ _ =>
    refine settle_decodeStep h ?_ hu
    split
    · exact storedBlock_decodeStep hP h out final
    split
    · exact .ok (.setWork hP h _)
    split
    · exact dynamicBlock_decodeStep hP h out final
    · exact .error .corruptData
  next => cases hu

theorem clSymbol_decodeStep {t u : State} (h : P t) {sym : Nat} (hu : t.clSymbol sym = .next u) : DecodeStep P u := by
  unfold State.clSymbol at hu
  split at hu
  next =>
    exact settle_decodeStep h
      ((clAppend_keeps hP h sym _).bind fun _ happend => clContinue_decodeStep hP happend _ _ _ _ _) hu
  next => cases hu

theorem llSymbol_decodeStep {t u : State} (h : P t) {sym : Nat} (hu : t.llSymbol sym = .next u) : DecodeStep P u := by
  unfold State.llSymbol at hu
  split at hu
  next out final lt dt _ =>
    refine settle_decodeStep h ?_ hu
    split
    · exact (put_keeps hP h _ _).bind fun _ hput => .ok (.setWork hP hput _)
    split
    · exact .ok (.endBlock hP h out final)
    split
    · exact (readRange_keeps hP h _ .truncated).bind fun _ hread => .ok (.setWork hP hread _)
    · exact .error .corruptData
  next => cases hu

theorem distSymbol_decodeStep {t u : State} (h : P t) {g : Nat} (hu : t.distSymbol g = .next u) : DecodeStep P u := by
  unfold State.distSymbol at hu
  split at hu
  next =>
    refine settle_decodeStep h ?_ hu
    split
    · exact .error .corruptData
    · refine (readRange_keeps hP h _ .truncated).bind fun _ hread => ?_
      dsimp only
      split
      · exact .error .corruptData
      · exact (copyMatch_keeps hP _ _ hread).bind fun _ hcopy => .ok (.setWork hP hcopy _)
  next => cases hu

theorem runSymbol_decodeStep {t u : State} (h : P t) {p : Phase} {sym : Nat} (hu : t.runSymbol p sym = .next u) :
    DecodeStep P u := by
  cases p with
  | header => exact blockSymbol_decodeStep hP h hu
  | lengths nLit total ct seq => exact clSymbol_decodeStep hP h hu
  | data lt dt => exact llSymbol_decodeStep hP h hu
  | distance lt dt length => exact distSymbol_decodeStep hP h hu

theorem streamStep_decodeStep {t u : State} (hreg : t.srcRegionOk = true) (h : P t) (hu : t.streamStep = .next u) :
    DecodeStep P u := by
  unfold State.streamStep at hu
  split at hu
  next => cases hu
  next d _ =>
    split at hu
    next hfetch => exact runSymbol_decodeStep hP (fetchSymbol_keeps hP hreg h d _ hfetch) hu
    next e _ =>
      cases hu
      exact .ended (.failed t e h)

/-! The whole Run. -/

theorem runStream_end : ∀ (fuel : Nat) {t u : State}, t.srcRegionOk = true → P t →
    State.runStream fuel t = .next u → DecodeEnd P u
  | 0, _, _, _, _, hu => nomatch hu
  | fuel + 1, t, u, hreg, h, hu => by
    obtain ⟨v, hv, hrest⟩ := runStream_succ_eq_next hu
    cases streamStep_decodeStep hP hreg h hv with
    | running d hwork hkept =>
      rw [hwork] at hrest
      exact runStream_end fuel ((streamStep_runMove hreg hv).srcRegionOk.trans hreg) hkept hrest
    | ended hend =>
      rw [hend.work] at hrest
      cases hrest
      exact hend

theorem execDecompress_end {s t : State} (h : P s) (ht : execDecompress s = .next t) : DecodeEnd P t := by
  rw [execDecompress_eq] at ht
  split at ht
  next hok =>
    have hbegin : P s.beginDecode := hP.work (some ⟨[], false, .header⟩) (hP.brPos 0#32 h)
    exact runStream_end hP s.streamFuel (t := s.beginDecode) (State.bothRegionsOk_src hok) hbegin ht
  next =>
    cases ht
    exact .failed s .illegalCommand h

end

/-- DECOMPRESS never runs out of symbols: each reads a bit of the source region (70_reset_and_hazards.md R366). -/
theorem execDecompress_next (s : State) : ∃ t, execDecompress s = .next t := by
  rw [execDecompress_eq]
  split
  next hok =>
    obtain ⟨-, t, ht, -⟩ := runStream_is_its_steps s.streamFuel (s := s.beginDecode) rfl
      (State.bothRegionsOk_src hok) (Nat.lt_succ_of_le (Nat.sub_le _ _))
    exact ⟨t, ht⟩
  next => exact ⟨_, rfl⟩

/-! The end of every command. -/

/-- The state at the end of a Run (46_control.md R301), with OUT_LEN 0 after an error (60_exceptions.md R326). -/
structure CommandEnded (t : State) : Prop where
  done : t.done = true
  pending : t.pending = none
  work : t.work = none
  outLen : t.errcode ≠ none → t.outLen = 0#32

theorem finished_ended (t : State) : CommandEnded t.finished := ⟨rfl, rfl, rfl, fun h => absurd rfl h⟩

theorem raise_ended (t : State) (e : CmdError) : CommandEnded (t.raise e) := ⟨rfl, rfl, rfl, fun _ => rfl⟩

theorem raiseCompress_ended (t : State) (e : CmdError) : CommandEnded (t.raiseCompress e) := raise_ended _ e

theorem DecodeEnd.ended {P : State → Prop} {t : State} (h : DecodeEnd P t) : CommandEnded t := by
  cases h with
  | completed u n _ => exact finished_ended _
  | failed u e _ => exact ⟨rfl, rfl, rfl, fun _ => rfl⟩

theorem CommandEnded.busy {t : State} (h : CommandEnded t) : t.busy = false := by
  rw [State.busy, h.pending]
  rfl

/-- The level interrupt output after a Run is IRQ_EN, whether it ended in error or not (60_exceptions.md R327, R332). -/
theorem CommandEnded.irq {t : State} (h : CommandEnded t) : t.irq = t.irqEn := by
  rw [State.irq, h.done, Bool.true_and]

theorem conclude_ends {s : State} {onError : CmdError → State → State} (herr : ∀ e, CommandEnded (onError e s))
    (r : Except CmdError State) : ∃ t, s.conclude onError r = .next t ∧ CommandEnded t := by
  obtain ⟨t, ht, ⟨u, -, rfl⟩ | ⟨e, -, rfl⟩⟩ := State.conclude_next s onError r
  · exact ⟨_, ht, finished_ended u⟩
  · exact ⟨_, ht, herr e⟩

/-- Every command but COMPRESS and DECOMPRESS concludes the result of its rule, with an error that draws nothing
(46_control.md R301; 60_exceptions.md R326). -/
theorem exec_command_cases {i : Instr} (hi : i.IsCommand) (s : State) :
    i = .compress ∨ i = .decompress ∨ ∃ r, exec i s = s.conclude State.raise r := by
  cases hi with
  | compress => exact .inl rfl
  | decompress => exact .inr (.inl rfl)
  | nop => exact .inr (.inr ⟨.ok { s with outLen := 0#32 }, rfl⟩)
  | softReset => exact .inr (.inr ⟨.ok s.resetRegisters, rfl⟩)
  | illegalCommand w => exact .inr (.inr ⟨.error .illegalCommand, rfl⟩)
  | bwWrite _ | bwWriteCoded _ | bwAlign | brReadBit | brRead _ | brReadCoded _ | brAlign | crc32 | huffBuild _
  | lz77Tokenize => exact .inr (.inr ⟨_, rfl⟩)

theorem execDecompress_ends (s : State) : ∃ t, execDecompress s = .next t ∧ CommandEnded t := by
  obtain ⟨t, ht⟩ := execDecompress_next s
  have hend : DecodeEnd (fun _ => True) t := execDecompress_end ⟨fun _ => id, fun _ _ => id, fun _ => id⟩ trivial ht
  exact ⟨t, ht, hend.ended⟩

theorem exec_command_ends {i : Instr} (hi : i.IsCommand) (s : State) :
    ∃ t, exec i s = .next t ∧ CommandEnded t := by
  rcases exec_command_cases hi s with rfl | rfl | ⟨r, hr⟩
  · exact conclude_ends (raiseCompress_ended s) s.compress
  · exact execDecompress_ends s
  · rw [hr]
    exact conclude_ends (raise_ended s) r

/-- Settles O14: every Run concludes, and the loop of DECOMPRESS has symbols enough for its source bits. -/
theorem everyCommandEnds : Obligations.EveryCommandEnds := by
  intro w s
  obtain ⟨t, ht, hend⟩ := exec_command_ends (decodeCommand_isCommand w) s
  exact ⟨t, ht, hend.done, hend.busy, hend.pending, hend.work, hend.irq⟩

/-! What a command that ends in error leaves (60_exceptions.md R326). -/

/-- What R326 says of RESULT, the cursors and M when command `i`, started in `s`, has ended in error in `t`. -/
structure KeptOnError (i : Instr) (s t : State) : Prop where
  result : t.result = s.result
  brPos : i ≠ .decompress → t.brPos = s.brPos
  bwPos : i ≠ .compress → t.bwPos = s.bwPos
  mem : i ≠ .compress → i ≠ .decompress → t.mem = s.mem

theorem conclude_keptOnError {i : Instr} {s t : State} {onError : CmdError → State → State}
    {r : Except CmdError State} (herr : ∀ e, KeptOnError i s (onError e s)) (h : s.conclude onError r = .next t)
    (he : t.errcode ≠ none) : KeptOnError i s t := by
  obtain ⟨t', ht', hcases⟩ := State.conclude_next s onError r
  rw [h] at ht'
  cases ht'
  rcases hcases with ⟨u, -, rfl⟩ | ⟨e, -, rfl⟩
  · exact absurd rfl he
  · exact herr e

theorem raise_keptOnError (i : Instr) (s : State) (e : CmdError) : KeptOnError i s (s.raise e) :=
  ⟨rfl, fun _ => rfl, fun _ => rfl, fun _ _ => rfl⟩

theorem raiseCompress_keptOnError (s : State) (e : CmdError) : KeptOnError .compress s (s.raiseCompress e) :=
  ⟨rfl, fun _ => rfl, fun h => absurd rfl h, fun h => absurd rfl h⟩

theorem execDecompress_keptOnError {s t : State} (h : execDecompress s = .next t) (he : t.errcode ≠ none) :
    KeptOnError .decompress s t := by
  have hend : DecodeEnd (fun u => u.result = s.result ∧ u.bwPos = s.bwPos) t :=
    execDecompress_end ⟨fun _ => id, fun _ _ => id, fun _ => id⟩ ⟨rfl, rfl⟩ h
  cases hend with
  | completed u n _ => exact absurd rfl he
  | failed u e hu =>
    obtain ⟨hresult, hbw⟩ := hu
    exact ⟨hresult, fun h => absurd rfl h, fun _ => hbw, fun _ h => absurd rfl h⟩

theorem exec_command_keptOnError {i : Instr} (hi : i.IsCommand) {s t : State} (h : exec i s = .next t)
    (he : t.errcode ≠ none) : KeptOnError i s t := by
  rcases exec_command_cases hi s with rfl | rfl | ⟨r, hr⟩
  · exact conclude_keptOnError (raiseCompress_keptOnError s) h he
  · exact execDecompress_keptOnError h he
  · rw [hr] at h
    exact conclude_keptOnError (raise_keptOnError i s) h he

theorem ne_softReset_of_error {i : Instr} {s t : State} (h : exec i s = .next t) (he : t.errcode ≠ none) :
    i ≠ .softReset := by
  rintro rfl
  rw [exec_softReset] at h
  cases h
  exact he rfl

theorem readReg_errcode {t : State} {e : CmdError} (h : t.errcode = some e) :
    t.readReg .errcode = BitVec.ofNat 32 e.code := by
  rw [State.readReg, State.errWord, h]

/-- Settles O45: the command has ended, with the operands and the bytes outside the destination region that every
command keeps, and its error leaves the rest. -/
theorem commandErrorResults : Obligations.CommandErrorResults := by
  intro w s t e h he
  have herror : t.errcode ≠ none := by
    rw [he]
    exact Option.some_ne_none e
  have hcommand : (decodeCommand w).IsCommand := decodeCommand_isCommand w
  obtain ⟨t', ht', hend⟩ := exec_command_ends hcommand s
  rw [h] at ht'
  cases ht'
  have hkept : KeptOnError (decodeCommand w) s t := exec_command_keptOnError hcommand h herror
  obtain ⟨houtside, -⟩ := commandsWriteOnlyTheirDestination w s t h
  exact ⟨readReg_errcode he, hend.outLen herror, hkept.result,
    operandRegistersPreserved w s t (ne_softReset_of_error h herror) h, hkept.brPos, hkept.bwPos, hkept.mem,
    houtside⟩

end Sys2Proof.Machine
end

section
/-! Reset and hazards (70_reset_and_hazards.md R350 to R360; 60_exceptions.md R336): the register accesses that are
refused (O10), host accesses to M that are no hazard (O9), `rst` (O13), and the state after reset (O50). -/

namespace Sys2Proof.Machine

/-! Register accesses (60_exceptions.md R336). -/

/-- An access inside the window that is not an aligned 32-bit one reaches no register. -/
theorem decodeAccess_refused (s : State) {offset width : Nat} (hwindow : offset < 64)
    (h : ¬ (width = 4 ∧ offset % 4 = 0)) :
    s.decodeAccess (s.params.regBase + offset) width = .error .registerAccess := by
  have hin : ¬(s.params.regBase + offset < s.params.regBase ∨
      s.params.regBase + 64 ≤ s.params.regBase + offset) := by omega
  rw [State.decodeAccess, if_neg hin, Nat.add_sub_cancel_left, if_neg h]

/-- Every aligned offset of the window is that of a register. -/
theorem exists_register_of_offset {offset : Nat} (hwindow : offset < 64) (h : offset % 4 = 0) :
    ∃ k r, Reg.all[k]? = some r ∧ offset = 4 * k := by
  have hk : offset / 4 < Reg.all.length := by
    show offset / 4 < 16
    omega
  exact ⟨offset / 4, _, List.getElem?_eq_getElem hk, by omega⟩

/-- Settles O10: an access inside the window reaches a register exactly when it is aligned and four bytes wide. -/
theorem registerWindowRefusals : Obligations.RegisterWindowRefusals := by
  intro s offset width v hwindow
  refine ⟨fun h => ?_, ?_⟩
  · have hrefused := decodeAccess_refused s hwindow h
    exact ⟨by rw [hostStep, hrefused], by rw [hostStep, hrefused]⟩
  · rintro rfl haligned
    obtain ⟨k, r, hk, rfl⟩ := exists_register_of_offset hwindow haligned
    exact ⟨⟨_, hostStep_readReg_register s hk⟩, ⟨_, hostStep_writeReg_register s hk v⟩⟩

/-! Host accesses to M (70_reset_and_hazards.md R360). -/

/-- A byte in no region of the latched command is no hazard, and neither is any byte while none is latched. -/
theorem inHazard_eq_false {s : State} {a : Word}
    (h : ∀ w, s.pending = some w →
      (usesSrc (decodeCommand w) = true → inRegion s.srcAddr s.srcLen a.toNat = false) ∧
      (usesDst (decodeCommand w) = true → inRegion s.dstAddr s.dstCap a.toNat = false)) :
    s.inHazard a = false := by
  cases hw : s.pending with
  | none => simp only [State.inHazard, hw]
  | some w =>
    obtain ⟨hsrc, hdst⟩ := h w hw
    refine Bool.eq_false_iff.2 fun hhazard => ?_
    rcases (inHazard_iff hw a).1 hhazard with ⟨huse, hin⟩ | ⟨huse, hin⟩
    · exact absurd hin (Bool.eq_false_iff.1 (hsrc huse))
    · exact absurd hin (Bool.eq_false_iff.1 (hdst huse))

theorem hostStep_readMem_of_no_hazard {s : State} {a : Word} (h : s.inHazard a = false) :
    hostStep (.readMem a) s = .next { s with busData := (s.readMem a).setWidth 32 } :=
  if_neg (Bool.eq_false_iff.1 h)

theorem hostStep_writeMem_of_no_hazard {s : State} {a : Word} (h : s.inHazard a = false) (b : Byte) :
    hostStep (.writeMem a b) s = .next (s.writeMem a b) := if_neg (Bool.eq_false_iff.1 h)

/-- Settles O9: the byte is no hazard, and a write reads back where it was made and nowhere else. -/
theorem hostMemoryAccess : Obligations.HostMemoryAccess := by
  intro s a b _ hregions
  have hhazard : s.inHazard a = false := inHazard_eq_false hregions
  exact ⟨hostStep_readMem_of_no_hazard hhazard, s.writeMem a b, hostStep_writeMem_of_no_hazard hhazard b, rfl,
    Memory.read_write_same s.mem a.toNat b, fun _ hx => Memory.read_write_other hx b s.mem⟩

/-! Reset (70_reset_and_hazards.md R350 to R352). -/

theorem step_rst_event {s : State} (hwork : s.work = none) {rest : List Event} (h : s.inputs = .rst :: rest) :
    step s = .next (State.rst { s with inputs := rest }) := by
  simp only [step, agentStep, hwork, h]

theorem readReg_rst (s : State) (r : Reg) : s.rst.readReg r = State.reset.readReg r := by
  cases r <;> rfl

/-- Every register but STATUS and ID is 0 at reset. -/
theorem readReg_reset_eq_zero {r : Reg} (hstatus : r ≠ .status) (hid : r ≠ .id) : State.reset.readReg r = 0#32 := by
  cases r with
  | status => exact absurd rfl hstatus
  | id => exact absurd rfl hid
  | _ => rfl

theorem readReg_reset_status : State.reset.readReg .status = 0x18#32 := by decide

/-- Settles O13: the step is `rst`, after which every register reads as it does at reset. -/
theorem rstCancelsAndKeepsMemory : Obligations.RstCancelsAndKeepsMemory := by
  intro s rest hwork hin
  have hreg := readReg_rst { s with inputs := rest }
  exact ⟨_, step_rst_event hwork hin, rfl, rfl, rfl, rfl, rfl, hreg, (hreg .status).trans readReg_reset_status,
    hreg .id, fun r hstatus hid => (hreg r).trans (readReg_reset_eq_zero hstatus hid), rfl, rfl, rfl, rfl⟩

/-- The reference values of R8 are legal. -/
theorem reference_legal : Params.reference.legal := by decide

/-- Settles O50: the lists of reset are empty, and its parameters are the reference values. -/
theorem resetMeetsTheInvariant : Obligations.ResetMeetsTheInvariant :=
  ⟨State.reset_mem_wf, rfl, reference_legal⟩

end Sys2Proof.Machine
end
